-- ==== Sys2Proof/Word.lean ====
section
/-! DEFINITION. The index types and the plain words of the storage wing controller.
Numbers the manual treats as quantities are natural numbers (or integers, where signed);
only bytes of the host link are bit vectors. -/

namespace Sys2Proof

/-- One byte of the host link (spec 11.8). -/
abbrev Byte := BitVec 8

/-- Aisle n of the manual (1 to 6) is index n - 1. -/
abbrev Aisle := Fin 6

/-- Station n of the manual (1 to 4) is index n - 1. -/
abbrev Station := Fin 4

/-- Fire zone 0 to 3. -/
abbrev Zone := Fin 4

/-- Sensor slot 0 to 15. -/
abbrev Slot := Fin 16

/-- An item code: printable text of 1 to 16 characters, held as its bytes (spec 00, Identifiers). -/
abbrev ItemCode := List Byte

/-- The six aisles in order. -/
def aisles : List Aisle := [0, 1, 2, 3, 4, 5]

/-- The four stations in order. -/
def stationList : List Station := [0, 1, 2, 3]

/-- The four fire zones in order. -/
def zoneList : List Zone := [0, 1, 2, 3]

/-- The sixteen sensor slots in order. -/
def slotList : List Slot := [0, 1, 2, 3, 4, 5, 6, 7, 8, 9, 10, 11, 12, 13, 14, 15]

end Sys2Proof
end

