-- ==== Sys2Proof/Config.lean ====
section
/-! DEFINITION. What the manual leaves to the part: values with no body, so that nothing can be
proved from them. -/

namespace Sys2Proof

/-- The part name Identify reports (R209). The rule gives no encoding and no text for it: a free
value (assumption 3). -/
opaque Config.partName : List Byte

/-- The revision Identify reports (R209): a free value (assumption 3). -/
opaque Config.revision : Nat

/-- What a slot's low, span, pre-alarm, alarm and hysteresis become when its kind is set to Unused (R166,
R167): the rule lists no defaults for that kind. Free values (assumption 2). -/
opaque Config.unusedDefaults : Int × Nat × Int × Int × Nat

end Sys2Proof
end

