-- ==== Sys2Proof/Syntax.lean ====
section
/-! DEFINITION. The commands of the part: one constructor of Instr per row of
spec/opcode_table.json, with the operands the row's rule gives it. A command is either a request
frame that has arrived complete on the host link (it carries a header), or an event of the field
side, of a timer, of the flash or of the link. -/

namespace Sys2Proof

/-- The rack side of a cell; N orders before S (R17, R38). -/
inductive Side where
  | north | south
  deriving DecidableEq, Repr

/-- Front cell, or deep cell behind it. -/
inductive Depth where
  | front | deep
  deriving DecidableEq, Repr

/-- A cell address (spec 00, Cell addresses): columns 1 to 64, levels 0 to 15. -/
structure CellAddr where
  aisle : Aisle
  side : Side
  col : Nat
  level : Nat
  depth : Depth
  deriving DecidableEq, Repr

/-- The two conveyors. -/
inductive LineId where
  | delivery | ret
  deriving DecidableEq, Repr

/-- The three inputs from the fire panel. -/
inductive PanelInput where
  | stage1 | stage2 | discharge
  deriving DecidableEq, Repr

/-- Levels of PNL_STAGE1, PNL_STAGE2 and PNL_DISCHARGE (true: high). -/
structure Panel where
  stage1 : Bool
  stage2 : Bool
  discharge : Bool
  deriving DecidableEq, Repr

/-- Levels of BAUD_SEL1 and BAUD_SEL0 (R212). -/
structure Straps where
  sel1 : Bool
  sel0 : Bool
  deriving DecidableEq, Repr

/-- What a fork reads of one bin tag (R49, R153). -/
inductive TagRead where
  | bin (b : Nat)
  | empty
  | unreadable
  deriving DecidableEq, Repr

/-- A Read's result on one side: the front tag, and the deep tag when the front was read empty (R153). -/
structure SideRead where
  front : TagRead
  deep : TagRead
  deriving DecidableEq, Repr

/-- What a completion report of a segment carries (R48): nothing for a Travel or a ForkOut, the tag
read for a ForkIn, both sides for a Read, the place of rest for a Halt. -/
inductive SegReport where
  | done
  | tag (t : TagRead)
  | read (north south : SideRead)
  | stopped (col level : Nat)
  deriving DecidableEq, Repr

/-- The fault kinds a drive unit may report (R50); `unlisted` is any kind the part does not list. -/
inductive DriveFault where
  | forkJam | driveFault | binDamaged | unlisted
  deriving DecidableEq, Repr

/-- A station's two bin places. -/
inductive StPlace where
  | next | present
  deriving DecidableEq, Repr

/-- A request frame's header as the receiver hands it on: its TAG, and whether its body has a length
the catalogue allows and fields the encoding allows (R204; for Configure, the whole-body check of R210). -/
structure ReqHdr where
  tag : Nat
  bodyOk : Bool
  deriving DecidableEq, Repr

/-- One item of the Cells section: a cell code (spec 11.8) and an action, 1 disable, 2 enable. -/
structure CellItem where
  code : Nat
  action : Nat
  deriving DecidableEq, Repr

/-- Content of the Profiles section (spec 11.8): profile 1 A, 2 B, and any of six values. -/
structure ProfileCfg where
  profile : Nat
  rampH : Option Nat
  paceH : Option Nat
  rampV : Option Nat
  paceV : Option Nat
  forkFront : Option Nat
  forkDeep : Option Nat
  deriving DecidableEq, Repr

/-- One item of the AisleAssign section: 1 ProfileA, 2 ProfileB, 3 Slow, 4 Off. -/
structure AssignItem where
  aisle : Nat
  assign : Nat
  deriving DecidableEq, Repr

/-- One item of the Stations section: role 1 Lending, 2 Returns, 3 Mixed, 4 Closed. -/
structure StationItem where
  station : Nat
  role : Option Nat
  allowance : Option Nat
  deriving DecidableEq, Repr

/-- One slot item of the Sweep section: kind 1 Unused, 2 Smoke, 3 Heat, 4 Humidity. -/
structure SlotItem where
  slot : Nat
  kind : Option Nat
  zone : Option Nat
  low : Option Int
  span : Option Nat
  pre : Option Int
  alarm : Option Int
  trip : Option Int
  hyst : Option Nat
  confirm : Option Nat
  deriving DecidableEq, Repr

/-- One section of a Configure request (R210) with the content of spec 11.8. -/
inductive CfgSection where
  | geometry (aisleCount columns levels : Nat)
  | cells (items : List CellItem)
  | profiles (p : ProfileCfg)
  | aisleAssign (items : List AssignItem)
  | stations (items : List StationItem)
  | dispatch (aging pressure : Option Nat)
  | trays (th limit : Option Nat)
  | sessions (idle auto : Option Nat)
  | sweep (range : Option (Nat × Nat)) (items : List SlotItem)
  | fire (holdClear parkDeadline parkColumn restartDelay : Option Nat)
  deriving DecidableEq, Repr

/-- The commands. A CONFIGURE row is a whole Configure request whose FIRST section is the row's; `more`
holds the sections that follow it in the same request (R210). -/
inductive Instr where
  -- start-up and link
  | coldStart (straps : Straps) (pins : Panel) (badSections : List Nat)
  | warmRestart (flushError : Option Nat) (pins : Panel) (badSections : List Nat)
  | linkReset (bitTimes : Nat)
  | frameDiscarded (bytes : List Byte)
  | frameByteTimeout (bytes : List Byte)
  | unknownRequestKind (h : ReqHdr) (kind : Nat)
  | transmitComplete
  -- requests
  | identify (h : ReqHdr)
  | configureGeometry (h : ReqHdr) (aisleCount columns levels : Nat) (more : List CfgSection)
  | configureCells (h : ReqHdr) (items : List CellItem) (more : List CfgSection)
  | configureProfiles (h : ReqHdr) (p : ProfileCfg) (more : List CfgSection)
  | configureAisleAssign (h : ReqHdr) (items : List AssignItem) (more : List CfgSection)
  | configureStations (h : ReqHdr) (items : List StationItem) (more : List CfgSection)
  | configureDispatch (h : ReqHdr) (aging pressure : Option Nat) (more : List CfgSection)
  | configureTrays (h : ReqHdr) (th limit : Option Nat) (more : List CfgSection)
  | configureSessions (h : ReqHdr) (idle auto : Option Nat) (more : List CfgSection)
  | configureSweep (h : ReqHdr) (range : Option (Nat × Nat)) (items : List SlotItem) (more : List CfgSection)
  | configureFire (h : ReqHdr) (holdClear parkDeadline parkColumn restartDelay : Option Nat) (more : List CfgSection)
  | start (h : ReqHdr)
  | restart (h : ReqHdr)
  | resume (h : ReqHdr) (incident : Nat)
  | flush (h : ReqHdr)
  | lend (h : ReqHdr) (bin slip width station : Nat) (item : ItemCode)
  | cancelLend (h : ReqHdr) (slip : Nat)
  | fetch (h : ReqHdr) (bin station : Nat)
  | retire (h : ReqHdr) (bin : Nat)
  | induct (h : ReqHdr) (bin capacity : Nat) (fill : Option Nat)
  | returnIntake (h : ReqHdr) (width station : Nat) (item : ItemCode)
  | drainTray (h : ReqHdr) (station : Nat)
  | clearTray (h : ReqHdr) (station : Nat) (item : Option ItemCode)
  | locate (h : ReqHdr) (bin : Nat)
  | queryOrder (h : ReqHdr) (selector value : Nat)
  | queryStation (h : ReqHdr) (station : Nat)
  | queryCarrier (h : ReqHdr) (aisle : Nat)
  | queryTray (h : ReqHdr) (station : Nat)
  | querySweep (h : ReqHdr)
  | queryIncident (h : ReqHdr)
  | queryWing (h : ReqHdr) (mask : Nat)
  | survey (h : ReqHdr) (aisle kind startCol stopCol : Nat)
  | acceptMap (h : ReqHdr) (aisle : Nat)
  | carrierClear (h : ReqHdr) (aisle : Nat)
  | lineClear (h : ReqHdr) (line : Nat)
  | sweepControlContinuous (h : ReqHdr)
  | sweepControlSingle (h : ReqHdr)
  | sweepControlStop (h : ReqHdr)
  -- sweep, panel and wing timers
  | warmupExpiry
  | conversionComplete (raw : Nat)
  | panelInputChange (input : PanelInput) (high : Bool)
  | holdClearExpiry
  | parkTimerExpiry
  | restartTimerExpiry
  -- drive bus: carriers
  | segmentComplete (aisle : Aisle) (segNo : Nat) (report : SegReport)
  | segmentFault (aisle : Aisle) (segNo : Nat) (fault : DriveFault)
  | segmentDeadline (aisle : Aisle) (segNo : Nat)
  | settleTimerExpiry (aisle : Aisle)
  | driveStatusReport (aisle : Aisle) (col level : Nat) (fork : Option Nat) (fault : Bool)
  | carrierClearTimeout (aisle : Aisle)
  | discoveryTimeout
  -- drive bus: lines
  | diversionComplete (transferNo : Nat)
  | advanceComplete (transferNo : Nat)
  | releaseComplete (transferNo : Nat)
  | inboundDiversionComplete (transferNo : Nat)
  | lineFaultReport (line : LineId) (transferNo : Option Nat)
  | lineTransferDeadline (line : LineId) (transferNo : Nat)
  | lineContentsReport (line : LineId) (bins : List Nat) (inbound : List (Option Nat)) (fault : Bool)
  | lineClearTimeout (line : LineId)
  -- station bus
  | terminalFullReport (station : Station) (next present : Option Nat)
  | terminalChangeReport (station : Station) (place : StPlace) (bin : Option Nat)
  | itemScan (station : Station) (item : ItemCode)
  | absentButton (station : Station)
  | releaseButton (station : Station)
  | damagedButton (station : Station)
  | autoReleaseExpiry (station : Station)
  | idleTimerExpiry (station : Station)
  | trayWaitLimitReached (station : Station) (item : ItemCode)
  -- flash
  | flashWriteComplete
  | flashWriteError
  | journalRetryExpiry
  deriving DecidableEq, Repr

end Sys2Proof
end

