-- ==== Sys2Proof/Machine/State.lean ====
section
/-! DEFINITION. The state of the storage wing controller as plain data, block by block, and its value
right after reset. Each structure cites the rule of spec/ that names its fields. -/

namespace Sys2Proof.Machine

open Sys2Proof

/-! ## Slot map and bin table (chapter 1) -/

/-- Why a cell is Reserved (R2, R6). -/
inductive Purpose where
  | putAway | shuffle | parkPlacement
  deriving DecidableEq, Repr

/-- A cell record (R2): the state with the bin field and the reservation purpose that state has. -/
inductive Cell where
  | absent
  | disabled
  | empty
  | occupied (bin : Nat)
  | reserved (bin : Nat) (purpose : Purpose)
  | unverified (bin : Option Nat)
  deriving DecidableEq, Repr

/-- An aisle's verification record (R147): the whole-aisle doubt and the status last derived. -/
structure Verif where
  doubt : Bool
  verified : Bool
  deriving DecidableEq, Repr

/-- A bin's state (R9). -/
inductive BinSt where
  | stored | onCarrier | onDelivery | atStation | onReturn | inbound | unverified | retired
  deriving DecidableEq, Repr

/-- A bin record (R8). `cell` is the cell while Stored and the last known cell while Unverified. -/
structure Bin where
  capacity : Nat
  fill : Nat
  st : BinSt
  cell : Option CellAddr
  aisle : Option Aisle
  station : Option Station
  damaged : Bool
  retirePending : Bool
  live : Option Nat
  deriving DecidableEq, Repr

/-! ## Settings (chapter 11.4 and the owning rules) -/

/-- The wing's geometry (R1). -/
structure Geometry where
  aisleCount : Nat
  columns : Nat
  levels : Nat
  deriving DecidableEq, Repr

/-- A speed profile's six values (R26). -/
structure Profile where
  rampH : Nat
  paceH : Nat
  rampV : Nat
  paceV : Nat
  forkFront : Nat
  forkDeep : Nat
  deriving DecidableEq, Repr

/-- An aisle's assignment (R27). -/
inductive Assign where
  | profileA | profileB | slow | off
  deriving DecidableEq, Repr

/-- A station's role (R107); Closing is taken, never configured. -/
inductive Role where
  | lending | returns | mixed | closed | closing
  deriving DecidableEq, Repr

/-- A station's configured role and its allowance L_s (R107). -/
structure StationCfg where
  role : Role
  allowance : Nat
  deriving DecidableEq, Repr

/-- The Fire section's values (R210). -/
structure FireCfg where
  holdClear : Nat
  parkDeadline : Nat
  parkColumn : Nat
  restartDelay : Nat
  deriving DecidableEq, Repr

/-- A sensor slot's kind (R166). -/
inductive SlotKind where
  | unused | smoke | heat | humidity
  deriving DecidableEq, Repr

/-- A slot's threshold values (R166, R167). `trip` is present for Heat only. -/
structure Thresholds where
  pre : Int
  alarm : Int
  trip : Option Int
  hyst : Nat
  confirm : Nat
  deriving DecidableEq, Repr

/-- A slot's configuration (R166). -/
structure SlotCfg where
  kind : SlotKind
  zone : Zone
  low : Int
  span : Nat
  th : Thresholds
  deriving DecidableEq, Repr

/-- The configured values in the records (the Sweep section's live in `Sweep`, the Cells section's in
the slot map). -/
structure Settings where
  geometry : Geometry
  geomValid : Bool
  profA : Profile
  profB : Profile
  assign : Vector Assign 6
  stations : Vector StationCfg 4
  aging : Nat
  pressure : Nat
  th : Nat
  waitLimit : Nat
  idleTimeout : Nat
  autoDelay : Nat
  fire : FireCfg
  deriving DecidableEq, Repr

/-- The stored value of one settings section (R211). -/
inductive SettingsVal where
  | geometry (g : Geometry)
  | cells (l : List CellAddr)
  | profiles (a b : Profile)
  | assign (v : Vector Assign 6)
  | stations (v : Vector StationCfg 4)
  | dispatch (aging pressure : Nat)
  | trays (th limit : Nat)
  | sessions (idle auto : Nat)
  | sweep (start stop : Slot) (slots : Vector SlotCfg 16)
  | fire (f : FireCfg)
  deriving DecidableEq, Repr

/-- The stored settings in flash, one optional value per section 0x01 to 0x0A (R211). -/
structure FlashSettings where
  geometry : Option Geometry
  cells : Option (List CellAddr)
  profiles : Option (Profile × Profile)
  assign : Option (Vector Assign 6)
  stations : Option (Vector StationCfg 4)
  dispatch : Option (Nat × Nat)
  trays : Option (Nat × Nat)
  sessions : Option (Nat × Nat)
  sweep : Option (Slot × Slot × Vector SlotCfg 16)
  fire : Option FireCfg
  deriving DecidableEq, Repr

/-! ## Wing causes and incidents (chapter 10) -/

/-- A cause level (R178); None is the lowest. -/
inductive Level where
  | none | hold | park | trip
  deriving DecidableEq, Repr

/-- The source of a rise (R182, R193): a zone with the slot whose change raised it, or a panel input. -/
inductive Source where
  | zone (z : Zone) (slot : Slot)
  | panel (p : PanelInput)
  deriving DecidableEq, Repr

/-- The eight wing states. -/
inductive WingSt where
  | standby | normal | hold | clearing | parking | sealing | sealed | restarting
  deriving DecidableEq, Repr

/-- The incident summary written to flash on entry to Sealing (R191). -/
structure Summary where
  number : Nat
  cause : Option Source
  highest : Level
  deriving DecidableEq, Repr

/-- One entry of the trigger list (R193). -/
structure Trigger where
  stamp : Nat
  source : Source
  level : Level
  deriving DecidableEq, Repr

/-! ## Carriers (chapter 3) -/

/-- The eleven carrier states (R44). -/
inductive CarrierSt where
  | offline | idle | moving | forking | waitMerge | held | clearing | parking | parked | halted | faulted
  deriving DecidableEq, Repr

/-- Carrier fault reasons (R43). -/
inductive FaultReason where
  | notFound | mismatch | forkJam | deadline | driveFault | binDamaged | halted
  deriving DecidableEq, Repr

/-- Segment kinds (R45). -/
inductive SegKind where
  | travel | forkIn | forkOut | read | halt
  deriving DecidableEq, Repr

/-- Segment targets (R45). -/
inductive SegTarget where
  | pos (col level : Nat)
  | cell (a : CellAddr)
  | inboundPlace
  | mouth
  | nothing
  deriving DecidableEq, Repr

/-- The segment in flight (R43). `left` counts the deciseconds to the deadline; a Halt has no deadline
and holds the kind it cut. -/
structure Segment where
  kind : SegKind
  no : Nat
  target : SegTarget
  expect : Option Nat
  estimate : Nat
  deadline : Option Nat
  left : Nat
  cut : Option SegKind
  deriving DecidableEq, Repr

/-- The steps of a Retrieve plan (R55). -/
inductive RStep where
  | toFront | takeFront | toTarget | putTarget | toBin | takeBin | toMouth | waitMerge | handoff
  deriving DecidableEq, Repr

/-- The steps of a Putaway plan (R58). -/
inductive PStep where
  | toMouth | takeInbound | choose | toCell | putCell
  deriving DecidableEq, Repr

/-- A running survey (R151, R156). `todo` lists the positions still to visit, the next one first;
`scopeRead` the scope cells read so far; `corrected` the cells changed so far; `ended` is set once the survey has ended and only its task
record is kept by a Halted or Faulted carrier. -/
structure SurveyRun where
  full : Bool
  startCol : Nat
  stopCol : Nat
  scope : List CellAddr
  todo : List (Nat × Nat)
  reading : Bool
  scopeRead : List CellAddr
  corrected : List CellAddr
  unreadable : Nat
  incomplete : Nat
  shadowed : Nat
  conflicts : Nat
  displaced : Nat
  ended : Bool
  deriving DecidableEq, Repr

/-- A carrier's task with its plan step (R43). A Retrieve that begins with a shuffle names the
front bin and the target, and keeps both to its end: that tells which of R55's two plans it is. A park plan keeps the
park column it began with (R188). -/
inductive Task where
  | retrieve (order bin : Nat) (cell : CellAddr) (step : RStep) (shuffle : Option (Nat × CellAddr))
  | putaway (bin : Nat) (step : PStep) (cell : Option CellAddr)
  | survey (run : SurveyRun)
  | clearMove
  | parkPlace (bin : Nat) (cell : CellAddr) (col : Nat) (arrived : Bool)
  | parkMove (col : Nat)
  deriving DecidableEq, Repr

/-- A waiting CarrierClear (R66): the request it answers and the deciseconds left. -/
structure ClearWait where
  id : Nat
  left : Nat
  deriving DecidableEq, Repr

/-- The carrier record (R43), with the number of the last segment sent (R45), whether the drive unit
has reported since Restarting began (R68), a waiting CarrierClear (R66), and whether a report has taken its
Retrieve from it during the segment in flight, which makes it Idle at that segment's end (R85). -/
structure Carrier where
  st : CarrierSt
  pos : Option (Nat × Nat)
  load : Option Nat
  task : Option Task
  suspended : Option Task
  seg : Option Segment
  fault : Option FaultReason
  segNo : Nat
  reported : Bool
  clear : Option ClearWait
  freed : Bool
  deriving DecidableEq, Repr

/-- A survey request held by an aisle arbiter (R149). -/
structure SurveyReq where
  full : Bool
  startCol : Nat
  stopCol : Nat
  deriving DecidableEq, Repr

/-- An aisle arbiter's records: the survey request (R149), the readiness last seen (R30), and the bin
the last WingFull of the aisle named while no candidate has appeared since (R145). -/
structure Arbiter where
  surveyReq : Option SurveyReq
  wasReady : Bool
  fullFor : Option Nat
  deriving DecidableEq, Repr

/-- An aisle's profile state (R28). -/
inductive PState where
  | steady | pending | settling
  deriving DecidableEq, Repr

/-- The travel estimator's record of an aisle (R27, R28): assignment and value set in force, profile
state, settle timer. An Off aisle keeps no value set of its own (R27). -/
structure AisleSpeed where
  inForce : Assign
  vset : Profile
  st : PState
  settleLeft : Nat
  deriving DecidableEq, Repr

/-! ## Orders (chapter 4) -/

/-- Order classes (R70). -/
inductive OrderClass where
  | reader | space | staff
  deriving DecidableEq, Repr

/-- Block reasons (R70). -/
inductive BlockReason where
  | unverified | inTransit | aisleDown | noRoom | frontReserved
  deriving DecidableEq, Repr

/-- Order states; a Blocked order carries its reason (R70). -/
inductive OrderSt where
  | queued
  | blocked (r : BlockReason)
  | assigned
  | delivering
  | atStation
  deriving DecidableEq, Repr

/-- Pick states (R72). -/
inductive PickSt where
  | opened | done | absent | cancelled | unserved
  deriving DecidableEq, Repr

/-- A pick record (R72). -/
structure Pick where
  slip : Nat
  item : ItemCode
  width : Nat
  st : PickSt
  deriving DecidableEq, Repr

/-- Counts at close (R88). -/
structure PickCounts where
  done : Nat
  absent : Nat
  cancelled : Nat
  unserved : Nat
  deriving DecidableEq, Repr

/-- An order record (R70). -/
structure Order where
  no : Nat
  bin : Nat
  station : Station
  cls : OrderClass
  entry : Nat
  st : OrderSt
  closing : Bool
  picks : List Pick
  retire : Bool
  counts : Option PickCounts
  deriving DecidableEq, Repr

/-! ## Lines, stations, sessions and trays (chapters 5, 6, 7) -/

/-- Line states (R92). -/
inductive LineSt where
  | running | faulted | halted
  deriving DecidableEq, Repr

/-- Line fault reasons (R92). -/
inductive LineFault where
  | deadline | driveFault
  deriving DecidableEq, Repr

/-- The four line transfers (R93) with their station or aisle. -/
inductive TransferKind where
  | diversion (st : Station)
  | advance (st : Station)
  | release (st : Station)
  | inbound (a : Aisle)
  deriving DecidableEq, Repr

/-- A line transfer in flight (R93). -/
structure Transfer where
  no : Nat
  kind : TransferKind
  bin : Nat
  left : Nat
  deriving DecidableEq, Repr

/-- A delivery-line place (R92). -/
structure DeliveryPlace where
  bin : Nat
  station : Station
  source : Option Aisle
  deriving DecidableEq, Repr

/-- A return-line place (R92). -/
structure ReturnPlace where
  bin : Nat
  aisle : Aisle
  deriving DecidableEq, Repr

/-- A report taken for a waiting LineClear and held until its outcome is settled (R106). -/
inductive HeldReport where
  | contents (bins : List Nat) (inbound : List (Option Nat)) (fault : Bool)
  | full (st : Station) (next present : Option Nat)
  deriving DecidableEq, Repr

/-- A waiting LineClear (R106): the request, the deciseconds left, whether the drive has reported, the
terminals still to report, and the reports taken so far, oldest first. -/
structure LineClearWait where
  id : Nat
  left : Nat
  driveDone : Bool
  terminals : List Station
  held : List HeldReport
  deriving DecidableEq, Repr

/-- What each line has beside its list (R92). -/
structure LineRec where
  st : LineSt
  fault : Option LineFault
  transfers : List Transfer
  lastNo : Nat
  clear : Option LineClearWait
  deriving DecidableEq, Repr

/-- The line controller's records (R92, R95, R99). `headFull` is the return-line head the last WingFull
without an aisle named (R100). -/
structure Lines where
  delivery : List DeliveryPlace
  returns : List ReturnPlace
  inbound : Vector (Option Nat) 6
  del : LineRec
  ret : LineRec
  mergeList : List Aisle
  mergeGrant : Option Aisle
  releaseList : List Station
  headFull : Option Nat
  deriving DecidableEq, Repr

/-- A bin in a station place with its source aisle (R92, R107). -/
structure PlaceBin where
  bin : Nat
  source : Option Aisle
  deriving DecidableEq, Repr

/-- A placement in a session's list (R110). -/
structure Placement where
  item : ItemCode
  width : Nat
  deriving DecidableEq, Repr

/-- The session record (R110). `met` is whether the release condition held when last looked at (R119). -/
structure Session where
  bin : Nat
  order : Option Nat
  releasing : Bool
  armed : Bool
  placements : List Placement
  idle : Option Nat
  auto : Option Nat
  opened : Nat
  met : Bool
  deriving DecidableEq, Repr

/-- The status a terminal display shows (R113). -/
inductive DisplaySt where
  | opened | releasing | remove
  deriving DecidableEq, Repr

/-- A terminal display's content (R113). -/
structure Display where
  bin : Option Nat
  capacity : Nat
  fill : Nat
  order : Option Nat
  cls : Option OrderClass
  picks : List (ItemCode × Nat × Nat)
  placements : List Placement
  status : Option DisplaySt
  deriving DecidableEq, Repr

/-- A station record (R107) with the display last sent (R113). The allowance is in `Settings`. -/
structure StationRec where
  role : Role
  next : Option PlaceBin
  present : Option PlaceBin
  session : Option Session
  shown : Display
  deriving DecidableEq, Repr

/-- A tray item's state (R128). -/
inductive ItemSt where
  | waiting
  | assigned (bin : Nat)
  deriving DecidableEq, Repr

/-- A tray item (R128). -/
structure TrayItem where
  item : ItemCode
  width : Nat
  stamp : Nat
  st : ItemSt
  mark : Bool
  deriving DecidableEq, Repr

/-- A return tray (R128). `refusedFull`: the last Space request met a full queue (R141). -/
structure Tray where
  items : List TrayItem
  demand : Bool
  placed : Nat
  spaceOrder : Option Nat
  noSpace : Bool
  refusedFull : Bool
  deriving DecidableEq, Repr

/-! ## Journal and flash (chapter 1.5) -/

/-- A cell's stored content (R15). -/
inductive StoredCell where
  | empty
  | occupied (bin : Nat)
  | unverified (bin : Option Nat)
  | disabled
  | absent
  deriving DecidableEq, Repr

/-- A bin's stored attributes (R15). -/
structure BinAttr where
  capacity : Nat
  damaged : Bool
  retired : Bool
  deriving DecidableEq, Repr

/-- Keys of the pending-change list (R15). -/
inductive JKey where
  | cell (a : CellAddr)
  | fill (b : Nat)
  | attr (b : Nat)
  deriving DecidableEq, Repr

/-- Contents of the pending-change list (R15). -/
inductive JVal where
  | cell (c : StoredCell)
  | fill (n : Nat)
  | attr (a : BinAttr)
  deriving DecidableEq, Repr

/-- An entry of the pending-change list. -/
structure JEntry where
  key : JKey
  val : JVal
  deriving DecidableEq, Repr

/-- The marker, incident, summary and settings writes that go before entries (R20, R211). -/
inductive CtlWrite where
  | clean (v : Bool)
  | sealed (v : Bool)
  | incident (n : Nat)
  | summary (s : Summary)
  | settings (v : SettingsVal)
  deriving DecidableEq, Repr

/-- The write in flight (R16): the head of the control list, or the head entry with the content it
began with and whether that content has been replaced since. -/
inductive Writing where
  | ctl (w : CtlWrite)
  | entry (e : JEntry) (replaced : Bool)
  deriving DecidableEq, Repr

/-- A waiting Flush request and the keys of its covered writes still to be made (R22). -/
structure FlushWait where
  id : Nat
  keys : List JKey
  deriving DecidableEq, Repr

/-- The journal (R15 to R22). `sealing` holds, while the sealing flush runs, the keys that were marked
when it began and have not entered the list since, and whether the closing clean-marker write has been
requested. -/
structure Journal where
  entries : List JEntry
  cellMarks : List Nat
  fillMarks : List Nat
  attrMarks : List Nat
  ctl : List CtlWrite
  writing : Option Writing
  retryLeft : Option Nat
  holdOff : Bool
  errors : Nat
  closed : Bool
  sealing : Option (List JKey × Bool)
  flushes : List FlushWait
  deriving DecidableEq, Repr

/-- The serial flash (R20, R23, R211): stored contents by cell code, stored attributes and fill by bin
number, the two markers, the incident number and summary, the stored settings. A cell with no entry
is stored Empty. -/
structure Flash where
  cells : List (Nat × StoredCell)
  attrs : List (Nat × BinAttr)
  fills : List (Nat × Nat)
  clean : Bool
  sealed : Bool
  incidentNo : Nat
  summary : Option Summary
  settings : FlashSettings
  deriving DecidableEq, Repr

/-! ## Notices, replies and the host link (chapter 11) -/

/-- The seven notice areas with codes 0 to 6 (spec 11.8). -/
inductive Area where
  | orders | stations | carriers | trays | map | sweep | wing
  deriving DecidableEq, Repr

/-- The twenty notices of the catalogue (R209). -/
inductive NoticeKind where
  | orderBlocked | orderDone | sessionOpen | pickDone | pickAbsent | strayScan | sessionTimeout | placeDone
  | carrierFault | aisleReady | trayNoSpace | wingFull | aisleSurveyed | journalFault | sweepEvent
  | conservationAlert | zoneDegraded | wingState | incidentUpdate | startupDone
  deriving DecidableEq, Repr

/-- The twenty-seven request kinds of the catalogue (R209). -/
inductive ReqKind where
  | identify | configure | start | restart | resume | flush | lend | cancelLend | fetch | retire | induct
  | returnIntake | drainTray | clearTray | locate | queryOrder | queryStation | queryCarrier | queryTray
  | querySweep | queryIncident | queryWing | survey | acceptMap | carrierClear | lineClear | sweepControl
  deriving DecidableEq, Repr

/-- Reply codes (spec 11.6). -/
inductive ReplyCode where
  | ok | held | redirected | busy | unknown | full | duplicate | wingDown | stale | form | overrun
  deriving DecidableEq, Repr

/-- One encoded field of a reply or notice body (spec 11.8): unsigned of 1, 2 or 4 bytes, signed of 2,
a cell code or none, an item code. A list is its count (1 byte) and then its entries' fields. -/
inductive Fld where
  | u1 (n : Nat)
  | u2 (n : Nat)
  | u4 (n : Nat)
  | s2 (i : Int)
  | cell (c : Option CellAddr)
  | item (c : ItemCode)
  deriving DecidableEq, Repr

/-- A reply ready to send: its kind byte, tag, code and items (R209). -/
structure Reply where
  kind : Nat
  tag : Nat
  code : ReplyCode
  items : List Fld
  deriving DecidableEq, Repr

/-- A notice in the outbox (R207). -/
structure Notice where
  kind : NoticeKind
  stamp : Nat
  seq : Nat
  items : List Fld
  deriving DecidableEq, Repr

/-- A request in the inbox (R205); no reply yet means that it is waiting. -/
structure InboxEntry where
  id : Nat
  kind : Nat
  tag : Nat
  reply : Option Reply
  deriving DecidableEq, Repr

/-- The frame being transmitted (R206). -/
inductive TxFrame where
  | overrun (r : Reply)
  | reply (id : Nat) (r : Reply)
  | notice (n : Notice)
  deriving DecidableEq, Repr

/-- The receiver (R203): hunting for SYNC, or with a frame in progress, the bytes taken after SYNC and the
deciseconds left for the next byte. -/
inductive Rx where
  | hunting
  | frame (bytes : List Byte) (left : Nat)
  deriving DecidableEq, Repr

/-- A Restart between its taking and its beginning (R213): none, taken with the reply of its request, `id`,
unsent, or sent. -/
inductive RestartSt where
  | none
  | taken (id : Nat)
  | due
  deriving DecidableEq, Repr

/-- The host link's own records but for the notices (R203 to R206, R212, R213). -/
structure Link where
  rx : Rx
  inbox : List InboxEntry
  overrun : List Reply
  tx : Option TxFrame
  nextId : Nat
  discards : Nat
  overrunDrops : Nat
  rate : Straps
  restart : RestartSt
  deriving DecidableEq, Repr

/-- The outbox, the sequence counter, the change flags in area order and the notice-loss count (R207,
R208). `sending`: the oldest notice is being transmitted. -/
structure Post where
  outbox : List Notice
  seq : Nat
  flags : Vector Bool 7
  lost : Nat
  sending : Bool
  deriving DecidableEq, Repr

/-! ## Discovery (R25, R214) -/

/-- A device that reports at start-up. -/
inductive Device where
  | drive (a : Aisle)
  | line (l : LineId)
  | terminal (st : Station)
  deriving DecidableEq, Repr

/-- A place other than a cell (R9). -/
inductive Place where
  | fork (a : Aisle)
  | delivery
  | ret
  | inbound (a : Aisle)
  | next (st : Station)
  | present (st : Station)
  deriving DecidableEq, Repr

/-- Discovery (R214): the deciseconds left while it runs, the reports still expected, the devices that have
not reported since the start (R25), the lines asked for a contents report that has not come (R102, R105),
whether the start was warm, the sections that took defaults (R211), the bins found and the conflicts of R25. -/
structure Discovery where
  left : Option Nat
  expected : List Device
  silent : List Device
  asked : List LineId
  warm : Bool
  defaulted : List Nat
  found : List (Nat × Place)
  conflicts : List (Nat × Place × Place)
  deriving DecidableEq, Repr

/-- What the part sent on its field buses in the last command (R45, R62, R67, R93, R94, R102, R103,
R113): the model's own record of outputs. -/
inductive BusMsg where
  | segment (a : Aisle) (s : Segment)
  | driveHalt (a : Aisle)
  | driveStatus (a : Aisle)
  | transfer (l : LineId) (t : Transfer)
  | lineHalt (l : LineId)
  | lineContents (l : LineId)
  | terminalFull (st : Station)
  | display (st : Station) (d : Display)
  deriving DecidableEq, Repr

/-! ## Sweep (chapter 9) -/

/-- Sweep run states (R162). -/
inductive SweepRun where
  | stopped | starting | running | stopping
  deriving DecidableEq, Repr

/-- Slot stages (R166). -/
inductive Stage where
  | settling | normal | preAlarm | alarm | trip | fault
  deriving DecidableEq, Repr

/-- A slot record (R166). `last` is the raw count and the value of the last completed conversion. -/
structure SlotRec where
  cfg : SlotCfg
  pend : Option Thresholds
  stage : Stage
  settlingLeft : Nat
  preCount : Nat
  alarmCount : Nat
  last : Option (Nat × Option Int)
  deriving DecidableEq, Repr

/-- A zone's stage and Degraded flag (R174, R175); the stage is Normal, PreAlarm, Alarm or Trip. -/
structure ZoneRec where
  stage : Stage
  degraded : Bool
  deriving DecidableEq, Repr

/-- The sweep unit (R161, R162). `warmLeft` is present while the front-end is WarmingUp. `stopIds` are
the waiting Stop requests (R164). -/
structure Sweep where
  warmLeft : Option Nat
  run : SweepRun
  single : Bool
  start : Slot
  stop : Slot
  next : Slot
  conv : Option Slot
  passes : Nat
  slots : Vector SlotRec 16
  zones : Vector ZoneRec 4
  stopIds : List Nat
  deriving DecidableEq, Repr

/-! ## Wing (R177, R182, R184) -/

/-- A clearing-list condition (R184). -/
inductive ClearCond where
  | awaiting | requested
  deriving DecidableEq, Repr

/-- A flush result in the incident record (R192, R194). -/
inductive FlushResult where
  | done | failed
  deriving DecidableEq, Repr

/-- An entry of the bins-on-carriers list (R192): the bin, its aisle, its last known cell, and whether
it is Unverified (else OnCarrier). -/
structure IncidentBin where
  bin : Nat
  aisle : Aisle
  cell : Option CellAddr
  unverified : Bool
  deriving DecidableEq, Repr

/-- The incident record (R182). -/
structure Incident where
  number : Nat
  cause : Option Source
  start : Option Nat
  highest : Level
  triggers : List Trigger
  later : Nat
  notParked : List (Aisle × CarrierSt)
  bins : List IncidentBin
  obstructed : Bool
  flush : Option FlushResult
  resume : Option Nat
  isOpen : Bool
  restored : Bool
  deriving DecidableEq, Repr

/-- The wing record (R177). Timers: hold clear in seconds, park and restart in deciseconds. `holdCause`
is whether a Hold cause was present at the last arrival; `returning` is set when the hold clear timer
has expired in Clearing and the wing waits for Requested ClearMoves (R186). -/
structure Wing where
  st : WingSt
  cause : Level
  holdCause : Bool
  clearing : List (Aisle × ClearCond)
  holdTimer : Option Nat
  parkTimer : Option Nat
  restartTimer : Option Nat
  returning : Bool
  halt : Bool
  incidentNo : Nat
  incident : Option Incident
  panel : Panel
  shutClose : Bool
  drvPwr : Bool
  workHeld : Bool
  wingOk : Bool
  deriving DecidableEq, Repr

/-! ## The whole machine -/

/-- Everything the records of stock, motion, orders and desks hold: the blocks that act on one another
inside one step. -/
structure Yard where
  cells : List (Nat × Cell)
  verif : Vector Verif 6
  bins : List (Nat × Bin)
  journal : Journal
  est : Vector AisleSpeed 6
  orders : List Order
  nextOrder : Nat
  carriers : Vector Carrier 6
  arbs : Vector Arbiter 6
  lines : Lines
  stations : Vector StationRec 4
  trays : Vector Tray 4
  post : Post
  disc : Discovery
  bus : List BusMsg
  deriving DecidableEq, Repr

/-- The wing clock (R177): seconds since the last start, and the deciseconds into the next second. -/
structure Clock where
  sec : Nat
  ds : Nat
  deriving DecidableEq, Repr

/-- The state of the part, and the commands that wait. -/
structure State where
  yard : Yard
  cfg : Settings
  sweep : Sweep
  wing : Wing
  link : Link
  flash : Flash
  clock : Clock
  pending : List Instr
  deriving DecidableEq, Repr

/-- No command of this block stops in a fault: every row of the table has an effect or is answered,
and one that finds nothing to act on changes nothing. -/
inductive Fault where
  deriving DecidableEq, Repr

/-- Why a command is refused. -/
inductive Refusal where
  /-- Raised by a dispatch arm whose command has no meaning yet (none is left). Safe. -/
  | notModelled (mnemonic : String)
  deriving DecidableEq, Repr

/-! ## Defaults and reset values -/

/-- R1: six aisles, 64 columns, 16 levels. -/
def Geometry.dflt : Geometry := ⟨6, 64, 16⟩

/-- R26, default A. -/
def Profile.dfltA : Profile := ⟨8, 3, 6, 9, 24, 38⟩

/-- R26, default B. -/
def Profile.dfltB : Profile := ⟨10, 4, 8, 12, 28, 44⟩

/-- R107: station 1 Lending and 2 Returns with allowance 2, stations 3 and 4 Closed with 0. -/
def StationCfg.dflt : Vector StationCfg 4 :=
  #v[⟨.lending, 2⟩, ⟨.returns, 2⟩, ⟨.closed, 0⟩, ⟨.closed, 0⟩]

/-- R210 with the park column at the column count. -/
def FireCfg.dflt : FireCfg := ⟨30, 600, 64, 300⟩

/-- R27: every aisle ProfileA. -/
def Assign.dflt : Vector Assign 6 := #v[.profileA, .profileA, .profileA, .profileA, .profileA, .profileA]

/-- The defaults of every section's owning rule; the geometry is not valid (R1, R211). -/
def Settings.dflt : Settings :=
  { geometry := .dflt, geomValid := false, profA := .dfltA, profB := .dfltB, assign := Assign.dflt
    stations := StationCfg.dflt, aging := 1, pressure := 4, th := 5, waitLimit := 900
    idleTimeout := 300, autoDelay := 5, fire := .dflt }

/-- Flash that holds no settings (R211). -/
def FlashSettings.none : FlashSettings :=
  ⟨.none, .none, .none, .none, .none, .none, .none, .none, .none, .none⟩

/-- Flash that has never been written: no content stored, both markers false (assumption 1). -/
def Flash.blank : Flash :=
  { cells := [], attrs := [], fills := [], clean := false, sealed := false, incidentNo := 0
    summary := none, settings := .none }

/-- An Unused slot with zone 0 (R166). The rule names no constants for an Unused slot: zeros and the
least span, with confirm count 2 (assumption 2). -/
def SlotCfg.dflt : SlotCfg := ⟨.unused, 0, 0, 100, ⟨0, 0, none, 0, 2⟩⟩

/-- A slot at start: Settling, settling left 3, counters 0, nothing pending, no reading (R166). -/
def SlotRec.start (c : SlotCfg) : SlotRec := ⟨c, none, .settling, 3, 0, 0, none⟩

/-- R67: a carrier at start. -/
def Carrier.reset : Carrier :=
  ⟨.offline, none, none, none, none, none, none, 0, false, none, false⟩

/-- An aisle's estimator record at start under an assignment and its value set (R31). -/
def AisleSpeed.start (a : Assign) (v : Profile) : AisleSpeed := ⟨a, v, .steady, 0⟩

/-- An arbiter at start: no survey request (R67, R150). -/
def Arbiter.reset : Arbiter := ⟨none, false, none⟩

/-- R92: a line at start is Halted with no transfer. -/
def LineRec.reset : LineRec := ⟨.halted, none, [], 0, none⟩

/-- R92: empty lists and places, no grant. -/
def Lines.reset : Lines :=
  ⟨[], [], #v[none, none, none, none, none, none], .reset, .reset, [], none, [], none⟩

/-- A display with nothing on it (R113). -/
def Display.blank : Display := ⟨none, 0, 0, none, none, [], [], none⟩

/-- R107: a station at start with its configured role. -/
def StationRec.start (r : Role) : StationRec := ⟨r, none, none, none, .blank⟩

/-- R128: a tray at start. -/
def Tray.reset : Tray := ⟨[], false, 0, none, false, false⟩

/-- R15, R17, R19: the journal at start. -/
def Journal.reset : Journal := ⟨[], [], [], [], [], none, none, false, 0, false, none, []⟩

/-- R207, R208: the outbox at start; the first notice carries 1 and all flags are set. -/
def Post.reset : Post := ⟨[], 1, #v[true, true, true, true, true, true, true], 0, false⟩

/-- The wing record at start in Standby with all causes absent (R177, R198). -/
def Wing.reset : Wing :=
  { st := .standby, cause := .none, holdCause := false, clearing := [], holdTimer := none
    parkTimer := none, restartTimer := none, returning := false, halt := false, incidentNo := 0
    incident := none, panel := ⟨false, false, false⟩, shutClose := false, drvPwr := true
    workHeld := false, wingOk := false }

/-- The link at start (R203, R206). Both straps low (assumption 4). -/
def Link.reset : Link := ⟨.hunting, [], [], none, 0, 0, 0, ⟨false, false⟩, .none⟩

/-- The sweep unit at cold start (R161, R162, R166): warming up, Starting, Continuous over slots 0 to 15. -/
def Sweep.reset : Sweep :=
  { warmLeft := some 20, run := .starting, single := false, start := 0, stop := 15, next := 0
    conv := none, passes := 0, slots := Vector.replicate 16 (.start .dflt)
    zones := Vector.replicate 4 ⟨.normal, false⟩, stopIds := [] }

/-- Discovery at cold start over the default settings: six drives, two lines, the terminals of the
stations whose configured role is not Closed; no device has reported, and every settings section took its
default (R211, R214). -/
def Discovery.reset : Discovery :=
  { left := some 100
    expected := [.drive 0, .drive 1, .drive 2, .drive 3, .drive 4, .drive 5, .line .delivery, .line .ret,
      .terminal 0, .terminal 1]
    silent := [.drive 0, .drive 1, .drive 2, .drive 3, .drive 4, .drive 5, .line .delivery, .line .ret,
      .terminal 0, .terminal 1, .terminal 2, .terminal 3]
    asked := [.delivery, .ret], warm := false, defaulted := [1, 2, 3, 4, 5, 6, 7, 8, 9, 10], found := [], conflicts := [] }

/-- The records of the yard at start over blank flash: nothing stored, every aisle in doubt since the
clean marker reads false (R23, R147). -/
def Yard.reset : Yard :=
  { cells := [], verif := Vector.replicate 6 ⟨true, false⟩, bins := [], journal := .reset
    est := Vector.replicate 6 (.start .profileA .dfltA), orders := [], nextOrder := 1
    carriers := Vector.replicate 6 .reset, arbs := Vector.replicate 6 .reset, lines := .reset
    stations := #v[.start .lending, .start .returns, .start .closed, .start .closed]
    trays := Vector.replicate 4 .reset, post := .reset, disc := .reset
    bus := [.driveStatus 0, .driveStatus 1, .driveStatus 2, .driveStatus 3, .driveStatus 4, .driveStatus 5,
      .lineContents .delivery, .lineContents .ret, .terminalFull 0, .terminalFull 1, .terminalFull 2, .terminalFull 3] }

/-- The part right after a cold start (R212) with blank flash, the straps low and the panel quiet. -/
def State.reset : State :=
  { yard := .reset, cfg := .dflt, sweep := .reset, wing := .reset, link := .reset, flash := .blank
    clock := ⟨0, 0⟩, pending := [] }

end Sys2Proof.Machine
end

