-- ==== Sys2Proof/Machine/Operands.lean ====
section
/-! DEFINITION. Operand forms: clamping, the cell code, the numbers of the catalogue and the
enumerations, the field encodings and the frame check of spec 11.8. -/

namespace Sys2Proof.Machine

open Sys2Proof

/-- A configured value outside its range is taken as the nearest end of the range (spec 00). -/
def clamp (lo hi n : Nat) : Nat := max lo (min hi n)

/-- `clamp` for signed values. -/
def clampInt (lo hi n : Int) : Int := max lo (min hi n)

/-- Aisle number 1 to 6 as the bodies carry it. -/
def aisleOf (n : Nat) : Option Aisle :=
  if h : 1 ≤ n ∧ n ≤ 6 then some ⟨n - 1, by omega⟩ else none

/-- Station number 1 to 4 as the bodies carry it. -/
def stationOf (n : Nat) : Option Station :=
  if h : 1 ≤ n ∧ n ≤ 4 then some ⟨n - 1, by omega⟩ else none

/-- Sensor slot 0 to 15. -/
def slotOf (n : Nat) : Option Slot := if h : n < 16 then some ⟨n, h⟩ else none

/-- Fire zone 0 to 3. -/
def zoneOf (n : Nat) : Option Zone := if h : n < 4 then some ⟨n, h⟩ else none

/-- The number the manual gives an aisle. -/
def aisleNo (a : Aisle) : Nat := a.val + 1

/-- The number the manual gives a station. -/
def stationNo (st : Station) : Nat := st.val + 1

/-- A cell's position is its column and level (spec 2.3). -/
def cellPos (a : CellAddr) : Nat × Nat := (a.col, a.level)

/-- The other cell of the same storage position. -/
def atDepth (a : CellAddr) (d : Depth) : CellAddr := { a with depth := d }

/-- The cell code of spec 11.8; its numeric order is the address order of R17. -/
def cellCode (a : CellAddr) : Nat :=
  (match a.depth with | .front => 0 | .deep => 1) + 2 * a.level + 32 * (a.col - 1)
    + (match a.side with | .north => 0 | .south => 2048) + 4096 * aisleNo a.aisle

/-- The cell a code names; none when bit 15 is set or the aisle is outside 1 to 6 (R204). -/
def cellOfCode (n : Nat) : Option CellAddr :=
  if n < 32768 then
    (aisleOf (n / 4096)).map fun a =>
      { aisle := a
        side := if n / 2048 % 2 = 0 then .north else .south
        col := n / 32 % 64 + 1
        level := n / 2 % 16
        depth := if n % 2 = 0 then .front else .deep }
  else none

/-- An item code is 1 to 16 bytes from 0x20 to 0x7E (R204, R74). -/
def itemOk (c : ItemCode) : Bool :=
  decide (1 ≤ c.length ∧ c.length ≤ 16) && c.all fun b => decide (0x20 ≤ b.toNat ∧ b.toNat ≤ 0x7E)

/-- A bin number is 1 to 20,480. -/
def binOk (b : Nat) : Bool := decide (1 ≤ b ∧ b ≤ 20480)

/-! ## Catalogue numbers (R209) and enumeration codes (spec 11.8) -/

/-- A request kind's code. -/
def reqCode : ReqKind → Nat
  | .identify => 0x01 | .configure => 0x02 | .start => 0x03 | .restart => 0x04 | .resume => 0x05
  | .flush => 0x06 | .lend => 0x07 | .cancelLend => 0x08 | .fetch => 0x09 | .retire => 0x0A
  | .induct => 0x0B | .returnIntake => 0x0C | .drainTray => 0x0D | .clearTray => 0x0E
  | .locate => 0x0F | .queryOrder => 0x10 | .queryStation => 0x11 | .queryCarrier => 0x12
  | .queryTray => 0x13 | .querySweep => 0x14 | .queryIncident => 0x15 | .queryWing => 0x16
  | .survey => 0x17 | .acceptMap => 0x18 | .carrierClear => 0x19 | .lineClear => 0x1A
  | .sweepControl => 0x1B

/-- A notice kind's code. -/
def noticeCode : NoticeKind → Nat
  | .orderBlocked => 0x81 | .orderDone => 0x82 | .sessionOpen => 0x83 | .pickDone => 0x84
  | .pickAbsent => 0x85 | .strayScan => 0x86 | .sessionTimeout => 0x87 | .placeDone => 0x88
  | .carrierFault => 0x89 | .aisleReady => 0x8A | .trayNoSpace => 0x8B | .wingFull => 0x8C
  | .aisleSurveyed => 0x8D | .journalFault => 0x8E | .sweepEvent => 0x8F
  | .conservationAlert => 0x90 | .zoneDegraded => 0x91 | .wingState => 0x92
  | .incidentUpdate => 0x93 | .startupDone => 0x94

/-- A notice kind's area (R209). -/
def noticeArea : NoticeKind → Area
  | .orderBlocked | .orderDone => .orders
  | .sessionOpen | .pickDone | .pickAbsent | .strayScan | .sessionTimeout | .placeDone => .stations
  | .carrierFault | .aisleReady => .carriers
  | .trayNoSpace | .wingFull => .trays
  | .aisleSurveyed | .journalFault => .map
  | .sweepEvent | .conservationAlert | .zoneDegraded => .sweep
  | .wingState | .incidentUpdate | .startupDone => .wing

/-- An area's code and its bit in masks (spec 11.8). -/
def areaCode : Area → Fin 7
  | .orders => 0 | .stations => 1 | .carriers => 2 | .trays => 3 | .map => 4 | .sweep => 5 | .wing => 6

/-- A reply code's byte (spec 11.6). -/
def replyCode : ReplyCode → Nat
  | .ok => 0x00 | .held => 0x01 | .redirected => 0x02 | .busy => 0x10 | .unknown => 0x11
  | .full => 0x12 | .duplicate => 0x13 | .wingDown => 0x14 | .stale => 0x15 | .form => 0x16
  | .overrun => 0x17

/-- Bin states in the order R9 lists them. -/
def binStCode : BinSt → Nat
  | .stored => 1 | .onCarrier => 2 | .onDelivery => 3 | .atStation => 4 | .onReturn => 5
  | .inbound => 6 | .unverified => 7 | .retired => 8

/-- Order states in the order R70 lists them. -/
def orderStCode : OrderSt → Nat
  | .queued => 1 | .blocked _ => 2 | .assigned => 3 | .delivering => 4 | .atStation => 5

/-- Block reasons in the order R70 lists them. -/
def reasonCode : BlockReason → Nat
  | .unverified => 1 | .inTransit => 2 | .aisleDown => 3 | .noRoom => 4 | .frontReserved => 5

/-- The block reason an order state carries, 0 for none. -/
def orderReasonCode : OrderSt → Nat
  | .blocked r => reasonCode r
  | _ => 0

/-- Order classes in the order R70 lists them. -/
def classCode : OrderClass → Nat
  | .reader => 1 | .space => 2 | .staff => 3

/-- Pick states in the order R72 gives them. -/
def pickStCode : PickSt → Nat
  | .opened => 1 | .done => 2 | .absent => 3 | .cancelled => 4 | .unserved => 5

/-- Roles in the order R107 lists them. -/
def roleCode : Role → Nat
  | .lending => 1 | .returns => 2 | .mixed => 3 | .closed => 4 | .closing => 5

/-- Assignments in the order R27 lists them. -/
def assignCode : Assign → Nat
  | .profileA => 1 | .profileB => 2 | .slow => 3 | .off => 4

/-- Profile states in the order R28 lists them. -/
def pstateCode : PState → Nat
  | .steady => 1 | .pending => 2 | .settling => 3

/-- Carrier states in the order R44 lists them. -/
def carrierStCode : CarrierSt → Nat
  | .offline => 1 | .idle => 2 | .moving => 3 | .forking => 4 | .waitMerge => 5 | .held => 6
  | .clearing => 7 | .parking => 8 | .parked => 9 | .halted => 10 | .faulted => 11

/-- Fault reasons in the order R43 lists them. -/
def faultCode : FaultReason → Nat
  | .notFound => 1 | .mismatch => 2 | .forkJam => 3 | .deadline => 4 | .driveFault => 5
  | .binDamaged => 6 | .halted => 7

/-- Segment kinds in the order R43 lists them. -/
def segKindCode : SegKind → Nat
  | .travel => 1 | .forkIn => 2 | .forkOut => 3 | .read => 4 | .halt => 5

/-- Task kinds in the order R43 lists them. -/
def taskCode : Task → Nat
  | .retrieve .. => 1 | .putaway .. => 2 | .survey _ => 3 | .clearMove => 4 | .parkPlace .. => 5
  | .parkMove _ => 6

/-- A plan step's number: its place in the plan of R55, R58, R152 or R61. A Retrieve without a shuffle has five steps, and
one with a shuffle eight, the last of them the wait for the grant and the hand-off. -/
def stepCode : Task → Nat
  | .retrieve _ _ _ st none =>
    match st with
    | .toFront | .toTarget | .toBin => 1 | .takeFront | .putTarget | .takeBin => 2
    | .toMouth => 3 | .waitMerge => 4 | .handoff => 5
  | .retrieve _ _ _ st (some _) =>
    match st with
    | .toFront => 1 | .takeFront => 2 | .toTarget => 3 | .putTarget => 4 | .toBin => 5 | .takeBin => 6
    | .toMouth => 7 | .waitMerge | .handoff => 8
  | .putaway _ st _ =>
    match st with
    | .toMouth => 1 | .takeInbound => 2 | .choose => 3 | .toCell => 4 | .putCell => 5
  | .survey r => if r.reading then 2 else 1
  | .clearMove => 1
  | .parkPlace _ _ _ arrived => if arrived then 2 else 1
  | .parkMove _ => 1

/-- Line states in the order R92 lists them. -/
def lineStCode : LineSt → Nat
  | .running => 1 | .faulted => 2 | .halted => 3

/-- Line fault reasons in the order R92 lists them. -/
def lineFaultCode : Option LineFault → Nat
  | none => 0 | some .deadline => 1 | some .driveFault => 2

/-- Transfer kinds in the order R93 lists them. -/
def transferCode : TransferKind → Nat
  | .diversion _ => 1 | .advance _ => 2 | .release _ => 3 | .inbound _ => 4

/-- The station or aisle a transfer names. -/
def transferEnd : TransferKind → Nat
  | .diversion st | .advance st | .release st => stationNo st
  | .inbound a => aisleNo a

/-- Wing states in the order the chapter lists them. -/
def wingStCode : WingSt → Nat
  | .standby => 1 | .normal => 2 | .hold => 3 | .clearing => 4 | .parking => 5 | .sealing => 6
  | .sealed => 7 | .restarting => 8

/-- Cause levels in order; None is the enumeration's none. -/
def levelCode : Level → Nat
  | .none => 0 | .hold => 1 | .park => 2 | .trip => 3

/-- Panel inputs in the order R177 lists them. -/
def panelCode : PanelInput → Nat
  | .stage1 => 1 | .stage2 => 2 | .discharge => 3

/-- Slot kinds in the order R166 lists them. -/
def kindCode : SlotKind → Nat
  | .unused => 1 | .smoke => 2 | .heat => 3 | .humidity => 4

/-- Slot stages in the order R166 lists them. -/
def stageCode : Stage → Nat
  | .settling => 1 | .normal => 2 | .preAlarm => 3 | .alarm => 4 | .trip => 5 | .fault => 6

/-- Zone stages in the order R174 lists them: Trip, Alarm, PreAlarm, Normal. -/
def zoneStageCode : Stage → Nat
  | .trip => 1 | .alarm => 2 | .preAlarm => 3 | _ => 4

/-- Sweep run states in the order R162 lists them. -/
def runCode : SweepRun → Nat
  | .stopped => 1 | .starting => 2 | .running => 3 | .stopping => 4

/-! ## Fields -/

/-- A flag field. -/
def flag (b : Bool) : Fld := .u1 (if b then 1 else 0)

/-- A bin or an order number, 0 for none. -/
def opt2 (n : Option Nat) : Fld := .u2 (n.getD 0)

/-- A value of 2 bytes that may be unset where 0 is valid. -/
def unset2 (n : Option Nat) : Fld := .u2 (n.getD 0xFFFF)

/-- A value of 4 bytes that may be unset where 0 is valid. -/
def unset4 (n : Option Nat) : Fld := .u4 (n.getD 0xFFFFFFFF)

/-- An aisle or none. -/
def optAisle (a : Option Aisle) : Fld := .u1 ((a.map aisleNo).getD 0)

/-- A station or none. -/
def optStation (s : Option Station) : Fld := .u1 ((s.map stationNo).getD 0)

/-- A position, unset for none. -/
def posFlds (p : Option (Nat × Nat)) : List Fld := [.u1 ((p.map (·.1)).getD 0xFF), .u1 ((p.map (·.2)).getD 0xFF)]

/-- A signed value, all bits set when unset. -/
def optS2 (i : Option Int) : Fld :=
  match i with
  | some v => .s2 v
  | none => .u2 0xFFFF

/-- A list: its entry count, then the entries' fields. -/
def listFlds (l : List α) (f : α → List Fld) : List Fld := .u1 l.length :: (l.map f).flatten

/-- A list of entries that are numbers of 2 bytes. -/
def u2s (l : List Nat) : List Fld := listFlds l fun n => [.u2 n]

/-- The source of a rise in three bytes: 1 and the zone and slot, or 2, the panel input and 0; three 0 for none
(assumption 107, DESIGN CHOICE). -/
def sourceFlds : Option Source → List Fld
  | none => [.u1 0, .u1 0, .u1 0]
  | some (.zone z s) => [.u1 1, .u1 z.val, .u1 s.val]
  | some (.panel p) => [.u1 2, .u1 (panelCode p), .u1 0]

/-! ## Bytes of a frame (R203, spec 11.8) -/

/-- The low `n` bytes of a number, least significant first. -/
def leBytes : Nat → Nat → List Byte
  | 0, _ => []
  | n + 1, v => BitVec.ofNat 8 (v % 256) :: leBytes n (v / 256)

/-- A field's bytes (spec 11.8). -/
def fldBytes : Fld → List Byte
  | .u1 n => leBytes 1 n
  | .u2 n => leBytes 2 n
  | .u4 n => leBytes 4 n
  | .s2 i => leBytes 2 (i % 65536).toNat
  | .cell c => leBytes 2 ((c.map cellCode).getD 0)
  | .item c => BitVec.ofNat 8 c.length :: c

/-- One bit step of the CRC: polynomial 0x1021, most significant bit first. -/
def crcBit (c : BitVec 16) : BitVec 16 :=
  if c.msb then (c <<< 1) ^^^ 0x1021#16 else c <<< 1

/-- One byte of the CRC. -/
def crcByte (c : BitVec 16) (b : Byte) : BitVec 16 :=
  crcBit (crcBit (crcBit (crcBit (crcBit (crcBit (crcBit (crcBit (c ^^^ (b.setWidth 16 <<< 8)))))))))

/-- The CRC of R203 over LEN, KIND, TAG and the body, from 0xFFFF with no final inversion. -/
def crc16 (bytes : List Byte) : BitVec 16 := bytes.foldl crcByte 0xFFFF#16

/-- A frame's bytes on the line. -/
def frameBytes (kind tag : Nat) (body : List Byte) : List Byte :=
  let core := BitVec.ofNat 8 body.length :: BitVec.ofNat 8 kind :: BitVec.ofNat 8 tag :: body
  0xC3#8 :: core ++ leBytes 2 (crc16 core).toNat

/-- A reply's frame: the body is the code and then the items (R209). -/
def replyBytes (r : Reply) : List Byte :=
  frameBytes r.kind r.tag (BitVec.ofNat 8 (replyCode r.code) :: r.items.flatMap fldBytes)

/-- A notice's frame: tag 0; stamp, area, sequence number, then the items (R209, spec 11.8). -/
def noticeBytes (n : Notice) : List Byte :=
  frameBytes (noticeCode n.kind) 0
    (leBytes 4 n.stamp ++ leBytes 1 (areaCode (noticeArea n.kind)).val ++ leBytes 2 n.seq
      ++ n.items.flatMap fldBytes)

/-- What the receiver makes of one more byte (R203): a discard, or a complete frame's KIND, TAG and body. -/
inductive RxEvent where
  | none
  | discard
  | complete (kind tag : Nat) (body : List Byte)
  deriving DecidableEq, Repr

/-- The receiver takes one byte (R203): it hunts for SYNC, discards a LEN above 240 at once, and checks
the CRC when LEN + 5 bytes have followed SYNC. A frame in progress waits 10 ds for its next byte. -/
def rxByte (r : Rx) (b : Byte) : Rx × RxEvent :=
  match r with
  | .hunting => (if b = 0xC3#8 then .frame [] 10 else .hunting, .none)
  | .frame bytes _ =>
    let got := bytes ++ [b]
    let len := (got.headD 0).toNat
    if len > 240 then (.hunting, .discard)
    else if got.length < len + 5 then (.frame got 10, .none)
    else
      let core := got.take (len + 3)
      if got.drop (len + 3) = leBytes 2 (crc16 core).toNat then
        (.hunting, .complete ((core.drop 1).headD 0).toNat ((core.drop 2).headD 0).toNat (core.drop 3))
      else (.hunting, .discard)

end Sys2Proof.Machine
end

