-- ==== Sys2Proof/Machine/Ops.lean ====
section
/-! DEFINITION. The named operations over the records: sparse tables in canonical form, notices, the
slot map, the bin table, the hand-over of changes to the journal, replies, and the updates of one
record of the yard. -/

namespace Sys2Proof.Machine

open Sys2Proof

/-! ## Sparse tables: keys strictly rising -/

/-- The value at a key. -/
def kget (l : List (Nat × α)) (k : Nat) : Option α :=
  match l with
  | [] => none
  | (i, x) :: t => if i = k then some x else kget t k

/-- Set the value at a key, keeping the keys rising. -/
def kput (l : List (Nat × α)) (k : Nat) (x : α) : List (Nat × α) :=
  match l with
  | [] => [(k, x)]
  | (i, y) :: t => if k < i then (k, x) :: (i, y) :: t else if k = i then (k, x) :: t else (i, y) :: kput t k x

/-- Remove a key. -/
def kdel (l : List (Nat × α)) (k : Nat) : List (Nat × α) :=
  match l with
  | [] => []
  | (i, y) :: t => if i = k then t else (i, y) :: kdel t k

/-- The canonical form of a sparse table: keys strictly rising. -/
abbrev KSorted (l : List (Nat × α)) : Prop := (l.map Prod.fst).Pairwise (· < ·)

/-- Insert into a list of numbers kept strictly rising. -/
def ninsert (l : List Nat) (k : Nat) : List Nat :=
  match l with
  | [] => [k]
  | i :: t => if k < i then k :: i :: t else if k = i then i :: t else i :: ninsert t k

/-- Join two strictly rising lists of numbers into one. -/
def nmerge : List Nat → List Nat → List Nat
  | [], l => l
  | k :: t, l => l.takeWhile (· < k) ++ k :: nmerge t (l.dropWhile (· ≤ k))

/-! ## What a step of the yard reads beside the yard -/

/-- The settings, the wing clock, the wing state and the park budget (R41), which a step of the yard
reads and does not change. -/
structure Env where
  cfg : Settings
  now : Nat
  wing : WingSt
  budget : Nat
  deriving DecidableEq, Repr

/-- The environment a state gives its yard. -/
def envOf (s : State) : Env :=
  { cfg := s.cfg, now := s.clock.sec, wing := s.wing.st, budget := s.wing.parkTimer.getD 0 }

/-- Apply a step of the yard. -/
def onYard (f : Env → Yard → Yard) (s : State) : State := { s with yard := f (envOf s) s.yard }

/-! ## One record of the yard -/

/-- Update an aisle's carrier. -/
def modCarrier (a : Aisle) (f : Carrier → Carrier) (y : Yard) : Yard :=
  { y with carriers := y.carriers.set a (f y.carriers[a]) }

/-- Update an aisle's arbiter. -/
def modArb (a : Aisle) (f : Arbiter → Arbiter) (y : Yard) : Yard :=
  { y with arbs := y.arbs.set a (f y.arbs[a]) }

/-- Update an aisle's estimator record. -/
def modEst (a : Aisle) (f : AisleSpeed → AisleSpeed) (y : Yard) : Yard :=
  { y with est := y.est.set a (f y.est[a]) }

/-- Update an aisle's verification record. -/
def modVerif (a : Aisle) (f : Verif → Verif) (y : Yard) : Yard :=
  { y with verif := y.verif.set a (f y.verif[a]) }

/-- Update a station record. -/
def modStation (st : Station) (f : StationRec → StationRec) (y : Yard) : Yard :=
  { y with stations := y.stations.set st (f y.stations[st]) }

/-- Update a tray. -/
def modTray (st : Station) (f : Tray → Tray) (y : Yard) : Yard :=
  { y with trays := y.trays.set st (f y.trays[st]) }

/-- Update a station's session, if it has one. -/
def modSession (st : Station) (f : Session → Session) (y : Yard) : Yard :=
  modStation st (fun r => { r with session := r.session.map f }) y

/-- Update the line controller's records. -/
def modLines (f : Lines → Lines) (y : Yard) : Yard := { y with lines := f y.lines }

/-- Update one line's record. -/
def modLine (l : LineId) (f : LineRec → LineRec) (y : Yard) : Yard :=
  match l with
  | .delivery => modLines (fun r => { r with del := f r.del }) y
  | .ret => modLines (fun r => { r with ret := f r.ret }) y

/-- A line's record. -/
def lineRec (l : LineId) (y : Yard) : LineRec :=
  match l with
  | .delivery => y.lines.del
  | .ret => y.lines.ret

/-- Update the journal. -/
def modJournal (f : Journal → Journal) (y : Yard) : Yard := { y with journal := f y.journal }

/-- Update the order of a number, wherever it stands in the queue. -/
def modOrder (no : Nat) (f : Order → Order) (y : Yard) : Yard :=
  { y with orders := y.orders.map fun o => if o.no = no then f o else o }

/-- The order of a number. -/
def orderOf (no : Nat) (y : Yard) : Option Order := y.orders.find? fun o => o.no = no

/-- Send a message on a field bus. -/
def send (m : BusMsg) (y : Yard) : Yard := { y with bus := y.bus ++ [m] }

/-! ## Notices (R207) -/

/-- A count that holds at 65,535. -/
def bump (n : Nat) : Nat := if n < 65535 then n + 1 else n

/-- Areas whose notices displace others (R207). -/
def urgent : Area → Bool
  | .wing | .sweep => true
  | _ => false

/-- Place a notice in the outbox by the table of R207; the notice being sent is never removed. -/
def postPut (p : Post) (n : Notice) : Post :=
  if p.outbox.length < 32 then { p with outbox := p.outbox ++ [n] }
  else if urgent (noticeArea n.kind) then
    let keep := if p.sending then p.outbox.take 1 else []
    let list := if p.sending then p.outbox.drop 1 else p.outbox
    let list' :=
      match list.findIdx? fun m => !urgent (noticeArea m.kind) with
      | some i => list.eraseIdx i
      | none => list.drop 1
    { p with outbox := keep ++ list' ++ [n], lost := bump p.lost }
  else { p with lost := bump p.lost }

/-- Raise a notice (R207): stamp, sequence number, change flag, outbox. -/
def notify (e : Env) (k : NoticeKind) (items : List Fld) (y : Yard) : Yard :=
  let p := y.post
  let n : Notice := { kind := k, stamp := e.now, seq := p.seq, items := items }
  let p := { p with
    seq := if p.seq < 65535 then p.seq + 1 else 1
    flags := p.flags.set (areaCode (noticeArea k)) true }
  { y with post := postPut p n }

/-! ## Journal hand-over (R15, R17, R18) -/

/-- A cell's stored content: a Reserved cell is stored Empty (R6). -/
def storedOf : Cell → StoredCell
  | .absent => .absent
  | .disabled => .disabled
  | .empty | .reserved _ _ => .empty
  | .occupied b => .occupied b
  | .unverified b => .unverified b

/-- Whether a key's record is marked as awaiting the journal (R17). -/
def marked (j : Journal) : JKey → Bool
  | .cell a => j.cellMarks.contains (cellCode a)
  | .fill b => j.fillMarks.contains b
  | .attr b => j.attrMarks.contains b

/-- Mark a key's record (R17). -/
def mark (j : Journal) : JKey → Journal
  | .cell a => { j with cellMarks := ninsert j.cellMarks (cellCode a) }
  | .fill b => { j with fillMarks := ninsert j.fillMarks b }
  | .attr b => { j with attrMarks := ninsert j.attrMarks b }

/-- Hold-off follows the list: on at 64 entries, off at 48 or fewer (R18). -/
def holdOffOf (j : Journal) : Journal :=
  { j with holdOff := if j.entries.length ≥ 64 then true else if j.entries.length ≤ 48 then false else j.holdOff }

/-- The content of an entry replaced in place; a write in flight for it is then out of date (R15, R16). -/
def coalesce (j : Journal) (k : JKey) (v : JVal) : Journal :=
  { j with
    entries := j.entries.map fun e => if e.key = k then { e with val := v } else e
    writing :=
      match j.writing with
      | some (.entry e r) => some (.entry e (r || decide (e.key = k)))
      | w => w }

/-- A change arrives at the journal (R15, R17, R21). -/
def journalChange (k : JKey) (v : JVal) (j : Journal) : Journal :=
  if j.entries.any fun e => e.key = k then coalesce j k v
  else if marked j k then j
  else if j.closed || j.sealing.isSome || decide (64 ≤ j.entries.length) then mark j k
  else holdOffOf { j with entries := j.entries ++ [⟨k, v⟩] }

/-- Whether changes for keys with no entry are marked and not listed (R17, R21). -/
def listShut (j : Journal) : Bool := j.closed || j.sealing.isSome || decide (64 ≤ j.entries.length)

/-- Whether a cell has an entry in the list. -/
def cellListed (j : Journal) (a : CellAddr) : Bool := j.entries.any fun e => e.key = .cell a

/-- Many cells change to one content, in address order: as one change after another. Once the list is shut
every further cell without an entry is marked. -/
def journalChanges (c : StoredCell) : List CellAddr → Journal → Journal
  | [], j => j
  | a :: t, j =>
    if listShut j then
      let j' := ((a :: t).filter fun x => cellListed j x).foldl (fun j x => coalesce j (.cell x) (.cell c)) j
      { j' with cellMarks := nmerge (((a :: t).filter fun x => !cellListed j x).map cellCode) j.cellMarks }
    else journalChanges c t (journalChange (.cell a) (.cell c) j)

/-- Whether two control writes are settings writes of one section (R211). -/
def sameSection : CtlWrite → CtlWrite → Bool
  | .settings (.geometry _), .settings (.geometry _) | .settings (.cells _), .settings (.cells _)
  | .settings (.profiles _ _), .settings (.profiles _ _) | .settings (.assign _), .settings (.assign _)
  | .settings (.stations _), .settings (.stations _) | .settings (.dispatch _ _), .settings (.dispatch _ _)
  | .settings (.trays _ _), .settings (.trays _ _) | .settings (.sessions _ _), .settings (.sessions _ _)
  | .settings (.sweep _ _ _), .settings (.sweep _ _ _) | .settings (.fire _), .settings (.fire _) => true
  | _, _ => false

/-- Request a control write: it joins the tail (R20), but a settings write for a section whose write has
not begun replaces the earlier one in its place (R211). A head in flight has begun. -/
def ctlPut (inFlight : Bool) (l : List CtlWrite) (w : CtlWrite) : List CtlWrite :=
  match inFlight, l with
  | true, h :: t => h :: ctlPut false t w
  | _, [] => [w]
  | _, h :: t => if sameSection h w then w :: t else h :: ctlPut false t w

/-- Request a control write (R20, R211). -/
def ctlRequest (w : CtlWrite) (y : Yard) : Yard :=
  modJournal (fun j =>
    { j with ctl := ctlPut (match j.writing with | some (.ctl _) => true | _ => false) j.ctl w }) y

/-! ## Slot map (R1, R2, R7) -/

/-- Whether an address lies within a geometry (R1). -/
def inGeometry (g : Geometry) (a : CellAddr) : Bool :=
  decide (aisleNo a.aisle ≤ g.aisleCount ∧ 1 ≤ a.col ∧ a.col ≤ g.columns ∧ a.level < g.levels)

/-- Whether an aisle lies within the configured geometry. -/
def aisleIn (e : Env) (a : Aisle) : Bool := decide (aisleNo a ≤ e.cfg.geometry.aisleCount)

/-- The aisles within the configured geometry. -/
def aislesIn (e : Env) : List Aisle := aisles.filter (aisleIn e)

/-- A cell's record: Absent beyond the geometry (R1), Empty where nothing is listed. -/
def getCell (e : Env) (a : CellAddr) (y : Yard) : Cell :=
  if inGeometry e.cfg.geometry a then (kget y.cells (cellCode a)).getD .empty else .absent

/-- Store a cell's record in canonical form: Empty and Absent are not listed. -/
def putCell (a : CellAddr) (c : Cell) (y : Yard) : Yard :=
  { y with cells :=
      match c with
      | .empty | .absent => kdel y.cells (cellCode a)
      | c => kput y.cells (cellCode a) c }

/-- Change a cell's record (R7): a change of what the journal stores for it hands over a CellSet. -/
def setCell (e : Env) (a : CellAddr) (c : Cell) (y : Yard) : Yard :=
  let old := getCell e a y
  if old = .absent ∨ old = c then y
  else
    let y := putCell a c y
    if storedOf old = storedOf c then y
    else modJournal (journalChange (.cell a) (.cell (storedOf c))) y

/-- The listed cells of the map with their addresses, in address order. -/
def listedCells (y : Yard) : List (CellAddr × Cell) :=
  y.cells.filterMap fun (k, c) => (cellOfCode k).map fun a => (a, c)

/-- The Unverified cells of an aisle, in address order. -/
def unverifiedCells (a : Aisle) (y : Yard) : List (CellAddr × Option Nat) :=
  (listedCells y).filterMap fun (x, c) =>
    match c with
    | .unverified b => if x.aisle = a then some (x, b) else none
    | _ => none

/-- An aisle's verification status, derived (R147). -/
def aisleVerified (a : Aisle) (y : Yard) : Bool := !y.verif[a].doubt && (unverifiedCells a y).isEmpty

/-! ## Bin table (R8 to R13) -/

/-- A bin's record. -/
def getBin (b : Nat) (y : Yard) : Option Bin := kget y.bins b

/-- Store a bin's record. -/
def putBin (b : Nat) (r : Bin) (y : Yard) : Yard := { y with bins := kput y.bins b r }

/-- Update a bin's record, if it has one. -/
def modBin (b : Nat) (f : Bin → Bin) (y : Yard) : Yard :=
  match getBin b y with
  | some r => putBin b (f r) y
  | none => y

/-- The attributes the journal stores for a bin (R15). -/
def attrOf (r : Bin) : BinAttr := ⟨r.capacity, r.damaged, decide (r.st = .retired)⟩

/-- Hand the journal a BinAttr change with the bin's record as it stands. -/
def attrChange (b : Nat) (y : Yard) : Yard :=
  match getBin b y with
  | some r => modJournal (journalChange (.attr b) (.attr (attrOf r))) y
  | none => y

/-- Record a fill and hand the journal a BinFill change (R13). -/
def setFill (b n : Nat) (y : Yard) : Yard :=
  modJournal (journalChange (.fill b) (.fill n)) (modBin b (fun r => { r with fill := n }) y)

/-- A pick scanned Done lowers the fill, saturating at 0 (R13). -/
def lowerFill (b width : Nat) (y : Yard) : Yard :=
  match getBin b y with
  | some r => setFill b (r.fill - width) y
  | none => y

/-- A placement scanned raises the fill, saturating at the capacity (R13). -/
def raiseFill (b width : Nat) (y : Yard) : Yard :=
  match getBin b y with
  | some r => setFill b (min r.capacity (r.fill + width)) y
  | none => y

/-- Give a bin the Damaged flag; nothing changes when it has it (R12). -/
def setDamaged (b : Nat) (y : Yard) : Yard :=
  match getBin b y with
  | some r => if r.damaged then y else attrChange b (putBin b { r with damaged := true } y)
  | none => y

/-- A bin's record with its place replaced: the state, and the cell, aisle and station that state has (R8). -/
def placed (r : Bin) (st : BinSt) (cell : Option CellAddr) (aisle : Option Aisle) (station : Option Station) : Bin :=
  { r with st := st, cell := cell, aisle := aisle, station := station }

/-- The bin becomes Stored in a cell, with that cell's aisle as aisle of residence (R9). -/
def binStored (b : Nat) (a : CellAddr) (y : Yard) : Yard :=
  modBin b (fun r => placed r .stored (some a) (some a.aisle) none) y

/-- The bin becomes Unverified, with a last known cell or none (R8). -/
def binLost (b : Nat) (cell : Option CellAddr) (y : Yard) : Yard :=
  modBin b (fun r => placed r .unverified cell none none) y

/-- Whether a bin stands in a recorded place other than a cell: a fork, a line or inbound place, or a
station place. -/
def inPlace (r : Bin) : Bool :=
  match r.st with
  | .onCarrier | .onDelivery | .atStation | .onReturn | .inbound => true
  | _ => false

/-- A bin named by a tag or a report gets a record if it has none (capacity 100, fill 0, Damaged), and
leaves Retired with RetirePending set, with the journal changes of R25. -/
def ensureBin (b : Nat) (y : Yard) : Yard :=
  match getBin b y with
  | none =>
    let y := putBin b ⟨100, 0, .unverified, none, none, none, true, false, none⟩ y
    modJournal (journalChange (.fill b) (.fill 0)) (attrChange b y)
  | some r =>
    if r.st = .retired then
      attrChange b (putBin b { r with st := .unverified, cell := none, aisle := none, station := none, retirePending := true } y)
    else y

/-- Free space: capacity less fill. -/
def freeSpace (r : Bin) : Nat := r.capacity - r.fill

/-! ## Replies (R205) -/

/-- A reply's kind byte: the request's kind plus 0x40 (R209). -/
def mkReply (kind tag : Nat) (code : ReplyCode) (items : List Fld) : Reply := ⟨kind + 0x40, tag, code, items⟩

/-- Make a waiting request's reply ready; a reply dropped by a link reset is not sent (R205, R215). -/
def answer (id : Nat) (code : ReplyCode) (items : List Fld) (s : State) : State :=
  { s with link := { s.link with inbox := s.link.inbox.map fun r =>
      if r.id = id ∧ r.reply = none then { r with reply := some (mkReply r.kind r.tag code items) } else r } }

/-- Put an entry on the overrun list; at 4 entries it is dropped and counted (R206). -/
def overrunPut (r : Reply) (k : Link) : Link :=
  if k.overrun.length < 4 then { k with overrun := k.overrun ++ [r] }
  else { k with overrunDrops := bump k.overrunDrops }

/-- A complete frame of a request kind arrives (R204): OVERRUN when the inbox holds 4, BUSY on the
overrun list while a Restart waits to begin; else it is taken, refused FORM for tag 0 or a malformed
body, and acted on. `act` answers the state after and the reply, or no reply while it waits (R205). -/
def takeFrame (kind : Nat) (h : ReqHdr) (act : Nat → State → State × Option (ReplyCode × List Fld)) (s : State) : State :=
  if s.link.restart ≠ .none then
    { s with link := overrunPut (mkReply kind h.tag .busy []) s.link }
  else if 4 ≤ s.link.inbox.length then
    { s with link := overrunPut (mkReply kind h.tag .overrun []) s.link }
  else
    let id := s.link.nextId
    let s := { s with link := { s.link with
      nextId := id + 1, inbox := s.link.inbox ++ [⟨id, kind, h.tag, none⟩] } }
    if h.tag = 0 ∨ h.bodyOk = false then answer id .form [] s
    else
      match act id s with
      | (s, some (code, items)) => answer id code items s
      | (s, none) => s

/-- A reply with items and the state unchanged. -/
def replyWith (code : ReplyCode) (items : List Fld) (s : State) : State × Option (ReplyCode × List Fld) :=
  (s, some (code, items))

/-- A refusal: the code alone, and no record changed. -/
def refuse (code : ReplyCode) (s : State) : State × Option (ReplyCode × List Fld) := replyWith code [] s

/-- Raise a notice from outside the yard. -/
def notifyS (k : NoticeKind) (items : List Fld) (s : State) : State := onYard (fun e => notify e k items) s

end Sys2Proof.Machine
end

