-- ==== Sys2Proof/Machine/Flags.lean ====
section
/-! DEFINITION. What is derived from the records and not stored: value sets in force, Surveying,
readiness, roles and admission. -/

namespace Sys2Proof.Machine

open Sys2Proof

/-- The value set an assignment selects from the stored profiles (R27). Slow doubles the paces of A;
Off has none for estimates, and times its segments with A. -/
def valueSet (c : Settings) : Assign → Profile
  | .profileA | .off => c.profA
  | .profileB => c.profB
  | .slow => { c.profA with paceH := 2 * c.profA.paceH, paceV := 2 * c.profA.paceV }

/-- Whether an aisle's assignment in force is Off. -/
def aisleOff (a : Aisle) (y : Yard) : Bool := decide (y.est[a].inForce = .off)

/-- The value set an aisle's estimates and segments use: an Off aisle times segments with profile A (R27, R34). -/
def aisleVals (e : Env) (a : Aisle) (y : Yard) : Profile :=
  if aisleOff a y then e.cfg.profA else y.est[a].vset

/-- A survey still running in a task record. -/
def runOf : Option Task → Option SurveyRun
  | some (.survey r) => if r.ended then none else some r
  | _ => none

/-- An aisle's running survey, in its carrier's task or suspended task (R63, R157). -/
def surveyOf (a : Aisle) (y : Yard) : Option SurveyRun :=
  match runOf y.carriers[a].task with
  | some r => some r
  | none => runOf y.carriers[a].suspended

/-- Whether an aisle is Surveying (R63). -/
def surveying (a : Aisle) (y : Yard) : Bool := (surveyOf a y).isSome

/-- Whether a carrier is Faulted or Offline. -/
def carrierDown (c : Carrier) : Bool := decide (c.st = .faulted) || decide (c.st = .offline)

/-- Whether an aisle is ready (R30). -/
def aisleReady (e : Env) (a : Aisle) (y : Yard) : Bool :=
  aisleIn e a && !aisleOff a y && decide (y.est[a].st = .steady) && !surveying a y && !carrierDown y.carriers[a]

/-- Whether a role serves a class (R73). -/
def serves : Role → OrderClass → Bool
  | .lending, _ | .mixed, _ => true
  | .returns, .space | .returns, .staff => true
  | _, _ => false

/-- Whether a role takes returns (R131, R135). -/
def takesReturns : Role → Bool
  | .returns | .mixed => true
  | _ => false

/-- The bin in a place, as a count. -/
def countBin (p : Option PlaceBin) : Nat := if p.isSome then 1 else 0

/-- A station's committed count (R82). -/
def committed (st : Station) (y : Yard) : Nat :=
  countBin y.stations[st].next + countBin y.stations[st].present
    + (y.lines.delivery.filter fun p => p.station = st).length
    + (y.orders.filter fun o => o.station = st ∧ o.st = .assigned).length

/-- A station's free admission, 2 + L_s less its committed count; it may be negative (R73). -/
def freeAdmission (e : Env) (st : Station) (y : Yard) : Int :=
  2 + (e.cfg.stations[st].allowance : Int) - (committed st y : Int)

/-- The first element with the largest measure. -/
def argmax (f : α → Int) : List α → Option α
  | [] => none
  | x :: t =>
    match argmax f t with
    | some z => if f x ≥ f z then some x else some z
    | none => some x

/-- The station a request for any station of a class goes to (R73): the largest free admission among
those serving it, ties to the lower number. -/
def anyStation (e : Env) (c : OrderClass) (y : Yard) : Option Station :=
  argmax (fun st => freeAdmission e st y) (stationList.filter fun st => serves y.stations[st].role c)

/-- The delivery line's committed length (R92, R95): the grant in force counts as in flight. -/
def deliveryCommitted (y : Yard) : Nat := y.lines.delivery.length + (if y.lines.mergeGrant.isSome then 1 else 0)

/-- Whether a transfer is a release. -/
def isRelease : Transfer → Bool
  | ⟨_, .release _, _, _⟩ => true
  | _ => false

/-- The return line's committed length (R92). -/
def returnCommitted (y : Yard) : Nat := y.lines.returns.length + (y.lines.ret.transfers.filter isRelease).length

/-- Whether a carrier stands in the shutter plane, columns 0 and 1 (R184). -/
def inPlane (c : Carrier) : Bool :=
  match c.pos with
  | some (col, _) => decide (col ≤ 1)
  | none => false

/-- A tray's Waiting items in list order. -/
def waitingItems (t : Tray) : List TrayItem := t.items.filter fun i => i.st = .waiting

/-- A tray's Waiting count. -/
def waitingCount (t : Tray) : Nat := (waitingItems t).length

/-- Whether an item has waited the tray wait limit (R136). -/
def waitedLimit (e : Env) (i : TrayItem) : Bool := decide (e.cfg.waitLimit ≤ e.now - i.stamp)

/-- The sum of the widths of a list of placements. -/
def placedWidth (l : List Placement) : Nat := (l.map (·.width)).sum

/-- A session's order, if it has one. -/
def sessionOrder (s : Session) (y : Yard) : Option Order := s.order.bind fun no => orderOf no y

/-- Whether a list of picks holds an Open one. -/
def anyOpen (l : List Pick) : Bool := l.any fun p => p.st = .opened

/-- Whether a session's order holds an Open pick. -/
def sessionOpenPick (s : Session) (y : Yard) : Bool :=
  match sessionOrder s y with
  | some o => anyOpen o.picks
  | none => false

/-- Whether an item code is in a live pick or held by a tray item (R72, R74, R129). -/
def itemInUse (c : ItemCode) (y : Yard) : Bool :=
  (y.orders.any fun o => o.picks.any fun p => p.item = c ∧ p.st = .opened)
    || stationList.any fun st => y.trays[st].items.any fun i => i.item = c

end Sys2Proof.Machine
end

