-- ==== Sys2Proof/Machine/Displays.lean ====
section
/-! DEFINITION. The terminal display: what a station's display shows, and the updates that its changes send
(R113). -/

namespace Sys2Proof.Machine

open Sys2Proof

/-- Whether a bin is RetirePending. -/
def retirePendingBin (b : Nat) (y : Yard) : Bool :=
  match getBin b y with
  | some r => r.retirePending
  | none => false

/-- What a station's display is to show. -/
def displayOf (st : Station) (y : Yard) : Display :=
  match y.stations[st].present with
  | none => .blank
  | some p =>
    let cap := match getBin p.bin y with | some r => r.capacity | none => 0
    let fill := match getBin p.bin y with | some r => r.fill | none => 0
    match y.stations[st].session with
    | none => { Display.blank with
        bin := some p.bin, capacity := cap, fill := fill
        status := if retirePendingBin p.bin y then some .remove else none }
    | some s =>
      let o := sessionOrder s y
      { bin := some p.bin, capacity := cap, fill := fill, order := s.order, cls := o.map (·.cls)
        picks := match o with
          | some o => (o.picks.filter fun q => q.st = .opened).map fun q => (q.item, q.slip, q.width)
          | none => []
        placements := s.placements
        status := some (if s.releasing then .releasing else .opened) }

/-- Send a station's display as it now stands. -/
def sendDisplay (st : Station) (y : Yard) : Yard :=
  let d := displayOf st y
  send (.display st d) (modStation st (fun r => { r with shown := d }) y)

/-- A change at a station sends an update when it has changed the display (R113). -/
def showStation (st : Station) (y : Yard) : Yard :=
  if displayOf st y = y.stations[st].shown then y else sendDisplay st y

/-- The changes that no operation has shown as it made them send their update at the command's end (R113): those
of the one event that a pick or a placement scanned, a pick joined or cancelled, or an order made around a session
is (assumption 69, DESIGN CHOICE). -/
def syncDisplays (y : Yard) : Yard := stationList.foldl (fun y st => showStation st y) y

end Sys2Proof.Machine
end

