-- ==== Sys2Proof/Machine/Travel.lean ====
section
/-! DEFINITION. Access to cells and the travel estimator: R4, R5 and chapter 2's arithmetic. -/

namespace Sys2Proof.Machine

open Sys2Proof

/-! ## Access and candidates (R4, R5) -/

/-- Whether a carrier may take a bin from a cell (R4). -/
def canPick (e : Env) (a : CellAddr) (y : Yard) : Bool :=
  (match getCell e a y with | .occupied _ => true | _ => false)
    && (match a.depth with | .front => true | .deep => decide (getCell e (atDepth a .front) y = .empty))

/-- Whether a cell can receive a given bin (R4). -/
def canPlace (e : Env) (a : CellAddr) (b : Nat) (y : Yard) : Bool :=
  (match getCell e a y with | .empty => true | .reserved r _ => decide (r = b) | _ => false)
    && (match a.depth with | .front => true | .deep => decide (getCell e (atDepth a .front) y = .empty))

/-- Whether a cell is a placement candidate (R5). -/
def candidate (e : Env) (a : CellAddr) (y : Yard) : Bool :=
  decide (getCell e a y = .empty)
    && match a.depth with
       | .front => (match getCell e (atDepth a .deep) y with | .reserved _ _ | .unverified _ => false | _ => true)
       | .deep => decide (getCell e (atDepth a .front) y = .empty)

/-- The cells of an aisle in the tie order of R38: column, level, side N before S, front before deep. -/
def aisleCells (g : Geometry) (a : Aisle) : List CellAddr :=
  (List.range g.columns).flatMap fun c => (List.range g.levels).flatMap fun l =>
    [⟨a, .north, c + 1, l, .front⟩, ⟨a, .north, c + 1, l, .deep⟩, ⟨a, .south, c + 1, l, .front⟩,
      ⟨a, .south, c + 1, l, .deep⟩]

/-- The placement candidates of an aisle in the tie order of R38. -/
def candidates (e : Env) (a : Aisle) (y : Yard) : List CellAddr :=
  if aisleIn e a then (aisleCells e.cfg.geometry a).filter fun c => candidate e c y else []

/-- Whether an aisle has a placement candidate (R5). -/
def hasCandidate (e : Env) (a : Aisle) (y : Yard) : Bool :=
  aisleIn e a && (aisleCells e.cfg.geometry a).any fun c => candidate e c y

/-! ## Times (R32 to R34) -/

/-- The time of one axis: 0 for no distance, else ramp plus distance times pace. -/
def axisTime (ramp pace d : Nat) : Nat := if d = 0 then 0 else ramp + d * pace

/-- The distance between two coordinates. -/
def dist (a b : Nat) : Nat := (a - b) + (b - a)

/-- The travel time T between two positions (R32). -/
def travelTime (v : Profile) (p q : Nat × Nat) : Nat :=
  max (axisTime v.rampH v.paceH (dist p.1 q.1)) (axisTime v.rampV v.paceV (dist p.2 q.2))

/-- The fork time of a cell's depth (R33). -/
def forkTime (v : Profile) : Depth → Nat
  | .front => v.forkFront
  | .deep => v.forkDeep

/-- The mouth: column 0, level 0. -/
def mouthPos : Nat × Nat := (0, 0)

/-- The park position (R41). -/
def parkPos (e : Env) : Nat × Nat := (e.cfg.fire.parkColumn, 0)

/-- A finished sum is saturated once at 4,095 (R36). -/
def saturate (n : Nat) : Nat := min 4095 n

/-- A carrier's position; a carrier that has none is Offline and enters no estimate. -/
def carrierPos (c : Carrier) : Nat × Nat := c.pos.getD mouthPos

/-- A segment's estimate when it begins (R34). -/
def segEstimate (v : Profile) (at' : Nat × Nat) (k : SegKind) (t : SegTarget) : Nat :=
  match k, t with
  | .travel, .pos c l => travelTime v at' (c, l)
  | .forkIn, .cell a | .forkOut, .cell a => forkTime v a.depth
  | .forkIn, _ | .forkOut, _ | .read, _ => v.forkFront
  | _, _ => 0

/-! ## Rankings (R38 to R42) -/

/-- The first cell of least cost with that cost; the list stands in tie order (R38). -/
def cheapest (cost : CellAddr → Nat) : List CellAddr → Option (CellAddr × Nat)
  | [] => none
  | x :: t =>
    match cheapest cost t with
    | some (z, n) => if cost x ≤ n then some (x, cost x) else some (z, n)
    | none => some (x, cost x)

/-- Whether two cells are of one storage position (same aisle, side, column and level). -/
def samePosition (a b : CellAddr) : Bool :=
  decide (a.aisle = b.aisle ∧ a.side = b.side ∧ a.col = b.col ∧ a.level = b.level)

/-- The shuffle target for the front bin before cell x (R39): every deep candidate before every front
one, by cost from x's position; x's own position is excluded. -/
def shuffleTarget (e : Env) (x : CellAddr) (y : Yard) : Option CellAddr :=
  if aisleOff x.aisle y then none
  else
    let v := aisleVals e x.aisle y
    let l := (candidates e x.aisle y).filter fun c => !samePosition c x
    let cost := fun c => saturate (travelTime v (cellPos x) (cellPos c) + forkTime v c.depth)
    match cheapest cost (l.filter fun c => c.depth = .deep) with
    | some (c, _) => some c
    | none => (cheapest cost (l.filter fun c => c.depth = .front)).map (·.1)

/-- The put-away cell of an aisle (R40). -/
def putAwayCell (e : Env) (a : Aisle) (y : Yard) : Option CellAddr :=
  if aisleOff a y then none
  else
    let v := aisleVals e a y
    (cheapest (fun c => saturate (travelTime v mouthPos (cellPos c) + forkTime v c.depth)) (candidates e a y)).map (·.1)

/-- The park placement for a loaded carrier at q, if one lies within the budget (R41). -/
def parkCell (e : Env) (a : Aisle) (q : Nat × Nat) (y : Yard) : Option CellAddr :=
  if aisleOff a y then none
  else
    let v := aisleVals e a y
    match cheapest (fun c => saturate (travelTime v q (cellPos c) + forkTime v c.depth
        + travelTime v (cellPos c) (parkPos e))) (candidates e a y) with
    | some (c, n) => if n ≤ e.budget then some c else none
    | none => none

/-- The fetch estimate of a bin Stored in cell x (R42); none in an Off aisle. -/
def fetchEstimate (e : Env) (x : CellAddr) (y : Yard) : Option Nat :=
  if aisleOff x.aisle y then none
  else
    let v := aisleVals e x.aisle y
    some (saturate (travelTime v (cellPos x) mouthPos + forkTime v x.depth + v.forkFront))

/-- The retrieval estimate of a bin Stored in cell x with the carrier at q (R35, R36): the estimate, with
the shuffle's front bin and target when one is needed; or the block reason. -/
def retrieval (e : Env) (x : CellAddr) (q : Nat × Nat) (y : Yard) :
    Except BlockReason (Nat × Option (Nat × CellAddr)) :=
  let v := aisleVals e x.aisle y
  let p := cellPos x
  match x.depth with
  | .front => .ok (saturate (travelTime v q p + v.forkFront + travelTime v p mouthPos + v.forkFront), none)
  | .deep =>
    match getCell e (atDepth x .front) y with
    | .reserved _ _ | .disabled => .error .frontReserved
    | .unverified _ => .error .unverified
    | .occupied f =>
      match shuffleTarget e x y with
      | none => .error .noRoom
      | some s =>
        .ok (saturate (travelTime v q p + v.forkFront + travelTime v p (cellPos s) + forkTime v s.depth
          + travelTime v (cellPos s) p + v.forkDeep + travelTime v p mouthPos + v.forkFront), some (f, s))
    | .empty | .absent =>
      .ok (saturate (travelTime v q p + v.forkDeep + travelTime v p mouthPos + v.forkFront), none)

/-- An order's score: the estimate less the age credit, which is capped at 1,000 (R37). -/
def score (e : Env) (est entry : Nat) : Int := (est : Int) - (min 1000 ((e.now - entry) * e.cfg.aging) : Nat)

end Sys2Proof.Machine
end

