-- ==== Sys2Proof/Machine/Orders.lean ====
section
/-! DEFINITION. The order queue: evaluation, creation, eligibility, ranking, the Retire course (chapter 4). How
orders leave it is in SpaceOrders.lean, since the trays hear of it. -/

namespace Sys2Proof.Machine

open Sys2Proof

/-! ## Evaluation (R80, R81) -/

/-- What an order in state Queued or Blocked is, by the records as they stand (R80). -/
def orderOutcome (e : Env) (o : Order) (y : Yard) : OrderSt :=
  match getBin o.bin y with
  | none => .blocked .unverified
  | some b =>
    if b.st = .unverified then .blocked .unverified
    else
      match b.st, b.cell with
      | .stored, some x =>
        if aisleOff x.aisle y || surveying x.aisle y || carrierDown y.carriers[x.aisle] then .blocked .aisleDown
        else
          match retrieval e x (carrierPos y.carriers[x.aisle]) y with
          | .ok _ => .queued
          | .error r => .blocked r
      | _, _ => .blocked .inTransit

/-- Whether an order is in state Queued or Blocked. -/
def waitsInQueue (o : Order) : Bool :=
  match o.st with
  | .queued | .blocked _ => true
  | _ => false

/-! ## Entering the queue (R69, R71) -/

/-- The number after one, from 65,535 to 1. -/
def nextNo (n : Nat) : Nat := if n < 65535 then n + 1 else 1

/-- The first free number from n on (R71). -/
def freeNo (l : List Order) : Nat → Nat → Nat
  | 0, n => n
  | f + 1, n => if l.any fun o => o.no = n then freeNo l f (nextNo n) else n

/-- Whether the queue holds 96 orders (R69). -/
def queueFull (y : Yard) : Bool := decide (96 ≤ y.orders.length)

/-- A new order enters at the tail (R69 to R71) and becomes its bin's live order. `st` is the state it
enters in, or none to be evaluated by R80. Answers its number. R71's counter passes over the number of an order in
the queue only here, as the next order enters, and not when it comes to stand at it (assumption 84, DESIGN
CHOICE). -/
def createOrder (e : Env) (cls : OrderClass) (bin : Nat) (station : Station) (picks : List Pick) (retire : Bool)
    (st : Option OrderSt) (y : Yard) : Yard × Nat :=
  let no := freeNo y.orders 97 y.nextOrder
  let o : Order := ⟨no, bin, station, cls, e.now, .queued, false, picks, retire, none⟩
  let o := { o with st := st.getD (orderOutcome e o y) }
  (modBin bin (fun r => { r with live := some no })
    { y with orders := y.orders ++ [o], nextOrder := nextNo no }, no)

/-! ## Eligibility and ranking (R83, R84) -/

/-- The cell an order's bin is Stored in. -/
def storedCell (b : Nat) (y : Yard) : Option CellAddr :=
  match getBin b y with
  | some r => if r.st = .stored then r.cell else none
  | none => none

/-- Whether an order is eligible for dispatch in an aisle (R83). -/
def eligible (e : Env) (a : Aisle) (o : Order) (y : Yard) : Bool :=
  decide (e.wing = .normal) && !y.journal.holdOff && decide (o.st = .queued)
    && (match storedCell o.bin y with | some x => decide (x.aisle = a) | none => false)
    && aisleReady e a y && serves y.stations[o.station].role o.cls && decide (0 < freeAdmission e o.station y)

/-- Class rank with the escalation of a Space order (R84). -/
def classRank (e : Env) (o : Order) (y : Yard) : Nat :=
  match o.cls with
  | .reader => 0
  | .staff => 2
  | .space =>
    match waitingItems y.trays[o.station] with
    | i :: _ => if waitedLimit e i then 0 else 1
    | [] => 1

/-- The retrieval an order would have now: none when its bin is not Stored. -/
def orderRetrieval (e : Env) (o : Order) (y : Yard) : Option (Nat × Option (Nat × CellAddr)) :=
  match storedCell o.bin y with
  | none => none
  | some x =>
    match retrieval e x (carrierPos y.carriers[x.aisle]) y with
    | .ok r => some r
    | .error _ => none

/-- The estimate an order has at this moment: its bin Stored in a ready aisle and R35 giving one (R37). -/
def orderEstimate (e : Env) (o : Order) (y : Yard) : Option Nat :=
  match storedCell o.bin y with
  | some x => if aisleReady e x.aisle y then (orderRetrieval e o y).map (·.1) else none
  | none => none

/-- An order's ranking key: class rank, then score; queue position decides the rest (R84). -/
def rankKey (e : Env) (o : Order) (y : Yard) : Nat × Int :=
  (classRank e o y, score e ((orderEstimate e o y).getD 4095) o.entry)

/-- The order ranked first of a list in queue order. -/
def rankFirst (e : Env) (y : Yard) : List Order → Option Order
  | [] => none
  | o :: t =>
    match rankFirst e y t with
    | none => some o
    | some b =>
      let ko := rankKey e o y
      let kb := rankKey e b y
      if kb.1 < ko.1 ∨ (kb.1 = ko.1 ∧ kb.2 < ko.2) then some b else some o

/-- The eligible orders of an aisle, in queue order. -/
def eligibleOrders (e : Env) (a : Aisle) (y : Yard) : List Order := y.orders.filter fun o => eligible e a o y

/-! ## The Retire course (R11, R78) -/

/-- The station the Retire course chooses: among those neither Closed nor Closing, the largest free
admission, ties to the lower number. -/
def retireStation (e : Env) (y : Yard) : Option Station :=
  argmax (fun st => freeAdmission e st y)
    (stationList.filter fun st => decide (y.stations[st].role ≠ .closed ∧ y.stations[st].role ≠ .closing))

/-- Whether the Retire course asks for an order for a bin. -/
def wantsRetire (r : Bin) : Bool := decide (r.st = .stored) && r.retirePending && r.live.isNone

/-- The Retire course asks for a Staff order for every bin it concerns, while the queue has room. Of several
bins that wait for room, the lowest number goes first (assumption 64, DESIGN CHOICE). -/
def retireCourse (e : Env) (y : Yard) : Yard :=
  (y.bins.filter fun p => wantsRetire p.2).foldl (fun y p =>
    match retireStation e y with
    | some st => if queueFull y then y else (createOrder e .staff p.1 st [] true none y).1
    | none => y) y

end Sys2Proof.Machine
end

