-- ==== Sys2Proof/Machine/SpaceOrders.lean ====
section
/-! DEFINITION. The trays' space-bin choice and its moments (R140 to R142), among them the verification edge
(R147, R148) and an order's leaving the queue (R69, R79, R88). -/

namespace Sys2Proof.Machine

open Sys2Proof

/-! ## The space-bin choice (R140, R141) -/

/-- The least of a list. -/
def least : List Nat → Option Nat
  | [] => none
  | n :: t => some (match least t with | some m => min n m | none => n)

/-- The need: the sum of the Waiting widths, or 600 if that is larger (R140). -/
def trayNeed (t : Tray) : Nat := min 600 ((waitingItems t).map (·.width)).sum

/-- The smallest Waiting width. -/
def smallestWidth (t : Tray) : Option Nat := least ((waitingItems t).map (·.width))

/-- A candidate bin with its free space and fetch estimate (R140). -/
structure SpaceBin where
  bin : Nat
  free : Nat
  fetch : Nat
  deriving DecidableEq, Repr

/-- The candidate a bin record is for a tray whose smallest Waiting width is given (R140). -/
def spaceBin (e : Env) (small b : Nat) (r : Bin) (y : Yard) : Option SpaceBin :=
  match r.st, r.cell with
  | .stored, some x =>
    if !r.damaged && !r.retirePending && r.live.isNone && aisleVerified x.aisle y && decide (small ≤ freeSpace r) then
      (fetchEstimate e x y).map fun f => ⟨b, freeSpace r, f⟩
    else none
  | _, _ => none

/-- Whether one candidate ranks before another for a need (R140). -/
def spaceBefore (need : Nat) (p q : SpaceBin) : Bool :=
  if need ≤ p.free then
    if need ≤ q.free then decide (p.fetch < q.fetch ∨ (p.fetch = q.fetch ∧ p.bin < q.bin)) else true
  else if need ≤ q.free then false
  else
    decide (q.free < p.free ∨ (p.free = q.free ∧ (p.fetch < q.fetch ∨ (p.fetch = q.fetch ∧ p.bin < q.bin))))

/-- The candidate ranked first. -/
def spaceFirst (need : Nat) : List SpaceBin → Option SpaceBin
  | [] => none
  | p :: t =>
    match spaceFirst need t with
    | some q => if spaceBefore need q p then some q else some p
    | none => some p

/-- The bin a tray chooses (R140). A tray with no Waiting item has no smallest width to compare: none. -/
def chooseBin (e : Env) (st : Station) (y : Yard) : Option SpaceBin :=
  match smallestWidth y.trays[st] with
  | none => none
  | some small =>
    spaceFirst (trayNeed y.trays[st]) (y.bins.filterMap fun p => spaceBin e small p.1 p.2 y)

/-- A tray with active demand and no Space order chooses a bin and asks for the order (R140, R141). At a moment of
R140 this is made at once, against the records as they then stand. -/
def spaceChoice (e : Env) (st : Station) (y : Yard) : Yard :=
  let t := y.trays[st]
  if t.demand ∧ t.spaceOrder = none then
    match chooseBin e st y with
    | some c =>
      if queueFull y then modTray st (fun t => { t with refusedFull := true }) y
      else
        let (y, no) := createOrder e .space c.bin st [] false none y
        modTray st (fun t => { t with spaceOrder := some no, noSpace := false, refusedFull := false }) y
    | none =>
      if t.noSpace then y
      else
        notify e .trayNoSpace
          [.u1 (stationNo st), .u2 (waitingCount t), .u2 (trayNeed t), .u1 ((smallestWidth t).getD 0)]
          (modTray st (fun t => { t with noSpace := true }) y)
  else y

/-- A moment of R140 that concerns every tray: each makes its choice, in ascending station number (assumption 93,
DESIGN CHOICE). -/
def trayChoices (e : Env) (y : Yard) : Yard := stationList.foldl (fun y st => spaceChoice e st y) y

/-- An effect that is a moment of R140 in the case given has been applied as a whole, and every tray makes its choice
(assumption 93, DESIGN CHOICE). -/
def choicesWhen (moment : Bool) (e : Env) (y : Yard) : Yard := if moment then trayChoices e y else y

/-! ## Verification (R147, R148) -/

/-- An aisle's verification status is derived again after a change of its cells or of its doubt; when it has become
Verified, every tray makes its choice (R147, R148). -/
def verifyEdge (e : Env) (a : Aisle) (y : Yard) : Yard :=
  let now := aisleVerified a y
  let was := y.verif[a].verified
  choicesWhen (now && !was) e (modVerif a (fun v => { v with verified := now }) y)

/-! ## Leaving the queue (R69, R79, R88, R141, R142) -/

/-- An order's record leaves the queue; the bin's live order number is cleared if it names the order. -/
def dropOrder (no : Nat) (y : Yard) : Yard :=
  let y :=
    match orderOf no y with
    | some o => modBin o.bin (fun r => if r.live = some no then { r with live := none } else r) y
    | none => y
  { y with orders := y.orders.filter fun o => o.no ≠ no }

/-- A tray hears that an order has left the queue. When it was its own Space order (R142), and when its last request
met a full queue (R141), it chooses at once. A request stays the last one until the tray makes another: a choice that
finds no candidate makes none. -/
def trayOrderLeft (e : Env) (no : Nat) (st : Station) (y : Yard) : Yard :=
  if y.trays[st].spaceOrder = some no then
    spaceChoice e st (modTray st (fun t => { t with spaceOrder := none }) y)
  else if y.trays[st].refusedFull then spaceChoice e st y
  else y

/-- Every tray hears that an order has left the queue, in ascending station number (assumption 93, DESIGN CHOICE). -/
def traysOrderLeft (e : Env) (no : Nat) (y : Yard) : Yard :=
  stationList.foldl (fun y st => trayOrderLeft e no st y) y

/-- An order leaves the queue without OrderDone (R79, R89, R142), and the trays hear of it. -/
def removeOrder (e : Env) (no : Nat) (y : Yard) : Yard := traysOrderLeft e no (dropOrder no y)

/-- The counts at close (R88). -/
def pickCounts (l : List Pick) : PickCounts :=
  ⟨l.countP fun p => p.st = .done, l.countP fun p => p.st = .absent, l.countP fun p => p.st = .cancelled,
    l.countP fun p => p.st = .unserved⟩

/-- An order leaves at the close of its session with OrderDone (R88): the notice counts the orders that remain, and
the trays hear of it after. -/
def closeOrder (e : Env) (no : Nat) (y : Yard) : Yard :=
  match orderOf no y with
  | none => y
  | some o =>
    let c := pickCounts o.picks
    let y := dropOrder no (modOrder no (fun o => { o with counts := some c }) y)
    traysOrderLeft e no (notify e .orderDone
      [.u2 no, .u2 o.bin, .u1 (stationNo o.station), .u1 (classCode o.cls), .u2 c.done, .u2 c.absent,
        .u2 c.cancelled, .u2 c.unserved, flag o.retire, .u2 y.orders.length] y)

/-! ## Picks and states of an order in the queue -/

/-- Settle the first Open pick that fits (R114, R115, R117, R79). -/
def settlePick (fits : Pick → Bool) (st : PickSt) : List Pick → List Pick
  | [] => []
  | p :: t => if p.st = .opened ∧ fits p then { p with st := st } :: t else p :: settlePick fits st t

/-- The first Open pick of an order becomes Unserved (R117, R125, R126). -/
def unserveFirst (no : Nat) (y : Yard) : Yard :=
  modOrder no (fun o => { o with picks := settlePick (fun _ => true) .unserved o.picks }) y

/-- Every Open pick of an order becomes Unserved (R125). -/
def unservePicks (no : Nat) (y : Yard) : Yard :=
  modOrder no (fun o => { o with picks := o.picks.map fun p =>
    if p.st = .opened then { p with st := .unserved } else p }) y

/-- An order whose bin a report has moved or lost returns from Assigned or Delivering to evaluation (R85); the
evaluation follows in the same step. -/
def orderToQueue (no : Nat) (y : Yard) : Yard :=
  modOrder no (fun o => match o.st with
    | .assigned | .delivering => { o with st := .queued }
    | _ => o) y

/-- An order whose task has ended without delivery returns from Assigned to evaluation (R54, R85). An order that is no
longer Assigned stands as it is. -/
def untaskOrder (no : Nat) (y : Yard) : Yard :=
  modOrder no (fun o => if o.st = .assigned then { o with st := .queued } else o) y

/-! ## Evaluation after a change (R81, R142) -/

/-- One order's evaluation (R81): a change of state or reason raises OrderBlocked. A tray withdraws a
pickless Space order of its own that becomes Blocked(UNVERIFIED) while demand is active (R142). -/
def evalOrder (e : Env) (no : Nat) (y : Yard) : Yard :=
  match orderOf no y with
  | none => y
  | some o =>
    if waitsInQueue o then
      let st := orderOutcome e o y
      if st = o.st then y
      else
        let y := notify e .orderBlocked [.u2 no, .u2 o.bin, .u1 (orderReasonCode st)]
          (modOrder no (fun o => { o with st := st }) y)
        if st = .blocked .unverified && decide (o.cls = .space) && o.picks.isEmpty && !o.retire
            && stationList.any fun s => y.trays[s].spaceOrder = some no && y.trays[s].demand then
          removeOrder e no y
        else y
    else y

/-- The evaluation of the order a bin's record names (R80, R143). -/
def evalBin (e : Env) (b : Nat) (y : Yard) : Yard :=
  match (getBin b y).bind (·.live) with
  | some no => evalOrder e no y
  | none => y

/-- Every order's evaluation, in queue order (R81). R81 and R154 evaluate at each change of a record the outcome
depends on. The model evaluates after each event that is one change: one cell of a Read or of an AcceptMap, one bin
that a report places, one report held for a LineClear, one reservation that ends ahead of another's choice, one item of
a Cells section, one section of a Configure, and each command as a whole (assumption 13, DESIGN CHOICE). -/
def evalOrders (e : Env) (y : Yard) : Yard := (y.orders.map (·.no)).foldl (fun y no => evalOrder e no y) y

/-- What follows at once the change of one cell of an aisle, and of the bins it concerned: the aisle's verification
status is derived, and then every order is evaluated (R81, R147, R154). -/
def cellChanged (e : Env) (a : Aisle) (y : Yard) : Yard := evalOrders e (verifyEdge e a y)

end Sys2Proof.Machine
end

