-- ==== Sys2Proof/Machine/Trays.lean ====
section
/-! DEFINITION. Return trays: demand, first-fit placement, hand-back, role changes (chapter 7). The space-bin choice
is in SpaceOrders.lean. -/

namespace Sys2Proof.Machine

open Sys2Proof

/-! ## Demand (R135, R137) -/

/-- Whether an edge that falls now makes demand active (R135): it is taken while the wing is Normal and the role
takes returns, and one that falls while demand is active changes nothing. -/
def edgeTaken (e : Env) (st : Station) (y : Yard) : Bool :=
  decide (e.wing = .normal) && takesReturns y.stations[st].role && !y.trays[st].demand

/-- Demand becomes active, or begins afresh at a Drain edge (R135, R138). -/
def beginDemand (st : Station) (y : Yard) : Yard :=
  modTray st (fun t => { t with demand := true, placed := 0, noSpace := false }) y

/-- A demand edge (R135): demand becomes active, and the space-bin choice is then made. -/
def demandEdge (e : Env) (st : Station) (y : Yard) : Yard :=
  if edgeTaken e st y then spaceChoice e st (beginDemand st y) else y

/-- Demand ends (R137); the count is kept. -/
def demandEnd (st : Station) (y : Yard) : Yard := modTray st (fun t => { t with demand := false }) y

/-- Whether the Waiting count has risen from Th or less to more than Th (R135). -/
def countRose (e : Env) (before : Nat) (t : Tray) : Bool := decide (before ≤ e.cfg.th ∧ e.cfg.th < waitingCount t)

/-- The level condition of R135. -/
def levelCondition (e : Env) (t : Tray) : Bool :=
  decide (e.cfg.th < waitingCount t) || (waitingItems t).any fun i => i.mark

/-- The level edge, on entering Normal or when a role opens (R135). -/
def levelEdge (e : Env) (st : Station) (y : Yard) : Yard :=
  if levelCondition e y.trays[st] then demandEdge e st y else y

/-- Update the item of a code in a tray. -/
def modItem (st : Station) (c : ItemCode) (f : TrayItem → TrayItem) (y : Yard) : Yard :=
  modTray st (fun t => { t with items := t.items.map fun i => if i.item = c then f i else i }) y

/-- A Waiting item's limit mark is set: a limit edge (R136). -/
def markLimit (e : Env) (st : Station) (c : ItemCode) (y : Yard) : Yard :=
  demandEdge e st (modItem st c (fun i => { i with mark := true }) y)

/-- Mark every Waiting item that has waited the limit and carries no mark (R130, R136). -/
def markWaited (e : Env) (st : Station) (y : Yard) : Yard :=
  ((waitingItems y.trays[st]).filter fun i => !i.mark && waitedLimit e i).foldl
    (fun y i => markLimit e st i.item y) y

/-- The first placement of a station's session is handed back (R134): it leaves the list and its item is Waiting
again at its place; the display is updated; an item that reached the limit while Assigned is marked (R136); and the
demand test is made for the rise, with the choice that an edge calls for. -/
def handBack (e : Env) (st : Station) (p : Placement) (y : Yard) : Yard :=
  let before := waitingCount y.trays[st]
  let y := modSession st (fun s => { s with placements := s.placements.drop 1 }) y
  let y := showStation st (modItem st p.item (fun i => { i with st := .waiting }) y)
  let y := if (y.trays[st].items.any fun i => i.item = p.item && !i.mark && waitedLimit e i) then markLimit e st p.item y
    else y
  if countRose e before y.trays[st] then demandEdge e st y else y

/-- Every placement of a station's session is handed back, one at a time in list order (R117, R126, R134). -/
def handBackAll (e : Env) (st : Station) (y : Yard) : Yard :=
  match y.stations[st].session with
  | none => y
  | some s => s.placements.foldl (fun y p => handBack e st p y) y

/-! ## First fit (R131, R132) -/

/-- Offer one Waiting item to a station's session (R132): assigned when it fits and the list has room. -/
def offer (st : Station) (i : TrayItem) (y : Yard) : Yard :=
  match y.stations[st].session with
  | none => y
  | some s =>
    match getBin s.bin y with
    | none => y
    | some b =>
      if i.width ≤ freeSpace b - placedWidth s.placements ∧ s.placements.length < 8 then
        modItem st i.item (fun i => { i with st := .assigned s.bin })
          (modSession st (fun s => { s with placements := s.placements ++ [⟨i.item, i.width⟩], armed := true }) y)
      else y

/-- Whether a first-fit pass may assign at a station (R131). -/
def passAllowed (st : Station) (y : Yard) : Bool :=
  takesReturns y.stations[st].role &&
    match y.stations[st].session with
    | some s => !s.releasing &&
        (match getBin s.bin y with | some b => !b.damaged && !b.retirePending | none => false)
    | none => false

/-- A first-fit pass at a station (R131, R132), after which one display update carries the list; a pass that leaves
no Waiting item ends demand (R137). -/
def firstFit (st : Station) (y : Yard) : Yard :=
  let offered := waitingItems y.trays[st]
  if passAllowed st y && !offered.isEmpty then
    let y := showStation st (offered.foldl (fun y i => offer st i y) y)
    if waitingCount y.trays[st] = 0 then demandEnd st y else y
  else y

/-! ## Role changes (R89, R131, R135, R137) -/

/-- An order addressed to a station whose role has changed (R89). One that no station serves keeps its
station, and is looked at again when that station's role changes next (assumption 65, DESIGN CHOICE). -/
def readdress (e : Env) (st : Station) (role : Role) (o : Order) (y : Yard) : Yard :=
  if o.station = st && waitsInQueue o then
    if decide (o.cls = .space) && o.picks.isEmpty && !takesReturns role then removeOrder e o.no y
    else if serves role o.cls then y
    else
      match anyStation e o.cls y with
      | some s => modOrder o.no (fun o => { o with station := s }) y
      | none => y
  else y

/-- A role opens to returns (R131, R135): the level condition is tested before the first-fit pass is made (assumption
80, DESIGN CHOICE), and the choice that an edge calls for follows the pass, as at an intake (R129). -/
def roleOpens (e : Env) (st : Station) (y : Yard) : Yard :=
  let edge := levelCondition e y.trays[st] && edgeTaken e st y
  let y := firstFit st (if edge then beginDemand st y else y)
  if edge then spaceChoice e st y else y

/-- A station takes another role (R107): a role that takes no returns ends demand at that moment (R137), and then the
order queue (R89) and the tray are told. -/
def setRole (e : Env) (st : Station) (role : Role) (y : Yard) : Yard :=
  if y.stations[st].role = role then y
  else
    let y := modStation st (fun r => { r with role := role }) y
    let y := if takesReturns role then y else demandEnd st y
    let y := y.orders.foldl (fun y o => readdress e st role o y) y
    if takesReturns role then roleOpens e st y else y

/-- Closing is taken and left with the committed count of a station configured Closed (R107). -/
def syncRole (e : Env) (st : Station) (y : Yard) : Yard :=
  if e.cfg.stations[st].role = .closed then
    setRole e st (if committed st y = 0 then .closed else .closing) y
  else y

/-- R107 at every station. -/
def syncRoles (e : Env) (y : Yard) : Yard := stationList.foldl (fun y st => syncRole e st y) y

end Sys2Proof.Machine
end

