-- ==== Sys2Proof/Machine/Sessions.lean ====
section
/-! DEFINITION. Lending sessions: opening, releasing, closing, removal and timers (chapter 6). -/

namespace Sys2Proof.Machine

open Sys2Proof

/-- A station joins the tail of the release arbiter's list, which holds it at most once (R99). -/
def joinRelease (st : Station) (y : Yard) : Yard :=
  modLines (fun l => if l.releaseList.contains st then l else { l with releaseList := l.releaseList ++ [st] }) y

/-- A station leaves the release arbiter's list. -/
def leaveRelease (st : Station) (y : Yard) : Yard :=
  modLines (fun l => { l with releaseList := l.releaseList.filter fun s => s ≠ st }) y

/-- A session closes (R124): its order leaves with OrderDone; an orphan session closes with none. -/
def closeSession (e : Env) (st : Station) (y : Yard) : Yard :=
  match y.stations[st].session with
  | none => y
  | some s =>
    let y := modStation st (fun r => { r with session := none }) y
    match s.order with
    | some no => closeOrder e no y
    | none => y

/-- An order becomes closing: it keeps its place, and is no longer its bin's live order (R87). -/
def orderClosing (no : Nat) (y : Yard) : Yard :=
  let y :=
    match orderOf no y with
    | some o => modBin o.bin (fun r => if r.live = some no then { r with live := none } else r) y
    | none => y
  modOrder no (fun o => { o with closing := true }) y

/-- The number of Open picks of a session's order. -/
def openPicks (s : Session) (y : Yard) : Nat :=
  match sessionOrder s y with
  | some o => (o.picks.filter fun p => p.st = .opened).length
  | none => 0

/-- Open picks of a session's order become Unserved in pick-list order, each with its display update (R113, R117). -/
def unserveEach (st : Station) (no : Nat) : Nat → Yard → Yard
  | 0, y => y
  | n + 1, y => unserveEach st no n (showStation st (unserveFirst no y))

/-- Steps 1 and 2 of R117, which R126 takes too: every Open pick of the session's order becomes Unserved, and every
placement is handed back. -/
def dropWork (e : Env) (st : Station) (s : Session) (y : Yard) : Yard :=
  handBackAll e st (match s.order with | some no => unserveEach st no (openPicks s y) y | none => y)

/-- An Open session enters Releasing, by the steps of R117. The display goes to Releasing at step 5; a RetirePending
bin's session then closes, and the display to Remove (R113, R124). -/
def enterReleasing (e : Env) (st : Station) (y : Yard) : Yard :=
  match y.stations[st].session with
  | none => y
  | some s =>
    if s.releasing then y
    else
      let y := dropWork e st s y
      let y := modSession st (fun s => { s with releasing := true, idle := none, auto := none, met := false }) y
      let y := showStation st (match s.order with | some no => orderClosing no y | none => y)
      if retirePendingBin s.bin y then showStation st (closeSession e st y) else joinRelease st y

/-- A session ends because its bin has left the Present place (R126). The display, with no bin, follows when the
place has been emptied. -/
def removeSession (e : Env) (st : Station) (y : Yard) : Yard :=
  match y.stations[st].session with
  | none => y
  | some s => closeSession e st (leaveRelease st (dropWork e st s y))

/-- The Delivering order for a bin, if there is one. -/
def deliveringOrder (b : Nat) (y : Yard) : Option Order :=
  y.orders.find? fun o => o.bin = b ∧ o.st = .delivering

/-- Whether a session is armed at opening (R112). -/
def armedAtOpen (o : Option Order) (retirePending : Bool) : Bool :=
  retirePending ||
    match o with
    | some o => decide (o.cls = .reader ∨ o.cls = .space) || !o.picks.isEmpty
    | none => false

/-- A session opens on the bin in the Present place of a station that has none (R111), which its display shows (R113)
before the first-fit pass and the open-time check. -/
def openSession (e : Env) (st : Station) (y : Yard) : Yard :=
  match y.stations[st].session, y.stations[st].present with
  | none, some p =>
    let o := deliveringOrder p.bin y
    let y := match o with | some o => modOrder o.no (fun o => { o with st := .atStation }) y | none => y
    let s : Session :=
      { bin := p.bin, order := o.map (·.no), releasing := false
        armed := armedAtOpen o (retirePendingBin p.bin y), placements := []
        idle := some e.cfg.idleTimeout, auto := none, opened := e.now, met := false }
    let y := modStation st (fun r => { r with session := some s }) y
    let y := notify e .sessionOpen
      [.u1 (stationNo st), .u2 p.bin, opt2 s.order, .u1 ((o.map fun o => classCode o.cls).getD 0)] y
    let y := firstFit st (showStation st y)
    match y.stations[st].session with
    | some s => if s.armed && !sessionOpenPick s y && s.placements.isEmpty then enterReleasing e st y else y
    | none => y
  | _, _ => y

/-- Whether a session meets the release condition (R119). -/
def releaseCondition (s : Session) (y : Yard) : Bool :=
  !s.releasing && s.armed && !sessionOpenPick s y && s.placements.isEmpty

/-- The auto-release timer follows the release condition (R119): set to the delay when the session comes
to meet it and the delay is not 0, unset when it stops meeting it. -/
def syncAuto (e : Env) (st : Station) (y : Yard) : Yard :=
  match y.stations[st].session with
  | none => y
  | some s =>
    let now := releaseCondition s y
    modSession st (fun s =>
      { s with
        met := now
        auto := if now then (if s.met then s.auto else if e.cfg.autoDelay = 0 then none else some e.cfg.autoDelay) else none }) y

/-- R119 at every station. -/
def syncAutos (e : Env) (y : Yard) : Yard := stationList.foldl (fun y st => syncAuto e st y) y

/-- The auto-release timer expires (R119). An expiry taken after the timer has been set again or unset does
not happen, and out of Normal it is put off (R121). -/
def autoExpires (e : Env) (st : Station) (y : Yard) : Yard :=
  match y.stations[st].session with
  | none => y
  | some s => if s.auto = some 0 ∧ e.wing = .normal then enterReleasing e st y else y

/-- The idle timer expires (R120): the session enters Releasing, and SessionTimeout is raised. An expiry
taken after a staff act has reset the timer does not happen, and out of Normal it is put off (R121). -/
def idleExpires (e : Env) (st : Station) (y : Yard) : Yard :=
  match y.stations[st].session with
  | none => y
  | some s =>
    if s.idle = some 0 ∧ e.wing = .normal then
      notify e .sessionTimeout
        [.u1 (stationNo st), .u2 s.bin, opt2 s.order, .u2 (openPicks s y), .u2 s.placements.length] (enterReleasing e st y)
    else y

/-- The expiries that the wing's leaving Normal has put off happen on its return (R121). Where both timers of one
session have been put off, the auto-release goes first, and the idle expiry then finds the session Releasing and raises
no SessionTimeout (assumption 110, DESIGN CHOICE). -/
def putOffExpiries (e : Env) (st : Station) (y : Yard) : Yard := idleExpires e st (autoExpires e st y)

/-- A staff act at an Open session resets the idle timer (R120). -/
def staffAct (e : Env) (st : Station) (y : Yard) : Yard :=
  modSession st (fun s => if s.releasing then s else { s with idle := some e.cfg.idleTimeout }) y

/-- A pick or an order has come to a session: it is armed (R112, R122). -/
def armSession (st : Station) (y : Yard) : Yard := modSession st (fun s => { s with armed := true }) y

/-- The station whose session works on an order. -/
def sessionOn (no : Nat) (y : Yard) : Option Station :=
  stationList.find? fun st =>
    match y.stations[st].session with
    | some s => decide (s.order = some no)
    | none => false

/-- The station at whose session a bin stands. -/
def sessionOfBin (b : Nat) (y : Yard) : Option Station :=
  stationList.find? fun st =>
    match y.stations[st].session with
    | some s => decide (s.bin = b)
    | none => false

end Sys2Proof.Machine
end

