-- ==== Sys2Proof/Machine/Lines.lean ====
section
/-! DEFINITION. The line controller: transfers, diversion, advance, release, aisle assignment, the
return-line head (chapter 5). The merge grant is in Arbiter.lean, where the carrier takes it up. -/

namespace Sys2Proof.Machine

open Sys2Proof

/-! ## Transfers (R93, R94) -/

/-- Begin a transfer: a command to the line's drive with a new transfer number and a deadline of 100 ds. -/
def beginTransfer (l : LineId) (k : TransferKind) (b : Nat) (y : Yard) : Yard :=
  let t : Transfer := ⟨(lineRec l y).lastNo + 1, k, b, 100⟩
  send (.transfer l t) (modLine l (fun r => { r with lastNo := t.no, transfers := r.transfers ++ [t] }) y)

/-- The transfer in flight of a number. -/
def transferOf (l : LineId) (no : Nat) (y : Yard) : Option Transfer :=
  (lineRec l y).transfers.find? fun t => t.no = no

/-- A transfer is settled. -/
def endTransfer (l : LineId) (no : Nat) (y : Yard) : Yard :=
  modLine l (fun r => { r with transfers := r.transfers.filter fun t => t.no ≠ no }) y

/-- Whether a transfer of a kind is in flight on a line. -/
def inFlight (l : LineId) (k : TransferKind) (y : Yard) : Bool := (lineRec l y).transfers.any fun t => t.kind = k

/-- A transfer is cut: its bin stays at its source, and a release gives its station back the head of the
release list (R94, R99). -/
def cutTransfer (t : Transfer) (y : Yard) : Yard :=
  match t.kind with
  | .release st =>
    match y.stations[st].session with
    | some s =>
      if s.releasing ∧ s.bin = t.bin then
        modLines (fun l => { l with releaseList := st :: l.releaseList.filter fun x => x ≠ st }) y
      else y
    | none => y
  | _ => y

/-- Every transfer in flight on a line is cut (R94). -/
def cutTransfers (l : LineId) (y : Yard) : Yard :=
  let ts := (lineRec l y).transfers
  ts.foldl (fun y t => cutTransfer t y) (modLine l (fun r => { r with transfers := [] }) y)

/-- A line becomes Faulted: its drive is halted and its transfers are cut (R94). -/
def lineFaulted (l : LineId) (f : LineFault) (y : Yard) : Yard :=
  cutTransfers l (send (.lineHalt l) (modLine l (fun r => { r with st := .faulted, fault := some f }) y))

/-- A line becomes Halted and its transfers are cut (R104). -/
def lineHalted (l : LineId) (y : Yard) : Yard :=
  cutTransfers l (modLine l (fun r => { r with st := .halted, fault := none }) y)

/-- Whether transfers may begin on a line (R93). -/
def lineOpen (e : Env) (l : LineId) (y : Yard) : Bool :=
  decide (e.wing = .normal) && decide ((lineRec l y).st = .running)

/-- Whether a held report is a station's full report. -/
def heldFull (st : Station) : HeldReport → Bool
  | .full x _ _ => decide (x = st)
  | .contents _ _ _ => false

/-- A held full report with a change that its station has had since (assumption 72). -/
def freshened (st : Station) (p : StPlace) (v : Option Nat) (r : HeldReport) : HeldReport :=
  match r, p with
  | .full x n q, .next => if x = st then .full x v q else .full x n q
  | .full x n q, .present => if x = st then .full x n v else .full x n q
  | r, _ => r

/-- A station's place changes while a full report of it is held for a LineClear: the held report follows
(assumption 72). -/
def freshen (st : Station) (p : StPlace) (v : Option Nat) (y : Yard) : Yard :=
  modLine .delivery (fun r => { r with clear := r.clear.map fun w => { w with held := w.held.map (freshened st p v) } }) y

/-! ## Delivery line (R96, R97) -/

/-- Whether a diversion to any station is in flight. -/
def divertingAny (y : Yard) : Bool :=
  y.lines.del.transfers.any fun t => match t.kind with | .diversion _ => true | _ => false

/-- The head of the delivery line is diverted when R96's conditions hold. -/
def diversionTest (e : Env) (y : Yard) : Yard :=
  match y.lines.delivery with
  | [] => y
  | p :: _ =>
    if lineOpen e .delivery y && !divertingAny y && y.stations[p.station].next.isNone then
      beginTransfer .delivery (.diversion p.station) p.bin y
    else y

/-- A station's Next bin advances when R97's conditions hold. -/
def advanceTest (e : Env) (st : Station) (y : Yard) : Yard :=
  match y.stations[st].next with
  | none => y
  | some p =>
    if lineOpen e .delivery y && !inFlight .delivery (.advance st) y && y.stations[st].present.isNone then
      beginTransfer .delivery (.advance st) p.bin y
    else y

/-- Whether a place record holds a bin. -/
def holds (b : Nat) (p : Option PlaceBin) : Bool :=
  match p with
  | some q => decide (q.bin = b)
  | none => false

/-- A diversion's completion (R96). The transfer is settled; the bin moves if it still stands at its source
and the target is free, which a terminal's report may have changed meanwhile (assumption 21). -/
def diversionDone (st : Station) (t : Transfer) (y : Yard) : Yard :=
  let y := endTransfer .delivery t.no y
  match y.lines.delivery.find? fun p => p.bin = t.bin with
  | none => y
  | some p =>
    if y.stations[st].next.isSome then y
    else
      let y := modLines (fun l => { l with delivery := l.delivery.filter fun p => p.bin ≠ t.bin }) y
      modBin t.bin (fun r => placed r .atStation none none (some st))
        (modStation st (fun r => { r with next := some ⟨t.bin, p.source⟩ }) y)

/-- An advance's completion: the bin stands in the Present place and a session opens on it (R97). -/
def advanceDone (e : Env) (st : Station) (t : Transfer) (y : Yard) : Yard :=
  let y := endTransfer .delivery t.no y
  if holds t.bin y.stations[st].next && y.stations[st].present.isNone then
    openSession e st (modStation st (fun r => { r with next := none, present := r.next }) y)
  else y

/-! ## Return line (R98 to R101) -/

/-- An aisle's number of placement candidates. -/
def candidateCount (e : Env) (a : Aisle) (y : Yard) : Nat := (candidates e a y).length

/-- Whether an aisle qualifies for an assignment (R98). -/
def qualifies (e : Env) (a : Aisle) (y : Yard) : Bool := aisleIn e a && !aisleOff a y && hasCandidate e a y

/-- The aisle assigned to a bin entering the return line (R98). -/
def assignAisle (e : Env) (source : Option Aisle) (y : Yard) : Aisle :=
  match source with
  | some a =>
    if qualifies e a y then a
    else
      match argmax (fun a => (candidateCount e a y : Int)) (aisles.filter fun a => qualifies e a y) with
      | some b => b
      | none => if aisleIn e a then a else 0
  | none => (argmax (fun a => (candidateCount e a y : Int)) (aisles.filter fun a => qualifies e a y)).getD 0

/-- A bin joins the tail of the return line with an assigned aisle and becomes OnReturn (R92, R98). -/
def joinReturn (e : Env) (b : Nat) (source : Option Aisle) (y : Yard) : Yard :=
  let a := assignAisle e source y
  modBin b (fun r => placed r .onReturn none (some a) none)
    (modLines (fun l => { l with returns := l.returns ++ [⟨b, a⟩] }) y)

/-- The release arbiter grants the head of its list when R99's conditions hold. -/
def releaseTest (e : Env) (y : Yard) : Yard :=
  match y.lines.releaseList with
  | [] => y
  | st :: _ =>
    match y.stations[st].present with
    | none => y
    | some p =>
      if lineOpen e .ret y && !(y.lines.ret.transfers.any isRelease) && decide (returnCommitted y < 12) then
        beginTransfer .ret (.release st) p.bin (leaveRelease st y)
      else y

/-- A release transfer's completion (R99): the bin leaves, the session closes, and the display is updated with no bin
(R124). A bin that a full report has lost from the Present place since
joins the return line all the same (assumption 21). A session that full reports have opened anew on the bin meanwhile
closes here too, Open or Releasing, and with no more than this (assumption 111, DESIGN CHOICE). -/
def releaseDone (e : Env) (st : Station) (t : Transfer) (y : Yard) : Yard :=
  let y := endTransfer .ret t.no y
  if holds t.bin y.stations[st].present then
    let source := y.stations[st].present.bind (·.source)
    freshen st .present none (showStation st
      (closeSession e st (joinReturn e t.bin source (modStation st (fun r => { r with present := none }) y))))
  else
    match getBin t.bin y with
    | some r => if r.st = .unverified then joinReturn e t.bin none y else y
    | none => y

/-- Whether an inbound diversion is in flight. -/
def inboundAny (y : Yard) : Bool :=
  y.lines.ret.transfers.any fun t => match t.kind with | .inbound _ => true | _ => false

/-- Whether an aisle qualifies for the head of the return line (R100). -/
def qualifiesHead (e : Env) (a : Aisle) (y : Yard) : Bool := aisleReady e a y && hasCandidate e a y

/-- Record another aisle for the head of the return line and its bin (R100). -/
def reassignHead (a : Aisle) (y : Yard) : Yard :=
  match y.lines.returns with
  | [] => y
  | h :: t =>
    modBin h.bin (fun r => { r with aisle := some a })
      (modLines (fun l => { l with returns := ⟨h.bin, a⟩ :: t, headFull := none }) y)

/-- The head's assignment is tested, and WingFull raised once while it waits for want of an aisle (R100). An aisle that
qualifies while the line is empty counts as one that has qualified in between. -/
def headTest (e : Env) (y : Yard) : Yard :=
  match y.lines.returns with
  | [] => if aisles.any fun a => qualifiesHead e a y then modLines (fun l => { l with headFull := none }) y else y
  | h :: _ =>
    if inboundAny y then y
    else if qualifiesHead e h.aisle y then modLines (fun l => { l with headFull := none }) y
    else
      match argmax (fun a => (candidateCount e a y : Int)) (aisles.filter fun a => qualifiesHead e a y) with
      | some a => reassignHead a y
      | none =>
        if y.lines.headFull = some h.bin then y
        else
          notify e .wingFull [.u1 0, .u2 h.bin, .u1 0] (modLines (fun l => { l with headFull := some h.bin }) y)

/-- The head is diverted into its aisle's inbound place when R100's conditions hold. -/
def inboundTest (e : Env) (y : Yard) : Yard :=
  match y.lines.returns with
  | [] => y
  | h :: _ =>
    if lineOpen e .ret y && !inboundAny y && qualifiesHead e h.aisle y && y.lines.inbound[h.aisle].isNone then
      beginTransfer .ret (.inbound h.aisle) h.bin y
    else y

/-- An inbound diversion's completion (R101). -/
def inboundDone (a : Aisle) (t : Transfer) (y : Yard) : Yard :=
  let y := endTransfer .ret t.no y
  if (y.lines.returns.any fun p => p.bin = t.bin) && y.lines.inbound[a].isNone then
    modBin t.bin (fun r => placed r .inbound none (some a) none)
      (modLines (fun l => { l with
        returns := l.returns.filter (fun p => p.bin ≠ t.bin), inbound := l.inbound.set a (some t.bin) }) y)
  else y

/-- Every test of the lines but the merge grant. -/
def lineTests (e : Env) (y : Yard) : Yard :=
  inboundTest e (headTest e (releaseTest e (diversionTest e (stationList.foldl (fun y st => advanceTest e st y) y))))

end Sys2Proof.Machine
end

