-- ==== Sys2Proof/Machine/Surveys.lean ====
section
/-! DEFINITION. Surveys: scope, positions, reconciliation of readings, ending (chapter 8). -/

namespace Sys2Proof.Machine

open Sys2Proof

/-! ## Scope and positions (R151, R152) -/

/-- The columns from start to stop. -/
def columnRange (start stop : Nat) : List Nat := (List.range (stop + 1 - start)).map (· + start)

/-- The survey's scope (R151). -/
def surveyScope (e : Env) (a : Aisle) (q : SurveyReq) (y : Yard) : List CellAddr :=
  if q.full then
    (aisleCells e.cfg.geometry a).filter fun c =>
      decide (q.startCol ≤ c.col ∧ c.col ≤ q.stopCol) &&
        match getCell e c y with | .absent | .disabled => false | _ => true
  else
    ((unverifiedCells a y).map (·.1)).filter fun c => decide (q.startCol ≤ c.col ∧ c.col ≤ q.stopCol)

/-- A Full survey's positions: columns ascending, the levels alternately upward and downward. -/
def fullPositions (levels : Nat) : Bool → List Nat → List (Nat × Nat)
  | _, [] => []
  | up, c :: t =>
    let ls := List.range levels
    ((if up then ls else ls.reverse).map fun l => (c, l)) ++ fullPositions levels (!up) t

/-- A Spot survey's positions: those with a scope cell, by column and then level. -/
def spotPositions (levels : Nat) (cols : List Nat) (scope : List CellAddr) : List (Nat × Nat) :=
  (cols.flatMap fun c => (List.range levels).map fun l => (c, l)).filter fun p =>
    scope.any fun x => x.col = p.1 ∧ x.level = p.2

/-- The survey a request becomes when it is begun (R151). -/
def surveyRun (e : Env) (a : Aisle) (q : SurveyReq) (y : Yard) : SurveyRun :=
  let scope := surveyScope e a q y
  let cols := columnRange q.startCol q.stopCol
  { full := q.full, startCol := q.startCol, stopCol := q.stopCol, scope := scope
    todo := if q.full then fullPositions e.cfg.geometry.levels true cols
      else spotPositions e.cfg.geometry.levels cols scope
    reading := false, scopeRead := [], corrected := [], unreadable := 0, incomplete := 0, shadowed := 0
    conflicts := 0, displaced := 0, ended := false }

/-! ## Ending (R150, R156, R158) -/

/-- A survey's counts in the order R156 lists them. -/
def surveyCounts (r : SurveyRun) : List Fld :=
  [.u2 r.scope.length, .u2 r.scopeRead.length, .u2 r.corrected.length, .u2 r.unreadable, .u2 r.incomplete,
    .u2 r.shadowed, .u2 r.conflicts, .u2 r.displaced]

/-- A survey kind's code. -/
def surveyKind (full : Bool) : Nat := if full then 2 else 1

/-- Whether a survey that has read its last position passes (R156). -/
def surveyPass (r : SurveyRun) : Bool :=
  decide (r.scopeRead.length + r.shadowed = r.scope.length ∧ r.unreadable = 0 ∧ r.incomplete = 0
    ∧ r.conflicts = 0 ∧ r.displaced = 0)

/-- An aisle's verification status in the order R147 lists it: Verified, Unverified. -/
def verifCode (a : Aisle) (y : Yard) : Nat := if aisleVerified a y then 1 else 2

/-- A survey has read its last position (R156): the doubt is cleared by a Pass of a Full survey over every
column, the status that this gives is derived at that change (R147), and AisleSurveyed is raised. -/
def surveyEnd (e : Env) (a : Aisle) (r : SurveyRun) (y : Yard) : Yard :=
  let pass := surveyPass r
  let y :=
    if pass ∧ r.full ∧ r.startCol = 1 ∧ r.stopCol = e.cfg.geometry.columns then
      verifyEdge e a (modVerif a (fun v => { v with doubt := false }) y)
    else y
  notify e .aisleSurveyed
    ([.u1 (aisleNo a), .u1 (surveyKind r.full), .u2 r.startCol, .u2 r.stopCol, .u1 (if pass then 1 else 2)]
      ++ surveyCounts r ++ [.u1 (verifCode a y), flag y.verif[a].doubt]) y

/-- A survey ends Aborted (R158), or a held request is dropped before it began (R150), which the notice
indicates. The layout is that of assumption 71. -/
def surveyAborted (e : Env) (a : Aisle) (r : SurveyRun) (begun : Bool) (y : Yard) : Yard :=
  notify e .aisleSurveyed
    ([.u1 (aisleNo a), .u1 (surveyKind r.full), .u2 r.startCol, .u2 r.stopCol, .u1 3]
      ++ surveyCounts r ++ [flag !begun, .u2 (r.scope.length - r.scopeRead.length), .u1 (verifCode a y),
        flag y.verif[a].doubt]) y

/-- A held survey request is dropped at Parking or Sealing (R150). -/
def dropRequest (e : Env) (a : Aisle) (y : Yard) : Yard :=
  match y.arbs[a].surveyReq with
  | none => y
  | some q =>
    surveyAborted e a ⟨q.full, q.startCol, q.stopCol, [], [], false, [], [], 0, 0, 0, 0, 0, false⟩ false
      (modArb a (fun r => { r with surveyReq := none }) y)

/-! ## Reconciliation (R154, R155) -/

/-- A bin recorded in a cell, Stored there or Unverified with it as last known cell, becomes Unverified
with no cell; bin `except` is left. -/
def loseBinsAt (a : CellAddr) (keep : Option Nat) (y : Yard) : Yard :=
  { y with bins := y.bins.map fun (b, r) =>
      if r.cell = some a ∧ some b ≠ keep then (b, placed r .unverified none none none) else (b, r) }

/-- Record that a reconciliation changed a cell. -/
def correct (e : Env) (a : CellAddr) (old : Cell) (y : Yard) (r : SurveyRun) : SurveyRun :=
  if getCell e a y = old ∨ r.corrected.contains a then r else { r with corrected := r.corrected ++ [a] }

/-- A bin Stored in another cell is displaced: that cell becomes Unverified naming it (R154). -/
def displace (e : Env) (x : CellAddr) (b : Nat) (y : Yard) (r : SurveyRun) : Yard × SurveyRun :=
  let old := getCell e x y
  let y := setCell e x (.unverified (some b)) y
  let r := correct e x old y r
  (y, if r.scopeRead.contains x then { r with displaced := r.displaced + 1 } else r)

/-- A cell is read holding bin B (R154). The changes of the bin's attributes and fill are handed to the journal before
this cell's, and after that of a cell the bin is displaced from (assumption 106, DESIGN CHOICE). -/
def readBin (e : Env) (a : CellAddr) (b : Nat) (y : Yard) (r : SurveyRun) : Yard × SurveyRun :=
  let old := getCell e a y
  if old = .disabled then (y, { r with conflicts := r.conflicts + 1 })
  else
    let rec' := getBin b y
    let conflict : Bool := match rec' with | some q => inPlace q | none => false
    let agrees : Bool := match rec' with | some q => decide (q.st = .stored ∧ q.cell = some a) | none => false
    let elsewhere : Option CellAddr := match rec' with | some q => if q.st = .stored then q.cell else none | none => none
    if conflict then
      let y := setCell e a (.unverified (some b)) (loseBinsAt a (some b) y)
      (y, correct e a old y { r with conflicts := r.conflicts + 1 })
    else if agrees then
      let y := setCell e a (.occupied b) (loseBinsAt a (some b) y)
      (y, correct e a old y r)
    else
      let (y, r) := match elsewhere with | some x => displace e x b y r | none => (y, r)
      let y := binStored b a (setCell e a (.occupied b) (ensureBin b (loseBinsAt a (some b) y)))
      (y, correct e a old y r)

/-- A cell is read empty (R155). -/
def readEmpty (e : Env) (a : CellAddr) (y : Yard) (r : SurveyRun) : Yard × SurveyRun :=
  let old := getCell e a y
  if old = .disabled then (y, r)
  else
    let y := setCell e a .empty (loseBinsAt a none y)
    (y, correct e a old y r)

/-- A cell is read unreadable (R155). -/
def readUnreadable (e : Env) (a : CellAddr) (y : Yard) (r : SurveyRun) : Yard × SurveyRun :=
  let r := if r.scope.contains a then { r with unreadable := r.unreadable + 1 } else r
  let old := getCell e a y
  match old with
  | .disabled => (y, { r with conflicts := r.conflicts + 1 })
  | .empty | .reserved _ _ =>
    let y := setCell e a (.unverified none) y
    (y, correct e a old y r)
  | .occupied b =>
    let y := binLost b (some a) (setCell e a (.unverified (some b)) y)
    (y, correct e a old y r)
  | _ => (y, r)

/-- One cell's reading is applied and counted (R153). A tag outside 1 to 20,480 is unreadable. -/
def readCell (e : Env) (a : CellAddr) (t : TagRead) (y : Yard) (r : SurveyRun) : Yard × SurveyRun :=
  let (y, r) :=
    match t with
    | .bin b => if binOk b then readBin e a b y r else readUnreadable e a y r
    | .empty => readEmpty e a y r
    | .unreadable => readUnreadable e a y r
  (y, if r.scope.contains a then { r with scopeRead := r.scopeRead ++ [a] } else r)

/-- A deep cell left unread behind a front that was read (R153, R156). -/
def unreadDeep (a : CellAddr) (front : TagRead) (r : SurveyRun) : SurveyRun :=
  if r.scope.contains a then
    match front with
    | .bin b => if r.full ∧ binOk b then { r with shadowed := r.shadowed + 1 } else { r with incomplete := r.incomplete + 1 }
    | _ => { r with incomplete := r.incomplete + 1 }
  else r

/-- One cell of a Read: its reading is applied, and at that change its aisle's status is derived (R147) and every
order is evaluated (R81, R154), so that a bin which one cell makes Unverified and a later cell finds again has been
Unverified for its order between. A bin that the reading displaces from another aisle's cell makes that aisle
Unverified; its status is derived with the command's other changes, since no later cell of the Read can make it
Verified again. -/
def readNext (e : Env) (a : CellAddr) (t : TagRead) (y : Yard) (r : SurveyRun) : Yard × SurveyRun :=
  let (y, r) := readCell e a t y r
  (cellChanged e a.aisle y, r)

/-- One side of a Read: the front cell, and the deep cell when the front was read empty (R153). -/
def readSide (e : Env) (front : CellAddr) (t : SideRead) (y : Yard) (r : SurveyRun) : Yard × SurveyRun :=
  let (y, r) := readNext e front t.front y r
  let deep := atDepth front .deep
  if t.front = .empty then readNext e deep t.deep y r else (y, unreadDeep deep t.front r)

/-- A completed Read at a position: north, then south (R153). -/
def reconcile (e : Env) (a : Aisle) (p : Nat × Nat) (n s : SideRead) (y : Yard) (r : SurveyRun) : Yard × SurveyRun :=
  let (y, r) := readSide e ⟨a, .north, p.1, p.2, .front⟩ n y r
  readSide e ⟨a, .south, p.1, p.2, .front⟩ s y r

end Sys2Proof.Machine
end

