-- ==== Sys2Proof/Machine/Reports.lean ====
section
/-! DEFINITION. Bins that devices report: taken from where they were recorded and placed where the
report puts them (R25, R85, R102, R103), and the carrier records a report reaches. -/

namespace Sys2Proof.Machine

open Sys2Proof

/-! ## Reservations and retrieve tasks (R6, R54, R85) -/

/-- Release a reservation for a bin, if it still stands (R6). -/
def releaseCell (e : Env) (a : CellAddr) (y : Yard) : Yard :=
  match getCell e a y with
  | .reserved _ _ => setCell e a .empty y
  | _ => y

/-- A reservation ends before its plan goes on to reserve another cell, and every order is evaluated at that change
(R6, R81). -/
def freeCell (e : Env) (a : CellAddr) (y : Yard) : Yard :=
  match getCell e a y with
  | .reserved _ _ => evalOrders e (setCell e a .empty y)
  | _ => y

/-- The cell a task's plan may have reserved. -/
def taskCell : Task → Option CellAddr
  | .retrieve _ _ _ _ (some (_, s)) => some s
  | .putaway _ _ c => c
  | .parkPlace _ c _ _ => some c
  | _ => none

/-- The cell a ForkOut in flight goes into. -/
def forkOutCell (c : Carrier) : Option CellAddr :=
  match c.seg with
  | some s =>
    match s.kind, s.target with
    | .forkOut, .cell a => some a
    | _, _ => none
  | none => none

/-- Release the reservation of a task, unless a stroke into the cell is in flight. -/
def releaseTask (e : Env) (a : Aisle) (t : Option Task) (y : Yard) : Yard :=
  match t.bind taskCell with
  | some x => if forkOutCell y.carriers[a] = some x then y else releaseCell e x y
  | none => y

/-- The order a Retrieve task works on. -/
def taskOrder : Option Task → Option Nat
  | some (.retrieve o _ _ _ _) => some o
  | _ => none

/-- The order of a Retrieve task is told that the task has ended without delivery (R54, R85). -/
def tellOrder (t : Option Task) (y : Yard) : Yard :=
  match taskOrder t with
  | some no => untaskOrder no y
  | none => y

/-- An aisle leaves the merge arbiter's waiting list (R95). -/
def leaveMerge (a : Aisle) (y : Yard) : Yard :=
  modLines (fun l => { l with mergeList := l.mergeList.filter fun x => x ≠ a }) y

/-- The merge grant an aisle holds ends (R95). -/
def endGrant (a : Aisle) (y : Yard) : Yard :=
  modLines (fun l => if l.mergeGrant = some a then { l with mergeGrant := none } else l) y

/-- Whether a carrier runs or waits in a task: the states that give way to Idle when the task is taken
from it. -/
def taskRuns (st : CarrierSt) : Bool :=
  match st with
  | .moving | .forking | .waitMerge => true
  | _ => false

/-- The carrier of a Retrieve that has been taken from it: Idle at once when it has no segment in flight,
and otherwise at that segment's end; a Faulted, Halted or Offline carrier keeps its state (R85). -/
def freeCarrier (c : Carrier) : Carrier :=
  match c.st with
  | .faulted | .halted | .offline => c
  | _ => if c.seg.isNone then { c with st := .idle } else { c with freed := true }

/-- A Retrieve task for an order is taken from the carrier that holds it (R85). -/
def dropRetrieve (e : Env) (no : Nat) (a : Aisle) (y : Yard) : Yard :=
  let c := y.carriers[a]
  if taskOrder c.task = some no then
    modCarrier a (fun c => freeCarrier { c with task := none }) (leaveMerge a (releaseTask e a c.task y))
  else if taskOrder c.suspended = some no then
    modCarrier a (fun c => freeCarrier { c with suspended := none }) (releaseTask e a c.suspended y)
  else y

/-- A report has moved or lost a bin: its Assigned or Delivering order follows it or returns to
evaluation, and a Retrieve task for it ends (R85). -/
def reportedOrder (e : Env) (b : Nat) (y : Yard) : Yard :=
  match y.orders.find? fun o => o.bin = b ∧ (o.st = .assigned ∨ o.st = .delivering) with
  | none => y
  | some o =>
    let kept : Bool :=
      match getBin b y with
      | some r => decide ((r.st = .onDelivery ∨ r.st = .atStation) ∧ r.station = some o.station)
      | none => false
    let y := if kept then modOrder o.no (fun o => { o with st := .delivering }) y else orderToQueue o.no y
    aisles.foldl (fun y a => dropRetrieve e o.no a y) y

/-! ## Taking a bin from where it was recorded -/

/-- A bin in a place record other than the one named is no longer recorded there. -/
def emptyPlace (b : Nat) (p : Option PlaceBin) : Option PlaceBin :=
  match p with
  | some q => if q.bin = b then none else some q
  | none => none

/-- A bin is taken from a station's places; a session on it ends as for a bin removed (R102, R126), and the display
of a Present place that the bin has left is updated. -/
def takeFromStation (e : Env) (b : Nat) (st : Station) (y : Yard) : Yard :=
  let y : Yard :=
    match y.stations[st].session with
    | some s => if s.bin = b then removeSession e st y else y
    | none => y
  let was : Option PlaceBin := y.stations[st].present
  let y := modStation st (fun r => { r with next := emptyPlace b r.next, present := emptyPlace b r.present }) y
  if y.stations[st].present = was then y else showStation st y

/-- A bin is taken from every place other than a cell where it is recorded (R66, R102, R103). -/
def takeFromPlaces (e : Env) (b : Nat) (y : Yard) : Yard :=
  let y := { y with carriers := y.carriers.map fun c => if c.load = some b then { c with load := none } else c }
  let y := modLines (fun l => { l with
    delivery := l.delivery.filter (fun p => p.bin ≠ b), returns := l.returns.filter (fun p => p.bin ≠ b)
    inbound := l.inbound.map fun p => if p = some b then none else p }) y
  stationList.foldl (fun y st => takeFromStation e b st y) y

/-- A bin is lost from the place where it was recorded: Unverified with no cell (R66, R102, R103). -/
def loseBin (e : Env) (b : Nat) (y : Yard) : Yard := reportedOrder e b (binLost b none y)

/-! ## Placing a reported bin (R25) -/

/-- Whether discovery runs. -/
def discovering (y : Yard) : Bool := y.disc.left.isSome

/-- The device that reports a place. -/
def placeDevice : Place → Device
  | .fork a => .drive a
  | .delivery => .line .delivery
  | .ret | .inbound _ => .line .ret
  | .next st | .present st => .terminal st

/-- Whether a report of a place is one of those that follow a start (R25): discovery runs, or the device
has not reported since the start. -/
def startReport (p : Place) (y : Yard) : Bool := discovering y || y.disc.silent.contains (placeDevice p)

/-- Where a report after the start has found a bin. -/
def foundAt (b : Nat) (y : Yard) : Option Place := (y.disc.found.find? fun p => p.1 = b).map (·.2)

/-- Whether a place of R9 other than a cell is recorded as holding a bin. -/
def placeHolds (b : Nat) (y : Yard) : Place → Bool
  | .fork a => decide (y.carriers[a].load = some b)
  | .delivery => y.lines.delivery.any fun p => p.bin = b
  | .ret => y.lines.returns.any fun p => p.bin = b
  | .inbound a => decide (y.lines.inbound[a] = some b)
  | .next st => decide (y.stations[st].next.map (·.bin) = some b)
  | .present st => decide (y.stations[st].present.map (·.bin) = some b)

/-- Whether a bin stands where an earlier report after the start has put it. -/
def standsAt (b : Nat) (q : Place) (y : Yard) : Bool :=
  placeHolds b y q && match getBin b y with | some r => inPlace r | none => false

/-- Whether a start-up report of a bin at a place conflicts with an earlier one: that one has put the bin at
another place, where it still stands (R25). -/
def reportConflict (b : Nat) (p : Place) (y : Yard) : Bool :=
  startReport p y && match foundAt b y with | some q => decide (q ≠ p) && standsAt b q y | none => false

/-- A conflict is listed for StartupDone with both places, and the later place is recorded as holding no
bin (R25). -/
def listConflict (b : Nat) (p : Place) (y : Yard) : Yard :=
  match foundAt b y with
  | some q =>
    if discovering y then { y with disc := { y.disc with conflicts := y.disc.conflicts ++ [(b, q, p)] } } else y
  | none => y

/-- The list of bins found with one more, or with a new place for one it holds. -/
def withFound (b : Nat) (p : Place) (l : List (Nat × Place)) : List (Nat × Place) :=
  if l.any fun q => q.1 = b then l.map fun q => if q.1 = b then (b, p) else q else l ++ [(b, p)]

/-- A report after the start notes where it has found a bin. -/
def noteFound (b : Nat) (p : Place) (y : Yard) : Yard :=
  if startReport p y then { y with disc := { y.disc with found := withFound b p y.disc.found } } else y

/-- The aisle of the cell a bin is Stored in: the source aisle a report gives it (R102, R103). -/
def reportSource (b : Nat) (y : Yard) : Option Aisle := (storedCell b y).map (·.aisle)

/-- The cell a reported bin was Stored in takes another record: Unverified keeping the name at a start-up
report (R25), Empty at CarrierClear (R66). -/
def leaveCell (e : Env) (b : Nat) (c : Cell) (y : Yard) : Yard :=
  match storedCell b y with
  | some x => setCell e x c y
  | none => y

/-- A reported bin is taken from where it was recorded, its record is made sure of, its cell takes `c`,
and its record takes the new place (R25). The place itself is recorded by `put`. The cell's change is handed to the
journal before the bin's (assumption 106, DESIGN CHOICE). -/
def placeBin (e : Env) (b : Nat) (c : Cell) (st : BinSt) (aisle : Option Aisle)
    (station : Option Station) (put : Yard → Yard) (y : Yard) : Yard :=
  let y := leaveCell e b c (takeFromPlaces e b y)
  let y := modBin b (fun r => placed r st none aisle station) (ensureBin b y)
  reportedOrder e b (put y)

/-- A report of R25 places a bin: its cell becomes Unverified keeping the bin's name, discovery notes the bin, and
every order is evaluated at this change, ahead of what else the report says (R81). -/
def placeReported (e : Env) (b : Nat) (p : Place) (st : BinSt) (aisle : Option Aisle)
    (station : Option Station) (put : Yard → Yard) (y : Yard) : Yard :=
  evalOrders e (noteFound b p (placeBin e b (.unverified (some b)) st aisle station put y))

/-! ## A drive unit's fork report (R25, R66 to R68) -/

/-- An earlier load that a fork report does not name becomes Unverified with no cell (R66, R68). -/
def loseLoad (e : Env) (a : Aisle) (fork : Option Nat) (y : Yard) : Yard :=
  match y.carriers[a].load with
  | some b => if fork = some b then y else loseBin e b (modCarrier a (fun r => { r with load := none }) y)
  | none => y

/-- A bin becomes the load of an aisle's carrier. -/
def takeLoad (a : Aisle) (b : Nat) (y : Yard) : Yard := modCarrier a (fun r => { r with load := some b }) y

/-- A fork report at a start or in Restarting is applied: a bin, or none, is on the fork of an aisle's
carrier (R67, R68). -/
def forkReport (e : Env) (a : Aisle) (fork : Option Nat) (y : Yard) : Yard :=
  let old := y.carriers[a].load
  let fork := fork.filter binOk
  let y := loseLoad e a fork y
  match fork with
  | none => y
  | some b =>
    if old = some b then noteFound b (.fork a) y
    else if reportConflict b (.fork a) y then listConflict b (.fork a) y
    else placeReported e b (.fork a) .onCarrier none none (takeLoad a b) y

/-- A fork report for CarrierClear is applied (R66): the cell of a bin recorded Stored becomes Empty. -/
def forkCleared (e : Env) (a : Aisle) (fork : Option Nat) (y : Yard) : Yard :=
  let old := y.carriers[a].load
  let fork := fork.filter binOk
  let y := loseLoad e a fork y
  match fork with
  | none => y
  | some b => if old = some b then y else placeBin e b .empty .onCarrier none none (takeLoad a b) y

/-! ## Line contents reports (R102) -/

/-- The station an orphan on the delivery line is addressed to (R102). -/
def orphanStation (e : Env) : Station :=
  (stationList.find? fun st => e.cfg.stations[st].role ≠ .closed).getD 0

/-- The station a bin new on the delivery line is addressed to (R102). -/
def deliveryStation (e : Env) (b : Nat) (y : Yard) : Station :=
  match y.orders.find? fun o => o.bin = b ∧ (o.st = .assigned ∨ o.st = .delivering) with
  | some o => o.station
  | none => orphanStation e

/-- One bin of a delivery drive's report, in the reported order; `old` is the list before the report. -/
def deliveryReported (e : Env) (old : List DeliveryPlace) (b : Nat) (y : Yard) : Yard :=
  if !binOk b || (y.lines.delivery.any fun p => p.bin = b) then y
  else
    match old.find? fun p => p.bin = b with
    | some p => noteFound b .delivery (modLines (fun l => { l with delivery := l.delivery ++ [p] }) y)
    | none =>
      if reportConflict b .delivery y then listConflict b .delivery y
      else
        let st := deliveryStation e b y
        let src := reportSource b y
        placeReported e b .delivery .onDelivery none (some st)
          (modLines fun l => { l with delivery := l.delivery ++ [⟨b, st, src⟩] }) y

/-- The delivery drive's contents report (R102). Every bin listed is recorded, be they more than 12
(assumption 67, DESIGN CHOICE). -/
def deliveryReport (e : Env) (bins : List Nat) (y : Yard) : Yard :=
  let old := y.lines.delivery
  let y := cutTransfers .delivery y
  let y := modLines (fun l => { l with delivery := [] }) y
  let y := bins.foldl (fun y b => deliveryReported e old b y) y
  (old.filter fun p => !bins.contains p.bin).foldl (fun y p => loseBin e p.bin y) y

/-- One bin of a return drive's report; `old` is the return line's list before the report. A bin that stood
in an inbound place is new on the line (R102). Every order is evaluated at the change that places it (R81). -/
def returnReported (e : Env) (old : List ReturnPlace) (b : Nat) (y : Yard) : Yard :=
  if !binOk b || (y.lines.returns.any fun p => p.bin = b) then y
  else
    match old.find? fun p => p.bin = b with
    | some p =>
      noteFound b .ret (modBin b (fun r => placed r .onReturn none (some p.aisle) none)
        (modLines (fun l => { l with returns := l.returns ++ [p] }) y))
    | none =>
      if reportConflict b .ret y then listConflict b .ret y
      else
        let src := reportSource b y
        let y := takeFromPlaces e b y
        let y := ensureBin b (leaveCell e b (.unverified (some b)) y)
        evalOrders e (noteFound b .ret (reportedOrder e b (joinReturn e b src y)))

/-- One inbound place of a return drive's report. -/
def inboundReported (e : Env) (a : Aisle) (p : Option Nat) (y : Yard) : Yard :=
  match p.filter binOk with
  | none => y
  | some b =>
    if (aisles.any fun x => y.lines.inbound[x] = some b) || (y.lines.returns.any fun q => q.bin = b) then y
    else if reportConflict b (.inbound a) y then listConflict b (.inbound a) y
    else
      placeReported e b (.inbound a) .inbound (some a) none
        (modLines fun l => { l with inbound := l.inbound.set a (some b) }) y

/-- The bins of the return line and of the inbound places, each with its aisle. -/
def returnRecorded (y : Yard) : List ReturnPlace :=
  y.lines.returns ++ aisles.filterMap fun a => y.lines.inbound[a].map fun b => ⟨b, a⟩

/-- The return drive's contents report with the inbound places in aisle order (R102). Every bin listed is
recorded, be they more than 12 (assumption 67, DESIGN CHOICE). -/
def returnReport (e : Env) (bins : List Nat) (inbound : List (Option Nat)) (y : Yard) : Yard :=
  let line := y.lines.returns
  let old := returnRecorded y
  let y := cutTransfers .ret y
  let y := modLines (fun l => { l with returns := [], inbound := #v[none, none, none, none, none, none] }) y
  let y := bins.foldl (fun y b => returnReported e line b y) y
  let y := aisles.foldl (fun y a => inboundReported e a (inbound.getD a.val none) y) y
  let now := returnRecorded y
  (old.filter fun p => !(now.any fun q => q.bin = p.bin)).foldl (fun y p =>
    match getBin p.bin y with
    | some r => if r.st = .onReturn ∨ r.st = .inbound then loseBin e p.bin y else y
    | none => y) y

/-- A line's state after a contents report (R102). -/
def lineReported (l : LineId) (fault : Bool) (y : Yard) : Yard :=
  modLine l (fun r => if fault then { r with st := .faulted, fault := some .driveFault }
    else { r with st := .running, fault := none }) y

/-! ## Terminal reports (R103, R126) -/

/-- The bin in a station's place. -/
def placeOf (st : Station) (p : StPlace) (y : Yard) : Option PlaceBin :=
  match p with
  | .next => y.stations[st].next
  | .present => y.stations[st].present

/-- Record a station's place. -/
def setPlace (st : Station) (p : StPlace) (v : Option PlaceBin) (y : Yard) : Yard :=
  match p with
  | .next => modStation st (fun r => { r with next := v }) y
  | .present => modStation st (fun r => { r with present := v }) y

/-- A station's place as a place of R9. -/
def stPlace (st : Station) : StPlace → Place
  | .next => .next st
  | .present => .present st

/-- A terminal's report places a bin in a place that is recorded empty (R103). -/
def terminalPlaced (e : Env) (st : Station) (p : StPlace) (b : Nat) (y : Yard) : Yard :=
  if reportConflict b (stPlace st p) y then listConflict b (stPlace st p) y
  else
    let src := reportSource b y
    placeReported e b (stPlace st p) .atStation none (some st)
      (setPlace st p (some ⟨b, src⟩)) y

/-- Whether a station's Present place holds a RetirePending bin that has left its session (R124). -/
def leaving (st : Station) (y : Yard) : Bool :=
  y.stations[st].session.isNone &&
    match y.stations[st].present with
    | some p => retirePendingBin p.bin y
    | none => false

/-- A bin lifted off its station becomes Retired; an order that still waits for it leaves the queue with
its Open picks Unserved (R11, R125). -/
def retireBin (e : Env) (b : Nat) (y : Yard) : Yard :=
  let y :=
    match y.orders.find? fun o => o.bin = b ∧ o.closing = false with
    | some o => closeOrder e o.no (unservePicks o.no y)
    | none => y
  attrChange b (modBin b (fun r => { placed r .retired none none none with live := none }) y)

/-- A station's place is recorded empty; the display of a Present place shows it (R113). -/
def emptied (st : Station) (p : StPlace) (y : Yard) : Yard :=
  match p with
  | .next => setPlace st .next none y
  | .present => showStation st (setPlace st .present none y)

/-- A place of a full report: the record is kept when it agrees, and is taken away otherwise (R103, R126).
A leaving bin becomes Retired when its place is reported empty and the bin in neither place (R125). -/
def clearPlace (e : Env) (st : Station) (p : StPlace) (v other : Option Nat) (y : Yard) : Yard :=
  match placeOf st p y with
  | none => y
  | some q =>
    if v = some q.bin then y
    else if decide (p = .present) && leaving st y && v.isNone && decide (other ≠ some q.bin) then
      retireBin e q.bin (emptied st p y)
    else emptied st p (if p = .present then removeSession e st y else y)

/-- A bin recorded at a station before a full report and not reported there is lost. -/
def loseUnreported (e : Env) (st : Station) (old : Option PlaceBin) (y : Yard) : Yard :=
  match old with
  | none => y
  | some q =>
    if y.stations[st].next.map (·.bin) = some q.bin ∨ y.stations[st].present.map (·.bin) = some q.bin then y
    else
      match getBin q.bin y with
      | some r => if r.st = .atStation ∧ r.station = some st then loseBin e q.bin y else y
      | none => y

/-- A reported place of a full report. A bin reported where it is recorded takes the source aisle the report
gives it (R103). -/
def fullPlace (e : Env) (st : Station) (p : StPlace) (v : Option Nat) (y : Yard) : Yard :=
  match v.filter binOk with
  | none => y
  | some b =>
    match placeOf st p y with
    | some _ => noteFound b (stPlace st p) (setPlace st p (some ⟨b, reportSource b y⟩) y)
    | none => terminalPlaced e st p b y

/-- A terminal's full report (R103): the two places are replaced by the reported bins, and a session
opens on a Present bin that has none. A bin reported in both places stands in the Present one. A session opens also on
a leaving bin that the report lists at its place again (assumption 97, DESIGN CHOICE). -/
def terminalReport (e : Env) (st : Station) (next present : Option Nat) (y : Yard) : Yard :=
  let oldNext := y.stations[st].next
  let oldPresent := y.stations[st].present
  let next := if next = present then none else next
  let y := clearPlace e st .next next present (clearPlace e st .present present next y)
  let y := fullPlace e st .next next (fullPlace e st .present present y)
  let y := loseUnreported e st oldPresent (loseUnreported e st oldNext y)
  openSession e st y

/-- Whether a place is the source or the target of a transfer in flight (R103). -/
def placeBusy (st : Station) (p : StPlace) (y : Yard) : Bool :=
  match p with
  | .next => inFlight .delivery (.diversion st) y || inFlight .delivery (.advance st) y
  | .present => inFlight .delivery (.advance st) y || inFlight .ret (.release st) y

/-- A place reported empty that is recorded holding a bin (R103, R125, R126). -/
def terminalEmptied (e : Env) (st : Station) (p : StPlace) (b : Nat) (y : Yard) : Yard :=
  if decide (p = .present) && leaving st y then retireBin e b (emptied st p y)
  else loseBin e b (emptied st p (if p = .present then removeSession e st y else y))

/-- A terminal's change report (R103). A place reported holding another bin than the recorded one is taken
as emptied and then filled. -/
def terminalChange (e : Env) (st : Station) (p : StPlace) (v : Option Nat) (y : Yard) : Yard :=
  let v := v.filter binOk
  if placeBusy st p y || decide ((placeOf st p y).map (·.bin) = v) then y
  else
    let y := match placeOf st p y with | some q => terminalEmptied e st p q.bin y | none => y
    let y := freshen st p v y
    match v with
    | none => y
    | some b =>
      let y := terminalPlaced e st p b y
      if p = .present then openSession e st y else y

end Sys2Proof.Machine
end

