-- ==== Sys2Proof/Machine/Carriers.lean ====
section
/-! DEFINITION. The carrier controllers: segments, task plans, faults, halts and the wing's demands on a
carrier (chapter 3). -/

namespace Sys2Proof.Machine

open Sys2Proof

/-! ## Segments (R28, R45) -/

/-- Set a carrier's state. -/
def setSt (a : Aisle) (st : CarrierSt) (y : Yard) : Yard := modCarrier a (fun c => { c with st := st }) y

/-- Set a carrier's task. -/
def setTask (a : Aisle) (t : Option Task) (y : Yard) : Yard := modCarrier a (fun c => { c with task := t }) y

/-- Begin a segment: one command on the drive bus, with a deadline of twice its estimate plus 50 ds. -/
def beginSeg (e : Env) (a : Aisle) (k : SegKind) (t : SegTarget) (expect : Option Nat) (st : CarrierSt) (y : Yard) : Yard :=
  let c := y.carriers[a]
  let est := segEstimate (aisleVals e a y) (carrierPos c) k t
  let s : Segment := ⟨k, c.segNo + 1, t, expect, est, some (2 * est + 50), 2 * est + 50, none⟩
  send (.segment a s) (modCarrier a (fun c => { c with st := st, seg := some s, segNo := s.no, freed := false }) y)

/-- An aisle's latest configured value set takes effect and the aisle enters Settling (R28). An assignment
that leaves Off is a moment of the space-bin choice (R140), which the events that bring it about make. -/
def applyProfile (e : Env) (a : Aisle) (y : Yard) : Yard :=
  modEst a (fun _ => ⟨e.cfg.assign[a], valueSet e.cfg e.cfg.assign[a], .settling, 20⟩) y

/-- Whether the end of an aisle's segment takes its assignment in force from Off (R28, R140). -/
def leavesOff (e : Env) (a : Aisle) (y : Yard) : Bool :=
  decide (y.est[a].st = .pending) && aisleOff a y && decide (e.cfg.assign[a] ≠ .off)

/-- A segment in flight has ended: a waiting profile change takes effect (R28). -/
def segEnded (e : Env) (a : Aisle) (y : Yard) : Yard :=
  let y := modCarrier a (fun c => { c with seg := none }) y
  if y.est[a].st = .pending then applyProfile e a y else y

/-! ## Bins onto and off a fork -/

/-- A bin recorded Stored in another cell than `a` leaves that cell Unverified, keeping its name. -/
def leaveOther (e : Env) (b : Nat) (a : CellAddr) (y : Yard) : Yard :=
  match storedCell b y with
  | some x => if x = a then y else setCell e x (.unverified (some b)) y
  | none => y

/-- The bin that a stroke at a cell expected becomes Unverified, with a last known cell or none, where its record
still names that cell (R49, R52). One that a report has recorded in another place during the stroke keeps that record
(assumption 96, DESIGN CHOICE). -/
def loseFrom (b : Nat) (a : CellAddr) (last : Option CellAddr) (y : Yard) : Yard :=
  match getBin b y with
  | some r => if r.cell = some a then binLost b last y else y
  | none => y

/-- A bin is on a carrier's fork. -/
def onFork (a : Aisle) (b : Nat) (y : Yard) : Yard :=
  modBin b (fun r => placed r .onCarrier none none none) (modCarrier a (fun c => { c with load := some b }) y)

/-- A ForkIn takes the bin it expected. A bin that a report has meanwhile recorded in another place leaves
that place, since a bin occupies one place only (R9), and its Delivering order returns to evaluation. -/
def forkTakes (e : Env) (a : Aisle) (b : Nat) (y : Yard) : Yard :=
  match (getBin b y).map inPlace with
  | some true =>
    let y := onFork a b (takeFromPlaces e b y)
    match y.orders.find? fun o => o.bin = b ∧ o.st = .delivering with
    | some o => orderToQueue o.no y
    | none => y
  | _ => onFork a b (ensureBin b y)

/-! ## Unsettled strokes (R52) -/

/-- The records after an unsettled stroke (R52). A ForkOut whose load a report has taken meanwhile leaves its cell
Empty, with the reservation released (assumption 83, DESIGN CHOICE). -/
def unsettled (e : Env) (a : Aisle) (s : Segment) (y : Yard) : Yard :=
  match s.kind, s.target with
  | .forkIn, .cell x =>
    match s.expect with
    | some b => loseFrom b x (some x) (setCell e x (.unverified (some b)) y)
    | none => y
  | .forkOut, .cell x =>
    match y.carriers[a].load with
    | some b =>
      binLost b (some x) (setCell e x (.unverified (some b)) (modCarrier a (fun c => { c with load := none }) y))
    | none => releaseCell e x y
  | .forkOut, .mouth => endGrant a y
  | _, _ => y

/-! ## Faults (R54) -/

/-- The running survey in a carrier's task ends Aborted; its record is kept as ended (R158). -/
def abortSurvey (e : Env) (a : Aisle) (y : Yard) : Yard :=
  match y.carriers[a].task with
  | some (.survey r) =>
    if r.ended then y
    else surveyAborted e a r true (setTask a (some (.survey { r with ended := true })) y)
  | _ => y

/-- A suspended task returns to the task field (R60). A ClearMove that began with none leaves no task record, also at
its fault and at a Halt (assumption 104, DESIGN CHOICE). -/
def unsuspend (a : Aisle) (y : Yard) : Yard :=
  modCarrier a (fun c => match c.suspended with
    | some t => { c with task := some t, suspended := none }
    | none => if c.task = some .clearMove then { c with task := none } else c) y

/-- A carrier becomes Faulted (R54): it keeps load, task and reservation; CarrierFault is raised; the order
of a Retrieve is told and a survey ends Aborted. -/
def enterFaulted (e : Env) (a : Aisle) (f : FaultReason) (found : Option Nat) (y : Yard) : Yard :=
  let y := modCarrier a (fun c => { c with st := .faulted, fault := some f }) (unsuspend a y)
  let c := y.carriers[a]
  let y := notify e .carrierFault
    ([.u1 (aisleNo a), .u1 (faultCode f)] ++ posFlds c.pos ++ [opt2 c.load, opt2 found]) y
  tellOrder c.task (abortSurvey e a y)

/-- The CarrierFault notice of a NOT_FOUND, with the cell and the bin; the carrier does not fault (R49). Aisle,
reason, position and load stand before them, as in R54's notice (assumption 16, DESIGN CHOICE). -/
def noticeNotFound (e : Env) (a : Aisle) (x : Option CellAddr) (b : Nat) (y : Yard) : Yard :=
  let c := y.carriers[a]
  notify e .carrierFault
    ([.u1 (aisleNo a), .u1 (faultCode .notFound)] ++ posFlds c.pos ++ [opt2 c.load, .cell x, .u2 b]) y

/-! ## Task plans (R55 to R58, R60, R61, R152) -/

/-- A task ends without more to do: its reservation is released, its order is told, and the carrier is
Idle where it stands (R54, R56). -/
def endTask (e : Env) (a : Aisle) (y : Yard) : Yard :=
  let t := y.carriers[a].task
  modCarrier a (fun c => { c with task := none, st := .idle }) (tellOrder t (releaseTask e a t y))

/-- Reserve a cell for a bin (R6). -/
def reserve (e : Env) (x : CellAddr) (b : Nat) (p : Purpose) (y : Yard) : Yard := setCell e x (.reserved b p) y

/-- Travel to a position; no segment is sent for a travel of no distance, and the plan goes on (R45). -/
def travelTo (e : Env) (a : Aisle) (p : Nat × Nat) (st : CarrierSt) (y : Yard) : Yard × Bool :=
  if carrierPos y.carriers[a] = p then (y, true) else (beginSeg e a .travel (.pos p.1 p.2) none st y, false)

/-- R47 before a ForkIn: the cell is Occupied by the expected bin, and can be picked. -/
def forkInCheck (e : Env) (x : CellAddr) (b : Nat) (y : Yard) : Bool :=
  decide (getCell e x y = .occupied b) && canPick e x y

/-- R47 before a ForkOut: the cell is Reserved for the carried bin, and can receive it. -/
def forkOutCheck (e : Env) (a : Aisle) (x : CellAddr) (y : Yard) : Bool :=
  match y.carriers[a].load, getCell e x y with
  | some b, .reserved r _ => decide (r = b) && canPlace e x b y
  | _, _ => false

/-- One step of a Retrieve plan (R55): the yard, and whether the plan goes on at once. -/
def retrieveStep (e : Env) (a : Aisle) (no b : Nat) (x : CellAddr) (st : RStep) (sh : Option (Nat × CellAddr))
    (y : Yard) : Yard × Bool :=
  let at' := fun (st : RStep) (sh : Option (Nat × CellAddr)) (y : Yard) => setTask a (some (.retrieve no b x st sh)) y
  let front := atDepth x .front
  match st with
  | .toFront =>
    match travelTo e a (cellPos x) .moving y with
    | (y, true) => (at' .takeFront sh y, true)
    | r => r
  | .takeFront =>
    match sh with
    | some (f, _) =>
      if forkInCheck e front f y then (beginSeg e a .forkIn (.cell front) (some f) .forking y, false)
      else (endTask e a y, false)
    | none => (at' .toBin none y, true)
  | .toTarget =>
    match sh with
    | some (_, s) =>
      match travelTo e a (cellPos s) .moving y with
      | (y, true) => (at' .putTarget sh y, true)
      | r => r
    | none => (at' .toBin none y, true)
  | .putTarget =>
    match sh with
    | some (f, s) =>
      if forkOutCheck e a s y then (beginSeg e a .forkOut (.cell s) none .forking y, false)
      else
        let y := freeCell e s y
        match (if y.carriers[a].load = some f then shuffleTarget e x y else none) with
        | some s' => (at' .toTarget (some (f, s')) (reserve e s' f .shuffle y), true)
        | none => (endTask e a (at' .toTarget none y), false)
    | none => (at' .toBin none y, true)
  | .toBin =>
    match travelTo e a (cellPos x) .moving y with
    | (y, true) => (at' .takeBin sh y, true)
    | r => r
  | .takeBin =>
    if forkInCheck e x b y then (beginSeg e a .forkIn (.cell x) (some b) .forking y, false)
    else (endTask e a y, false)
  | .toMouth =>
    match travelTo e a mouthPos .moving y with
    | (y, true) => (at' .waitMerge sh y, true)
    | r => r
  | .waitMerge =>
    match travelTo e a mouthPos .moving y with
    | (y, true) =>
      (setSt a .waitMerge (modLines (fun l =>
        if l.mergeList.contains a then l else { l with mergeList := l.mergeList ++ [a] }) y), false)
    | r => r
  | .handoff => (beginSeg e a .forkOut .mouth none .forking y, false)

/-- One step of a Putaway plan (R58, R56). -/
def putawayStep (e : Env) (a : Aisle) (b : Nat) (st : PStep) (x : Option CellAddr) (y : Yard) : Yard × Bool :=
  let at' := fun (st : PStep) (x : Option CellAddr) (y : Yard) => setTask a (some (.putaway b st x)) y
  let choose := fun (y : Yard) =>
    match (if y.carriers[a].load = some b then putAwayCell e a y else none) with
    | some x => (at' .toCell (some x) (reserve e x b .putAway y), true)
    | none => (endTask e a (at' .choose none y), false)
  match st with
  | .toMouth =>
    match travelTo e a mouthPos .moving y with
    | (y, true) => (at' .takeInbound x y, true)
    | r => r
  | .takeInbound => (beginSeg e a .forkIn .inboundPlace (some b) .forking y, false)
  | .choose => choose y
  | .toCell =>
    match x with
    | some c =>
      match travelTo e a (cellPos c) .moving y with
      | (y, true) => (at' .putCell x y, true)
      | r => r
    | none => choose y
  | .putCell =>
    match x with
    | some c =>
      if forkOutCheck e a c y then (beginSeg e a .forkOut (.cell c) none .forking y, false)
      else choose (freeCell e c y)
    | none => choose y

/-- The survey ends at its last position, the task is removed and the carrier is Idle (R152, R156). -/
def finishSurvey (e : Env) (a : Aisle) (r : SurveyRun) (y : Yard) : Yard :=
  surveyEnd e a r (modCarrier a (fun c => { c with task := none, st := .idle }) y)

/-- One step of a Survey plan (R152). A survey that has ended is only a record. -/
def surveyStep (e : Env) (a : Aisle) (r : SurveyRun) (y : Yard) : Yard × Bool :=
  if r.ended then (modCarrier a (fun c => { c with task := none, st := .idle }) y, false)
  else
    match r.todo with
    | [] => (finishSurvey e a r y, false)
    | p :: _ =>
      match travelTo e a p .moving (setTask a (some (.survey { r with reading := false })) y) with
      | (y, true) =>
        (beginSeg e a .read (.pos p.1 p.2) none .forking (setTask a (some (.survey { r with reading := true })) y), false)
      | z => z

/-- A carrier at the park position with its park plan done is Parked (R61). -/
def parkDone (a : Aisle) (y : Yard) : Yard := modCarrier a (fun c => { c with task := none, st := .parked }) y

/-- One step of a park plan or a ClearMove (R60, R61). -/
def parkStep (e : Env) (a : Aisle) (t : Task) (y : Yard) : Yard × Bool :=
  match t with
  | .parkPlace b x col false =>
    match travelTo e a (cellPos x) .parking y with
    | (y, true) => (setTask a (some (.parkPlace b x col true)) y, true)
    | r => r
  | .parkPlace _ x col true =>
    if forkOutCheck e a x y then (beginSeg e a .forkOut (.cell x) none .parking y, false)
    else (setTask a (some (.parkMove col)) (releaseCell e x y), true)
  | .parkMove col =>
    match travelTo e a (col, 0) .parking y with
    | (y, true) => (parkDone a y, false)
    | r => r
  | .clearMove => (beginSeg e a .travel (.pos 2 (carrierPos y.carriers[a]).2) none .clearing y, false)
  | _ => (y, false)

/-- One step of a task plan. -/
def planStep (e : Env) (a : Aisle) (t : Task) (y : Yard) : Yard × Bool :=
  match t with
  | .retrieve no b x st sh => retrieveStep e a no b x st sh y
  | .putaway b st x => putawayStep e a b st x y
  | .survey r => surveyStep e a r y
  | t => parkStep e a t y

/-- Run the plan of a carrier's task until a segment begins, it waits, or it ends. `n` bounds the steps. -/
def runSteps (e : Env) (a : Aisle) : Nat → Yard → Yard
  | 0, y => y
  | n + 1, y =>
    match y.carriers[a].task with
    | none => setSt a .idle y
    | some t =>
      match planStep e a t y with
      | (y, true) => runSteps e a n y
      | (y, false) => y

/-- Run a carrier's plan: no plan passes more than 12 steps without a segment. -/
def runPlan (e : Env) (a : Aisle) (y : Yard) : Yard := runSteps e a 12 y

/-! ## Park plans (R61) and what a carrier does when a segment has ended (R46) -/

/-- Whether a task is a park plan. -/
def parkTask : Option Task → Bool
  | some (.parkPlace ..) | some (.parkMove _) => true
  | _ => false

/-- The task of a carrier that takes its park plan ends (R61): its order is told, its reservation is released, and
every order is evaluated when the release has changed a cell, ahead of the park placement's own choice (R81). -/
def setAside (e : Env) (a : Aisle) (t : Option Task) (y : Yard) : Yard :=
  let z := leaveMerge a (tellOrder t (releaseTask e a t y))
  if z.cells = y.cells then z else evalOrders e z

/-- A carrier takes its park plan (R61). -/
def takePark (e : Env) (a : Aisle) (y : Yard) : Yard :=
  let y := abortSurvey e a (unsuspend a y)
  let y := setAside e a y.carriers[a].task y
  let c := y.carriers[a]
  let col := (parkPos e).1
  let y := modCarrier a (fun c => { c with st := .parking, task := some (.parkMove col) }) y
  let y :=
    match c.load with
    | some b =>
      match parkCell e a (carrierPos c) y with
      | some x => setTask a (some (.parkPlace b x col false)) (reserve e x b .parkPlacement y)
      | none => y
    | none => y
  runPlan e a y

/-- What a carrier does next, with no segment in flight, by the wing state (R46, R48, R59, R61). A carrier
whose Retrieve a report took during the segment that has just ended is Idle, in Hold and Clearing too (R85). -/
def advance (e : Env) (a : Aisle) (y : Yard) : Yard :=
  match e.wing with
  | .normal => runPlan e a y
  | .standby =>
    match y.carriers[a].task with
    | some (.survey _) => runPlan e a y
    | _ => endTask e a y
  | .hold | .clearing => setSt a (if y.carriers[a].freed then .idle else .held) y
  | .parking => if parkTask y.carriers[a].task then runPlan e a y else takePark e a y
  | .sealing | .sealed | .restarting => endTask e a (abortSurvey e a y)

/-! ## Completions (R48, R49, R57) -/

/-- The tag a ForkIn reports; a number that is no bin number is unreadable (R153). -/
def tagRead : SegReport → TagRead
  | .tag (.bin b) => if binOk b then .bin b else .unreadable
  | .tag t => t
  | _ => .unreadable

/-- The plan after a stroke that has taken its bin. -/
def tookBin (a : Aisle) (y : Yard) : Yard :=
  match y.carriers[a].task with
  | some (.retrieve no b x .takeFront sh) => setTask a (some (.retrieve no b x .toTarget sh)) y
  | some (.retrieve no b x .takeBin sh) => setTask a (some (.retrieve no b x .toMouth sh)) y
  | some (.putaway b .takeInbound x) => setTask a (some (.putaway b .choose x)) y
  | _ => y

/-- The plan after a NOT_FOUND: a shuffle releases its target and goes on to the wanted bin by step 5 of the same plan,
every other plan ends (R54, R55). -/
def missedBin (e : Env) (a : Aisle) (y : Yard) : Yard :=
  match y.carriers[a].task with
  | some (.retrieve no b x .takeFront sh) =>
    setTask a (some (.retrieve no b x .toBin sh)) (releaseTask e a (some (.retrieve no b x .takeFront sh)) y)
  | t => setTask a none (tellOrder t (releaseTask e a t y))

/-- The second bin of a MISMATCH at a cell (R49): the cell it was Stored in is changed, and handed to the journal,
before the bin's own record (assumption 106, DESIGN CHOICE). -/
def mismatched (e : Env) (x : CellAddr) (b : Nat) (y : Yard) : Yard :=
  match getBin b y with
  | some r =>
    if inPlace r then y else binLost b (some x) (ensureBin b (leaveOther e b x y))
  | none => binLost b (some x) (ensureBin b y)

/-- A ForkIn's completion at a cell (R49). -/
def forkInCell (e : Env) (a : Aisle) (x : CellAddr) (b : Nat) (t : TagRead) (y : Yard) : Yard :=
  match t with
  | .bin f =>
    if f = b then
      advance e a (tookBin a (forkTakes e a b (leaveOther e b x (setCell e x .empty y))))
    else
      let y := setCell e x (.unverified (some f)) y
      enterFaulted e a .mismatch (some f) (mismatched e x f (loseFrom b x none y))
  | .empty =>
    let y := noticeNotFound e a (some x) b (loseFrom b x none (setCell e x .empty y))
    advance e a (missedBin e a y)
  | .unreadable =>
    enterFaulted e a .mismatch none (loseFrom b x (some x) (setCell e x (.unverified (some b)) y))

/-- An inbound place is recorded as holding no bin. -/
def clearInbound (a : Aisle) (y : Yard) : Yard := modLines (fun l => { l with inbound := l.inbound.set a none }) y

/-- The bin recorded in an inbound place is not there: the place is empty and the bin lost (R49). -/
def loseInbound (e : Env) (a : Aisle) (y : Yard) : Yard :=
  match y.lines.inbound[a] with
  | none => y
  | some b =>
    let y := clearInbound a y
    match getBin b y with
    | some r => if r.st = .inbound then loseBin e b y else y
    | none => y

/-- The expected bin leaves the inbound place. -/
def leaveInbound (a : Aisle) (b : Nat) (y : Yard) : Yard := if y.lines.inbound[a] = some b then clearInbound a y else y

/-- A ForkIn's completion at the inbound place (R49). -/
def forkInInbound (e : Env) (a : Aisle) (b : Nat) (t : TagRead) (y : Yard) : Yard :=
  match t with
  | .bin f =>
    if f = b then
      advance e a (tookBin a (forkTakes e a b (leaveCell e b (.unverified (some b)) (leaveInbound a b y))))
    else
      let y := loseInbound e a y
      let y := placeBin e f (.unverified (some f)) .inbound (some a) none
        (modLines fun l => { l with inbound := l.inbound.set a (some f) }) y
      enterFaulted e a .mismatch (some f) y
  | .empty => advance e a (missedBin e a (noticeNotFound e a none b (loseInbound e a y)))
  | .unreadable => enterFaulted e a .mismatch none y

/-- The plan after a stroke that has placed its bin. -/
def putBinDown (a : Aisle) (y : Yard) : Yard :=
  match y.carriers[a].task with
  | some (.retrieve no b x .putTarget sh) => setTask a (some (.retrieve no b x .toBin sh)) y
  | some (.putaway ..) => setTask a none y
  | some (.parkPlace _ _ col _) => setTask a (some (.parkMove col)) y
  | _ => y

/-- The bin a Putaway task puts away. -/
def putawayBin : Option Task → Option Nat
  | some (.putaway b _ _) => some b
  | _ => none

/-- What a completed put-away brings, in the order R143 lists it: the bin's order is evaluated again, the Retire course
looks at the bin now Stored, and every tray makes its space-bin choice (assumption 93, DESIGN CHOICE). -/
def putawayEnds (e : Env) (t : Option Task) (y : Yard) : Yard :=
  match putawayBin t with
  | some b => trayChoices e (retireCourse e (evalBin e b y))
  | none => y

/-- A ForkOut's completion at a cell (R48, R143). One whose load a report has taken meanwhile leaves its cell Empty, with
the reservation released (assumption 83, DESIGN CHOICE). -/
def forkOutDone (e : Env) (a : Aisle) (x : CellAddr) (y : Yard) : Yard :=
  let t := y.carriers[a].task
  let y :=
    match y.carriers[a].load with
    | some b => binStored b x (setCell e x (.occupied b) (modCarrier a (fun c => { c with load := none }) y))
    | none => releaseCell e x y
  putawayEnds e t (advance e a (putBinDown a y))

/-- The merge transfer's completion (R57, R95). -/
def mergeDone (e : Env) (a : Aisle) (y : Yard) : Yard :=
  let c := y.carriers[a]
  let y := setTask a none (endGrant a y)
  match c.load, (taskOrder c.task).bind fun no => orderOf no y with
  | some b, some o =>
    let y := modCarrier a (fun c => { c with load := none }) y
    let y := modLines (fun l => { l with delivery := l.delivery ++ [⟨b, o.station, some a⟩] }) y
    let y := modBin b (fun r => placed r .onDelivery none none (some o.station)) y
    advance e a (modOrder o.no (fun o => { o with st := .delivering }) y)
  | _, _ => advance e a y

/-- A Read's completion (R48, R153): the readings are reconciled and the survey goes on or ends. -/
def readDone (e : Env) (a : Aisle) (n s : SideRead) (y : Yard) : Yard :=
  match y.carriers[a].task with
  | some (.survey r) =>
    match r.ended, r.todo with
    | false, p :: rest =>
      let (y, r) := reconcile e a p n s y { r with todo := rest, reading := false }
      if rest.isEmpty then advance e a (finishSurvey e a r y)
      else advance e a (setTask a (some (.survey r)) y)
    | _, _ => advance e a y
  | _ => advance e a y

/-- The position a travel has reached. -/
def setPos (a : Aisle) (p : Nat × Nat) (y : Yard) : Yard := modCarrier a (fun c => { c with pos := some p }) y

/-- A Travel's completion; a ClearMove's gives the suspended task back, and the carrier is Held (R60). -/
def travelDone (e : Env) (a : Aisle) (p : Nat × Nat) (y : Yard) : Yard :=
  let y := setPos a p y
  advance e a (if y.carriers[a].task = some .clearMove then unsuspend a y else y)

/-- What the completion of a segment does, by kind, once the segment has ended (R48). -/
def segReported (e : Env) (a : Aisle) (s : Segment) (r : SegReport) (y : Yard) : Yard :=
  match s.kind, s.target with
  | .travel, .pos c l => travelDone e a (c, l) y
  | .forkIn, .cell x => forkInCell e a x (s.expect.getD 0) (tagRead r) y
  | .forkIn, _ => forkInInbound e a (s.expect.getD 0) (tagRead r) y
  | .forkOut, .cell x => forkOutDone e a x y
  | .forkOut, _ => mergeDone e a y
  | .read, _ =>
    match r with
    | .read n s => readDone e a n s y
    | _ => readDone e a ⟨.unreadable, .unreadable⟩ ⟨.unreadable, .unreadable⟩ y
  | .halt, _ =>
    match r with
    | .stopped c l => setPos a (c, l) y
    | _ => y
  | .travel, _ => advance e a y

/-- Completion of the segment in flight (R48). A Halt's stop report leaves the carrier Halted. The trays choose when
a profile change that waited for the segment takes its aisle from Off (R28, R140). -/
def segDone (e : Env) (a : Aisle) (s : Segment) (r : SegReport) (y : Yard) : Yard :=
  choicesWhen (leavesOff e a y) e (segReported e a s r (segEnded e a y))

/-! ## Fault reports and deadlines (R50, R51) -/

/-- The reason a fault report gives for a segment: BIN_DAMAGED only on a ForkIn, a kind not listed is
DRIVE_FAULT (R50). -/
def faultReason (s : Segment) : DriveFault → FaultReason
  | .forkJam => .forkJam
  | .driveFault | .unlisted => .driveFault
  | .binDamaged => if s.kind = .forkIn then .binDamaged else .driveFault

/-- A fault report ends the segment in flight (R50). The Halt sent to the drive unit is bare: it takes no
segment number (assumption 62, DESIGN CHOICE). -/
def segFaulted (e : Env) (a : Aisle) (s : Segment) (f : DriveFault) (y : Yard) : Yard :=
  let reason := faultReason s f
  let z := send (.driveHalt a) (segEnded e a y)
  let z :=
    if reason = .binDamaged then (match s.expect with | some b => setDamaged b z | none => z)
    else unsettled e a s z
  choicesWhen (leavesOff e a y) e (enterFaulted e a reason none z)

/-- A segment's deadline expires (R51). The Halt sent to the drive unit is bare, as after a fault report
(assumption 62, DESIGN CHOICE). -/
def segLate (e : Env) (a : Aisle) (s : Segment) (y : Yard) : Yard :=
  choicesWhen (leavesOff e a y) e
    (enterFaulted e a .deadline none (unsettled e a s (send (.driveHalt a) (segEnded e a y))))

/-! ## Halt (R62), Hold and the return from it (R59, R60) -/

/-- A carrier with a segment in flight takes a Halt: the segment becomes a Halt segment (R62). The wing has left
Normal when it does, and has ended every tray's demand (R137): no space-bin choice follows a change of profile here. -/
def cutSegment (e : Env) (a : Aisle) (s : Segment) (y : Yard) : Yard :=
  let y := unsettled e a s (segEnded e a y)
  let h : Segment := ⟨.halt, y.carriers[a].segNo + 1, .nothing, none, 0, none, 0, some s.kind⟩
  let y := modCarrier a (fun c => { c with st := .halted, seg := some h, segNo := h.no }) (unsuspend a y)
  abortSurvey e a (send (.segment a h) y)

/-- A carrier takes a Halt (R62). A carrier already Halted keeps its state. -/
def haltCarrier (e : Env) (a : Aisle) (y : Yard) : Yard :=
  let c := y.carriers[a]
  match c.st with
  | .offline | .halted => y
  | .parked | .faulted => send (.driveHalt a) y
  | _ =>
    match c.seg with
    | some s => cutSegment e a s y
    | none => abortSurvey e a (send (.driveHalt a) (setSt a .halted (leaveMerge a (unsuspend a y))))

/-- DRV_PWR goes low: a segment in flight other than a Halt is cut as by Halt (R62). -/
def powerCut (e : Env) (a : Aisle) (y : Yard) : Yard :=
  match y.carriers[a].seg with
  | some s => if s.kind = .halt then y else cutSegment e a s y
  | none => y

/-- The wing enters Hold: a carrier with no segment in flight is Held at once (R59). -/
def holdCarrier (a : Aisle) (y : Yard) : Yard :=
  let c := y.carriers[a]
  if (c.st = .idle ∨ taskRuns c.st) ∧ c.seg = none then setSt a .held (leaveMerge a y) else y

/-- A Held carrier is asked for a ClearMove (R60). -/
def clearMove (e : Env) (a : Aisle) (y : Yard) : Yard :=
  runPlan e a (modCarrier a (fun c => { c with suspended := c.task, task := some .clearMove }) y)

/-- The wing returns to Normal: a Held carrier resumes its plan or is Idle (R59). -/
def resumeCarrier (e : Env) (a : Aisle) (y : Yard) : Yard :=
  if y.carriers[a].st = .held then runPlan e a y else y

/-- The wing enters Parking: a carrier with no segment in flight takes its park plan (R61). -/
def parkCarrier (e : Env) (a : Aisle) (y : Yard) : Yard :=
  let c := y.carriers[a]
  match c.st with
  | .faulted | .offline | .halted | .parked => y
  | _ => if c.seg.isNone then takePark e a y else y

/-- A carrier becomes Offline with its load and task record dropped (R68): the order of a Retrieve is told,
a loaded bin is Unverified with no cell, and the reservation is released. The order of a Faulted carrier was told at
its fault (R54), and may have been claimed by another carrier since: it is not told again (R85). -/
def carrierOffline (e : Env) (a : Aisle) (y : Yard) : Yard :=
  let y := segEnded e a (unsuspend a (leaveMerge a y))
  let c := y.carriers[a]
  let y := releaseTask e a c.task (abortSurvey e a y)
  let y := if c.st = .faulted then y else tellOrder c.task y
  let y := modCarrier a (fun c => { c with st := .offline, load := none, task := none, fault := none }) y
  match c.load with
  | some b => binLost b none y
  | none => y

end Sys2Proof.Machine
end

