-- ==== Sys2Proof/Machine/Arbiter.lean ====
section
/-! DEFINITION. The aisle arbiters and the merge arbiter, and the settling of the yard after a change:
everything that the rules say "chooses again", "is tested again" or "is derived again" (R30, R63, R81,
R95 to R100, R107, R119, R145, R148). -/

namespace Sys2Proof.Machine

open Sys2Proof

/-! ## The aisle arbiter (R63 to R65) -/

/-- Whether a choice may begin a task of a full choice (R63). -/
def mayChoose (e : Env) (a : Aisle) (y : Yard) : Bool :=
  decide (y.carriers[a].st = .idle) && aisleReady e a y && !y.journal.holdOff

/-- WingFull for a bin an aisle cannot place, once for that bin in that aisle (R145). -/
def wingFull (e : Env) (a : Aisle) (b : Nat) (onCarrier : Bool) (y : Yard) : Yard :=
  if y.arbs[a].fullFor = some b then y
  else
    notify e .wingFull [.u1 (aisleNo a), .u2 b, .u1 (if onCarrier then 2 else 1)]
      (modArb a (fun r => { r with fullFor := some b }) y)

/-- The WingFull mark ends when the aisle has a placement candidate (R145). -/
def clearFull (e : Env) (a : Aisle) (y : Yard) : Yard :=
  if y.arbs[a].fullFor.isSome && hasCandidate e a y then modArb a (fun r => { r with fullFor := none }) y else y

/-- Begin a task: the task record, and its plan as far as it goes. -/
def beginTask (e : Env) (a : Aisle) (t : Task) (y : Yard) : Yard := runPlan e a (setTask a (some t) y)

/-- Begin the aisle's requested survey (R151): the aisle is no longer ready from this moment. A survey of no position
begins and ends in one choice, with no evaluation of the aisle's orders between (assumption 82, DESIGN CHOICE). -/
def beginSurvey (e : Env) (a : Aisle) (q : SurveyReq) (y : Yard) : Yard :=
  beginTask e a (.survey (surveyRun e a q y)) (modArb a (fun r => { r with surveyReq := none, wasReady := false }) y)

/-- The Retrieve of the order ranked first, claimed from the order queue (R65); its shuffle target is
reserved at that moment (R55). -/
def beginRetrieve (e : Env) (a : Aisle) (o : Order) (y : Yard) : Yard :=
  match storedCell o.bin y, orderRetrieval e o y with
  | some x, some (_, sh) =>
    let y := modOrder o.no (fun o => { o with st := .assigned }) y
    match sh with
    | some (f, s) => beginTask e a (.retrieve o.no o.bin x .toFront sh) (reserve e s f .shuffle y)
    | none => beginTask e a (.retrieve o.no o.bin x .toBin none) y
  | _, _ => y

/-- Steps 3 to 6 of R64 for a carrier with no load and no survey requested. WingFull is raised at every choice that
finds an inbound bin and no candidate, also at one that takes a retrieval with the return line below its pressure
(assumption 81, DESIGN CHOICE). -/
def chooseWork (e : Env) (a : Aisle) (y : Yard) : Yard :=
  let orders := eligibleOrders e a y
  let first := rankFirst e y orders
  match y.lines.inbound[a] with
  | some b =>
    if hasCandidate e a y then
      if e.cfg.pressure ≤ y.lines.returns.length ∨ orders.isEmpty then beginTask e a (.putaway b .toMouth none) y
      else match first with | some o => beginRetrieve e a o y | none => y
    else
      let y := wingFull e a b false y
      match first with | some o => beginRetrieve e a o y | none => y
  | none => match first with | some o => beginRetrieve e a o y | none => y

/-- One choice of an aisle's arbiter (R64). -/
def choose (e : Env) (a : Aisle) (y : Yard) : Yard :=
  if mayChoose e a y then
    match e.wing with
    | .normal =>
      match y.carriers[a].load with
      | some b =>
        if (putAwayCell e a y).isSome then beginTask e a (.putaway b .choose none) y else wingFull e a b true y
      | none =>
        match y.arbs[a].surveyReq with
        | some q => beginSurvey e a q y
        | none => chooseWork e a y
    | .standby =>
      match y.carriers[a].load, y.arbs[a].surveyReq with
      | none, some q => beginSurvey e a q y
      | _, _ => y
    | _ => y
  else y

/-- The arbiters' choices, aisle by aisle. -/
def chooseAll (e : Env) (y : Yard) : Yard := aisles.foldl (fun y a => choose e a (clearFull e a y)) y

/-! ## The merge arbiter (R57, R95) -/

/-- The head of the waiting list is granted when R95's conditions hold; a carrier that no longer waits
hands the grant back at once. -/
def mergeTest (e : Env) (y : Yard) : Yard :=
  match y.lines.mergeList with
  | [] => y
  | a :: t =>
    if lineOpen e .delivery y && y.lines.mergeGrant.isNone && decide (deliveryCommitted y < 12) then
      let y := modLines (fun l => { l with mergeList := t, mergeGrant := some a }) y
      match y.carriers[a].st, y.carriers[a].task with
      | .waitMerge, some (.retrieve no b x _ sh) => beginTask e a (.retrieve no b x .handoff sh) y
      | _, _ => endGrant a y
    else y

/-! ## Readiness (R30) -/

/-- AisleReady is raised when an aisle has gone from not ready to ready (R30). -/
def readyEdge (e : Env) (a : Aisle) (y : Yard) : Yard :=
  let now := aisleReady e a y
  let was := y.arbs[a].wasReady
  let y := modArb a (fun r => { r with wasReady := now }) y
  if now && !was then notify e .aisleReady [.u1 (aisleNo a), .u1 (assignCode y.est[a].inForce)] y else y

/-! ## Settling -/

/-- One pass of everything that is derived or tested again after a change of a record. An aisle that has become
Verified here has done so by an effect that stands whole: the events that settle cells one after another derive the
status at each of them (R147, R148). -/
def settlePass (e : Env) (y : Yard) : Yard :=
  let y := syncRoles e y
  let y := aisles.foldl (fun y a => readyEdge e a (verifyEdge e a y)) y
  let y := syncAutos e (retireCourse e (evalOrders e y))
  lineTests e (mergeTest e (chooseAll e y))

/-- The yard settles: six passes, more than any chain of causes within one step calls for. -/
def settle (e : Env) (y : Yard) : Yard :=
  settlePass e (settlePass e (settlePass e (settlePass e (settlePass e (settlePass e y)))))

end Sys2Proof.Machine
end

