-- ==== Sys2Proof/Machine/Journal.lean ====
section
/-! DEFINITION. The journal's single writer and the serial flash (R15 to R24, R211). -/

namespace Sys2Proof.Machine

open Sys2Proof

/-! ## Flash -/

/-- A settings section's value stored in flash (R211). -/
def putSettings (f : FlashSettings) : SettingsVal → FlashSettings
  | .geometry g => { f with geometry := some g }
  | .cells l => { f with cells := some l }
  | .profiles a b => { f with profiles := some (a, b) }
  | .assign v => { f with assign := some v }
  | .stations v => { f with stations := some v }
  | .dispatch a p => { f with dispatch := some (a, p) }
  | .trays t l => { f with trays := some (t, l) }
  | .sessions i a => { f with sessions := some (i, a) }
  | .sweep a b l => { f with sweep := some (a, b, l) }
  | .fire c => { f with fire := some c }

/-- A marker, incident, summary or settings write as it ends in flash (R20, R211). -/
def putCtl (f : Flash) : CtlWrite → Flash
  | .clean v => { f with clean := v }
  | .sealed v => { f with sealed := v }
  | .incident n => { f with incidentNo := n }
  | .summary s => { f with summary := some s }
  | .settings v => { f with settings := putSettings f.settings v }

/-- An entry's content as it ends in flash: a cell stored Empty is not listed. -/
def putEntry (f : Flash) (e : JEntry) : Flash :=
  match e.key, e.val with
  | .cell a, .cell .empty => { f with cells := kdel f.cells (cellCode a) }
  | .cell a, .cell c => { f with cells := kput f.cells (cellCode a) c }
  | .fill b, .fill n => { f with fills := kput f.fills b n }
  | .attr b, .attr x => { f with attrs := kput f.attrs b x }
  | _, _ => f

/-! ## Marked records (R17) -/

/-- The keys of the marked records in the order they are taken (R17): cells in address order, then bins in
ascending number (for one bin, attributes before fill: assumption 12). -/
def orderedKeys (j : Journal) : List JKey :=
  (j.cellMarks.filterMap fun n => (cellOfCode n).map JKey.cell)
    ++ (j.fillMarks.foldl ninsert j.attrMarks).flatMap fun b =>
      (if j.attrMarks.contains b then [JKey.attr b] else []) ++ (if j.fillMarks.contains b then [JKey.fill b] else [])

/-- A record loses its mark. -/
def unmark (j : Journal) : JKey → Journal
  | .cell a => { j with cellMarks := j.cellMarks.filter fun n => n ≠ cellCode a }
  | .fill b => { j with fillMarks := j.fillMarks.filter fun n => n ≠ b }
  | .attr b => { j with attrMarks := j.attrMarks.filter fun n => n ≠ b }

/-- A record's current content for the journal. -/
def currentVal (e : Env) (k : JKey) (y : Yard) : JVal :=
  match k with
  | .cell a => .cell (storedOf (getCell e a y))
  | .fill b => .fill (match getBin b y with | some r => r.fill | none => 0)
  | .attr b => .attr (match getBin b y with | some r => attrOf r | none => ⟨100, true, false⟩)

/-- A record that enters the list is no longer one of those the sealing flush has still to take (R21). -/
def noted (j : Journal) (k : JKey) : Journal :=
  { j with sealing := j.sealing.map fun p => (p.1.filter fun x => x ≠ k, p.2) }

/-- One marked record enters the list at the tail with its current content, if there is room (R17). -/
def takeMark (e : Env) (y : Yard) (k : JKey) : Yard :=
  if y.journal.entries.length < 64 && marked y.journal k then
    modJournal (fun j => holdOffOf (noted (unmark { j with entries := j.entries ++ [⟨k, currentVal e k y⟩] } k) k)) y
  else y

/-- Whether any record is marked. -/
def anyMark (j : Journal) : Bool := !(j.cellMarks.isEmpty && j.fillMarks.isEmpty && j.attrMarks.isEmpty)

/-- The marked records that may enter the list now (R17, R21): none while the journal is closed or in
hold-off; during the sealing flush only those marked when it began, each of them once. -/
def takeable (j : Journal) : List JKey :=
  if j.closed || j.holdOff then []
  else
    match j.sealing with
    | some (keys, _) => (orderedKeys j).filter fun k => keys.contains k
    | none => orderedKeys j

/-- Marked records enter the list while there is room (R17). -/
def takeMarks (e : Env) (y : Yard) : Yard := (takeable y.journal).foldl (takeMark e) y

/-! ## The writer (R16, R20, R21) -/

/-- The next write begins when the writer is free, the journal open and no retry wait runs (R16, R19): a
control write first; an entry only after the clean marker is false (R20). A control write requested in the
wait that follows an entry's error begins before that entry (assumption 61, DESIGN CHOICE: R19 has the same
write begin again, R16 and R20 put a requested control write next). -/
def beginWrite (clean : Bool) (j : Journal) : Journal :=
  if j.writing.isSome || j.retryLeft.isSome || j.closed then j
  else
    match j.ctl, j.entries with
    | w :: _, _ => { j with writing := some (.ctl w) }
    | [], e :: _ =>
      if clean then { j with ctl := [.clean false], writing := some (.ctl (.clean false)) }
      else { j with writing := some (.entry e false) }
    | [], [] =>
      match j.sealing with
      | some (keys, false) =>
        if keys.any fun k => marked j k then j
        else { j with ctl := [.clean true], writing := some (.ctl (.clean true)), sealing := some ([], true) }
      | _ => j

/-- Marked records enter and the next write begins. -/
def journalGo (s : State) : State :=
  let s := onYard takeMarks s
  { s with yard := modJournal (beginWrite s.flash.clean) s.yard }

/-- A Flush that ends with the list empty and no record marked asks for the clean marker true (R20, R22),
unless it stands true already (assumption 51). While the journal is closed it asks for none, although it is answered OK
when it has nothing to cover (assumption 102, DESIGN CHOICE). -/
def flushEnded (clean : Bool) (j : Journal) : Journal :=
  if j.entries.isEmpty && !anyMark j && !j.closed && j.sealing.isNone && !(clean && j.ctl.isEmpty) then
    { j with ctl := j.ctl ++ [.clean true] }
  else j

/-- A covered key has been written: waiting Flush requests whose covered writes are all made are answered
OK (R22). -/
def flushWrote (k : JKey) (s : State) : State :=
  let ws := s.yard.journal.flushes.map fun w => { w with keys := w.keys.filter fun x => x ≠ k }
  let done := ws.filter fun w => w.keys.isEmpty
  let y := modJournal (fun j => { j with flushes := ws.filter fun w => !w.keys.isEmpty }) s.yard
  let y := if done.isEmpty then y else modJournal (flushEnded s.flash.clean) y
  done.foldl (fun s w => answer w.id .ok [] s) { s with yard := y }

/-- The waiting Flush requests that satisfy `p` are answered BUSY (R21, R22). -/
def flushBusy (p : FlushWait → Bool) (s : State) : State :=
  let out := s.yard.journal.flushes.filter p
  out.foldl (fun s w => answer w.id .busy [] s)
    { s with yard := modJournal (fun j => { j with flushes := j.flushes.filter fun w => !p w }) s.yard }

/-- A flash write completes (R16, R19, R20). -/
def writeDone (s : State) : State :=
  match s.yard.journal.writing with
  | none => s
  | some (.ctl w) =>
    { s with
      flash := putCtl s.flash w
      yard := modJournal (fun j => { j with ctl := j.ctl.drop 1, writing := none, errors := 0 }) s.yard }
  | some (.entry e replaced) =>
    let s := { s with
      flash := putEntry s.flash e
      yard := modJournal (fun j => holdOffOf { j with
        entries := if replaced then j.entries else j.entries.drop 1, writing := none, errors := 0 }) s.yard }
    if replaced then s else flushWrote e.key s

/-- Whether the write in flight is the one that ends the sealing flush (R21). -/
def sealingLast (j : Journal) : Bool :=
  decide (j.writing = some (.ctl (.clean true))) && match j.sealing with | some (_, true) => true | _ => false

/-- The control writes left when a failed sealing flush abandons its own (R21, R211). -/
def abandon (l : List CtlWrite) : List CtlWrite :=
  l.filter fun w => match w with | .settings _ | .incident _ => true | _ => false

/-- The sealing flush ends and the journal is closed (R21); Flush requests still waiting are answered BUSY. -/
def closeJournal (failed : Bool) (s : State) : State :=
  flushBusy (fun _ => true) { s with yard := modJournal (fun j =>
    { j with sealing := none, closed := true, writing := none, retryLeft := none
             ctl := if failed then abandon j.ctl else j.ctl }) s.yard }

/-- The sealing flush begins (R21). -/
def beginSealing (y : Yard) : Yard := modJournal (fun j => { j with sealing := some (orderedKeys j, false) }) y

/-- The journal opens with the sealed-marker clearing write first (R21, R195); one that is open, as after a
start in Sealed, goes on with the write in flight, and the clearing write comes after the ones requested
before it (R20). -/
def openJournal (y : Yard) : Yard :=
  modJournal (fun j =>
    if j.closed then { j with closed := false, ctl := .sealed false :: j.ctl }
    else { j with ctl := j.ctl ++ [.sealed false] }) y

/-! ## Write errors (R19) -/

/-- The kind of a write and its key in a JournalFault notice. -/
def writeFlds : Writing → List Fld
  | .entry ⟨.cell a, _⟩ _ => [.u1 1, .cell (some a)]
  | .entry ⟨.fill b, _⟩ _ => [.u1 2, .u2 b]
  | .entry ⟨.attr b, _⟩ _ => [.u1 3, .u2 b]
  | .ctl (.clean _) => [.u1 4, .u2 0]
  | .ctl (.sealed _) => [.u1 5, .u2 0]
  | .ctl (.incident _) => [.u1 6, .u2 0]
  | .ctl (.summary _) => [.u1 7, .u2 0]
  | .ctl (.settings _) => [.u1 8, .u2 0]

/-- A flash write ends with an error: the write stays first in line, the journal waits 50 ds, and the first
error since a success raises JournalFault (R19). -/
def writeFailed (s : State) : State :=
  match s.yard.journal.writing with
  | none => s
  | some w =>
    let s := if s.yard.journal.errors = 0 then notifyS .journalFault (writeFlds w) s else s
    let s := { s with yard := modJournal (fun j =>
      { j with writing := none, errors := bump j.errors, retryLeft := some 50 }) s.yard }
    match w with
    | .entry e _ => flushBusy (fun f => f.keys.contains e.key) s
    | .ctl _ => s

/-! ## The flush before a warm restart (R24) -/

/-- One write of the warm restart's flush. -/
def putWriting (f : Flash) : Writing → Flash
  | .ctl w => putCtl f w
  | .entry e _ => putEntry f e

/-- The writes of the flush in order (R24, R211): a control write in flight, the pending control writes but
the sealed marker, which the flush does not touch, a clean-false if an entry follows and the marker stands
true, the entries, the marked records, and the clean marker true. An entry write in flight is dropped and its entry
written anew in its place in the list, after the control writes (assumption 103, DESIGN CHOICE). -/
def restartWrites (e : Env) (clean : Bool) (y : Yard) : List Writing :=
  let j := y.journal
  let keep := fun w : CtlWrite => match w with | .sealed _ | .clean _ => false | _ => true
  let ctl :=
    match j.writing, j.ctl with
    | some (.ctl w), _ :: t => w :: t.filter keep
    | _, l => l.filter keep
  let clean := match j.writing with | some (.ctl (.clean v)) => v | _ => clean
  let entries := j.entries ++ (orderedKeys j).map fun k => ⟨k, currentVal e k y⟩
  let pre := if clean && !entries.isEmpty then [Writing.ctl (.clean false)] else []
  ctl.map Writing.ctl ++ pre ++ entries.map (fun x => Writing.entry x false) ++ [Writing.ctl (.clean true)]

/-- The flash after the warm restart's flush, which a write error ends at once. -/
def restartFlush (e : Env) (error : Option Nat) (f : Flash) (y : Yard) : Flash :=
  let ws := restartWrites e f.clean y
  (match error with | some n => ws.take n | none => ws).foldl putWriting f

end Sys2Proof.Machine
end

