-- ==== Sys2Proof/Machine/Sweep.lean ====
section
/-! DEFINITION. The environmental sweep: conversions, slots, stages, zones (chapter 9). -/

namespace Sys2Proof.Machine

open Sys2Proof

/-! ## From raw count to stage (R168 to R171) -/

/-- Whether a raw count is out of bounds: the loop is open or shorted (R169). -/
def outOfBounds (raw : Nat) : Bool := decide (raw ≤ 8 ∨ 4087 ≤ raw)

/-- The value of an in-bounds count (R169). -/
def slotValue (c : SlotCfg) (raw : Nat) : Int := c.low + ((raw * c.span / 4095 : Nat) : Int)

/-- A consecutive-above counter (R170). -/
def countAbove (v th : Int) (confirm n : Nat) : Nat := if th ≤ v then min confirm (n + 1) else 0

/-- The order of the stages from Normal up (R166). -/
def stageRank : Stage → Nat
  | .preAlarm => 1 | .alarm => 2 | .trip => 3 | _ => 0

/-- Whether a Heat slot's value reaches its trip threshold less a margin; other kinds have no Trip. -/
def reachesTrip (c : SlotCfg) (v margin : Int) : Bool :=
  match c.kind, c.th.trip with
  | .heat, some t => decide (t - margin ≤ v)
  | _, _ => false

/-- The highest stage confirmed (R170). -/
def confirmed (c : SlotCfg) (v : Int) (pre alarm : Nat) : Stage :=
  if reachesTrip c v 0 then .trip
  else if alarm = c.th.confirm then .alarm
  else if pre = c.th.confirm then .preAlarm
  else .normal

/-- The highest stage up to `top` whose threshold less the hysteresis a value still reaches (R171). -/
def reached (c : SlotCfg) (v : Int) (top : Stage) : Stage :=
  let h : Int := c.th.hyst
  if decide (3 ≤ stageRank top) && reachesTrip c v h then .trip
  else if 2 ≤ stageRank top ∧ c.th.alarm - h ≤ v then .alarm
  else if 1 ≤ stageRank top ∧ c.th.pre - h ≤ v then .preAlarm
  else .normal

/-- An in-bounds value is judged (R170, R171). -/
def judgeValue (r : SlotRec) (v : Int) : SlotRec :=
  let pre := countAbove v r.cfg.th.pre r.cfg.th.confirm r.preCount
  let alarm := countAbove v r.cfg.th.alarm r.cfg.th.confirm r.alarmCount
  let up := confirmed r.cfg v pre alarm
  { r with
    preCount := pre, alarmCount := alarm
    stage := if stageRank r.stage < stageRank up then up else reached r.cfg v r.stage }

/-- A Settling slot's conversion (R168). -/
def settleSlot (r : SlotRec) (raw : Nat) : SlotRec :=
  if r.settlingLeft ≤ 1 then
    { r with
      settlingLeft := 0, preCount := 0, alarmCount := 0
      stage := if outOfBounds raw && decide (r.cfg.kind ≠ .unused) then .fault else .normal }
  else { r with settlingLeft := r.settlingLeft - 1 }

/-- A completed conversion is applied to its slot (R163, R168 to R171). -/
def slotRead (r : SlotRec) (raw : Nat) : SlotRec :=
  let raw := if r.cfg.kind = .unused then 0 else raw
  let v := slotValue r.cfg raw
  let r := { r with last := some (raw, if outOfBounds raw then none else some v) }
  if r.stage = .settling then settleSlot r raw
  else if r.cfg.kind = .unused then r
  else if outOfBounds raw then { r with stage := .fault, preCount := 0, alarmCount := 0 }
  else judgeValue (if r.stage = .fault then { r with stage := .normal, preCount := 0, alarmCount := 0 } else r) v

/-! ## Zones (R174, R175) -/

/-- Whether a slot counts in a zone: a Smoke or Heat slot assigned to it. -/
def inZone (z : Zone) (r : SlotRec) : Bool :=
  decide (r.cfg.zone = z) && (decide (r.cfg.kind = .smoke) || decide (r.cfg.kind = .heat))

/-- The slots of a zone. -/
def zoneSlots (w : Sweep) (z : Zone) : List Slot := slotList.filter fun i => inZone z w.slots[i]

/-- A zone's stage (R174). -/
def zoneStage (w : Sweep) (z : Zone) : Stage :=
  let ss := (zoneSlots w z).map fun i => w.slots[i].stage
  if ss.contains .trip then .trip
  else if ss.contains .alarm || decide (2 ≤ (ss.filter fun s => 1 ≤ stageRank s).length) then .alarm
  else if ss.contains .preAlarm then .preAlarm
  else .normal

/-- A zone's slots in Fault, in slot order (R175). -/
def zoneFaults (w : Sweep) (z : Zone) : List Slot := (zoneSlots w z).filter fun i => w.slots[i].stage = .fault

/-! ## The run of the sweep (R162 to R165) -/

/-- A slot record is replaced. -/
def setSlot (i : Slot) (r : SlotRec) (w : Sweep) : Sweep := { w with slots := w.slots.set i r }

/-- The slot after one, within the range (R163). -/
def slotAfter (w : Sweep) (i : Slot) : Slot := if i = w.stop then w.start else i + 1

/-- Pending threshold values are put in force, with the counters at 0 (R172). -/
def forceSlot (r : SlotRec) : SlotRec :=
  match r.pend with
  | some t => { r with cfg := { r.cfg with th := t }, pend := none, preCount := 0, alarmCount := 0 }
  | none => r

/-- The conversion of a slot begins (R163, R172), and the next slot is the one after it: while the sweep then comes to
be Stopped, it is kept as it stands (assumption 88, DESIGN CHOICE). -/
def beginConv (i : Slot) (w : Sweep) : Sweep :=
  { setSlot i (forceSlot w.slots[i]) w with conv := some i, next := slotAfter w i }

/-- A sweep that is Starting runs once the front-end is Ready (R163). -/
def startConv (w : Sweep) : Sweep :=
  if w.run = .starting ∧ w.warmLeft = none then beginConv w.start { w with run := .running } else w

/-- The sweep starts as for a Continuous or Single action (R164). A Starting sweep counts no pass yet. -/
def startSweep (single : Bool) (w : Sweep) : Sweep :=
  startConv { w with run := .starting, single := single, next := w.start, passes := 0 }

/-- The pass count, which holds at its maximum (R162). -/
def bumpPasses (n : Nat) : Nat := if n < 4294967295 then n + 1 else n

/-- The next step after a completed conversion (R163). A sweep that stops keeps as next slot the one after the slot
converted last (assumption 88, DESIGN CHOICE). -/
def nextConv (i : Slot) (w : Sweep) : Sweep :=
  let w := { w with conv := none }
  match w.run with
  | .running =>
    if i ≠ w.stop then beginConv (slotAfter w i) w
    else
      let w := { w with passes := bumpPasses w.passes }
      if w.single then { w with run := .stopped, single := false } else beginConv w.start w
  | .stopping => { w with run := .stopped }
  | _ => w

/-- Outside Standby the sweep is kept running (R165). -/
def keepRunning (w : Sweep) : Sweep :=
  match w.run with
  | .stopped => startSweep false w
  | .stopping => { w with run := .running, single := false, stopIds := [] }
  | _ => { w with single := false }

/-! ## Configuration of a slot (R166, R167) -/

/-- The constants and thresholds a slot takes when its kind is set, with its confirm count kept (R166,
R167). The rule lists none for Unused: free values within the ranges (assumption 2). -/
def kindDefaults (k : SlotKind) (zone : Zone) (confirm : Nat) : SlotCfg :=
  match k with
  | .heat => ⟨k, zone, -200, 1200, ⟨450, 570, some 700, 20, confirm⟩⟩
  | .smoke => ⟨k, zone, 0, 2000, ⟨50, 100, none, 10, confirm⟩⟩
  | .humidity => ⟨k, zone, 0, 1000, ⟨600, 700, none, 20, confirm⟩⟩
  | .unused =>
    let (low, span, pre, alarm, hyst) := Config.unusedDefaults
    ⟨k, zone, clampInt (-2000) 2000 low, clamp 100 4000 span, ⟨pre, alarm, none, hyst, confirm⟩⟩

/-- Thresholds fitted to a slot's constants (R167, steps 3 and 4). -/
def fitThresholds (c : SlotCfg) (t : Thresholds) : Thresholds :=
  let hi := c.low + c.span
  let pre := clampInt c.low hi t.pre
  let alarm := max pre (clampInt c.low hi t.alarm)
  { pre := pre, alarm := alarm
    trip := if c.kind = .heat then t.trip.map fun x => max alarm (clampInt c.low hi x) else none
    hyst := min 500 t.hyst, confirm := clamp 1 4 t.confirm }

/-- A slot kind by its code. -/
def kindOf : Nat → Option SlotKind
  | 1 => some .unused | 2 => some .smoke | 3 => some .heat | 4 => some .humidity | _ => none

/-- Whether an item gives any slot configuration (R167). -/
def givesConfig (i : SlotItem) : Bool := i.kind.isSome || i.zone.isSome || i.low.isSome || i.span.isSome

/-- Whether an item gives a threshold value a slot of this kind takes. -/
def givesThresholds (k : SlotKind) (i : SlotItem) : Bool :=
  i.pre.isSome || i.alarm.isSome || (decide (k = .heat) && i.trip.isSome) || i.hyst.isSome || i.confirm.isSome

/-- The slot configuration an item makes, its thresholds fitted (R167). -/
def itemConfig (c : SlotCfg) (i : SlotItem) : SlotCfg :=
  let c :=
    match i.kind.bind kindOf with
    | some k => if k = c.kind then c else kindDefaults k c.zone c.th.confirm
    | none => c
  let c := { c with
    zone := (i.zone.bind zoneOf).getD c.zone
    low := match i.low with | some v => clampInt (-2000) 2000 v | none => c.low
    span := match i.span with | some v => clamp 100 4000 v | none => c.span }
  { c with th := fitThresholds c c.th }

/-- The threshold values an item gives, over those that stand or wait (R172). -/
def itemThresholds (c : SlotCfg) (t : Thresholds) (i : SlotItem) : Thresholds :=
  fitThresholds c
    { pre := i.pre.getD t.pre, alarm := i.alarm.getD t.alarm
      trip := if c.kind = .heat then (match i.trip with | some v => some v | none => t.trip) else none
      hyst := i.hyst.getD t.hyst, confirm := i.confirm.getD t.confirm }

/-- Whether two configurations agree in kind, zone, low and span. -/
def sameConfig (c d : SlotCfg) : Bool := decide (c.kind = d.kind ∧ c.zone = d.zone ∧ c.low = d.low ∧ c.span = d.span)

/-- Values still pending at a configuration of the slot: a change of kind resets all of them but the confirm
count, which stays pending when it differs from the one in force (R167, R172). -/
def keptPending (c : SlotCfg) (r : SlotRec) : Option Thresholds :=
  if c.kind = r.cfg.kind then r.pend.map (fitThresholds c)
  else
    match r.pend with
    | some t => if t.confirm = r.cfg.th.confirm then none else some { c.th with confirm := t.confirm }
    | none => none

/-- A slot item that is taken is applied to its slot (R167, R168, R172). -/
def applyItem (r : SlotRec) (i : SlotItem) : SlotRec :=
  let c := itemConfig r.cfg i
  let pend := keptPending c r
  let pend := if givesThresholds c.kind i then some (itemThresholds c (pend.getD c.th) i) else pend
  let r' := { r with cfg := c, pend := pend }
  if sameConfig c r.cfg then r' else { r' with stage := .settling, settlingLeft := 3, preCount := 0, alarmCount := 0 }

/-- A slot's configuration as the stored settings take it: pending values as if in force (R172). -/
def storedSlot (r : SlotRec) : SlotCfg := { r.cfg with th := r.pend.getD r.cfg.th }

/-- The Sweep section's stored value (R211). -/
def sweepSettings (w : Sweep) : SettingsVal := .sweep w.start w.stop (w.slots.map storedSlot)

/-! ## Fields of notices and replies -/

/-- A last reading: raw count and value. -/
def readingFlds (l : Option (Nat × Option Int)) : List Fld := [unset2 (l.map (·.1)), optS2 (l.bind (·.2))]

/-- A slot's stage notice (R173): slot, kind, zone, stages before and after, last reading. -/
def stageFlds (i : Slot) (k : SlotKind) (z : Zone) (before after : Stage) (l : Option (Nat × Option Int)) : List Fld :=
  [.u1 i.val, .u1 (kindCode k), .u1 z.val, .u1 (stageCode before), .u1 (stageCode after)] ++ readingFlds l

end Sys2Proof.Machine
end

