-- ==== Sys2Proof/Machine/Wing.lean ====
section
/-! DEFINITION. The wing controller: causes, incidents, the entries to the wing states, the shutter plane
and the outputs (chapter 10). -/

namespace Sys2Proof.Machine

open Sys2Proof

/-! ## Updates -/

/-- Update the wing record. -/
def modWing (f : Wing → Wing) (s : State) : State := { s with wing := f s.wing }

/-- Update the sweep record. -/
def modSweep (f : Sweep → Sweep) (s : State) : State := { s with sweep := f s.sweep }

/-- Apply a step of the yard for each aisle of the configured geometry, in order. -/
def eachAisle (f : Env → Aisle → Yard → Yard) (s : State) : State :=
  onYard (fun e y => (aislesIn e).foldl (fun y a => f e a y) y) s

/-- Apply a step of the yard for each station, in order. -/
def eachStation (f : Env → Station → Yard → Yard) (s : State) : State :=
  onYard (fun e y => stationList.foldl (fun y st => f e st y) y) s

/-! ## Causes (R178) -/

/-- The level of the causes a zone stage makes present. -/
def zoneLevel : Stage → Level
  | .preAlarm => .hold
  | .alarm => .park
  | .trip => .trip
  | _ => .none

/-- The level a panel input gives when it is high. -/
def panelLevel : PanelInput → Level
  | .stage1 => .hold
  | .stage2 => .park
  | .discharge => .trip

/-- Whether an input of the panel is high. -/
def panelHigh (p : Panel) : PanelInput → Bool
  | .stage1 => p.stage1
  | .stage2 => p.stage2
  | .discharge => p.discharge

/-- A panel input takes a level. -/
def setPanel (p : Panel) (i : PanelInput) (high : Bool) : Panel :=
  match i with
  | .stage1 => { p with stage1 := high }
  | .stage2 => { p with stage2 := high }
  | .discharge => { p with discharge := high }

/-- The higher of two levels. -/
def maxLevel (a b : Level) : Level := if levelCode a < levelCode b then b else a

/-- The highest cause level present (R178). -/
def causeLevel (zs : Vector ZoneRec 4) (p : Panel) : Level :=
  let z := zoneList.foldl (fun l i => maxLevel l (zoneLevel zs[i].stage)) .none
  [PanelInput.stage1, .stage2, .discharge].foldl (fun l i => if panelHigh p i then maxLevel l (panelLevel i) else l) z

/-- Whether a Hold cause is present (R178). -/
def holdPresent (zs : Vector ZoneRec 4) (p : Panel) : Bool :=
  p.stage1 || zoneList.any fun i => 1 ≤ stageRank zs[i].stage

/-! ## Notices of the wing (R177, R182) -/

/-- Raise WingState (R177). -/
def noticeState (before after : WingSt) (s : State) : State :=
  notifyS .wingState [.u1 (wingStCode before), .u1 (wingStCode after), .u4 s.wing.incidentNo,
    .u1 (levelCode s.wing.cause)] s

/-- Raise IncidentUpdate with the items of the change (R182, R185, R192 to R195). -/
def incidentUpdate (items : List Fld) (s : State) : State := notifyS .incidentUpdate items s

/-- Update the incident record, if one is held. -/
def modIncident (f : Incident → Incident) (s : State) : State :=
  modWing (fun w => { w with incident := w.incident.map f }) s

/-- The wing takes another state, with its notice; outside Standby the sweep is kept running, and Stop
requests that waited are answered BUSY (R165, R177). -/
def setWing (st : WingSt) (s : State) : State :=
  let before := s.wing.st
  let ids := s.sweep.stopIds
  let withdrawn := decide (s.sweep.run = .stopping)
  let s := modSweep keepRunning (noticeState before st (modWing (fun w => { w with st := st }) s))
  if withdrawn then ids.foldl (fun s id => answer id .busy [] s) s else s

/-! ## Incidents (R182, R193) -/

/-- An incident opens at a rise of the cause level (R182). -/
def openIncident (src : Source) (l : Level) (s : State) : State :=
  let no := if s.wing.incidentNo < 4294967295 then s.wing.incidentNo + 1 else s.wing.incidentNo
  let now := s.clock.sec
  let r : Incident :=
    { number := no, cause := some src, start := some now, highest := l, triggers := [⟨now, src, l⟩], later := 0
      notParked := [], bins := [], obstructed := false, flush := none, resume := none, isOpen := true
      restored := false }
  let s := modWing (fun w => { w with incidentNo := no, incident := some r }) s
  let s := { s with yard := ctlRequest (.incident no) s.yard }
  incidentUpdate ([.u4 no] ++ sourceFlds (some src) ++ [.u4 now, .u1 (levelCode l)]) s

/-- A rise of a source during an open incident is recorded as a trigger (R193). The later-trigger count holds at
65,535 as the part's other counts do (assumption 53, DESIGN CHOICE). -/
def recordTrigger (src : Source) (l : Level) (s : State) : State :=
  match s.wing.incident with
  | none => s
  | some r =>
    if r.isOpen then
      let hi := maxLevel r.highest l
      let now := s.clock.sec
      if r.triggers.length < 8 then
        incidentUpdate ([.u4 now] ++ sourceFlds (some src) ++ [.u1 (levelCode l), .u1 (levelCode hi)])
          (modIncident (fun r => { r with triggers := r.triggers ++ [⟨now, src, l⟩], highest := hi }) s)
      else
        incidentUpdate [.u2 (bump r.later), .u1 (levelCode hi)]
          (modIncident (fun r => { r with later := bump r.later, highest := hi }) s)
    else s

/-- The incident closes with the wing clock as its resume stamp (R186, R195). -/
def closeIncident (s : State) : State :=
  match s.wing.incident with
  | none => s
  | some r =>
    if r.isOpen then
      incidentUpdate [.u4 r.number, .u4 s.clock.sec]
        (modIncident (fun r => { r with isOpen := false, resume := some s.clock.sec }) s)
    else s

/-- The shutter-plane obstructed flag is set, with an IncidentUpdate (R185, R192). The notice is raised also where the
flag stands already (assumption 112, DESIGN CHOICE). -/
def obstruct (s : State) : State :=
  match s.wing.incident with
  | none => s
  | some r => incidentUpdate [.u4 r.number, flag true] (modIncident (fun r => { r with obstructed := true }) s)

/-! ## Leaving a state -/

/-- Every wing timer is unset and the clearing list emptied. -/
def dropTimers (w : Wing) : Wing :=
  { w with clearing := [], holdTimer := none, parkTimer := none, restartTimer := none, returning := false }

/-- Carriers that have not reported since Restarting began become Offline (R68). -/
def dropUnreported (s : State) : State :=
  onYard (fun e y => aisles.foldl (fun y a =>
    if y.carriers[a].reported ∨ y.carriers[a].st = .offline then y else carrierOffline e a y) y) s

/-! ## Entry to Normal (R180, R186, R196) -/

/-- The wing enters Normal: Held carriers resume, the session expiries put off until now happen (R121), and
trays whose level condition holds take a demand edge (R135). The expiries of every station come first, so that what
they hand back counts in the level that is then looked at (assumption 98, DESIGN CHOICE). -/
def enterNormal (s : State) : State :=
  let s := setWing .normal (modWing dropTimers s)
  let s := onYard (fun e y => aisles.foldl (fun y a => resumeCarrier e a y) y) s
  eachStation levelEdge (eachStation putOffExpiries s)

/-- The wing returns from Hold or Clearing to Normal: the incident closes (R186). -/
def returnNormal (s : State) : State := enterNormal (closeIncident s)

/-! ## Entry to Hold, and the shutter plane (R183 to R185) -/

/-- Whether a carrier's segment in flight will leave it in the shutter plane (R184). -/
def staysInPlane (c : Carrier) : Bool :=
  match c.seg with
  | some g =>
    match g.kind, g.target with
    | .travel, .pos col _ => decide (col ≤ 1)
    | .halt, _ => false
    | _, _ => inPlane c
  | none => false

/-- An aisle's clearing-list entry at entry to Hold, once the carriers are Held (R184). -/
def clearingEntry (y : Yard) (a : Aisle) : Option (Aisle × ClearCond) :=
  let c := y.carriers[a]
  if c.st = .held ∧ inPlane c then some (a, .requested)
  else if staysInPlane c then some (a, .awaiting)
  else none

/-- Whether a carrier obstructs the plane at entry to Hold (R185). -/
def obstructsHold (c : Carrier) : Bool :=
  match c.st with
  | .offline => true
  | .faulted | .halted => inPlane c
  | _ => false

/-- The wing is Clearing while the clearing list holds an aisle, and Hold when it is empty (R185). -/
def followClearing (s : State) : State :=
  match s.wing.st with
  | .hold => if s.wing.clearing.isEmpty then s else setWing .clearing s
  | .clearing => if s.wing.clearing.isEmpty then (if s.wing.returning then returnNormal s else setWing .hold s) else s
  | _ => s

/-- The hold clear timer runs while the wing is held and no Hold cause is present (R183, R186). -/
def startHoldTimer (s : State) : State := modWing (fun w => { w with holdTimer := some s.cfg.fire.holdClear }) s

/-- The wing enters Hold (R183): carriers hold, tray demand ends, the clearing list is built and its
ClearMoves asked for, and the wing is Clearing at once when the list is not empty. The carriers that obstruct the plane
at this moment raise one IncidentUpdate together (R185; assumption 112, DESIGN CHOICE). -/
def enterHold (s : State) : State :=
  let s := setWing .hold (modWing dropTimers s)
  let s := onYard (fun _ y => stationList.foldl (fun y st => demandEnd st y)
    (aisles.foldl (fun y a => holdCarrier a y) y)) s
  let inside := aislesIn (envOf s)
  let list := inside.filterMap fun a => clearingEntry s.yard a
  let s := if inside.any fun a => obstructsHold s.yard.carriers[a] then obstruct s else s
  let s := if s.wing.holdCause then s else startHoldTimer s
  let s := followClearing (modWing (fun w => { w with clearing := list }) s)
  onYard (fun e y => list.foldl (fun y p => if p.2 = .requested then clearMove e p.1 y else y) y) s

/-- An entry of the clearing list after a change of its carrier (R184): kept, kept as Requested with a
ClearMove asked for, or left; and whether its leaving sets the obstructed flag (R185). -/
inductive ClearStep where
  | keep
  | ask
  | leave (obstructed : Bool)
  deriving DecidableEq, Repr

/-- What becomes of a clearing-list entry (R184). The entry of an Awaiting carrier whose Retrieve a report has taken,
and which its segment's end leaves Idle in the plane (R85), leaves the list with neither a ClearMove nor the obstructed
flag (assumption 91, DESIGN CHOICE). -/
def clearStep (c : Carrier) (k : ClearCond) : ClearStep :=
  match k, c.st with
  | _, .faulted => .leave true
  | .awaiting, .held => if inPlane c then .ask else .leave false
  | .awaiting, .moving | .awaiting, .forking => .keep
  | .requested, .clearing => .keep
  | _, _ => .leave false

/-- One entry of the clearing list is brought up to date. Each listed carrier that faults raises an IncidentUpdate of its
own, though the obstructed flag stands already (R185; assumption 112, DESIGN CHOICE). -/
def syncClearing (s : State) (p : Aisle × ClearCond) : State :=
  let drop := fun s : State => modWing (fun w => { w with clearing := w.clearing.filter fun q => q.1 ≠ p.1 }) s
  match clearStep s.yard.carriers[p.1] p.2 with
  | .keep => s
  | .leave o => if o then obstruct (drop s) else drop s
  | .ask =>
    onYard (fun e => clearMove e p.1)
      (modWing (fun w => { w with clearing := w.clearing.map fun q => if q.1 = p.1 then (q.1, .requested) else q }) s)

/-- The clearing list follows the carriers, and the wing state follows the list (R184 to R186). -/
def clearingSync (s : State) : State :=
  match s.wing.st with
  | .hold | .clearing => followClearing (s.wing.clearing.foldl syncClearing s)
  | _ => s

/-! ## Entry to Sealing (R191, R192) -/

/-- The bin a stroke in flight at a cell leaves Unverified when it is cut (R52). -/
def strokeBin (c : Carrier) : Option (Nat × CellAddr) :=
  match c.seg with
  | some g =>
    match g.kind, g.target with
    | .forkIn, .cell x => g.expect.map fun b => (b, x)
    | .forkOut, .cell x => c.load.map fun b => (b, x)
    | _, _ => none
  | none => none

/-- Whether a bin's record says Unverified with a cell as the last known one. -/
def lostAt (b : Nat) (x : CellAddr) (y : Yard) : Bool :=
  match getBin b y with
  | some r => decide (r.st = .unverified ∧ r.cell = some x)
  | none => false

/-- An aisle's entry of the bins-on-carriers list, from its carrier before and after the cuts (R192). The bin of a stroke
is listed where the cut has made it Unverified: not where a report has recorded it in another place (assumption 96). -/
def incidentBin (before : Yard) (after : Yard) (a : Aisle) : Option IncidentBin :=
  match (strokeBin before.carriers[a]).filter fun p => lostAt p.1 p.2 after with
  | some (b, x) => some ⟨b, a, some x, true⟩
  | none => after.carriers[a].load.map fun b => ⟨b, a, none, false⟩

/-- Whether a carrier that is not Parked obstructs the plane at entry to Sealing (R192). -/
def obstructsSealing (c : Carrier) : Bool :=
  decide (c.st ≠ .parked) && (inPlane c || decide (c.st = .offline))

/-- The incident record is completed at the entry to Sealing (R192). -/
def completeIncident (before : Yard) (s : State) : State :=
  let inside := aislesIn (envOf s)
  let np := inside.filterMap fun a =>
    let c := s.yard.carriers[a]
    if c.st = .parked then none else some (a, c.st)
  let bins := inside.filterMap fun a => incidentBin before s.yard a
  let obs := inside.any fun a => obstructsSealing s.yard.carriers[a]
  let s := modIncident (fun r => { r with notParked := np, bins := bins, obstructed := r.obstructed || obs }) s
  incidentUpdate (listFlds np (fun p => [.u1 (aisleNo p.1), .u1 (carrierStCode p.2)])
    ++ listFlds bins (fun b => [.u2 b.bin, .u1 (aisleNo b.aisle), .cell b.cell, .u1 (if b.unverified then 2 else 1)])) s

/-- The wing enters Sealing, with or without halt (R191): the outputs, the halts and cuts, the marker and
summary writes, the incident's lists, and then the sealing flush. Every tray's demand ends as the wing leaves Normal
(R137). The halt indication is kept from here until another Sealing or a start (assumption 90, DESIGN CHOICE). -/
def enterSealing (halt : Bool) (s : State) : State :=
  let before := s.yard
  let s := setWing .sealing (modWing (fun w => { dropTimers w with halt := halt, drvPwr := false, shutClose := true }) s)
  let s := eachStation (fun _ st y => demandEnd st y) s
  let s := if halt then
      onYard (fun e y => send (.lineHalt .ret) (send (.lineHalt .delivery)
        (aisles.foldl (fun y a => haltCarrier e a y) y))) s
    else s
  let s := onYard (fun e y => aisles.foldl (fun y a => dropRequest e a (powerCut e a y)) y) s
  let s := onYard (fun _ y => lineHalted .ret (lineHalted .delivery y)) s
  let s := { s with yard := ctlRequest (.sealed true) s.yard }
  let s :=
    match s.wing.incident with
    | some r => { s with yard := ctlRequest (.summary ⟨r.number, r.cause, r.highest⟩) s.yard }
    | none => s
  let s := completeIncident before s
  { s with yard := beginSealing s.yard }

/-- The sealing flush has ended: the result is recorded and the wing enters Sealed (R194). -/
def enterSealed (r : FlushResult) (s : State) : State :=
  let no := s.wing.incidentNo
  setWing .sealed (incidentUpdate [.u4 no, .u1 (match r with | .done => 1 | .failed => 2)]
    (modIncident (fun i => { i with flush := some r }) s))

/-! ## Entry to Parking (R188, R189) -/

/-- The wing enters Parking: the park timer starts, held survey requests are dropped, and each carrier with
no segment in flight takes its park plan. Every tray's demand ends as the wing leaves Normal (R137). -/
def enterParking (s : State) : State :=
  let s := setWing .parking (modWing (fun w => { dropTimers w with parkTimer := some s.cfg.fire.parkDeadline }) s)
  let s := eachStation (fun _ st y => demandEnd st y) s
  let s := onYard (fun e y => aisles.foldl (fun y a => dropRequest e a y) y) s
  onYard (fun e y => aisles.foldl (fun y a => parkCarrier e a y) y) s

/-- Whether a carrier has ended its part of Parking (R189). -/
def parkEnded (c : Carrier) : Bool :=
  match c.st with
  | .parked | .faulted | .offline | .halted => true
  | _ => false

/-- Parking ends, without halt, when every carrier within the geometry has ended its part (R189). -/
def parkingSync (s : State) : State :=
  if s.wing.st = .parking ∧ (aislesIn (envOf s)).all (fun a => parkEnded s.yard.carriers[a]) then enterSealing false s
  else s

/-! ## Arrivals (R178, R179, R181, R187, R190, R193, R197) -/

/-- A rise of the cause level in Normal (R181). -/
def riseNormal (l : Level) (s : State) : State :=
  match l with
  | .hold => enterHold s
  | .park => enterParking s
  | .trip => enterSealing true s
  | .none => s

/-- A rise of the cause level in Restarting, once its incident is open (R197). -/
def riseRestarting (l : Level) (s : State) : State :=
  let s := dropUnreported s
  match l with
  | .hold => enterHold s
  | .park => enterSealing false s
  | .trip => enterSealing true s
  | .none => s

/-- The hold clear timer follows the Hold causes while the wing is held (R186). -/
def holdTimerSync (was now : Bool) (s : State) : State :=
  if was && !now then startHoldTimer s
  else if !was && now then modWing (fun w => { w with holdTimer := none, returning := false }) s
  else s

/-- What an arrival does in the wing state it finds. `rise` is the level its source has risen to, if it is a
rise; `old` and `new` are the cause levels, `was` and `now` whether a Hold cause was and is present. -/
def arrivalActs (src : Source) (rise : Option Level) (old new : Level) (was now : Bool) (s : State) : State :=
  let up := decide (levelCode old < levelCode new)
  let traced := match rise with | some l => recordTrigger src l s | none => s
  match s.wing.st with
  | .standby =>
    if up && decide (2 ≤ levelCode new) then enterSealing (decide (new = .trip)) (openIncident src new s)
    else if (up && decide (new = .hold)) || (decide (new = .none) && decide (old ≠ .none)) then
      noticeState .standby .standby s
    else s
  | .normal => if up then riseNormal new (openIncident src new s) else s
  | .hold | .clearing =>
    if up && decide (new = .park) then enterParking traced
    else if up && decide (new = .trip) then enterSealing true traced
    else holdTimerSync was now traced
  | .parking => if up && decide (new = .trip) then enterSealing true traced else traced
  | .sealing | .sealed => traced
  | .restarting => if up then riseRestarting new (openIncident src new s) else s

/-- An arrival: the causes are derived again and the wing controller acts (R178). -/
def arrival (src : Source) (rise : Option Level) (s : State) : State :=
  let old := s.wing.cause
  let was := s.wing.holdCause
  let new := causeLevel s.sweep.zones s.wing.panel
  let now := holdPresent s.sweep.zones s.wing.panel
  arrivalActs src rise old new was now (modWing (fun w => { w with cause := new, holdCause := now }) s)

/-- A panel input takes a level (R178); a level it already has is no change. -/
def panelArrives (i : PanelInput) (high : Bool) (s : State) : State :=
  if panelHigh s.wing.panel i = high then s
  else
    arrival (.panel i) (if high then some (panelLevel i) else none)
      (modWing (fun w => { w with panel := setPanel w.panel i high }) s)

/-! ## Outputs (R200, R201) -/

/-- Whether work waits: an order Queued or Blocked, or a Waiting tray item. -/
def workWaits (y : Yard) : Bool :=
  (y.orders.any waitsInQueue) || stationList.any fun st => !(waitingItems y.trays[st]).isEmpty

/-- Whether the wing state holds work (R200). -/
def holdsWork : WingSt → Bool
  | .hold | .clearing | .parking | .sealing | .sealed | .restarting => true
  | .standby | .normal => false

/-- WING_OK (R201). -/
def wingFine (s : State) : Bool :=
  decide (s.wing.st = .normal) && !(zoneList.any fun z => s.sweep.zones[z].degraded)
    && !((aislesIn (envOf s)).any fun a => carrierDown s.yard.carriers[a])

/-- WORK_HELD and WING_OK are derived again. -/
def outputsSync (s : State) : State :=
  let wh := holdsWork s.wing.st && workWaits s.yard
  let ok := wingFine s
  modWing (fun w => { w with workHeld := wh, wingOk := ok }) s

end Sys2Proof.Machine
end

