-- ==== Sys2Proof/Machine/Finish.lean ====
section
/-! DEFINITION. What follows every command: the wing follows its carriers, the yard settles, displays,
journal, outputs and transmitter go on (R113, R184, R189, R200, R201, R206). -/

namespace Sys2Proof.Machine

open Sys2Proof

/-- The bus record of the last command is dropped. -/
def clearBus (s : State) : State := { s with yard := { s.yard with bus := [] } }

/-- The ready reply at the head of the inbox, with its request's identifier. -/
def readyReply (k : Link) : Option (Nat × Reply) := k.inbox.head?.bind fun q => q.reply.map fun r => (q.id, r)

/-- The transmitter, when free, takes the next frame (R206): the oldest overrun entry, the ready reply at
the head of the inbox, or the oldest notice. An entry and a notice stay listed until their frame ends. Once a
warm restart is due no frame begins (R213). -/
def transmit (s : State) : State :=
  if s.link.tx.isSome || decide (s.link.restart = .due) then s
  else
    match s.link.overrun with
    | r :: _ => { s with link := { s.link with tx := some (.overrun r) } }
    | [] =>
      match readyReply s.link with
      | some (id, r) => { s with link := { s.link with tx := some (.reply id r) } }
      | none =>
        match s.yard.post.outbox with
        | n :: _ =>
          { s with
            link := { s.link with tx := some (.notice n) }
            yard := { s.yard with post := { s.yard.post with sending := true } } }
        | [] => s

/-- Everything that follows a command that may have changed a record. -/
def finish (s : State) : State :=
  let s := parkingSync (clearingSync s)
  let s := onYard (fun e y => syncDisplays (settle e (takeMarks e y))) s
  transmit (outputsSync (journalGo s))

/-- The outcome of a command with an effect on the records. -/
def effect (f : State → State) (s : State) : Host.Outcome State Fault Refusal := .next (finish (f (clearBus s)))

/-- The outcome of a command that reads the records and changes only the host link: nothing of the yard is
there to derive again. -/
def quiet (f : State → State) (s : State) : Host.Outcome State Fault Refusal := .next (transmit (f (clearBus s)))

end Sys2Proof.Machine
end

