-- ==== Sys2Proof/Machine/Clock.lean ====
section
/-! DEFINITION. The passage of time: one decisecond goes by when no command waits. Every timer of the
records counts down, and one that comes to its end puts its expiry command in the queue (assumption 5). -/

namespace Sys2Proof.Machine

open Sys2Proof

/-- A timer that runs counts down by one. -/
def countDown (t : Option Nat) : Option Nat := t.map (· - 1)

/-- Whether a timer that runs ends with the unit of time now passing. -/
def ends (t : Option Nat) : Bool := decide (t = some 1)

/-- A command when a condition holds. -/
def when (b : Bool) (c : Instr) : List Instr := if b then [c] else []

/-! ## Deciseconds -/

/-- A segment's deadline counts down (R45, R51); a Halt has none. -/
def countSegment (g : Segment) : Segment := if g.deadline.isSome then { g with left := g.left - 1 } else g

/-- Whether a segment's deadline ends now. -/
def segmentEnds (g : Segment) : Bool := g.deadline.isSome && decide (g.left = 1)

/-- A carrier's timers count down (R51, R66). -/
def countCarrier (c : Carrier) : Carrier :=
  { c with seg := c.seg.map countSegment, clear := c.clear.map fun w => { w with left := w.left - 1 } }

/-- A line's timers count down (R94, R106). -/
def countLine (r : LineRec) : LineRec :=
  { r with
    transfers := r.transfers.map fun t => { t with left := t.left - 1 }
    clear := r.clear.map fun w => { w with left := w.left - 1 } }

/-- The expiries of an aisle's timers (R29, R51, R66). -/
def aisleExpiries (a : Aisle) (y : Yard) : List Instr :=
  let c := y.carriers[a]
  when (decide (y.est[a].st = .settling ∧ y.est[a].settleLeft = 1)) (.settleTimerExpiry a)
    ++ (match c.seg with | some g => when (segmentEnds g) (.segmentDeadline a g.no) | none => [])
    ++ when (ends (c.clear.map (·.left))) (.carrierClearTimeout a)

/-- The expiries of a line's timers (R94, R106). -/
def lineExpiries (l : LineId) (r : LineRec) : List Instr :=
  (r.transfers.filter fun t => t.left = 1).map (fun t => .lineTransferDeadline l t.no)
    ++ when (ends (r.clear.map (·.left))) (.lineClearTimeout l)

/-- The yard's timers in deciseconds count down (R29, R51, R66, R94, R106, R19, R214). -/
def countYard (y : Yard) : Yard :=
  { y with
    est := y.est.map fun r => { r with settleLeft := r.settleLeft - 1 }
    carriers := y.carriers.map countCarrier
    lines := { y.lines with del := countLine y.lines.del, ret := countLine y.lines.ret }
    journal := { y.journal with retryLeft := countDown y.journal.retryLeft }
    disc := { y.disc with left := countDown y.disc.left } }

/-- The wait of a frame in progress for its next byte counts down (R203). -/
def countRx : Rx → Rx
  | .hunting => .hunting
  | .frame bytes n => .frame bytes (n - 1)

/-- Whether that wait ends now. -/
def rxEnds : Rx → Bool
  | .hunting => false
  | .frame _ n => decide (n = 1)

/-- The expiries of the timers in deciseconds, in the order the queue takes them. -/
def decisecondExpiries (s : State) : List Instr :=
  when (ends s.wing.parkTimer) .parkTimerExpiry
    ++ when (ends s.wing.restartTimer) .restartTimerExpiry
    ++ when (ends s.sweep.warmLeft) .warmupExpiry
    ++ aisles.flatMap (fun a => aisleExpiries a s.yard)
    ++ lineExpiries .delivery s.yard.lines.del ++ lineExpiries .ret s.yard.lines.ret
    ++ when (ends s.yard.disc.left) .discoveryTimeout
    ++ when (ends s.yard.journal.retryLeft) .journalRetryExpiry
    ++ when (rxEnds s.link.rx) (.frameByteTimeout [])

/-! ## Seconds -/

/-- A session's timers count down while the wing is Normal, and stand still otherwise (R121). -/
def countSession (w : WingSt) (x : Session) : Session :=
  if w = .normal then { x with idle := countDown x.idle, auto := countDown x.auto } else x

/-- The expiries of a station's session timers (R119 to R121). -/
def sessionExpiries (w : WingSt) (st : Station) (r : StationRec) : List Instr :=
  match r.session with
  | some x =>
    if w = .normal then when (ends x.auto) (.autoReleaseExpiry st) ++ when (ends x.idle) (.idleTimerExpiry st) else []
  | none => []

/-- The Waiting items of a tray with a clear mark that have waited the limit (R136). -/
def limitExpiries (e : Env) (st : Station) (t : Tray) : List Instr :=
  (t.items.filter fun i => i.st = .waiting ∧ i.mark = false ∧ waitedLimit e i).map fun i =>
    .trayWaitLimitReached st i.item

/-- The expiries at the end of a second, with the wing clock already at its new value. -/
def secondExpiries (s : State) : List Instr :=
  when (ends s.wing.holdTimer) .holdClearExpiry
    ++ stationList.flatMap (fun st => sessionExpiries s.wing.st st s.yard.stations[st])
    ++ stationList.flatMap (fun st => limitExpiries (envOf s) st s.yard.trays[st])

/-- The timers in seconds count down (R119, R120, R186). -/
def countSeconds (s : State) : State :=
  { s with
    wing := { s.wing with holdTimer := countDown s.wing.holdTimer }
    yard := { s.yard with stations := s.yard.stations.map fun r =>
      { r with session := r.session.map (countSession s.wing.st) } } }

/-- The wing clock of 32 bits goes on by a decisecond (R177). -/
def nextClock (c : Clock) : Clock := if c.ds < 9 then { c with ds := c.ds + 1 } else ⟨(c.sec + 1) % 4294967296, 0⟩

/-- The end of a second: its timers count down, and their expiries join the queue. -/
def secondPasses (s : State) : State :=
  { countSeconds s with pending := s.pending ++ secondExpiries s }

/-- One decisecond passes. -/
def tick (s : State) : State :=
  let t : State := { s with
    yard := countYard { s.yard with bus := [] }
    wing := { s.wing with parkTimer := countDown s.wing.parkTimer, restartTimer := countDown s.wing.restartTimer }
    sweep := { s.sweep with warmLeft := countDown s.sweep.warmLeft }
    link := { s.link with rx := countRx s.link.rx }
    clock := nextClock s.clock
    pending := s.pending ++ decisecondExpiries s }
  if t.clock.ds = 0 then secondPasses t else t

end Sys2Proof.Machine
end

