-- ==== Sys2Proof/Machine/Conversions.lean ====
section
/-! DEFINITION. What a conversion or a Sweep section does beyond the slots: zones, notices, arrivals, the
run of the sweep and its Stop requests (R163, R164, R173 to R175). -/

namespace Sys2Proof.Machine

open Sys2Proof

/-- Raise a slot's stage notice (R173): SweepEvent with the stage `zone` of its zone after the change for Smoke
and Heat, ConservationAlert for Humidity, none for Unused. -/
def noticeStage (i : Slot) (k : SlotKind) (z : Zone) (before after zone : Stage) (l : Option (Nat × Option Int))
    (s : State) : State :=
  match k with
  | .unused => s
  | .humidity => notifyS .conservationAlert (stageFlds i k z before after l) s
  | .smoke | .heat =>
    notifyS .sweepEvent (stageFlds i k z before after l ++ [.u1 (zoneStageCode zone)]) s

/-- A zone's Degraded flag is derived again (R175). -/
def degradedSync (z : Zone) (s : State) : State :=
  let faults := zoneFaults s.sweep z
  let now := !faults.isEmpty
  if s.sweep.zones[z].degraded = now then s
  else
    notifyS .zoneDegraded ([.u1 z.val, flag now] ++ listFlds faults fun i => [.u1 i.val])
      (modSweep (fun w => { w with zones := w.zones.set z { w.zones[z] with degraded := now } }) s)

/-- A zone's stage is derived again, and a change is handed to the wing controller as an arrival of the
zone with the slot that caused it (R174). -/
def stageSync (i : Slot) (z : Zone) (s : State) : State :=
  let old := s.sweep.zones[z].stage
  let now := zoneStage s.sweep z
  if old = now then s
  else
    arrival (.zone z i) (if stageRank old < stageRank now then some (zoneLevel now) else none)
      (modSweep (fun w => { w with zones := w.zones.set z { w.zones[z] with stage := now } }) s)

/-- Every zone is derived again after a change of a slot. -/
def zonesSync (i : Slot) (s : State) : State :=
  let s := zoneList.foldl (fun s z => degradedSync z s) s
  zoneList.foldl (fun s z => stageSync i z s) s

/-- The Stop requests that wait are answered OK when the sweep has stopped (R164). -/
def stopSync (s : State) : State :=
  if s.sweep.run = .stopped then
    let ids := s.sweep.stopIds
    ids.foldl (fun s id => answer id .ok [] s) (modSweep (fun w => { w with stopIds := [] }) s)
  else s

/-- A conversion completes with a raw count (R163); with none in flight there is nothing to apply. A count
above 4,095 is none the converter gives and is taken as 4,095. -/
def conversionDone (raw : Nat) (s : State) : State :=
  match s.sweep.conv with
  | none => s
  | some i =>
    let old := s.sweep.slots[i]
    let new := slotRead old (min 4095 raw)
    let s := modSweep (setSlot i new) s
    let s := if old.stage = new.stage then s
      else
        noticeStage i new.cfg.kind new.cfg.zone old.stage new.stage (zoneStage s.sweep new.cfg.zone) new.last s
    stopSync (modSweep (nextConv i) (zonesSync i s))

end Sys2Proof.Machine
end

