-- ==== Sys2Proof/Machine/Discovery.lean ====
section
/-! DEFINITION. Discovery (R214): the reports expected after a start, and the StartupDone notice at their end. -/

namespace Sys2Proof.Machine

open Sys2Proof

/-- A place's fields: its kind in the order R214 lists them, and its aisle or station. -/
def placeFlds : Place → List Fld
  | .fork a => [.u1 1, .u1 (aisleNo a)]
  | .delivery => [.u1 2, .u1 0]
  | .ret => [.u1 3, .u1 0]
  | .inbound a => [.u1 4, .u1 (aisleNo a)]
  | .next st => [.u1 5, .u1 (stationNo st)]
  | .present st => [.u1 6, .u1 (stationNo st)]

/-- A device's fields: 1 a drive unit, 2 a line drive, 3 a terminal, and its number. -/
def deviceFlds : Device → List Fld
  | .drive a => [.u1 1, .u1 (aisleNo a)]
  | .line .delivery => [.u1 2, .u1 1]
  | .line .ret => [.u1 2, .u1 2]
  | .terminal st => [.u1 3, .u1 (stationNo st)]

/-- The Unverified aisles of the geometry. -/
def doubtfulAisles (e : Env) (y : Yard) : List Aisle := (aislesIn e).filter fun a => !aisleVerified a y

/-- The orphans (R214): the bins that the reports after the start have found, each with its place, for which no order
stands in the queue. A bin found for which an order has been made since is none. One that has moved or been lost since
is listed with the place where it was found (assumption 108, DESIGN CHOICE). -/
def orphans (y : Yard) : List (Nat × Place) := y.disc.found.filter fun p => !y.orders.any fun o => o.bin = p.1

/-- The items of StartupDone (R214). -/
def startupFlds (e : Env) (y : Yard) : List Fld :=
  [.u1 (if y.disc.warm then 2 else 1), .u1 (wingStCode e.wing), flag e.cfg.geomValid]
    ++ listFlds y.disc.defaulted (fun n => [.u1 n])
    ++ listFlds (doubtfulAisles e y) (fun a => [.u1 (aisleNo a), flag y.verif[a].doubt])
    ++ listFlds (orphans y) (fun p => .u2 p.1 :: placeFlds p.2)
    ++ listFlds y.disc.conflicts (fun p => .u2 p.1 :: (placeFlds p.2.1 ++ placeFlds p.2.2))
    ++ listFlds y.disc.expected deviceFlds

/-- Discovery ends: StartupDone is raised once (R214). -/
def endDiscovery (e : Env) (y : Yard) : Yard :=
  if discovering y then
    notify e .startupDone (startupFlds e y) { y with disc := { y.disc with left := none } }
  else y

/-- Discovery ends when no expected report is left to come (R214). -/
def discoverySync (e : Env) (y : Yard) : Yard := if y.disc.expected.isEmpty then endDiscovery e y else y

/-- A device has reported. -/
def deviceReported (e : Env) (d : Device) (y : Yard) : Yard :=
  discoverySync e { y with disc := { y.disc with
    expected := y.disc.expected.filter fun x => x ≠ d, silent := y.disc.silent.filter fun x => x ≠ d } }

end Sys2Proof.Machine
end

