-- ==== Sys2Proof/Machine/Configure.lean ====
section
/-! DEFINITION. The sections of Configure (R210) and the settings writes they ask for (R211). -/

namespace Sys2Proof.Machine

open Sys2Proof

/-- What a section's rule answers (R210): its outcome, each item's outcome for a section with items, and
the values applied in the section's layout. -/
structure SecResult where
  code : Nat
  outcome : ReplyCode
  items : Option (List ReplyCode)
  values : List Fld
  deriving DecidableEq, Repr

/-- A section's code. -/
def secCode : CfgSection → Nat
  | .geometry .. => 1 | .cells _ => 2 | .profiles _ => 3 | .aisleAssign _ => 4 | .stations _ => 5
  | .dispatch .. => 6 | .trays .. => 7 | .sessions .. => 8 | .sweep .. => 9 | .fire .. => 10

/-- Ask the journal for a settings write (R211). -/
def storeSettings (v : SettingsVal) (s : State) : State := { s with yard := ctlRequest (.settings v) s.yard }

/-- A section refused whole, with no record changed: its part of the reply is its code and its outcome, with no
item outcomes and no values (assumption 74, DESIGN CHOICE). -/
def secRefused (code : Nat) (c : ReplyCode) (s : State) : State × SecResult := (s, ⟨code, c, none, []⟩)

/-- A section without items, taken. -/
def secOk (code : Nat) (values : List Fld) (s : State) : State × SecResult := (s, ⟨code, .ok, none, values⟩)

/-! ## Geometry (R1, R150) -/

/-- The cells of one geometry that another does not admit, in address order. -/
def cellsBeyond (g h : Geometry) : List CellAddr :=
  (aisles.filter fun a => aisleNo a ≤ g.aisleCount).flatMap fun a =>
    [Side.north, .south].flatMap fun sd => (List.range g.columns).flatMap fun c => (List.range g.levels).flatMap fun l =>
      ([⟨a, sd, c + 1, l, .front⟩, ⟨a, sd, c + 1, l, .deep⟩] : List CellAddr).filter fun x => !inGeometry h x

/-- Whether a cell record keeps a geometry from leaving it out. -/
def cellKept : Cell → Bool
  | .occupied _ | .reserved _ _ | .unverified _ => true
  | _ => false

/-- Whether the new geometry is refused: a cell, an inbound place or a load would be left out, or a survey
runs or is requested. -/
def geometryBlocked (e : Env) (g : Geometry) (y : Yard) : Bool :=
  ((listedCells y).any fun p => inGeometry e.cfg.geometry p.1 && !inGeometry g p.1 && cellKept p.2)
    || (aisles.any fun a => decide (g.aisleCount < aisleNo a) && aisleIn e a
        && (y.lines.inbound[a].isSome || y.carriers[a].load.isSome))
    || aisles.any fun a => surveying a y || y.arbs[a].surveyReq.isSome

/-- The cells that leave or enter a geometry change for the journal, in address order (R1, R7). -/
def cellsChange (c : StoredCell) (l : List CellAddr) (y : Yard) : Yard := modJournal (journalChanges c l) y

/-- The map keeps the records of the cells within a geometry; a cell that enters it is Empty (R1). -/
def cellsWithin (g : Geometry) (y : Yard) : Yard :=
  { y with cells := y.cells.filter fun p => ((cellOfCode p.1).map (inGeometry g)).getD false }

/-- An aisle leaves the geometry: its carrier is reset (R67). -/
def aisleLeaves (a : Aisle) (y : Yard) : Yard :=
  let y := modCarrier a (fun c => { Carrier.reset with segNo := c.segNo, clear := c.clear }) y
  let y := modArb a (fun _ => .reset) y
  { y with disc := { y.disc with
    expected := y.disc.expected.filter fun d => d ≠ .drive a, silent := y.disc.silent.filter fun d => d ≠ .drive a } }

/-- An aisle enters the geometry: its carrier asks its drive unit for a status report. -/
def aisleEnters (a : Aisle) (y : Yard) : Yard :=
  let y := { y with disc := { y.disc with
    expected := if discovering y then y.disc.expected ++ [.drive a] else y.disc.expected
    silent := y.disc.silent ++ [.drive a] } }
  send (.driveStatus a) y

/-- The Geometry section. An aisle that leaves takes its report from those that discovery expects, which may
be the last of them (R214). -/
def secGeometry (aisleCount columns levels : Nat) (s : State) : State × SecResult :=
  let g : Geometry := ⟨clamp 1 6 aisleCount, clamp 8 64 columns, clamp 4 16 levels⟩
  let old := s.cfg.geometry
  if s.wing.st ≠ .standby ∨ geometryBlocked (envOf s) g s.yard then secRefused 1 .busy s
  else
    let y := cellsChange .empty (cellsBeyond g old) (cellsChange .absent (cellsBeyond old g) (cellsWithin g s.yard))
    let y := (aisles.filter fun a => g.aisleCount < aisleNo a ∧ aisleNo a ≤ old.aisleCount).foldl
      (fun y a => aisleLeaves a y) y
    let y := (aisles.filter fun a => old.aisleCount < aisleNo a ∧ aisleNo a ≤ g.aisleCount).foldl
      (fun y a => aisleEnters a y) y
    let c := { s.cfg with
      geometry := g, geomValid := true
      fire := { s.cfg.fire with parkColumn := min g.columns s.cfg.fire.parkColumn } }
    secOk 1 [.u1 g.aisleCount, .u1 g.columns, .u1 g.levels]
      (onYard discoverySync (storeSettings (.geometry g) { s with yard := y, cfg := c }))

/-! ## Cells (R3, R47) -/

/-- The Disabled cells, in address order (R211). -/
def disabledCells (y : Yard) : List CellAddr :=
  (listedCells y).filterMap fun p => if p.2 = .disabled then some p.1 else none

/-- Whether a fork stroke in flight holds a front cell (R47). -/
def frontHeld (a : CellAddr) (y : Yard) : Bool :=
  match y.carriers[a.aisle].seg with
  | some g =>
    match g.kind, g.target with
    | .forkIn, .cell x | .forkOut, .cell x => decide (x.depth = .deep ∧ a = atDepth x .front)
    | _, _ => false
  | none => false

/-- One item of the Cells section, and its outcome. -/
def cellItem (e : Env) (a : CellAddr) (disable : Bool) (y : Yard) : Yard × ReplyCode :=
  match getCell e a y, disable with
  | .empty, true => if frontHeld a y then (y, .busy) else (setCell e a .disabled y, .ok)
  | .disabled, true | .empty, false => (y, .ok)
  | .disabled, false => (setCell e a .empty y, .ok)
  | _, _ => (y, .busy)

/-- The items of a section in the order listed, each against the records the earlier ones left. Between one item and
the next every order is evaluated (R81); what the last one changes is followed by what follows the section. -/
def runItems (e : Env) (f : α → Yard → Yard × ReplyCode) : List α → Yard → Yard × List ReplyCode
  | [], y => (y, [])
  | i :: t, y =>
    let (y, c) := f i y
    let (y, cs) := runItems e f t (if t.isEmpty then y else evalOrders e y)
    (y, c :: cs)

/-- The outcome code of a section with items: OK when every item was taken, and BUSY when an item was refused, also
when others of the section were taken (assumption 100, DESIGN CHOICE). -/
def itemsCode (l : List ReplyCode) : ReplyCode := if l.all fun c => c = .ok then .ok else .busy

/-- Whether a section with items is applied, wholly or in part (R211): an item was taken, or it lists none and is
taken with nothing to do (assumption 95, DESIGN CHOICE). -/
def sectionApplied (l : List ReplyCode) : Bool := l.isEmpty || l.any fun c => c = .ok

/-- The items that were taken. -/
def takenItems (l : List α) (cs : List ReplyCode) : List α :=
  (l.zip cs).filterMap fun p => if p.2 = .ok then some p.1 else none

/-- The Cells section. -/
def secCells (items : List CellItem) (s : State) : State × SecResult :=
  if items.any fun i => (cellOfCode i.code).isNone || !(i.action = 1 || i.action = 2) then secRefused 2 .form s
  else
    let e := envOf s
    let f := fun (i : CellItem) (y : Yard) =>
      match cellOfCode i.code with
      | some a => cellItem e a (i.action = 1) y
      | none => (y, ReplyCode.busy)
    let (y, cs) := runItems e f items s.yard
    let s := { s with yard := y }
    let s := if sectionApplied cs then storeSettings (.cells (disabledCells s.yard)) s else s
    (s, ⟨2, itemsCode cs, some cs, listFlds (takenItems items cs) fun i => [.u2 i.code, .u1 i.action]⟩)

/-! ## Profiles and AisleAssign (R26 to R28) -/

/-- A profile's values as a section makes them (R26). -/
def profileWith (p : Profile) (c : ProfileCfg) : Profile :=
  let front := match c.forkFront with | some v => clamp 5 60 v | none => p.forkFront
  let deep := match c.forkDeep with | some v => clamp 5 90 v | none => p.forkDeep
  { rampH := match c.rampH with | some v => clamp 0 50 v | none => p.rampH
    paceH := match c.paceH with | some v => clamp 1 20 v | none => p.paceH
    rampV := match c.rampV with | some v => clamp 0 50 v | none => p.rampV
    paceV := match c.paceV with | some v => clamp 2 40 v | none => p.paceV
    forkFront := front, forkDeep := max front deep }

/-- A change for an aisle arrives at the estimator (R28, R29): with a segment in flight the aisle is
Pending; else the value set takes effect at once. -/
def profileChange (e : Env) (a : Aisle) (y : Yard) : Yard :=
  if y.carriers[a].seg.isSome then modEst a (fun r => { r with st := .pending, settleLeft := 0 }) y
  else applyProfile e a y

/-- Whether a section is a change for an aisle (R28): it alters the assignment, or the value set an
assignment other than Off uses. -/
def aisleChanged (old new : Settings) (a : Aisle) : Bool :=
  decide (old.assign[a] ≠ new.assign[a])
    || (decide (new.assign[a] ≠ .off) && decide (valueSet old old.assign[a] ≠ valueSet new new.assign[a]))

/-- The settings are replaced, and every aisle they change is told (R28); the trays choose when one of them has left
Off (R140). -/
def applySpeeds (c : Settings) (s : State) : State :=
  let old := s.cfg
  onYard (fun e y =>
    let z := (aisles.filter fun a => aisleChanged old c a).foldl (fun y a => profileChange e a y) y
    choicesWhen (aisles.any fun a => aisleOff a y && !aisleOff a z) e z) { s with cfg := c }

/-- A profile's six values. -/
def profileFlds (p : Profile) : List Fld :=
  [.u1 p.rampH, .u1 p.paceH, .u1 p.rampV, .u1 p.paceV, .u1 p.forkFront, .u1 p.forkDeep]

/-- The Profiles section. -/
def secProfiles (p : ProfileCfg) (s : State) : State × SecResult :=
  if p.profile = 1 ∨ p.profile = 2 then
    let v := profileWith (if p.profile = 1 then s.cfg.profA else s.cfg.profB) p
    let c := if p.profile = 1 then { s.cfg with profA := v } else { s.cfg with profB := v }
    secOk 3 ([.u1 p.profile, .u1 0x3F] ++ profileFlds v) (storeSettings (.profiles c.profA c.profB) (applySpeeds c s))
  else secRefused 3 .form s

/-- An assignment by its code. -/
def assignOf : Nat → Option Assign
  | 1 => some .profileA | 2 => some .profileB | 3 => some .slow | 4 => some .off | _ => none

/-- One item of the AisleAssign section. Items are taken in the order listed, so that of several items for one aisle
the last stands (assumption 94, DESIGN CHOICE). -/
def assignItem (l : Vector Assign 6) (i : AssignItem) : Vector Assign 6 :=
  match aisleOf i.aisle, assignOf i.assign with
  | some a, some v => l.set a v
  | _, _ => l

/-- The AisleAssign section: the estimator is told once, of what the section as a whole changes (R28). One that lists
no aisle is taken, OK, and asks for its settings write (assumption 95, DESIGN CHOICE). -/
def secAssign (items : List AssignItem) (s : State) : State × SecResult :=
  if items.any fun i => (aisleOf i.aisle).isNone || (assignOf i.assign).isNone then secRefused 4 .form s
  else
    let s := applySpeeds { s.cfg with assign := items.foldl assignItem s.cfg.assign } s
    (storeSettings (.assign s.cfg.assign) s,
      ⟨4, .ok, some (items.map fun _ => .ok), listFlds items fun i => [.u1 i.aisle, .u1 i.assign]⟩)

/-! ## Stations (R108) -/

/-- A configured role by its code. -/
def roleOf : Nat → Option Role
  | 1 => some .lending | 2 => some .returns | 3 => some .mixed | 4 => some .closed | _ => none

/-- The sum of 2 + L_s over the non-Closed stations but one (R108). -/
def shareOthers (st : Station) (s : State) : Nat :=
  ((stationList.filter fun x => x ≠ st ∧ s.yard.stations[x].role ≠ .closed).map fun x =>
    2 + s.cfg.stations[x].allowance).sum

/-- The sum of 2 + L_s over the non-Closed stations (R109). -/
def shareSum (s : State) : Nat :=
  ((stationList.filter fun x => s.yard.stations[x].role ≠ .closed).map fun x => 2 + s.cfg.stations[x].allowance).sum

/-- A station's configured values and role are taken, and the rest of the part is told (R89, R107). The terminals that
a discovery still running expects stay those it was started with, whatever role is configured now (assumption 92,
DESIGN CHOICE). -/
def applyStation (st : Station) (c : StationCfg) (role : Role) (s : State) : State :=
  let s := { s with cfg := { s.cfg with stations := s.cfg.stations.set st c } }
  onYard (fun e y => if c.role = .closed then syncRole e st y else setRole e st role y) s

/-- One item of the Stations section, and its outcome (R108). An allowance given with role Closed is taken
unreduced, as the table has it, also for a station that becomes Closing; an item that gives neither role nor
allowance changes nothing and is OK (assumption 66, DESIGN CHOICE). -/
def stationItem (i : StationItem) (s : State) : State × ReplyCode :=
  match stationOf i.station with
  | none => (s, .busy)
  | some st =>
    let cur := s.cfg.stations[st]
    let open' := decide (s.yard.stations[st].role ≠ .closed)
    let given := (i.allowance.map fun n => min 10 n).getD cur.allowance
    let others := shareOthers st s
    let fit := min given (10 - others)
    match i.role.bind roleOf with
    | some .closed => (applyStation st ⟨.closed, given⟩ .closed s, .ok)
    | some r =>
      if open' ∨ others ≤ 10 then (applyStation st ⟨r, fit⟩ r s, .ok) else (s, .busy)
    | none =>
      if i.allowance.isNone then (s, .ok)
      else (applyStation st ⟨cur.role, if open' then fit else given⟩ s.yard.stations[st].role s, .ok)

/-- The items of the Stations section in order, with the values each left: the role is the station's own, 5 for one that
has become Closing (assumption 109, DESIGN CHOICE). -/
def stationItems : List StationItem → State → State × List (ReplyCode × List Fld)
  | [], s => (s, [])
  | i :: t, s =>
    let (s, c) := stationItem i s
    let vals :=
      match stationOf i.station with
      | some st => [.u1 i.station, .u1 3, .u1 (roleCode s.yard.stations[st].role), .u1 s.cfg.stations[st].allowance]
      | none => []
    let (s, rest) := stationItems t s
    (s, (c, vals) :: rest)

/-- The Stations section. -/
def secStations (items : List StationItem) (s : State) : State × SecResult :=
  if items.any fun i => (stationOf i.station).isNone || (match i.role with | some r => (roleOf r).isNone | none => false) then
    secRefused 5 .form s
  else
    let (s, rs) := stationItems items s
    let cs := rs.map (·.1)
    let s := if sectionApplied cs then storeSettings (.stations s.cfg.stations) s else s
    (s, ⟨5, itemsCode cs, some cs, listFlds (rs.filter fun r => r.1 = .ok) (·.2)⟩)

/-! ## Dispatch, Trays, Sessions, Fire (R37, R64, R127, R130, R210) -/

/-- The Dispatch section. -/
def secDispatch (aging pressure : Option Nat) (s : State) : State × SecResult :=
  let c := { s.cfg with
    aging := match aging with | some v => clamp 0 10 v | none => s.cfg.aging
    pressure := match pressure with | some v => clamp 1 12 v | none => s.cfg.pressure }
  secOk 6 [.u1 3, .u1 c.aging, .u1 c.pressure] (storeSettings (.dispatch c.aging c.pressure) { s with cfg := c })

/-- A tray under a new threshold and wait limit (R130, R137). The threshold comes first: it may end the tray's demand,
which an item that the new limit marks then raises again (assumption 99, DESIGN CHOICE). -/
def trayLimits (e : Env) (st : Station) (y : Yard) : Yard :=
  let y := if y.trays[st].demand ∧ e.cfg.th + 1 ≤ y.trays[st].placed then demandEnd st y else y
  markWaited e st y

/-- The Trays section. -/
def secTrays (th limit : Option Nat) (s : State) : State × SecResult :=
  let c := { s.cfg with
    th := match th with | some v => clamp 0 23 v | none => s.cfg.th
    waitLimit := match limit with | some v => clamp 60 7200 v | none => s.cfg.waitLimit }
  secOk 7 [.u1 3, .u1 c.th, .u2 c.waitLimit]
    (storeSettings (.trays c.th c.waitLimit) (eachStation trayLimits { s with cfg := c }))

/-- A delay of 0 unsets the auto-release timers (R127). -/
def dropAuto (delay : Nat) (y : Yard) : Yard :=
  if delay = 0 then stationList.foldl (fun y st => modSession st (fun r => { r with auto := none }) y) y else y

/-- The Sessions section. -/
def secSessions (idle auto : Option Nat) (s : State) : State × SecResult :=
  let c := { s.cfg with
    idleTimeout := match idle with | some v => clamp 30 1800 v | none => s.cfg.idleTimeout
    autoDelay := match auto with | some v => clamp 0 60 v | none => s.cfg.autoDelay }
  secOk 8 [.u1 3, .u2 c.idleTimeout, .u1 c.autoDelay]
    (storeSettings (.sessions c.idleTimeout c.autoDelay) { s with cfg := c, yard := dropAuto c.autoDelay s.yard })

/-- The Fire section. -/
def secFire (holdClear parkDeadline parkColumn restartDelay : Option Nat) (s : State) : State × SecResult :=
  let f := s.cfg.fire
  let f : FireCfg :=
    { holdClear := match holdClear with | some v => clamp 10 600 v | none => f.holdClear
      parkDeadline := match parkDeadline with | some v => clamp 100 3000 v | none => f.parkDeadline
      parkColumn := match parkColumn with | some v => clamp 2 s.cfg.geometry.columns v | none => f.parkColumn
      restartDelay := match restartDelay with | some v => clamp 50 1200 v | none => f.restartDelay }
  secOk 10 [.u1 0xF, .u2 f.holdClear, .u2 f.parkDeadline, .u1 f.parkColumn, .u2 f.restartDelay]
    (storeSettings (.fire f) { s with cfg := { s.cfg with fire := f } })

/-! ## Sweep (R167, R168, R172 to R174) -/

/-- Whether the sweep is running: Starting, Running or Stopping (R162). -/
def sweepRunning (w : Sweep) : Bool := decide (w.run ≠ .stopped)

/-- The range is taken; a start above the stop is taken as equal to it (R162, R167). The next slot of the Stopped sweep
is kept, inside the new range or not, until the sweep starts again (assumption 88, DESIGN CHOICE). -/
def setRange (r : Nat × Nat) (w : Sweep) : Sweep :=
  match slotOf r.1, slotOf r.2 with
  | some a, some b => { w with start := if b < a then b else a, stop := b }
  | _, _ => w

/-- A slot that an item has sent into Settling, as it stood before the item, with the stage of the zone it was
in after the item (R173). -/
structure Settled where
  slot : Slot
  before : SlotRec
  zone : Stage
  deriving DecidableEq, Repr

/-- One slot item, its outcome, and the slot it sent into Settling. The zones' notices and arrivals of an item are
raised as it is applied, ahead of every slot's notice of the section (assumption 87, DESIGN CHOICE). -/
def slotItem (i : SlotItem) (s : State) : State × ReplyCode × Option Settled :=
  match slotOf i.slot with
  | none => (s, .busy, none)
  | some k =>
    if sweepRunning s.sweep && givesConfig i then (s, .busy, none)
    else
      let old := s.sweep.slots[k]
      let new := applyItem old i
      let s := modSweep (setSlot k new) s
      let moved := !sameConfig old.cfg new.cfg
      (if moved then zonesSync k s else s, .ok,
        if moved ∧ old.stage ≠ .settling then some ⟨k, old, zoneStage s.sweep old.cfg.zone⟩ else none)

/-- The values a slot item left, in its layout with every value present; an absent trip is left out of
the mask. -/
def slotItemFlds (i : Slot) (w : Sweep) : List Fld :=
  let c := storedSlot w.slots[i]
  [.u1 i.val, .u2 (if c.th.trip.isSome then 0x1FF else 0x1BF), .u1 (kindCode c.kind), .u1 c.zone.val, .s2 c.low,
      .u2 c.span, .s2 c.th.pre, .s2 c.th.alarm]
    ++ (match c.th.trip with | some t => [.s2 t] | none => []) ++ [.u2 c.th.hyst, .u1 c.th.confirm]

/-- The slot items in the order listed. -/
def slotItems : List SlotItem → State → State × List (ReplyCode × List Fld) × List Settled
  | [], s => (s, [], [])
  | i :: t, s =>
    let (s, c, m) := slotItem i s
    let vals := match slotOf i.slot with | some k => slotItemFlds k s.sweep | none => []
    let (s, rs, ms) := slotItems t s
    (s, (c, vals) :: rs, (match m with | some x => x :: ms | none => ms))

/-- The notices of the slots sent into Settling, in slot order, one for each slot (R173), once every item has been
applied (assumption 87, DESIGN CHOICE). -/
def settledNotices (ms : List Settled) (s : State) : State :=
  slotList.foldl (fun s i =>
    match ms.find? fun m => m.slot = i with
    | some m => noticeStage i m.before.cfg.kind m.before.cfg.zone m.before.stage .settling m.zone m.before.last s
    | none => s) s

/-- Whether the section is FORM (R167): a slot, zone or kind code that the section does not admit. -/
def sweepForm (range : Option (Nat × Nat)) (items : List SlotItem) : Bool :=
  (match range with | some r => (slotOf r.1).isNone || (slotOf r.2).isNone | none => false)
    || items.any fun i => (slotOf i.slot).isNone || (match i.zone with | some z => (zoneOf z).isNone | none => false)
      || (match i.kind with | some k => (kindOf k).isNone | none => false)

/-- The Sweep section: the range's outcome is the first entry of the list of item outcomes and is counted with them,
and there is none when no range is given (assumption 101, DESIGN CHOICE). Each item's zone notices and arrivals come
first, and the slots' notices after those of the last item: the opposite of the order a conversion takes (assumption
87, DESIGN CHOICE). -/
def secSweep (range : Option (Nat × Nat)) (items : List SlotItem) (s : State) : State × SecResult :=
  if sweepForm range items then secRefused 9 .form s
  else
    let busy := sweepRunning s.sweep
    let rc : List ReplyCode := match range with | some _ => [if busy then .busy else .ok] | none => []
    let s := match range with | some r => if busy then s else modSweep (setRange r) s | none => s
    let (s, rs, ms) := slotItems items s
    let s := settledNotices ms s
    let cs := rc ++ rs.map (·.1)
    let s := if sectionApplied cs then storeSettings (sweepSettings s.sweep) s else s
    (s, ⟨9, itemsCode cs, some cs, [.u1 1, .u1 s.sweep.start.val, .u1 s.sweep.stop.val]
      ++ listFlds (rs.filter fun r => r.1 = .ok) (·.2)⟩)

/-! ## The request (R210) -/

/-- One section by its owning rule. -/
def applySection (c : CfgSection) (s : State) : State × SecResult :=
  match c with
  | .geometry a b l => secGeometry a b l s
  | .cells l => secCells l s
  | .profiles p => secProfiles p s
  | .aisleAssign l => secAssign l s
  | .stations l => secStations l s
  | .dispatch a p => secDispatch a p s
  | .trays t l => secTrays t l s
  | .sessions i a => secSessions i a s
  | .sweep r l => secSweep r l s
  | .fire h d c r => secFire h d c r s

/-- The sections in the order listed, each against the records the earlier ones left. Between one section and the next
every order is evaluated (R81). -/
def applySections : List CfgSection → State → State × List SecResult
  | [], s => (s, [])
  | c :: t, s =>
    let (s, r) := applySection c s
    let (s, rs) := applySections t (if t.isEmpty then s else onYard evalOrders s)
    (s, r :: rs)

/-- A section's part of the reply: code, outcome, the items' outcomes, the values applied. -/
def secFlds (r : SecResult) : List Fld :=
  [.u1 r.code, .u1 (replyCode r.outcome)]
    ++ (match r.items with | some l => listFlds l fun c => [.u1 (replyCode c)] | none => []) ++ r.values

/-- Whether no section code appears twice (R210). -/
def distinctCodes (l : List CfgSection) : Bool := decide (l.map secCode).Nodup

/-- A Configure request acts (R210): FORM for a repeated section, else every section in order. -/
def configureAct (l : List CfgSection) (s : State) : State × Option (ReplyCode × List Fld) :=
  if distinctCodes l then
    let (s, rs) := applySections l s
    replyWith (if rs.all fun r => r.outcome = .ok then .ok else .busy) (rs.flatMap secFlds) s
  else refuse .form s

end Sys2Proof.Machine
end

