-- ==== Sys2Proof/Machine/Startup.lean ====
section
/-! DEFINITION. Start-up: the load of settings and map, cold start, warm restart and discovery
(R23, R25, R67, R198, R199, R211 to R214). -/

namespace Sys2Proof.Machine

open Sys2Proof

/-! ## Settings (R211) -/

/-- The stored settings with the sections whose check sum fails left out. -/
def goodSettings (bad : List Nat) (f : FlashSettings) : FlashSettings :=
  let ok := fun n => !bad.contains n
  { geometry := f.geometry.filter fun _ => ok 1, cells := f.cells.filter fun _ => ok 2
    profiles := f.profiles.filter fun _ => ok 3, assign := f.assign.filter fun _ => ok 4
    stations := f.stations.filter fun _ => ok 5, dispatch := f.dispatch.filter fun _ => ok 6
    trays := f.trays.filter fun _ => ok 7, sessions := f.sessions.filter fun _ => ok 8
    sweep := f.sweep.filter fun _ => ok 9, fire := f.fire.filter fun _ => ok 10 }

/-- The sections that take their defaults, in code order. -/
def defaulted (f : FlashSettings) : List Nat :=
  [(1, f.geometry.isSome), (2, f.cells.isSome), (3, f.profiles.isSome), (4, f.assign.isSome), (5, f.stations.isSome),
    (6, f.dispatch.isSome), (7, f.trays.isSome), (8, f.sessions.isSome), (9, f.sweep.isSome),
    (10, f.fire.isSome)].filterMap fun p => if p.2 then none else some p.1

/-- The settings a load puts in the records. -/
def loadSettings (f : FlashSettings) : Settings :=
  let g := f.geometry.getD .dflt
  let fire := f.fire.getD { FireCfg.dflt with parkColumn := g.columns }
  { geometry := g, geomValid := f.geometry.isSome
    profA := (f.profiles.map (·.1)).getD .dfltA, profB := (f.profiles.map (·.2)).getD .dfltB
    assign := f.assign.getD Assign.dflt, stations := f.stations.getD StationCfg.dflt
    aging := (f.dispatch.map (·.1)).getD 1, pressure := (f.dispatch.map (·.2)).getD 4
    th := (f.trays.map (·.1)).getD 5, waitLimit := (f.trays.map (·.2)).getD 900
    idleTimeout := (f.sessions.map (·.1)).getD 300, autoDelay := (f.sessions.map (·.2)).getD 5
    fire := { fire with parkColumn := clamp 2 g.columns fire.parkColumn } }

/-- The sweep record and slots at a start (R162, R166); the front-end is given. -/
def loadSweep (f : FlashSettings) (warmLeft : Option Nat) : Sweep :=
  let start := (f.sweep.map fun w => w.1).getD 0
  { warmLeft := warmLeft, run := .starting, single := false, start := start
    stop := (f.sweep.map fun w => w.2.1).getD 15, next := start, conv := none, passes := 0
    slots := ((f.sweep.map fun w => w.2.2).getD (Vector.replicate 16 .dflt)).map .start
    zones := Vector.replicate 4 ⟨.normal, false⟩, stopIds := [] }

/-! ## Map (R23) -/

/-- A stored content as a cell record. A cell within the geometry is never Absent: one whose stored content is Absent is
loaded Empty, with no write asked for (assumption 37, DESIGN CHOICE). -/
def cellOfStored : StoredCell → Cell
  | .empty | .absent => .empty
  | .occupied b => .occupied b
  | .unverified b => .unverified b
  | .disabled => .disabled

/-- The map while it is loaded: cells, bins, journal. -/
structure Loading where
  cells : List (Nat × Cell)
  bins : List (Nat × Bin)
  journal : Journal
  deriving DecidableEq, Repr

/-- The stored cells within the geometry, in address order; Empty is not listed. -/
def storedCells (g : Geometry) (f : Flash) : List (Nat × Cell) :=
  f.cells.filterMap fun (k, c) =>
    match cellOfCode k with
    | some a => if inGeometry g a ∧ cellOfStored c ≠ .empty then some (k, cellOfStored c) else none
    | none => none

/-- A cell the Cells section lists (R23). -/
def loadListed (g : Geometry) (l : Loading) (a : CellAddr) : Loading :=
  if inGeometry g a ∧ kget l.cells (cellCode a) = none then
    { l with
      cells := kput l.cells (cellCode a) .disabled
      journal := journalChange (.cell a) (.cell .disabled) l.journal }
  else l

/-- A Disabled cell the Cells section does not list (R23). -/
def loadUnlisted (listed : List CellAddr) (l : Loading) (k : Nat) : Loading :=
  match cellOfCode k with
  | some a =>
    if kget l.cells k = some .disabled ∧ !listed.contains a then
      { l with cells := kdel l.cells k, journal := journalChange (.cell a) (.cell .empty) l.journal }
    else l
  | none => l

/-- The Cells section governs a cell's Disabled state, when it was loaded (R23). The corrections ask for their
writes in this order: first every unlisted Disabled cell becomes Empty, in address order, and then the listed Empty
cells become Disabled, in the section's order (assumption 37, DESIGN CHOICE). -/
def loadDisabled (g : Geometry) (cells : Option (List CellAddr)) (l : Loading) : Loading :=
  match cells with
  | none => l
  | some listed =>
    let l := (l.cells.map (·.1)).foldl (loadUnlisted listed) l
    let l := listed.foldl (loadListed g) l
    let kept := listed.any fun a =>
      match kget l.cells (cellCode a) with | some (.occupied _) | some (.unverified _) => true | _ => false
    if kept then
      let now := l.cells.filterMap fun p => if p.2 = .disabled then cellOfCode p.1 else none
      { l with journal := { l.journal with ctl := l.journal.ctl ++ [.settings (.cells now)] } }
    else l

/-- A bin's record from its stored attributes and fill, before the cells place it. -/
def loadBin (f : Flash) (p : Nat × BinAttr) : Nat × Bin :=
  (p.1, ⟨p.2.capacity, min p.2.capacity ((kget f.fills p.1).getD 0), if p.2.retired then .retired else .unverified,
    none, none, none, p.2.damaged, false, none⟩)

/-- A cell that names a bin places it (R23): the lowest Occupied cell holds the bin, a further one is
Unverified, and a bin unknown or Retired leaves the cell Unverified without a bin. -/
def loadPlace (l : Loading) (k : Nat) : Loading :=
  match cellOfCode k, kget l.cells k with
  | some a, some (.occupied b) =>
    match kget l.bins b with
    | some r =>
      if r.st = .retired then { l with cells := kput l.cells k (.unverified none) }
      else if r.st = .stored then { l with cells := kput l.cells k (.unverified (some b)) }
      else { l with bins := kput l.bins b (placed r .stored (some a) (some a.aisle) none) }
    | none => { l with cells := kput l.cells k (.unverified none) }
  | some _, some (.unverified (some b)) =>
    match kget l.bins b with
    | some r => if r.st = .retired then { l with cells := kput l.cells k (.unverified none) } else l
    | none => { l with cells := kput l.cells k (.unverified none) }
  | _, _ => l

/-- An Unverified bin keeps as last known cell the first Unverified cell that names it (R23). -/
def loadLast (l : Loading) (k : Nat) : Loading :=
  match cellOfCode k, kget l.cells k with
  | some a, some (.unverified (some b)) =>
    match kget l.bins b with
    | some r =>
      if r.st = .unverified ∧ r.cell = none then { l with bins := kput l.bins b { r with cell := some a } } else l
    | none => l
  | _, _ => l

/-- The load of the map (R23). -/
def loadMap (g : Geometry) (cells : Option (List CellAddr)) (f : Flash) : Loading :=
  let l := loadDisabled g cells ⟨storedCells g f, f.attrs.map (loadBin f), .reset⟩
  let keys := l.cells.map (·.1)
  keys.foldl loadLast (keys.foldl loadPlace l)

/-! ## The records at a start (R67, R92, R107, R128, R177, R198, R199, R212) -/

/-- The devices whose reports discovery expects (R214): the terminals by the configured roles at the start, which a
Stations section taken while it runs does not change (assumption 92, DESIGN CHOICE). -/
def expectedDevices (c : Settings) : List Device :=
  ((aisles.filter fun a => aisleNo a ≤ c.geometry.aisleCount).map Device.drive) ++ [.line .delivery, .line .ret]
    ++ (stationList.filter fun st => c.stations[st].role ≠ .closed).map Device.terminal

/-- The devices asked for a report at a start (R212). -/
def askedDevices (c : Settings) : List Device :=
  ((aisles.filter fun a => aisleNo a ≤ c.geometry.aisleCount).map Device.drive) ++ [.line .delivery, .line .ret]
    ++ stationList.map Device.terminal

/-- The reports asked for at a start (R212) and at Restarting (R68, R105). -/
def askReports (c : Settings) : List BusMsg :=
  ((aisles.filter fun a => aisleNo a ≤ c.geometry.aisleCount).map BusMsg.driveStatus)
    ++ [.lineContents .delivery, .lineContents .ret] ++ stationList.map BusMsg.terminalFull

/-- The yard at a start, over the loaded settings and map. -/
def startYard (warm : Bool) (c : Settings) (dflts : List Nat) (clean : Bool) (l : Loading) (segNos : Vector Nat 6)
    (delNo retNo : Nat) : Yard :=
  let y : Yard :=
    { cells := l.cells, verif := Vector.replicate 6 ⟨!clean, false⟩, bins := l.bins, journal := l.journal
      est := c.assign.map fun a => .start a (valueSet c a), orders := [], nextOrder := 1
      carriers := segNos.map fun n => { Carrier.reset with segNo := n }, arbs := Vector.replicate 6 .reset
      lines := { Lines.reset with del := { LineRec.reset with lastNo := delNo }, ret := { LineRec.reset with lastNo := retNo } }
      stations := c.stations.map fun s => .start s.role
      trays := Vector.replicate 4 .reset, post := .reset
      disc := { left := some 100, expected := expectedDevices c, silent := askedDevices c, asked := [.delivery, .ret]
                warm := warm, defaulted := dflts, found := [], conflicts := [] }
      bus := [] }
  aisles.foldl (fun y a => modVerif a (fun v => { v with verified := aisleVerified a y }) y) y

/-- The incident record restored from flash when the wing comes back Sealed (R199). -/
def restoredIncident (f : Flash) : Incident :=
  let s := f.summary.filter fun s => s.number = f.incidentNo
  { number := f.incidentNo, cause := s.bind (·.cause), start := none
    highest := (s.map fun s => s.highest).getD .none, triggers := [], later := 0, notParked := [], bins := []
    obstructed := false, flush := none, resume := none, isOpen := true, restored := true }

/-- The wing record at a start (R177, R198, R199). -/
def startWing (f : Flash) : Wing :=
  { Wing.reset with
    st := if f.sealed then .sealed else .standby, incidentNo := f.incidentNo
    incident := if f.sealed then some (restoredIncident f) else none
    shutClose := f.sealed, drvPwr := !f.sealed }

/-- The panel inputs are taken, one after another, after a load (R198), in the order STAGE1, STAGE2, DISCHARGE
(assumption 89, DESIGN CHOICE). -/
def takePanel (p : Panel) (s : State) : State :=
  [PanelInput.stage1, .stage2, .discharge].foldl (fun s i => if panelHigh p i then panelArrives i true s else s) s

/-- The end of a start (R212): the panel inputs are taken, and then the devices are asked for their reports. -/
def startEnds (p : Panel) (s : State) : State :=
  let s := takePanel p s
  { s with yard := { s.yard with bus := s.yard.bus ++ askReports s.cfg } }

/-- The whole part right after a load: `link` and `warmLeft` are what the two kinds of start leave. -/
def startState (warm : Bool) (f : Flash) (bad : List Nat) (link : Link) (warmLeft : Option Nat) (segNos : Vector Nat 6)
    (delNo retNo : Nat) (pending : List Instr) : State :=
  let fs := goodSettings bad f.settings
  let c := loadSettings fs
  { yard := startYard warm c (defaulted fs) f.clean (loadMap c.geometry fs.cells f) segNos delNo retNo
    cfg := c, sweep := loadSweep fs warmLeft, wing := startWing f, link := link, flash := f, clock := ⟨0, 0⟩
    pending := pending }

/-- A cold start (R212): flash is what survives it. -/
def coldStart (straps : Straps) (pins : Panel) (bad : List Nat) (s : State) : State :=
  startEnds pins (startState false s.flash bad { Link.reset with rate := straps } (some 20)
    #v[0, 0, 0, 0, 0, 0] 0 0 s.pending)

/-- What a warm restart keeps of the link: the rate, and the part's own count of requests taken (R212, R213).
The frame of the Restart's reply has been sent, and none has begun since. -/
def restartLink (k : Link) : Link := { Link.reset with rate := k.rate, nextId := k.nextId }

/-- The drive units with a segment in flight are sent Halt before a warm restart (R67). -/
def restartHalts (y : Yard) : List BusMsg :=
  aisles.filterMap fun a => if y.carriers[a].seg.isSome then some (.driveHalt a) else none

/-- A warm restart that is due begins (R213): the flush of R24, the load, and the start. -/
def warmRestart (error : Option Nat) (pins : Panel) (bad : List Nat) (s : State) : State :=
  if s.link.restart = .due then
    let f := restartFlush (envOf s) error s.flash s.yard
    let s' := startState true f bad (restartLink s.link) s.sweep.warmLeft (s.yard.carriers.map (·.segNo))
      s.yard.lines.del.lastNo s.yard.lines.ret.lastNo s.pending
    let s' := { s' with yard := { s'.yard with bus := restartHalts s.yard } }
    startEnds pins (modSweep startConv s')
  else s

end Sys2Proof.Machine
end

