-- ==== Sys2Proof/Machine/LinkCmds.lean ====
section
/-! DEFINITION. Start-up and host-link commands (R203 to R206, R212, R213, R215), and the two forms of a
request. -/

namespace Sys2Proof.Machine

open Sys2Proof

/-- A request that may change records: its frame is taken, acted on, and everything that follows is done. -/
def request (k : ReqKind) (h : ReqHdr) (act : Nat → State → State × Option (ReplyCode × List Fld)) (s : State) :
    Host.Outcome State Fault Refusal :=
  effect (takeFrame (reqCode k) h act) s

/-- A request that only reads records: its reply is ready at its taking. -/
def query (k : ReqKind) (h : ReqHdr) (items : State → ReplyCode × List Fld) (s : State) :
    Host.Outcome State Fault Refusal :=
  quiet (takeFrame (reqCode k) h fun _ s => (s, some (items s))) s

/-- A request code outside every rule's cases: refused with the code alone. -/
def only (c : ReplyCode) : ReplyCode × List Fld := (c, [])

/-- COLD_START (R212). -/
def execColdStart (straps : Straps) (pins : Panel) (bad : List Nat) (s : State) : Host.Outcome State Fault Refusal :=
  .next (finish (coldStart straps pins bad s))

/-- WARM_RESTART (R213): only when a Restart is due. -/
def execWarmRestart (error : Option Nat) (pins : Panel) (bad : List Nat) (s : State) :
    Host.Outcome State Fault Refusal :=
  if s.link.restart = .due then .next (finish (warmRestart error pins bad s)) else .next (clearBus s)

/-- A Restart that has been taken and not yet begun is dropped (R215); one that is due has begun, at the end of its
reply (R213). -/
def restartAfterReset : RestartSt → RestartSt
  | .due => .due
  | .none | .taken _ => .none

/-- The effect of a link reset (R215). -/
def linkReset (s : State) : State :=
  { s with link := { s.link with
    rx := .hunting, overrun := [], inbox := [], restart := restartAfterReset s.link.restart } }

/-- LINK_RESET (R215): a break shorter than 20 bit times is none. -/
def execLinkReset (bitTimes : Nat) (s : State) : Host.Outcome State Fault Refusal :=
  quiet (fun s => if 20 ≤ bitTimes then linkReset s else s) s

/-- UNKNOWN_REQUEST_KIND (R204): a frame whose KIND is no request kind is taken and refused FORM with the
reply kind 0x40, or answered OVERRUN or BUSY as any other. -/
def execUnknownRequestKind (h : ReqHdr) (_kind : Nat) (s : State) : Host.Outcome State Fault Refusal :=
  quiet (takeFrame 0 h fun _ s => refuse .form s) s

/-- An entry whose frame has been sent leaves the overrun list (R206); after a link reset it may have left. -/
def overrunSent (r : Reply) (l : List Reply) : List Reply := if l.head? = some r then l.drop 1 else l

/-- A warm restart is due: its beginning empties the inbox, the overrun list and the outbox (R213). -/
def restartDue (s : State) : State :=
  { s with
    link := { s.link with inbox := [], overrun := [], restart := .due }
    yard := { s.yard with post := { s.yard.post with outbox := [], sending := false } } }

/-- The frame being transmitted has been sent in full (R205 to R207, R213). The reply after which a warm restart begins
is that of the very request taken: a reply begun before a link reset dropped its Restart begins none. -/
def frameSent (s : State) : State :=
  let k := s.link
  match k.tx with
  | none => s
  | some (.overrun r) => { s with link := { k with tx := none, overrun := overrunSent r k.overrun } }
  | some (.reply id _) =>
    let s := { s with link := { k with tx := none, inbox := k.inbox.filter fun q => q.id ≠ id } }
    if k.restart = .taken id then restartDue s else s
  | some (.notice _) =>
    { s with
      link := { k with tx := none }
      yard := { s.yard with post := if s.yard.post.sending then
        { s.yard.post with outbox := s.yard.post.outbox.drop 1, sending := false } else s.yard.post } }

/-- TRANSMIT_COMPLETE (R205, R206). -/
def execTransmitComplete (s : State) : Host.Outcome State Fault Refusal := quiet frameSent s

end Sys2Proof.Machine
end

