-- ==== Sys2Proof/Machine/OrderCmds.lean ====
section
/-! DEFINITION. Lend, CancelLend, Fetch, Retire and Induct (R10, R11, R73 to R79, R122 to R124). -/

namespace Sys2Proof.Machine

open Sys2Proof

/-! ## Lend and Fetch (R73 to R77) -/

/-- Whether the wing takes Lend, Fetch and ReturnIntake (R74). -/
def lendTaken : WingSt → Bool
  | .normal | .hold | .clearing => true
  | _ => false

/-- Whether the wing state answers HELD (R76). -/
def lendHeld : WingSt → Bool
  | .hold | .clearing => true
  | _ => false

/-- Whether a bin is known and not Retired. -/
def binInWing (b : Nat) (y : Yard) : Bool :=
  match getBin b y with
  | some r => decide (r.st ≠ .retired)
  | none => false

/-- Whether a slip is in the queue (R72). -/
def slipInQueue (n : Nat) (y : Yard) : Bool := y.orders.any fun o => o.picks.any fun p => p.slip = n

/-- Whether a named station is refused for a class: it does not serve it (R73). -/
def stationRefused (station : Nat) (c : OrderClass) (y : Yard) : Bool :=
  match stationOf station with
  | some st => !serves y.stations[st].role c
  | none => false

/-- The reply to a Lend or a Fetch that made, joined or found an order (R76, R77). -/
def orderReply (e : Env) (station no : Nat) (y : Yard) : ReplyCode × List Fld :=
  match orderOf no y with
  | none => only .unknown
  | some o =>
    let other := decide (station ≠ 0 ∧ station ≠ stationNo o.station)
    let items := [.u2 o.no, .u1 (stationNo o.station), .u1 (orderStCode o.st), .u1 (orderReasonCode o.st),
      .u2 o.picks.length]
    if lendHeld e.wing then (.held, items ++ [flag other]) else (if other then .redirected else .ok, items)

/-- Where a bin with no live order stands, for a Lend or a Fetch (R75, R77). -/
inductive BinAt where
  | orphanSession (st : Station)
  | orphanComing (st : Station)
  | elsewhere
  deriving DecidableEq, Repr

/-- The station of a bin in a Next place or on the delivery line. -/
def comingTo (b : Nat) (y : Yard) : Option Station :=
  match stationList.find? fun st => decide (y.stations[st].next.map (·.bin) = some b) with
  | some st => some st
  | none => (y.lines.delivery.find? fun p => p.bin = b).map (·.station)

/-- The circumstances of a bin with no live order (R75, R77). -/
def binAt (b : Nat) (y : Yard) : BinAt :=
  match sessionOfBin b y with
  | some st =>
    (match y.stations[st].session with
      | some s => if s.releasing then .elsewhere else .orphanSession st
      | none => .elsewhere)
  | none =>
    match comingTo b y with
    | some st => .orphanComing st
    | none => .elsewhere

/-- An order created around an orphan session becomes its order, and arms it (R122). -/
def adoptSession (st : Station) (no : Nat) (y : Yard) : Yard :=
  modSession st (fun s => { s with order := some no, armed := true }) y

/-- Create an order where a bin with no live order stands. `ok` says which stations take an order around an
orphan; an order elsewhere is addressed by R73. Answers the order's number, or the refusal. -/
def createAround (e : Env) (cls : OrderClass) (bin station : Nat) (picks : List Pick) (ok : Station → Bool) (y : Yard) :
    Yard × (Nat ⊕ ReplyCode) :=
  let place := fun (st : Station) (s : Option OrderSt) (y : Yard) => createOrder e cls bin st picks false s y
  let addressed :=
    match stationOf station with
    | some st => some st
    | none => anyStation e cls y
  let free :=
    match addressed with
    | none => (y, .inr .busy)
    | some st => if queueFull y then (y, .inr .full) else (let (y, no) := place st none y; (y, .inl no))
  match binAt bin y with
  | .orphanSession st =>
    if ok st then
      if queueFull y then (y, .inr .full)
      else
        let (y, no) := place st (some .atStation) y
        (adoptSession st no y, .inl no)
    else free
  | .orphanComing st =>
    if ok st then
      if queueFull y then (y, .inr .full)
      else
        let (y, no) := place st (some .delivering) y
        (y, .inl no)
    else free
  | .elsewhere => free

/-- The answer to a Lend or a Fetch from the order made or the refusal. -/
def createdReply (e : Env) (station : Nat) (s : State) (r : Yard × (Nat ⊕ ReplyCode)) :
    State × Option (ReplyCode × List Fld) :=
  match r.2 with
  | .inl no => ({ s with yard := r.1 }, some (orderReply e station no r.1))
  | .inr c => refuse c s

/-- A pick joins a live order (R75, R122). -/
def joinOrder (o : Order) (p : Pick) (y : Yard) : Yard :=
  let y := modOrder o.no (fun o => { o with picks := o.picks ++ [p] }) y
  match sessionOn o.no y with
  | some st => armSession st y
  | none => y

/-- The live order of a bin. -/
def liveOrder (b : Nat) (y : Yard) : Option Order := (getBin b y).bind fun r => r.live.bind fun no => orderOf no y

/-- Lend handled by the bin's circumstances (R75). -/
def lendBin (e : Env) (bin station : Nat) (p : Pick) (s : State) : State × Option (ReplyCode × List Fld) :=
  let y := s.yard
  match liveOrder bin y with
  | some o =>
    if !serves y.stations[o.station].role .reader then refuse .busy s
    else if 8 ≤ o.picks.length then refuse .full s
    else
      let y := joinOrder o p y
      ({ s with yard := y }, some (orderReply e station o.no y))
  | none => createdReply e station s
      (createAround e .reader bin station [p] (fun st => serves y.stations[st].role .reader) y)

/-- Lend acts (R74, R75). -/
def lendAct (bin slip width station : Nat) (item : ItemCode) (s : State) : State × Option (ReplyCode × List Fld) :=
  let y := s.yard
  if slip = 0 ∨ itemOk item = false ∨ binOk bin = false ∨ 5 ≤ station then refuse .form s
  else if !lendTaken s.wing.st then refuse .wingDown s
  else if !binInWing bin y then refuse .unknown s
  else if slipInQueue slip y || itemInUse item y then refuse .duplicate s
  else if stationRefused station .reader y then refuse .busy s
  else lendBin (envOf s) bin station ⟨slip, item, clamp 1 120 width, .opened⟩ s

/-- LEND (R74 to R76). -/
def execLend (h : ReqHdr) (bin slip width station : Nat) (item : ItemCode) (s : State) :
    Host.Outcome State Fault Refusal :=
  request .lend h (fun _ s => lendAct bin slip width station item s) s

/-- Fetch acts (R77). -/
def fetchAct (bin station : Nat) (s : State) : State × Option (ReplyCode × List Fld) :=
  let y := s.yard
  let e := envOf s
  if binOk bin = false ∨ 5 ≤ station then refuse .form s
  else if !lendTaken s.wing.st then refuse .wingDown s
  else if !binInWing bin y then refuse .unknown s
  else if stationRefused station .staff y then refuse .busy s
  else
    match liveOrder bin y with
    | some o => (s, some (orderReply e station o.no y))
    | none => createdReply e station s (createAround e .staff bin station [] (fun _ => true) y)

/-- FETCH (R77). -/
def execFetch (h : ReqHdr) (bin station : Nat) (s : State) : Host.Outcome State Fault Refusal :=
  request .fetch h (fun _ s => fetchAct bin station s) s

/-! ## CancelLend (R79, R123) -/

/-- The order that holds a slip, with its pick. -/
def slipPick (n : Nat) (y : Yard) : Option (Order × Pick) :=
  y.orders.findSome? fun o => (o.picks.find? fun p => p.slip = n).map fun p => (o, p)

/-- The pick of a slip leaves an order's list; a Reader order left with none and no retire flag leaves the
queue. Answers whether the order left. -/
def withdrawPick (e : Env) (o : Order) (slip : Nat) (y : Yard) : Yard × Bool :=
  let picks := o.picks.filter fun p => p.slip ≠ slip
  let y := modOrder o.no (fun o => { o with picks := picks }) y
  if picks.isEmpty && decide (o.cls = .reader) && !o.retire then (removeOrder e o.no y, true) else (y, false)

/-- CancelLend acts (R79). The reply gives the pick's state, none when it was removed, and whether the
order was removed. -/
def cancelAct (slip : Nat) (s : State) : State × Option (ReplyCode × List Fld) :=
  if slip = 0 then refuse .form s
  else
    match slipPick slip s.yard with
    | none => refuse .unknown s
    | some (o, p) =>
      if p.st ≠ .opened then replyWith .ok [.u1 (pickStCode p.st), flag false] s
      else if waitsInQueue o then
        let r := withdrawPick (envOf s) o slip s.yard
        replyWith .ok [.u1 0, flag r.2] { s with yard := r.1 }
      else
        let y := modOrder o.no (fun o => { o with picks := settlePick (fun p => p.slip = slip) .cancelled o.picks }) s.yard
        replyWith .ok [.u1 (pickStCode .cancelled), flag false] { s with yard := y }

/-- CANCEL_LEND (R79). -/
def execCancelLend (h : ReqHdr) (slip : Nat) (s : State) : Host.Outcome State Fault Refusal :=
  request .cancelLend h (fun _ s => cancelAct slip s) s

/-! ## Retire (R11, R78, R124) -/

/-- RetirePending set on the bin of a session (R112, R124): a session that does not close at once is armed, and the
display shows one that does (R113). -/
def retireSession (e : Env) (st : Station) (y : Yard) : Yard :=
  match y.stations[st].session with
  | none => y
  | some s =>
    if s.releasing then
      if y.lines.releaseList.contains st then showStation st (closeSession e st (leaveRelease st y)) else armSession st y
    else armSession st (handBackAll e st y)

/-- Retire acts (R11). -/
def retireAct (bin : Nat) (s : State) : State × Option (ReplyCode × List Fld) :=
  match getBin bin s.yard with
  | none => refuse .unknown s
  | some r =>
    if r.st = .retired then refuse .unknown s
    else if r.retirePending then replyWith .ok [] s
    else
      let e := envOf s
      let y := putBin bin { r with retirePending := true } s.yard
      let y := match r.live with | some no => modOrder no (fun o => { o with retire := true }) y | none => y
      let y := match sessionOfBin bin y with | some st => retireSession e st y | none => y
      replyWith .ok [] { s with yard := y }

/-- RETIRE (R11). -/
def execRetire (h : ReqHdr) (bin : Nat) (s : State) : Host.Outcome State Fault Refusal :=
  request .retire h (fun _ s => retireAct bin s) s

/-! ## Induct (R10) -/

/-- Whether the wing takes Induct (R10) and AcceptMap (R159). -/
def inductTaken : WingSt → Bool
  | .standby | .normal | .hold | .clearing => true
  | _ => false

/-- A bin is inducted at the tail of the return line (R10). -/
def inductBin (e : Env) (bin capacity fill : Nat) (y : Yard) : Yard :=
  let y := putBin bin ⟨capacity, fill, .onReturn, none, none, none, false, false, none⟩ y
  let y := attrChange bin (joinReturn e bin none y)
  modJournal (journalChange (.fill bin) (.fill fill)) y

/-- Induct acts (R10). -/
def inductAct (bin capacity : Nat) (fill : Option Nat) (s : State) : State × Option (ReplyCode × List Fld) :=
  let y := s.yard
  if binOk bin = false then refuse .form s
  else if binInWing bin y then refuse .duplicate s
  else if 12 ≤ returnCommitted y then refuse .full s
  else if !inductTaken s.wing.st then refuse .wingDown s
  else
    let c := clamp 100 600 capacity
    let f := min c (fill.getD 0)
    replyWith .ok [.u2 c, .u2 f] { s with yard := inductBin (envOf s) bin c f y }

/-- INDUCT (R10). -/
def execInduct (h : ReqHdr) (bin capacity : Nat) (fill : Option Nat) (s : State) : Host.Outcome State Fault Refusal :=
  request .induct h (fun _ s => inductAct bin capacity fill s) s

end Sys2Proof.Machine
end

