-- ==== Sys2Proof/Machine/RecoveryCmds.lean ====
section
/-! DEFINITION. Survey, AcceptMap, CarrierClear and LineClear (R66, R106, R149, R159). -/

namespace Sys2Proof.Machine

open Sys2Proof

/-! ## Survey (R149) -/

/-- Whether a held survey request can begin at once (R149). -/
def surveyAtOnce (e : Env) (a : Aisle) (y : Yard) : Bool :=
  decide (y.carriers[a].st = .idle ∧ y.carriers[a].load = none) && aisleReady e a y

/-- Survey is taken: the request is held by the aisle arbiter (R149). -/
def surveyTaken (e : Env) (a : Aisle) (full : Bool) (start stop : Nat) (s : State) :
    State × Option (ReplyCode × List Fld) :=
  let cols := e.cfg.geometry.columns
  let stop := clamp 1 cols stop
  let start := min (clamp 1 cols start) stop
  let replaced := s.yard.arbs[a].surveyReq.isSome
  let y := modArb a (fun r => { r with surveyReq := some ⟨full, start, stop⟩ }) s.yard
  replyWith .ok [.u1 (surveyKind full), .u2 start, .u2 stop, flag replaced, flag (surveyAtOnce e a s.yard)]
    { s with yard := y }

/-- Survey acts (R149). -/
def surveyAct (aisle kind start stop : Nat) (s : State) : State × Option (ReplyCode × List Fld) :=
  match aisleOf aisle with
  | none => refuse .form s
  | some a =>
    if kind ≠ 1 ∧ kind ≠ 2 then refuse .form s
    else if !inductTaken s.wing.st then refuse .wingDown s
    else if s.wing.st = .hold ∨ s.wing.st = .clearing ∨ aisleIn (envOf s) a = false ∨ surveying a s.yard then refuse .busy s
    else surveyTaken (envOf s) a (kind = 2) start stop s

/-- SURVEY (R149). -/
def execSurvey (h : ReqHdr) (aisle kind start stop : Nat) (s : State) : Host.Outcome State Fault Refusal :=
  request .survey h (fun _ s => surveyAct aisle kind start stop s) s

/-! ## AcceptMap (R159) -/

/-- One Unverified cell is settled: Occupied by its bin when that bin is Unverified, and Empty otherwise. -/
def acceptCell (e : Env) (y : Yard) (p : CellAddr × Option Nat) : Yard :=
  match p.2 with
  | none => setCell e p.1 .empty y
  | some b =>
    match getBin b y with
    | some r => if r.st = .unverified then binStored b p.1 (setCell e p.1 (.occupied b) y) else setCell e p.1 .empty y
    | none => setCell e p.1 .empty y

/-- A bin that stays Unverified with a last known cell in the aisle is left with none (R159). -/
def dropLast (a : Aisle) (y : Yard) : Yard :=
  { y with bins := y.bins.map fun (b, r) =>
      if r.st = .unverified ∧ r.cell.map (·.aisle) = some a then (b, { r with cell := none }) else (b, r) }

/-- The map of an aisle is accepted as it stands (R159). The verification status is derived again at each cell
settled and when the doubt is cleared (R147), and the orders are evaluated at each cell settled (R81). -/
def acceptAisle (e : Env) (a : Aisle) (y : Yard) : Yard :=
  let y := (unverifiedCells a y).foldl (fun y p => cellChanged e a (acceptCell e y p)) y
  verifyEdge e a (modVerif a (fun v => { v with doubt := false }) (dropLast a y))

/-- AcceptMap acts (R159). -/
def acceptAct (aisle : Nat) (s : State) : State × Option (ReplyCode × List Fld) :=
  match aisleOf aisle with
  | none => refuse .form s
  | some a =>
    let e := envOf s
    if !inductTaken s.wing.st then refuse .wingDown s
    else if aisleIn e a = false ∨ surveying a s.yard then refuse .busy s
    else
      let cells := (unverifiedCells a s.yard).map (·.1)
      let y := acceptAisle e a s.yard
      let full := cells.filter fun x => match getCell e x y with | .occupied _ => true | _ => false
      replyWith .ok [.u2 full.length, .u2 (cells.length - full.length), .u1 (verifCode a y)]
        { s with yard := y }

/-- ACCEPT_MAP (R159). -/
def execAcceptMap (h : ReqHdr) (aisle : Nat) (s : State) : Host.Outcome State Fault Refusal :=
  request .acceptMap h (fun _ s => acceptAct aisle s) s

/-! ## CarrierClear and LineClear (R66, R106) -/

/-- Whether the wing state takes a clear (R66, R106). -/
def clearTakes : WingSt → Bool
  | .normal | .standby => true
  | _ => false

/-- CarrierClear acts (R66): the drive unit is asked for a status report, and the reply waits for it. -/
def carrierClearAct (aisle id : Nat) (s : State) : State × Option (ReplyCode × List Fld) :=
  match aisleOf aisle with
  | none => refuse .form s
  | some a =>
    let c := s.yard.carriers[a]
    if c.st ≠ .faulted ∨ c.clear.isSome ∨ clearTakes s.wing.st = false then refuse .busy s
    else
      ({ s with yard := send (.driveStatus a) (modCarrier a (fun c => { c with clear := some ⟨id, 50⟩ }) s.yard) }, none)

/-- CARRIER_CLEAR (R66). -/
def execCarrierClear (h : ReqHdr) (aisle : Nat) (s : State) : Host.Outcome State Fault Refusal :=
  request .carrierClear h (carrierClearAct aisle) s

/-- A line by its code. -/
def lineOf : Nat → Option LineId
  | 1 => some .delivery | 2 => some .ret | _ => none

/-- The reports a LineClear asks for (R106). -/
def clearAsks : LineId → List BusMsg
  | .delivery => .lineContents .delivery :: stationList.map BusMsg.terminalFull
  | .ret => [.lineContents .ret]

/-- The terminals whose reports a LineClear waits for. -/
def clearTerminals : LineId → List Station
  | .delivery => stationList
  | .ret => []

/-- LineClear acts (R106). -/
def lineClearAct (line id : Nat) (s : State) : State × Option (ReplyCode × List Fld) :=
  match lineOf line with
  | none => refuse .form s
  | some l =>
    let r := lineRec l s.yard
    if r.st = .running ∨ r.clear.isSome ∨ clearTakes s.wing.st = false then refuse .busy s
    else
      let y := modLine l (fun r => { r with clear := some ⟨id, 50, false, clearTerminals l, []⟩ }) s.yard
      ({ s with yard := { y with bus := y.bus ++ clearAsks l } }, none)

/-- LINE_CLEAR (R106). -/
def execLineClear (h : ReqHdr) (line : Nat) (s : State) : Host.Outcome State Fault Refusal :=
  request .lineClear h (lineClearAct line) s

end Sys2Proof.Machine
end

