-- ==== Sys2Proof/Machine/CarrierCmds.lean ====
section
/-! DEFINITION. The events of the drive bus that concern carriers, and the discovery timeout (R29, R48 to
R53, R66 to R68, R214). -/

namespace Sys2Proof.Machine

open Sys2Proof

/-! ## Segments (R48, R50, R51, R53) -/

/-- The segment in flight of an aisle, if it has the number reported (R53). -/
def segOf (a : Aisle) (no : Nat) (y : Yard) : Option Segment := y.carriers[a].seg.filter fun g => g.no = no

/-- A stop report that places a Halted carrier in the shutter plane sets the obstructed flag (R192), whatever the
wing state by then: the Halt may still be in flight in Restarting (R62, R68). -/
def stopObstructs (a : Aisle) (g : Segment) (s : State) : State :=
  if g.kind = .halt ∧ inPlane s.yard.carriers[a] ∧ (s.wing.incident.map (·.obstructed)) = some false then obstruct s
  else s

/-- A completion report (R48); one for no segment in flight is ignored (R53). -/
def segmentReported (a : Aisle) (no : Nat) (r : SegReport) (s : State) : State :=
  match segOf a no s.yard with
  | some g => stopObstructs a g (onYard (fun e => segDone e a g r) s)
  | none => s

/-- SEGMENT_COMPLETE (R48). -/
def execSegmentComplete (a : Aisle) (no : Nat) (r : SegReport) (s : State) : Host.Outcome State Fault Refusal :=
  effect (segmentReported a no r) s

/-- A fault report (R50). -/
def segmentFaults (a : Aisle) (no : Nat) (f : DriveFault) (s : State) : State :=
  match segOf a no s.yard with
  | some g => onYard (fun e => segFaulted e a g f) s
  | none => s

/-- SEGMENT_FAULT (R50). -/
def execSegmentFault (a : Aisle) (no : Nat) (f : DriveFault) (s : State) : Host.Outcome State Fault Refusal :=
  effect (segmentFaults a no f) s

/-- A deadline expires (R51); a Halt has none. -/
def segmentExpires (a : Aisle) (no : Nat) (s : State) : State :=
  match segOf a no s.yard with
  | some g => if g.deadline.isSome then onYard (fun e => segLate e a g) s else s
  | none => s

/-- SEGMENT_DEADLINE (R51). -/
def execSegmentDeadline (a : Aisle) (no : Nat) (s : State) : Host.Outcome State Fault Refusal :=
  effect (segmentExpires a no) s

/-- The settle timer expires (R29). An expiry taken after a change has restarted the timer does not happen. -/
def settleEnds (a : Aisle) (y : Yard) : Yard :=
  if y.est[a].st = .settling ∧ y.est[a].settleLeft = 0 then modEst a (fun r => { r with st := .steady, settleLeft := 0 }) y else y

/-- SETTLE_TIMER_EXPIRY (R29). -/
def execSettleTimerExpiry (a : Aisle) (s : State) : Host.Outcome State Fault Refusal :=
  effect (onYard fun _ => settleEnds a) s

/-! ## Drive status reports (R66 to R68) -/

/-- A drive unit's status report: the position, the fork and whether the drive is in fault. -/
structure DriveReport where
  col : Nat
  level : Nat
  fork : Option Nat
  fault : Bool
  deriving DecidableEq, Repr

/-- The reported position becomes the position, and the carrier's unit has reported. -/
def takePosition (a : Aisle) (r : DriveReport) (y : Yard) : Yard :=
  modCarrier a (fun c => { c with pos := some (r.col, r.level), reported := true }) y

/-- A carrier leaves Offline (R67): Faulted with a drive fault, and otherwise the state the wing gives. It is Offline
still while the bin on its fork is placed and the orders are evaluated at that change: one that goes from Offline to
Faulted keeps its aisle down throughout (R81). -/
def leaveOffline (e : Env) (a : Aisle) (r : DriveReport) (y : Yard) : Yard :=
  let y := forkReport e a r.fork (takePosition a r y)
  if r.fault then enterFaulted e a .driveFault none y
  else
    let y := setSt a .idle y
    match e.wing with
    | .hold | .clearing => setSt a .held y
    | .parking => takePark e a y
    | _ => y

/-- A carrier that comes back in Hold or Clearing is treated as one Held at entry to Hold (R67, R184). -/
def joinClearing (a : Aisle) (s : State) : State :=
  let c := s.yard.carriers[a]
  if (s.wing.st = .hold ∨ s.wing.st = .clearing) ∧ c.st = .held ∧ inPlane c then
    modWing (fun w => { w with clearing := w.clearing ++ [(a, .awaiting)] }) s
  else s

/-- A report taken in Restarting by a carrier that is not Offline (R68). The rule says nothing of a drive fault
it carries, and it changes nothing (assumption 63, DESIGN CHOICE). -/
def restartReport (e : Env) (a : Aisle) (r : DriveReport) (y : Yard) : Yard :=
  let halted := decide (y.carriers[a].st = .halted)
  let y := if halted then segEnded e a y else y
  let y := forkReport e a r.fork (takePosition a r y)
  match y.carriers[a].st with
  | .halted => enterFaulted e a .halted none y
  | .parked => setSt a .idle y
  | _ => y

/-- A Spot survey of the whole aisle is requested when a CarrierClear finds Unverified cells and no request
is held (R66, R150). -/
def spotAfterClear (e : Env) (a : Aisle) (y : Yard) : Yard :=
  if (unverifiedCells a y).isEmpty || y.arbs[a].surveyReq.isSome then y
  else modArb a (fun r => { r with surveyReq := some ⟨false, 1, e.cfg.geometry.columns⟩ }) y

/-- CarrierClear's report is applied (R66). -/
def applyClear (e : Env) (a : Aisle) (r : DriveReport) (y : Yard) : Yard :=
  let y := forkCleared e a r.fork (takePosition a r y)
  let y := releaseTask e a y.carriers[a].task y
  spotAfterClear e a (modCarrier a (fun c => { c with task := none, fault := none, st := .idle }) y)

/-- A status report for a waiting CarrierClear (R66). Out of Normal and Standby it is not applied and counts for
nothing else, in Restarting too (assumption 63, DESIGN CHOICE). -/
def clearReport (a : Aisle) (w : ClearWait) (r : DriveReport) (s : State) : State :=
  let s := { s with yard := modCarrier a (fun c => { c with clear := none }) s.yard }
  if clearTakes s.wing.st = false then answer w.id .busy [] s
  else if r.fault then
    answer w.id .busy [] { s with yard := modCarrier a (fun c => { c with fault := some .driveFault }) s.yard }
  else
    let s := onYard (fun e => applyClear e a r) s
    let c := s.yard.carriers[a]
    answer w.id .ok (posFlds c.pos ++ [opt2 c.load]) s

/-- The CarrierClear that a status report answers: one waiting on a carrier still Faulted (R66). -/
def clearAnswered (c : Carrier) : Option ClearWait := if c.st = .faulted then c.clear else none

/-- A status report by what the carrier record asks of it: a waiting CarrierClear, Restarting, or Offline.
One that none of these asked for is not applied. Aisles beyond the geometry stay Offline (R67). -/
def statusReported (a : Aisle) (r : DriveReport) (s : State) : State :=
  let c := s.yard.carriers[a]
  if aisleIn (envOf s) a = false then s
  else
    let s :=
      match clearAnswered c with
      | some w => clearReport a w r s
      | none =>
        if c.st = .offline then joinClearing a (onYard (fun e => leaveOffline e a r) s)
        else if s.wing.st = .restarting then onYard (fun e => restartReport e a r) s
        else s
    onYard (fun e => deviceReported e (.drive a)) s

/-- DRIVE_STATUS_REPORT (R66 to R68). -/
def execDriveStatusReport (a : Aisle) (col level : Nat) (fork : Option Nat) (fault : Bool) (s : State) :
    Host.Outcome State Fault Refusal :=
  effect (statusReported a ⟨col, level, fork, fault⟩) s

/-- No report has come for a CarrierClear within 50 ds (R66). -/
def carrierClearExpires (a : Aisle) (s : State) : State :=
  match s.yard.carriers[a].clear with
  | some w => answer w.id .busy [] { s with yard := modCarrier a (fun c => { c with clear := none }) s.yard }
  | none => s

/-- CARRIER_CLEAR_TIMEOUT (R66). -/
def execCarrierClearTimeout (a : Aisle) (s : State) : Host.Outcome State Fault Refusal :=
  effect (carrierClearExpires a) s

/-- DISCOVERY_TIMEOUT (R214). -/
def execDiscoveryTimeout (s : State) : Host.Outcome State Fault Refusal := effect (onYard endDiscovery) s

end Sys2Proof.Machine
end

