-- ==== Sys2Proof/Machine/ConfigCmds.lean ====
section
/-! DEFINITION. The Configure requests, one row for each kind of first section (R210). -/

namespace Sys2Proof.Machine

open Sys2Proof

/-- A Configure request with its sections in the order listed. -/
def configure (h : ReqHdr) (l : List CfgSection) (s : State) : Host.Outcome State Fault Refusal :=
  request .configure h (fun _ s => configureAct l s) s

/-- CONFIGURE_GEOMETRY (R1). -/
def execConfigureGeometry (h : ReqHdr) (a c l : Nat) (more : List CfgSection) (s : State) :
    Host.Outcome State Fault Refusal :=
  configure h (.geometry a c l :: more) s

/-- CONFIGURE_CELLS (R3). -/
def execConfigureCells (h : ReqHdr) (items : List CellItem) (more : List CfgSection) (s : State) :
    Host.Outcome State Fault Refusal :=
  configure h (.cells items :: more) s

/-- CONFIGURE_PROFILES (R26). -/
def execConfigureProfiles (h : ReqHdr) (p : ProfileCfg) (more : List CfgSection) (s : State) :
    Host.Outcome State Fault Refusal :=
  configure h (.profiles p :: more) s

/-- CONFIGURE_AISLE_ASSIGN (R27). -/
def execConfigureAisleAssign (h : ReqHdr) (items : List AssignItem) (more : List CfgSection) (s : State) :
    Host.Outcome State Fault Refusal :=
  configure h (.aisleAssign items :: more) s

/-- CONFIGURE_STATIONS (R108). -/
def execConfigureStations (h : ReqHdr) (items : List StationItem) (more : List CfgSection) (s : State) :
    Host.Outcome State Fault Refusal :=
  configure h (.stations items :: more) s

/-- CONFIGURE_DISPATCH (R37, R64). -/
def execConfigureDispatch (h : ReqHdr) (aging pressure : Option Nat) (more : List CfgSection) (s : State) :
    Host.Outcome State Fault Refusal :=
  configure h (.dispatch aging pressure :: more) s

/-- CONFIGURE_TRAYS (R130). -/
def execConfigureTrays (h : ReqHdr) (th limit : Option Nat) (more : List CfgSection) (s : State) :
    Host.Outcome State Fault Refusal :=
  configure h (.trays th limit :: more) s

/-- CONFIGURE_SESSIONS (R127). -/
def execConfigureSessions (h : ReqHdr) (idle auto : Option Nat) (more : List CfgSection) (s : State) :
    Host.Outcome State Fault Refusal :=
  configure h (.sessions idle auto :: more) s

/-- CONFIGURE_SWEEP (R167). -/
def execConfigureSweep (h : ReqHdr) (range : Option (Nat × Nat)) (items : List SlotItem) (more : List CfgSection)
    (s : State) : Host.Outcome State Fault Refusal :=
  configure h (.sweep range items :: more) s

/-- CONFIGURE_FIRE (R210). -/
def execConfigureFire (h : ReqHdr) (holdClear parkDeadline parkColumn restartDelay : Option Nat)
    (more : List CfgSection) (s : State) : Host.Outcome State Fault Refusal :=
  configure h (.fire holdClear parkDeadline parkColumn restartDelay :: more) s

end Sys2Proof.Machine
end

