-- ==== Sys2Proof/Machine/FlashCmds.lean ====
section
/-! DEFINITION. The events of the serial flash (R16, R19, R21, R194). -/

namespace Sys2Proof.Machine

open Sys2Proof

/-- A flash write completes; the one that ends the sealing flush takes the wing to Sealed (R21, R194). -/
def flashDone (s : State) : State :=
  if decide (s.wing.st = .sealing) && sealingLast s.yard.journal then enterSealed .done (closeJournal false (writeDone s)) else writeDone s

/-- FLASH_WRITE_COMPLETE (R16). -/
def execFlashWriteComplete (s : State) : Host.Outcome State Fault Refusal := effect flashDone s

/-- A flash write ends with an error; during the sealing flush it ends the flush Failed (R19, R21, R194). -/
def flashFailed (s : State) : State :=
  if decide (s.wing.st = .sealing) && s.yard.journal.sealing.isSome && s.yard.journal.writing.isSome then
    enterSealed .failed (closeJournal true (writeFailed s))
  else writeFailed s

/-- FLASH_WRITE_ERROR (R19). -/
def execFlashWriteError (s : State) : Host.Outcome State Fault Refusal := effect flashFailed s

/-- The wait that follows a write error ends (R19). -/
def retryEnds (y : Yard) : Yard := modJournal (fun j => { j with retryLeft := none }) y

/-- JOURNAL_RETRY_EXPIRY (R19). -/
def execJournalRetryExpiry (s : State) : Host.Outcome State Fault Refusal := effect (onYard fun _ => retryEnds) s

end Sys2Proof.Machine
end

