-- ==== Sys2Proof/Machine/LineCmds.lean ====
section
/-! DEFINITION. The events of the drive bus that concern the lines, and the terminals' reports (R94, R96,
R97, R99, R101 to R103, R106). -/

namespace Sys2Proof.Machine

open Sys2Proof

/-! ## Transfers (R94) -/

/-- A completion report for a transfer in flight; one for none is ignored (R94). -/
def transferDone (l : LineId) (no : Nat) (f : Env → Transfer → Yard → Yard) (s : State) : State :=
  match transferOf l no s.yard with
  | some t => onYard (fun e => f e t) s
  | none => s

/-- A diversion's completion (R96). -/
def diversionCompletes (e : Env) (t : Transfer) (y : Yard) : Yard :=
  match t.kind with
  | .diversion st => let _ := e; diversionDone st t y
  | _ => y

/-- DIVERSION_COMPLETE (R96). -/
def execDiversionComplete (no : Nat) (s : State) : Host.Outcome State Fault Refusal :=
  effect (transferDone .delivery no diversionCompletes) s

/-- An advance's completion (R97). -/
def advanceCompletes (e : Env) (t : Transfer) (y : Yard) : Yard :=
  match t.kind with
  | .advance st => advanceDone e st t y
  | _ => y

/-- ADVANCE_COMPLETE (R97). -/
def execAdvanceComplete (no : Nat) (s : State) : Host.Outcome State Fault Refusal :=
  effect (transferDone .delivery no advanceCompletes) s

/-- A release's completion (R99). -/
def releaseCompletes (e : Env) (t : Transfer) (y : Yard) : Yard :=
  match t.kind with
  | .release st => releaseDone e st t y
  | _ => y

/-- RELEASE_COMPLETE (R99). -/
def execReleaseComplete (no : Nat) (s : State) : Host.Outcome State Fault Refusal :=
  effect (transferDone .ret no releaseCompletes) s

/-- An inbound diversion's completion (R101). -/
def inboundCompletes (e : Env) (t : Transfer) (y : Yard) : Yard :=
  match t.kind with
  | .inbound a => let _ := e; inboundDone a t y
  | _ => y

/-- INBOUND_DIVERSION_COMPLETE (R101). -/
def execInboundDiversionComplete (no : Nat) (s : State) : Host.Outcome State Fault Refusal :=
  effect (transferDone .ret no inboundCompletes) s

/-- A drive's fault report faults its line (R94): for a transfer in flight, or with no transfer named while
the line runs. -/
def lineFaults (l : LineId) (no : Option Nat) (y : Yard) : Yard :=
  match no with
  | some n => if (transferOf l n y).isSome then lineFaulted l .driveFault y else y
  | none => if (lineRec l y).st = .running then lineFaulted l .driveFault y else y

/-- LINE_FAULT_REPORT (R94). -/
def execLineFaultReport (l : LineId) (no : Option Nat) (s : State) : Host.Outcome State Fault Refusal :=
  effect (onYard fun _ => lineFaults l no) s

/-- A transfer's deadline expires (R94). -/
def lineExpires (l : LineId) (no : Nat) (y : Yard) : Yard :=
  if (transferOf l no y).isSome then lineFaulted l .deadline y else y

/-- LINE_TRANSFER_DEADLINE (R94). -/
def execLineTransferDeadline (l : LineId) (no : Nat) (s : State) : Host.Outcome State Fault Refusal :=
  effect (onYard fun _ => lineExpires l no) s

/-! ## Contents reports and LineClear (R102, R105, R106) -/

/-- The items of a LineClear reply: the line's list as applied and, for the return line, the inbound places. -/
def lineClearFlds (l : LineId) (y : Yard) : List Fld :=
  match l with
  | .delivery => listFlds y.lines.delivery fun p => [.u2 p.bin, .u1 (stationNo p.station)]
  | .ret => listFlds y.lines.returns (fun p => [.u2 p.bin, .u1 (aisleNo p.aisle)]) ++ aisles.map fun a => opt2 y.lines.inbound[a]

/-- Whether a line drive's contents report is owed on grounds of its own (R102, R105): asked for at a start or in
Restarting and not yet come, however late, or taken while the wing is Restarting. -/
def contentsOwed (l : LineId) (s : State) : Bool :=
  s.yard.disc.expected.contains (.line l) || s.yard.disc.asked.contains l || decide (s.wing.st = .restarting)

/-- Whether a line drive's contents report is one that is taken: owed, or asked for by a LineClear (R106). -/
def contentsAwaited (l : LineId) (s : State) : Bool := contentsOwed l s || (lineRec l s.yard).clear.isSome

/-- A contents report is applied (R102). -/
def applyContents (l : LineId) (bins : List Nat) (inbound : List (Option Nat)) (fault : Bool) (e : Env) (y : Yard) : Yard :=
  let y := match l with | .delivery => deliveryReport e bins y | .ret => returnReport e bins inbound y
  let y := modLine l (fun r => { r with clear := r.clear.map fun w => { w with driveDone := true } }) (lineReported l fault y)
  deviceReported e (.line l) { y with disc := { y.disc with asked := y.disc.asked.filter fun x => x ≠ l } }

/-- A report that a LineClear held is applied (R102, R103), and every order is evaluated, ahead of the next one held
(R81). -/
def applyHeld (l : LineId) (e : Env) (y : Yard) : HeldReport → Yard
  | .contents bins inbound fault => evalOrders e (applyContents l bins inbound fault e y)
  | .full st next present => evalOrders e (terminalReport e st next present y)

/-- A waiting LineClear ends (R106). While the wing is Normal or Standby the reports held for it are applied in
the order they came, and the reply is OK if the drive's is among them; otherwise nothing is applied and the reply
is BUSY. -/
def lineClearEnds (l : LineId) (s : State) : State :=
  match (lineRec l s.yard).clear with
  | none => s
  | some w =>
    let s := { s with yard := modLine l (fun r => { r with clear := none }) s.yard }
    if clearTakes s.wing.st then
      let s := onYard (fun e y => w.held.foldl (applyHeld l e) y) s
      if w.driveDone then answer w.id .ok (lineClearFlds l s.yard) s else answer w.id .busy [] s
    else answer w.id .busy [] s

/-- A LineClear whose reports have all come ends (R106). -/
def lineClearSync (l : LineId) (s : State) : State :=
  match (lineRec l s.yard).clear with
  | some w => if w.driveDone && w.terminals.isEmpty then lineClearEnds l s else s
  | none => s

/-- A contents report is held for a waiting LineClear (R106). -/
def holdContents (r : HeldReport) (w : LineClearWait) : LineClearWait := { w with driveDone := true, held := w.held ++ [r] }

/-- A line drive's contents report: applied at once when it is owed (R102, R105), else held for the LineClear that
asked for it (R106; assumption 72). -/
def contentsReported (l : LineId) (bins : List Nat) (inbound : List (Option Nat)) (fault : Bool) (s : State) : State :=
  if contentsOwed l s then lineClearSync l (onYard (applyContents l bins inbound fault) s)
  else if (lineRec l s.yard).clear.isSome then
    lineClearSync l { s with yard := modLine l (fun r => { r with clear := r.clear.map (holdContents (.contents bins inbound fault)) }) s.yard }
  else s

/-- LINE_CONTENTS_REPORT (R102). -/
def execLineContentsReport (l : LineId) (bins : List Nat) (inbound : List (Option Nat)) (fault : Bool) (s : State) :
    Host.Outcome State Fault Refusal :=
  effect (contentsReported l bins inbound fault) s

/-- LINE_CLEAR_TIMEOUT (R106): 50 ds have passed since the LineClear was taken. -/
def execLineClearTimeout (l : LineId) (s : State) : Host.Outcome State Fault Refusal := effect (lineClearEnds l) s

/-! ## Terminal reports (R103, R106) -/

/-- Whether a full report comes for the waiting LineClear of the delivery line alone (R106): it is not owed since a
start (R25) or in Restarting (R105). One that follows a report held for its station is held behind it. -/
def fullHeld (st : Station) (s : State) : Bool :=
  !s.yard.disc.silent.contains (.terminal st) && decide (s.wing.st ≠ .restarting) &&
    match s.yard.lines.del.clear with
    | some w => w.terminals.contains st || w.held.any (heldFull st)
    | none => false

/-- A waiting LineClear has one terminal's report fewer to wait for. -/
def terminalIn (st : Station) (w : LineClearWait) : LineClearWait :=
  { w with terminals := w.terminals.filter fun x => x ≠ st }

/-- A full report is held for a waiting LineClear (R106), and answered with a display update (R113). -/
def holdFull (st : Station) (next present : Option Nat) (y : Yard) : Yard :=
  sendDisplay st (modLine .delivery (fun r => { r with
    clear := r.clear.map fun w => terminalIn st { w with held := w.held ++ [.full st next present] } }) y)

/-- A full report is applied (R103) and answered with a display update (R113). -/
def applyFull (st : Station) (next present : Option Nat) (e : Env) (y : Yard) : Yard :=
  let y := sendDisplay st (terminalReport e st next present y)
  let y := modLine .delivery (fun r => { r with clear := r.clear.map (terminalIn st) }) y
  deviceReported e (.terminal st) y

/-- A terminal's full report (R103, R106). -/
def fullReported (st : Station) (next present : Option Nat) (s : State) : State :=
  let next := next.filter binOk
  let present := present.filter binOk
  lineClearSync .delivery
    (if fullHeld st s then { s with yard := holdFull st next present s.yard } else onYard (applyFull st next present) s)

/-- TERMINAL_FULL_REPORT (R103). -/
def execTerminalFullReport (st : Station) (next present : Option Nat) (s : State) : Host.Outcome State Fault Refusal :=
  effect (fullReported st next present) s

/-- TERMINAL_CHANGE_REPORT (R103, R126). -/
def execTerminalChangeReport (st : Station) (p : StPlace) (bin : Option Nat) (s : State) :
    Host.Outcome State Fault Refusal :=
  effect (onYard fun e => terminalChange e st p bin) s

end Sys2Proof.Machine
end

