-- ==== Sys2Proof/Machine/QueryCmds.lean ====
section
/-! DEFINITION. The requests that report records: Identify, Locate and the queries (R14, R30, R43, R90,
R109, R127, R146, R160, R176, R202, R208, R209). -/

namespace Sys2Proof.Machine

open Sys2Proof

/-! ## Identify (R209) -/

/-- The host-link rate's code: the rates in the order R212 lists them. -/
def rateCode (r : Straps) : Nat := 1 + (if r.sel1 then 2 else 0) + (if r.sel0 then 1 else 0)

/-- The items of the Identify reply. -/
def identifyFlds (s : State) : List Fld :=
  let g := s.cfg.geometry
  [.item Config.partName, .u2 Config.revision, .u1 g.aisleCount, .u1 g.columns, .u1 g.levels, flag s.cfg.geomValid,
    .u1 (rateCode s.link.rate), .u1 (if s.yard.disc.warm then 2 else 1), .u4 s.clock.sec,
    .u2 s.yard.disc.defaulted.length]

/-- IDENTIFY (R209). -/
def execIdentify (h : ReqHdr) (s : State) : Host.Outcome State Fault Refusal :=
  query .identify h (fun s => (.ok, identifyFlds s)) s

/-! ## Locate (R14) -/

/-- The cell reserved for a bin on a fork by the plan that carries it (R14, R143). -/
def plannedCell (b : Nat) (y : Yard) : Option CellAddr :=
  aisles.findSome? fun a =>
    if y.carriers[a].load = some b then
      match y.carriers[a].task.bind taskCell with
      | some x => some x
      | none => y.carriers[a].suspended.bind taskCell
    else none

/-- The cell Locate reports as reserved for a bin: it must still stand Reserved for that bin. -/
def reservedCell (e : Env) (b : Nat) (y : Yard) : Option CellAddr :=
  match plannedCell b y with
  | some x => (match getCell e x y with | .reserved r _ => if r = b then some x else none | _ => none)
  | none => none

/-- Locate's answer. -/
def locateReply (b : Nat) (s : State) : ReplyCode × List Fld :=
  match getBin b s.yard with
  | none => only .unknown
  | some r =>
    (.ok, [.u1 (binStCode r.st), .cell r.cell, optAisle r.aisle, optStation r.station, opt2 r.live, .u2 r.fill,
      .u2 r.capacity, flag r.damaged, flag r.retirePending, .cell (reservedCell (envOf s) b s.yard)])

/-- LOCATE (R14). -/
def execLocate (h : ReqHdr) (bin : Nat) (s : State) : Host.Outcome State Fault Refusal :=
  query .locate h (locateReply bin) s

/-! ## QueryOrder (R90) -/

/-- A pick's fields. -/
def pickFlds (p : Pick) : List Fld := [.u4 p.slip, .item p.item, .u1 p.width, .u1 (pickStCode p.st)]

/-- The number of orders whose state satisfies `p`. -/
def countOrders (p : OrderSt → Bool) (y : Yard) : Nat := (y.orders.filter fun o => p o.st).length

/-- The queue as a whole: the answer for order number 0. -/
def queueFlds (y : Yard) : List Fld :=
  [.u2 y.orders.length, .u2 (countOrders (fun s => s = .queued) y),
    .u2 (countOrders (fun s => match s with | .blocked _ => true | _ => false) y),
    .u2 (countOrders (fun s => s = .assigned) y), .u2 (countOrders (fun s => s = .delivering) y),
    .u2 (countOrders (fun s => s = .atStation) y), .u2 (y.orders.filter (·.closing)).length,
    .u2 (freeNo y.orders 97 y.nextOrder)]

/-- One order's report. Its age in seconds is 4 bytes, as its entry time is (assumption 85, DESIGN CHOICE). -/
def orderFlds (e : Env) (o : Order) (y : Yard) : List Fld :=
  let est := orderEstimate e o y
  [.u2 o.no, .u2 o.bin, .u1 (stationNo o.station), .u1 (classCode o.cls), .u1 (orderStCode o.st),
      .u1 (orderReasonCode o.st), flag o.closing, flag o.retire, .u4 o.entry, .u4 (e.now - o.entry),
      .u2 (1 + y.orders.findIdx fun x => x.no = o.no)]
    ++ listFlds o.picks pickFlds ++ [unset2 est, optS2 (est.map fun n => score e n o.entry)]

/-- The order QueryOrder names. -/
def queriedOrder (selector value : Nat) (y : Yard) : Option Order :=
  if selector = 0 then orderOf value y else y.orders.find? fun o => o.picks.any fun p => p.slip = value

/-- QueryOrder's answer. -/
def queryOrderReply (selector value : Nat) (s : State) : ReplyCode × List Fld :=
  if 2 ≤ selector then only .form
  else if selector = 0 ∧ value = 0 then (.ok, queueFlds s.yard)
  else
    match queriedOrder selector value s.yard with
    | some o => (.ok, orderFlds (envOf s) o s.yard)
    | none => only .unknown

/-- QUERY_ORDER (R90). -/
def execQueryOrder (h : ReqHdr) (selector value : Nat) (s : State) : Host.Outcome State Fault Refusal :=
  query .queryOrder h (queryOrderReply selector value) s

/-! ## QueryStation (R109, R127) -/

/-- A station place's fields. -/
def placeBinFlds (p : Option PlaceBin) : List Fld := [opt2 (p.map (·.bin)), optAisle (p.bind (·.source))]

/-- The session summary (R127): state 1 Open, 2 Releasing, 3 Remove, 0 none. -/
def sessionFlds (st : Station) (s : State) : List Fld :=
  let r := s.yard.stations[st]
  let standing := decide (s.wing.st ≠ .normal)
  match r.session with
  | some q =>
    let o := sessionOrder q s.yard
    [.u1 (if q.releasing then 2 else 1), .u2 q.bin, opt2 q.order, .u1 ((o.map fun o => classCode o.cls).getD 0),
        flag q.armed, .u4 q.opened]
      ++ listFlds (match o with | some o => o.picks | none => []) pickFlds
      ++ listFlds q.placements (fun p => [.item p.item, .u1 p.width])
      ++ [unset2 q.idle, flag (standing && q.idle.isSome), unset2 q.auto, flag (standing && q.auto.isSome)]
  | none =>
    [.u1 (if leaving st s.yard then 3 else 0), opt2 (if leaving st s.yard then r.present.map (·.bin) else none)]

/-- A station's report (R109). Its place in the release list is one byte, 0 when it does not wait (assumption
68, DESIGN CHOICE). -/
def stationFlds (st : Station) (s : State) : List Fld :=
  let e := envOf s
  let y := s.yard
  [.u1 (roleCode y.stations[st].role), .u1 s.cfg.stations[st].allowance] ++ placeBinFlds y.stations[st].next
    ++ placeBinFlds y.stations[st].present
    ++ [.u2 (committed st y), .s2 (freeAdmission e st y),
      .u1 (if y.lines.releaseList.contains st then 1 + y.lines.releaseList.findIdx (· = st) else 0)]
    ++ sessionFlds st s

/-- A transfer's fields: kind, number, bin, station or aisle, deciseconds left. R109 names only the last
(assumption 75, DESIGN CHOICE). -/
def transferFlds (t : Transfer) : List Fld :=
  [.u1 (transferCode t.kind), .u2 t.no, .u2 t.bin, .u1 (transferEnd t.kind), .u2 t.left]

/-- A line's own report: state, reason, list, occupancy, committed length, transfers. -/
def lineFlds (r : LineRec) (list : List Fld) (occupancy len : Nat) : List Fld :=
  [.u1 (lineStCode r.st), .u1 (lineFaultCode r.fault)] ++ list ++ [.u2 occupancy, .u2 len] ++ listFlds r.transfers transferFlds

/-- The report of both lines: the answer for station 0. -/
def linesFlds (s : State) : List Fld :=
  let l := s.yard.lines
  lineFlds l.del (listFlds l.delivery fun p => [.u2 p.bin, .u1 (stationNo p.station)]) l.delivery.length
      (deliveryCommitted s.yard)
    ++ lineFlds l.ret (listFlds l.returns fun p => [.u2 p.bin, .u1 (aisleNo p.aisle)]) l.returns.length
      (returnCommitted s.yard)
    ++ aisles.map (fun a => opt2 l.inbound[a])
    ++ listFlds l.mergeList (fun a => [.u1 (aisleNo a)]) ++ [optAisle l.mergeGrant]
    ++ listFlds l.releaseList (fun st => [.u1 (stationNo st)]) ++ [.u2 (shareSum s)]

/-- QueryStation's answer. -/
def queryStationReply (station : Nat) (s : State) : ReplyCode × List Fld :=
  if station = 0 then (.ok, linesFlds s)
  else
    match stationOf station with
    | some st => (.ok, stationFlds st s)
    | none => only .form

/-- QUERY_STATION (R109). -/
def execQueryStation (h : ReqHdr) (station : Nat) (s : State) : Host.Outcome State Fault Refusal :=
  query .queryStation h (queryStationReply station) s

/-! ## QueryCarrier (R43, R30, R160) -/

/-- A segment's fields (R43): kind, number, the position or cell it targets, estimate, deciseconds left to its
deadline, and the kind a Halt has cut, 0 for none. A Halt has neither an estimate nor a deadline (R34, R45). -/
def segFlds (g : Option Segment) : List Fld :=
  match g with
  | none => [.u1 0]
  | some s =>
    [.u1 (segKindCode s.kind), .u2 s.no]
      ++ (match s.target with
          | .pos c l => posFlds (some (c, l)) ++ [.cell none]
          | .cell a => posFlds (some (cellPos a)) ++ [.cell (some a)]
          | .inboundPlace | .mouth => posFlds (some mouthPos) ++ [.cell none]
          | .nothing => posFlds none ++ [.cell none])
      ++ [unset2 (s.deadline.map fun _ => s.estimate), unset2 (s.deadline.map fun _ => s.left),
        .u1 ((s.cut.map segKindCode).getD 0)]

/-- What a task names (R43): a Retrieve its order, a Putaway its bin, a Survey its kind and columns, the others
nothing (assumption 17). -/
def taskNames : Option Task → List Fld
  | some (.retrieve no _ _ _ _) => [.u2 no]
  | some (.putaway b _ _) => [.u2 b]
  | some (.survey r) => [.u1 (surveyKind r.full), .u2 r.startCol, .u2 r.stopCol]
  | _ => []

/-- The settle time that remains, unset unless the aisle is Settling (R30; assumption 17, DESIGN CHOICE). -/
def settleFld (r : AisleSpeed) : Fld := unset2 (if r.st = .settling then some r.settleLeft else none)

/-- The survey's matters (R160). A request not held is given as kind and columns 0, and of an aisle that is not Surveying
the kind 0 alone stands (assumption 105, DESIGN CHOICE). A position counts as the next one to visit, and among those left, until its Read has
been reconciled (assumption 76, DESIGN CHOICE). -/
def surveyFlds (a : Aisle) (y : Yard) : List Fld :=
  let c := y.carriers[a]
  (match y.arbs[a].surveyReq with
    | some q => [.u1 (surveyKind q.full), .u2 q.startCol, .u2 q.stopCol]
    | none => [.u1 0, .u2 0, .u2 0])
  ++ (match surveyOf a y with
    | some r =>
      [.u1 (surveyKind r.full), .u2 r.startCol, .u2 r.stopCol,
        flag (decide (c.st = .held) || decide (c.st = .clearing))]
        ++ posFlds r.todo.head? ++ [.u2 r.todo.length] ++ surveyCounts r
    | none => [.u1 0])

/-- An aisle's value set in force; an Off aisle has none (R27). -/
def vsetFlds (a : Aisle) (y : Yard) : List Fld :=
  if aisleOff a y then List.replicate 6 (.u1 0xFF) else profileFlds y.est[a].vset

/-- The cell a carrier's task has reserved, while it still stands Reserved (R43). -/
def heldCell (e : Env) (c : Carrier) (y : Yard) : Option CellAddr :=
  (c.task.bind taskCell).filter fun x => match getCell e x y with | .reserved _ _ => true | _ => false

/-- An aisle's report. -/
def carrierFlds (a : Aisle) (s : State) : List Fld :=
  let y := s.yard
  let e := envOf s
  let c := y.carriers[a]
  [.u1 (carrierStCode c.st)] ++ posFlds c.pos ++ [opt2 c.load, .u1 ((c.task.map taskCode).getD 0),
      .u1 ((c.task.map stepCode).getD 0)] ++ taskNames c.task ++ [.cell (heldCell e c y)] ++ segFlds c.seg
    ++ [.u1 ((c.fault.map faultCode).getD 0), .u1 (assignCode y.est[a].inForce)] ++ vsetFlds a y
    ++ [.u1 (pstateCode y.est[a].st), settleFld y.est[a], flag (aisleReady e a y),
      .u1 (verifCode a y), flag y.verif[a].doubt, .u2 (unverifiedCells a y).length]
    ++ surveyFlds a y

/-- QueryCarrier's answer. -/
def queryCarrierReply (aisle : Nat) (s : State) : ReplyCode × List Fld :=
  match aisleOf aisle with
  | some a => (.ok, carrierFlds a s)
  | none => only .form

/-- QUERY_CARRIER (R43). -/
def execQueryCarrier (h : ReqHdr) (aisle : Nat) (s : State) : Host.Outcome State Fault Refusal :=
  query .queryCarrier h (queryCarrierReply aisle) s

/-! ## QueryTray (R146) -/

/-- A tray item's fields. Its seconds waited are 4 bytes, as its stamp is (assumption 85, DESIGN CHOICE). -/
def itemFlds (e : Env) (i : TrayItem) : List Fld :=
  [.item i.item, .u1 i.width, .u4 i.stamp, .u4 (e.now - i.stamp), flag i.mark]
    ++ (match i.st with | .waiting => [.u1 1, .u2 0] | .assigned b => [.u1 2, .u2 b])

/-- A tray's report. The smallest Waiting width is 0 when no item is Waiting (assumption 86, DESIGN CHOICE). -/
def trayFlds (st : Station) (s : State) : List Fld :=
  let y := s.yard
  let t := y.trays[st]
  [.u1 (roleCode y.stations[st].role), .u2 s.cfg.th, .u2 s.cfg.waitLimit, flag t.demand, .u2 t.placed, flag t.noSpace,
      opt2 t.spaceOrder, .u1 ((t.spaceOrder.bind fun no => (orderOf no y).map fun o => orderStCode o.st).getD 0),
      .u2 (waitingCount t), .u2 (t.items.length - waitingCount t), .u2 ((waitingItems t).map (·.width)).sum,
      .u1 ((smallestWidth t).getD 0)]
    ++ listFlds t.items (itemFlds (envOf s))

/-- QueryTray's answer. -/
def queryTrayReply (station : Nat) (s : State) : ReplyCode × List Fld :=
  match stationOf station with
  | some st => (.ok, trayFlds st s)
  | none => only .form

/-- QUERY_TRAY (R146). -/
def execQueryTray (h : ReqHdr) (station : Nat) (s : State) : Host.Outcome State Fault Refusal :=
  query .queryTray h (queryTrayReply station) s

/-! ## QuerySweep (R176) -/

/-- A set of threshold values. -/
def thFlds (t : Thresholds) : List Fld := [.s2 t.pre, .s2 t.alarm, optS2 t.trip, .u2 t.hyst, .u1 t.confirm]

/-- A slot's report. The pending thresholds are a flag, and after a set flag all five values (assumption 77,
DESIGN CHOICE). -/
def slotFlds (r : SlotRec) : List Fld :=
  [.u1 (kindCode r.cfg.kind), .u1 r.cfg.zone.val, .s2 r.cfg.low, .u2 r.cfg.span] ++ thFlds r.cfg.th
    ++ (match r.pend with | some t => flag true :: thFlds t | none => [flag false])
    ++ [.u1 (stageCode r.stage), .u2 r.settlingLeft, .u2 r.preCount, .u2 r.alarmCount] ++ readingFlds r.last

/-- QuerySweep's items. The warm-up time left is 0 once the front-end is Ready (assumption 77, DESIGN CHOICE). -/
def sweepFlds (w : Sweep) : List Fld :=
  [.u1 (if w.warmLeft.isSome then 1 else 2), .u2 (w.warmLeft.getD 0), .u1 (runCode w.run), .u1 (if w.single then 2 else 1),
      .u1 w.start.val, .u1 w.stop.val, .u1 w.next.val, .u1 ((w.conv.map (·.val)).getD 0xFF), .u4 w.passes]
    ++ slotList.flatMap (fun i => slotFlds w.slots[i])
    ++ zoneList.flatMap fun z =>
      [.u1 (zoneStageCode w.zones[z].stage), flag w.zones[z].degraded] ++ listFlds (zoneFaults w z) fun i => [.u1 i.val]

/-- QUERY_SWEEP (R176). -/
def execQuerySweep (h : ReqHdr) (s : State) : Host.Outcome State Fault Refusal :=
  query .querySweep h (fun s => (.ok, sweepFlds s.sweep)) s

/-! ## QueryIncident and QueryWing (R202, R208) -/

/-- The incident record's fields. -/
def incidentFlds (r : Incident) : List Fld :=
  [.u1 (if r.isOpen then 1 else 2), flag r.restored] ++ sourceFlds r.cause ++ [unset4 r.start, .u1 (levelCode r.highest)]
    ++ listFlds r.triggers (fun t => .u4 t.stamp :: (sourceFlds (some t.source) ++ [.u1 (levelCode t.level)]))
    ++ [.u2 r.later] ++ listFlds r.notParked (fun p => [.u1 (aisleNo p.1), .u1 (carrierStCode p.2)])
    ++ listFlds r.bins (fun b => [.u2 b.bin, .u1 (aisleNo b.aisle), .cell b.cell, .u1 (if b.unverified then 2 else 1)])
    ++ [flag r.obstructed, .u1 (match r.flush with | none => 0 | some .done => 1 | some .failed => 2), unset4 r.resume]

/-- QueryIncident's items: the number, and the record when one is held. -/
def queryIncidentFlds (s : State) : List Fld :=
  .u4 s.wing.incidentNo :: (match s.wing.incident with | some r => incidentFlds r | none => [])

/-- QUERY_INCIDENT (R202). -/
def execQueryIncident (h : ReqHdr) (s : State) : Host.Outcome State Fault Refusal :=
  query .queryIncident h (fun s => (.ok, queryIncidentFlds s)) s

/-- The change flags as one byte, bit n for area n (spec 11.8). -/
def flagByte (v : Vector Bool 7) : Nat :=
  ([0, 1, 2, 3, 4, 5, 6] : List (Fin 7)).foldl (fun n i => n + (if v[i] then 2 ^ i.val else 0)) 0

/-- The flags with those named in a clear mask cleared (R208); its bit 7, which names no area, is ignored
(assumption 78, DESIGN CHOICE). -/
def clearFlags (mask : Nat) (v : Vector Bool 7) : Vector Bool 7 :=
  Vector.ofFn fun i => v[i] && !(mask / 2 ^ i.val % 2 == 1)

/-- The number of settings writes pending (R211). -/
def pendingSettings (j : Journal) : Nat :=
  (j.ctl.filter fun w => match w with | .settings _ => true | _ => false).length

/-- The wing items (R202). -/
def wingFlds (s : State) : List Fld :=
  let w := s.wing
  let f := s.cfg.fire
  [.u1 (wingStCode w.st), .u1 (levelCode w.cause), flag w.panel.stage1, flag w.panel.stage2, flag w.panel.discharge,
      flag w.shutClose, flag w.drvPwr, flag w.workHeld, flag w.wingOk]
    ++ listFlds w.clearing (fun p => [.u1 (aisleNo p.1), .u1 (match p.2 with | .awaiting => 1 | .requested => 2)])
    ++ [unset2 w.holdTimer, unset2 w.parkTimer, unset2 w.restartTimer, flag w.halt, .u2 f.holdClear, .u2 f.parkDeadline,
      .u1 f.parkColumn, .u2 f.restartDelay]

/-- QueryWing's items (R208). -/
def queryWingFlds (s : State) : List Fld :=
  let j := s.yard.journal
  let p := s.yard.post
  [.u1 (flagByte p.flags), .u4 s.clock.sec] ++ wingFlds s
    ++ [.u2 j.entries.length, flag j.holdOff, .u2 j.errors, .u2 (pendingSettings j), .u2 p.outbox.length, .u2 p.seq,
      .u2 p.lost, .u2 s.link.inbox.length, .u2 s.link.discards, .u2 s.link.overrunDrops]

/-- QueryWing builds its reply and then clears the flags named in the mask (R208). -/
def queryWingAct (mask : Nat) (s : State) : State × Option (ReplyCode × List Fld) :=
  ({ s with yard := { s.yard with post := { s.yard.post with flags := clearFlags mask s.yard.post.flags } } },
    some (.ok, queryWingFlds s))

/-- QUERY_WING (R208). -/
def execQueryWing (h : ReqHdr) (mask : Nat) (s : State) : Host.Outcome State Fault Refusal :=
  quiet (takeFrame (reqCode .queryWing) h fun _ s => queryWingAct mask s) s

end Sys2Proof.Machine
end

