-- ==== Sys2Proof/Machine/Frames.lean ====
section
/-! DEFINITION. From a complete frame to its command: the bodies of the catalogue (R209), the sections of
Configure (R210), and the checks of a body's length and fields that R204 and R210 make. -/

namespace Sys2Proof.Machine

open Sys2Proof

/-! ## Reading fields (spec 11.8) -/

/-- A reader takes a value from the front of the bytes left, or fails where they do not give one. -/
abbrev Reader (α : Type) := List Byte → Option (α × List Byte)

/-- A byte. -/
def read1 : Reader Nat
  | b :: t => some (b.toNat, t)
  | [] => none

/-- Two bytes, least significant first. -/
def read2 : Reader Nat
  | a :: b :: t => some (a.toNat + 256 * b.toNat, t)
  | _ => none

/-- Four bytes, least significant first. -/
def read4 : Reader Nat
  | a :: b :: c :: d :: t => some (a.toNat + 256 * b.toNat + 65536 * c.toNat + 16777216 * d.toNat, t)
  | _ => none

/-- The signed value of a two's complement number of 16 bits. -/
def signed16 (n : Nat) : Int := if n < 32768 then n else (n : Int) - 65536

/-- A signed value of two bytes. -/
def readS : Reader Int := fun l => (read2 l).map fun p => (signed16 p.1, p.2)

/-- An item code: its length, then its bytes. -/
def readItem : Reader ItemCode
  | n :: t => if n.toNat ≤ t.length then some (t.take n.toNat, t.drop n.toNat) else none
  | [] => none

/-- One value and then another. -/
def readPair (p : Reader α) (q : Reader β) : Reader (α × β) := fun l =>
  (p l).bind fun x => (q x.2).map fun y => ((x.1, y.1), y.2)

/-- A value that is there when bit `n` of a presence mask is set. -/
def readOpt (mask n : Nat) (p : Reader α) : Reader (Option α) := fun l =>
  if mask / 2 ^ n % 2 = 1 then (p l).map fun x => (some x.1, x.2) else some (none, l)

/-- A value made from the one read. -/
def readMap (f : α → β) (p : Reader α) : Reader β := fun l => (p l).map fun x => (f x.1, x.2)

/-- A presence mask of one byte, and the values it announces. -/
def readMasked (p : Nat → Reader α) : Reader α := fun l => (read1 l).bind fun x => p x.1 x.2

/-- So many entries. -/
def readEntries (p : Reader α) : Nat → Reader (List α)
  | 0 => fun l => some ([], l)
  | n + 1 => readMap (fun x => x.1 :: x.2) (readPair p (readEntries p n))

/-- A list: its entry count, then the entries. -/
def readList (p : Reader α) : Reader (List α) := fun l => (read1 l).bind fun x => readEntries p x.1 x.2

/-- What a reader makes of bytes it must use up. -/
def readAll (p : Reader α) (l : List Byte) : Option α :=
  match p l with
  | some (x, []) => some x
  | _ => none

/-! ## The sections of Configure (R210, spec 11.8) -/

/-- The Profiles section: mask bits 0 to 5 for the six values. -/
def readProfile : Reader ProfileCfg :=
  readMap (fun x => let (p, a, b, c, d, e, f) := x; ⟨p, a, b, c, d, e, f⟩)
    (readPair read1 (readMasked fun m =>
      readPair (readOpt m 0 read1) (readPair (readOpt m 1 read1) (readPair (readOpt m 2 read1)
        (readPair (readOpt m 3 read1) (readPair (readOpt m 4 read1) (readOpt m 5 read1)))))))

/-- An item of the Stations section. -/
def readStation : Reader StationItem :=
  readMap (fun x => let (st, r, a) := x; ⟨st, r, a⟩)
    (readPair read1 (readMasked fun m => readPair (readOpt m 0 read1) (readOpt m 1 read1)))

/-- A slot item of the Sweep section, with its mask of two bytes. -/
def readSlot : Reader SlotItem :=
  readMap (fun x => let (s, k, z, l, w, p, a, t, h, c) := x; ⟨s, k, z, l, w, p, a, t, h, c⟩)
    (readPair read1 fun l => (read2 l).bind fun x =>
      readPair (readOpt x.1 0 read1) (readPair (readOpt x.1 1 read1) (readPair (readOpt x.1 2 readS)
        (readPair (readOpt x.1 3 read2) (readPair (readOpt x.1 4 readS) (readPair (readOpt x.1 5 readS)
          (readPair (readOpt x.1 6 readS) (readPair (readOpt x.1 7 read2) (readOpt x.1 8 read1)))))))) x.2)

/-- The content of a section by its code. Mask bits that stand for no value announce none (assumption 73). -/
def readSection : Nat → Option (Reader CfgSection)
  | 1 => some (readMap (fun x => .geometry x.1 x.2.1 x.2.2) (readPair read1 (readPair read1 read1)))
  | 2 => some (readMap .cells (readList (readMap (fun x => ⟨x.1, x.2⟩) (readPair read2 read1))))
  | 3 => some (readMap .profiles readProfile)
  | 4 => some (readMap .aisleAssign (readList (readMap (fun x => ⟨x.1, x.2⟩) (readPair read1 read1))))
  | 5 => some (readMap .stations (readList readStation))
  | 6 => some (readMap (fun x => .dispatch x.1 x.2)
      (readMasked fun m => readPair (readOpt m 0 read1) (readOpt m 1 read1)))
  | 7 => some (readMap (fun x => .trays x.1 x.2)
      (readMasked fun m => readPair (readOpt m 0 read1) (readOpt m 1 read2)))
  | 8 => some (readMap (fun x => .sessions x.1 x.2)
      (readMasked fun m => readPair (readOpt m 0 read2) (readOpt m 1 read1)))
  | 9 => some (readMap (fun x => .sweep x.1 x.2)
      (readPair (readMasked fun m => readOpt m 0 (readPair read1 read1)) (readList readSlot)))
  | 10 => some (readMap (fun x => .fire x.1 x.2.1 x.2.2.1 x.2.2.2)
      (readMasked fun m => readPair (readOpt m 0 read2) (readPair (readOpt m 1 read2)
        (readPair (readOpt m 2 read1) (readOpt m 3 read2)))))
  | _ => none

/-- The sections of a body (R210): none where the lengths do not add up to it, a code is unknown, or a section's
length does not suit its content. `n` bounds their number. -/
def readSections : Nat → List Byte → Option (List CfgSection)
  | _, [] => some []
  | 0, _ => none
  | n + 1, code :: len :: rest =>
    if len.toNat ≤ rest.length then
      ((readSection code.toNat).bind fun p => readAll p (rest.take len.toNat)).bind fun c =>
        (readSections n (rest.drop len.toNat)).map fun t => c :: t
    else none
  | _ + 1, [_] => none

/-- The command of a Configure request by its first section. -/
def configureCmd (h : ReqHdr) : List CfgSection → Instr
  | .geometry a c l :: more => .configureGeometry h a c l more
  | .cells items :: more => .configureCells h items more
  | .profiles p :: more => .configureProfiles h p more
  | .aisleAssign items :: more => .configureAisleAssign h items more
  | .stations items :: more => .configureStations h items more
  | .dispatch a p :: more => .configureDispatch h a p more
  | .trays t l :: more => .configureTrays h t l more
  | .sessions i a :: more => .configureSessions h i a more
  | .sweep r items :: more => .configureSweep h r items more
  | .fire h' d c r :: more => .configureFire h h' d c r more
  | [] => .configureGeometry { h with bodyOk := false } 0 0 0 []

/-- A Configure frame's command; a body that R210 refuses whole, and one of no section, is not well formed. -/
def configureFrame (tag : Nat) (body : List Byte) : Instr :=
  match readSections body.length body with
  | some l => configureCmd ⟨tag, true⟩ l
  | none => configureCmd ⟨tag, false⟩ []

/-! ## The requests of the catalogue (R209) -/

/-- A command from a body: the fields that `p` reads, well formed when they use the body up and `ok` allows them
(R204). -/
def bodyCmd (tag : Nat) (body : List Byte) (p : Reader α) (d : α) (ok : α → Bool) (f : ReqHdr → α → Instr) : Instr :=
  match readAll p body with
  | some x => f ⟨tag, ok x⟩ x
  | none => f ⟨tag, false⟩ d

/-- The command of a request with no body. -/
def bareCmd (tag : Nat) (body : List Byte) (f : ReqHdr → Instr) : Instr := f ⟨tag, body.isEmpty⟩

/-- The command of a SweepControl action. -/
def sweepCmd (h : ReqHdr) : Nat → Instr
  | 2 => .sweepControlSingle h
  | 3 => .sweepControlStop h
  | _ => .sweepControlContinuous h

/-- A value that may be left out at the end of a body. -/
def readLast (p : Reader α) : Reader (Option α)
  | [] => some (none, [])
  | l => readMap some p l

/-- The command of a complete frame by its KIND, with the checks of R204 on its body in the header. -/
def frameCmd (kind tag : Nat) (body : List Byte) : Instr :=
  match kind with
  | 0x01 => bareCmd tag body .identify
  | 0x02 => configureFrame tag body
  | 0x03 => bareCmd tag body .start
  | 0x04 => bareCmd tag body .restart
  | 0x05 => bodyCmd tag body read4 0 (fun _ => true) .resume
  | 0x06 => bareCmd tag body .flush
  | 0x07 => bodyCmd tag body (readPair read2 (readPair read4 (readPair read1 (readPair read1 readItem)))) (0, 0, 0, 0, [])
      (fun x => itemOk x.2.2.2.2) (fun h x => .lend h x.1 x.2.1 x.2.2.1 x.2.2.2.1 x.2.2.2.2)
  | 0x08 => bodyCmd tag body read4 0 (fun _ => true) .cancelLend
  | 0x09 => bodyCmd tag body (readPair read2 read1) (0, 0) (fun _ => true) (fun h x => .fetch h x.1 x.2)
  | 0x0A => bodyCmd tag body read2 0 (fun _ => true) .retire
  | 0x0B => bodyCmd tag body (readPair read2 (readPair read2 (readLast read2))) (0, 0, none) (fun _ => true)
      (fun h x => .induct h x.1 x.2.1 x.2.2)
  | 0x0C => bodyCmd tag body (readPair read1 (readPair read1 readItem)) (0, 0, []) (fun x => itemOk x.2.2)
      (fun h x => .returnIntake h x.1 x.2.1 x.2.2)
  | 0x0D => bodyCmd tag body read1 0 (fun _ => true) .drainTray
  | 0x0E => bodyCmd tag body (readPair read1 (readLast readItem)) (0, none) (fun x => x.2.all itemOk)
      (fun h x => .clearTray h x.1 x.2)
  | 0x0F => bodyCmd tag body read2 0 (fun _ => true) .locate
  | 0x10 => bodyCmd tag body (readPair read1 read4) (0, 0) (fun x => decide (x.1 ≤ 1)) (fun h x => .queryOrder h x.1 x.2)
  | 0x11 => bodyCmd tag body read1 0 (fun _ => true) .queryStation
  | 0x12 => bodyCmd tag body read1 0 (fun _ => true) .queryCarrier
  | 0x13 => bodyCmd tag body read1 0 (fun _ => true) .queryTray
  | 0x14 => bareCmd tag body .querySweep
  | 0x15 => bareCmd tag body .queryIncident
  | 0x16 => bodyCmd tag body read1 0 (fun _ => true) .queryWing
  | 0x17 => bodyCmd tag body (readPair read1 (readPair read1 (readPair read2 read2))) (0, 0, 0, 0)
      (fun x => decide (x.2.1 = 1 ∨ x.2.1 = 2)) (fun h x => .survey h x.1 x.2.1 x.2.2.1 x.2.2.2)
  | 0x18 => bodyCmd tag body read1 0 (fun _ => true) .acceptMap
  | 0x19 => bodyCmd tag body read1 0 (fun _ => true) .carrierClear
  | 0x1A => bodyCmd tag body read1 0 (fun x => decide (x = 1 ∨ x = 2)) .lineClear
  | 0x1B => bodyCmd tag body read1 0 (fun x => decide (1 ≤ x ∧ x ≤ 3)) sweepCmd
  | k => .unknownRequestKind ⟨tag, true⟩ k

end Sys2Proof.Machine
end

