-- ==== Sys2Proof/Machine/TrayCmds.lean ====
section
/-! DEFINITION. ReturnIntake, DrainTray, ClearTray and the tray wait limit (R129, R136, R138, R139). -/

namespace Sys2Proof.Machine

open Sys2Proof

/-- An item enters a station's tray, and what follows is done in the order of R129: the demand test, which may make
demand active; a first-fit pass; and the space-bin choice, when demand is active and no Space order is in the queue
(assumption 93, DEDUCED: the choice of an edge raised here is the choice of R129's third step). -/
def takeIn (e : Env) (st : Station) (item : ItemCode) (width : Nat) (y : Yard) : Yard :=
  let before := waitingCount y.trays[st]
  let y := modTray st (fun t => { t with items := t.items ++ [⟨item, width, e.now, .waiting, false⟩] }) y
  let y := if countRose e before y.trays[st] && edgeTaken e st y then beginDemand st y else y
  spaceChoice e st (firstFit st y)

/-- The item of a code in a tray. -/
def trayItem (st : Station) (c : ItemCode) (y : Yard) : Option TrayItem := y.trays[st].items.find? fun i => i.item = c

/-- The items of the ReturnIntake reply. -/
def intakeFlds (st : Station) (item : ItemCode) (y : Yard) : List Fld :=
  let bin := match (trayItem st item y).map (·.st) with | some (.assigned b) => some b | _ => none
  [.u2 y.trays[st].items.length, flag bin.isSome, opt2 bin, .u2 (waitingCount y.trays[st]), flag y.trays[st].demand]

/-- ReturnIntake acts (R129). -/
def intakeAct (width station : Nat) (item : ItemCode) (s : State) : State × Option (ReplyCode × List Fld) :=
  match stationOf station with
  | none => refuse .form s
  | some st =>
    let y := s.yard
    if itemOk item = false then refuse .form s
    else if !lendTaken s.wing.st then refuse .wingDown s
    else if !takesReturns y.stations[st].role then refuse .busy s
    else if 24 ≤ y.trays[st].items.length then refuse .full s
    else if itemInUse item y then refuse .duplicate s
    else
      let y := takeIn (envOf s) st item (clamp 1 120 width) y
      replyWith (if lendHeld s.wing.st then .held else .ok) (intakeFlds st item y) { s with yard := y }

/-- RETURN_INTAKE (R129). -/
def execReturnIntake (h : ReqHdr) (width station : Nat) (item : ItemCode) (s : State) :
    Host.Outcome State Fault Refusal :=
  request .returnIntake h (fun _ s => intakeAct width station item s) s

/-- The items of the DrainTray reply. -/
def drainFlds (st : Station) (y : Yard) : List Fld :=
  [flag y.trays[st].demand, .u2 (waitingCount y.trays[st]), opt2 y.trays[st].spaceOrder]

/-- DrainTray acts (R138). -/
def drainAct (station : Nat) (s : State) : State × Option (ReplyCode × List Fld) :=
  match stationOf station with
  | none => refuse .form s
  | some st =>
    if s.wing.st ≠ .normal then refuse .wingDown s
    else if !takesReturns s.yard.stations[st].role then refuse .busy s
    else
      let y := if waitingCount s.yard.trays[st] = 0 then demandEnd st s.yard
        else spaceChoice (envOf s) st (beginDemand st s.yard)
      replyWith .ok (drainFlds st y) { s with yard := y }

/-- DRAIN_TRAY (R138). -/
def execDrainTray (h : ReqHdr) (station : Nat) (s : State) : Host.Outcome State Fault Refusal :=
  request .drainTray h (fun _ s => drainAct station s) s

/-- Items leave a tray and its demand ends (R139). -/
def withdrawItems (st : Station) (p : TrayItem → Bool) (y : Yard) : Yard :=
  demandEnd st (modTray st (fun t => { t with items := t.items.filter fun i => !p i }) y)

/-- The answer to a ClearTray that is taken: the items withdrawn and the Waiting and Assigned counts left. -/
def clearTaken (st : Station) (p : TrayItem → Bool) (s : State) : State × Option (ReplyCode × List Fld) :=
  let y := withdrawItems st p s.yard
  let t := y.trays[st]
  replyWith .ok [.u2 (s.yard.trays[st].items.filter p).length, .u2 (waitingCount t), .u2 (t.items.length - waitingCount t)]
    { s with yard := y }

/-- ClearTray acts (R139). -/
def clearTrayAct (station : Nat) (item : Option ItemCode) (s : State) : State × Option (ReplyCode × List Fld) :=
  match stationOf station with
  | none => refuse .form s
  | some st =>
    match item with
    | none => clearTaken st (fun i => i.st = .waiting) s
    | some c =>
      if itemOk c = false then refuse .form s
      else
        match trayItem st c s.yard with
        | none => refuse .unknown s
        | some i => if i.st = .waiting then clearTaken st (fun i => i.item = c) s else refuse .busy s

/-- CLEAR_TRAY (R139). -/
def execClearTray (h : ReqHdr) (station : Nat) (item : Option ItemCode) (s : State) :
    Host.Outcome State Fault Refusal :=
  request .clearTray h (fun _ s => clearTrayAct station item s) s

/-- A Waiting item has waited the tray wait limit (R136). An item that has not, or is marked, gives no edge. -/
def waitLimitReached (st : Station) (c : ItemCode) (s : State) : State :=
  onYard (fun e y =>
    match trayItem st c y with
    | some i => if i.st = .waiting ∧ i.mark = false ∧ waitedLimit e i then markLimit e st c y else y
    | none => y) s

/-- TRAY_WAIT_LIMIT_REACHED (R136). -/
def execTrayWaitLimitReached (st : Station) (c : ItemCode) (s : State) : Host.Outcome State Fault Refusal :=
  effect (waitLimitReached st c) s

end Sys2Proof.Machine
end

