-- ==== Sys2Proof/Machine/WingCmds.lean ====
section
/-! DEFINITION. Start, Restart, Resume, Flush, SweepControl, and the events of the sweep, the panel and the
wing timers (R22, R161 to R165, R178, R180, R186, R190, R195, R196, R213). -/

namespace Sys2Proof.Machine

open Sys2Proof

/-! ## Requests -/

/-- Start acts (R180). -/
def startAct (s : State) : State × Option (ReplyCode × List Fld) :=
  match s.wing.st with
  | .normal => refuse .ok s
  | .standby => if !s.cfg.geomValid || decide (s.wing.cause ≠ .none) then refuse .busy s else replyWith .ok [] (enterNormal s)
  | _ => refuse .busy s

/-- START (R180). -/
def execStart (h : ReqHdr) (s : State) : Host.Outcome State Fault Refusal := request .start h (fun _ s => startAct s) s

/-- Restart acts (R24, R213): the request taken is the one after whose reply the warm restart begins. -/
def restartAct (id : Nat) (s : State) : State × Option (ReplyCode × List Fld) :=
  if s.wing.st = .sealing then refuse .busy s
  else replyWith .ok [] { s with link := { s.link with restart := .taken id } }

/-- RESTART (R213). -/
def execRestart (h : ReqHdr) (s : State) : Host.Outcome State Fault Refusal :=
  request .restart h restartAct s

/-- The wing enters Restarting (R195): reports are asked for (R68, R105), and no device has reported yet. A line
that a report has made Running after a start in Sealed stays Running (assumption 79, DESIGN CHOICE), and the halt
indication keeps what the Sealing now over set (assumption 90, DESIGN CHOICE). -/
def enterRestarting (s : State) : State :=
  let s := { closeIncident s with yard := openJournal (closeIncident s).yard }
  let s := setWing .restarting (modWing (fun w => { dropTimers w with
    shutClose := false, drvPwr := true, restartTimer := some s.cfg.fire.restartDelay }) s)
  onYard (fun e y => { y with
    carriers := y.carriers.map fun c => { c with reported := false }
    disc := { y.disc with asked := [.delivery, .ret] }, bus := y.bus ++ askReports e.cfg }) s

/-- Resume acts (R195). -/
def resumeAct (incident : Nat) (s : State) : State × Option (ReplyCode × List Fld) :=
  if incident = 0 then refuse .form s
  else if s.wing.st ≠ .sealed then refuse .busy s
  else if incident ≠ s.wing.incidentNo then refuse .stale s
  else if s.wing.cause ≠ .none then refuse .busy s
  else replyWith .ok [] (enterRestarting s)

/-- RESUME (R195). -/
def execResume (h : ReqHdr) (incident : Nat) (s : State) : Host.Outcome State Fault Refusal :=
  request .resume h (fun _ s => resumeAct incident s) s

/-- The keys a Flush covers: the entries in the list and the marked records (R22). -/
def coveredKeys (j : Journal) : List JKey := j.entries.map (·.key) ++ orderedKeys j

/-- Flush acts (R22). -/
def flushAct (id : Nat) (s : State) : State × Option (ReplyCode × List Fld) :=
  let keys := coveredKeys s.yard.journal
  if keys.isEmpty then replyWith .ok [] { s with yard := modJournal (flushEnded s.flash.clean) s.yard }
  else if s.yard.journal.closed then refuse .busy s
  else ({ s with yard := modJournal (fun j => { j with flushes := j.flushes ++ [⟨id, keys⟩] }) s.yard }, none)

/-- FLUSH (R22). -/
def execFlush (h : ReqHdr) (s : State) : Host.Outcome State Fault Refusal := request .flush h flushAct s

/-- SweepControl Continuous acts (R164). -/
def continuousAct (s : State) : State × Option (ReplyCode × List Fld) :=
  match s.sweep.run with
  | .stopped => replyWith .ok [] (modSweep (startSweep false) s)
  | .starting | .running => replyWith .ok [] (modSweep (fun w => { w with single := false }) s)
  | .stopping => refuse .busy s

/-- SWEEP_CONTROL_CONTINUOUS (R164). -/
def execSweepControlContinuous (h : ReqHdr) (s : State) : Host.Outcome State Fault Refusal :=
  request .sweepControl h (fun _ s => continuousAct s) s

/-- SweepControl Single acts (R164). -/
def singleAct (s : State) : State × Option (ReplyCode × List Fld) :=
  if s.wing.st ≠ .standby then refuse .busy s
  else
    match s.sweep.run with
    | .stopped | .starting => replyWith .ok [] (modSweep (startSweep true) s)
    | .running | .stopping => refuse .busy s

/-- SWEEP_CONTROL_SINGLE (R164). -/
def execSweepControlSingle (h : ReqHdr) (s : State) : Host.Outcome State Fault Refusal :=
  request .sweepControl h (fun _ s => singleAct s) s

/-- SweepControl Stop acts (R164): with a conversion in flight the reply waits for its completion. -/
def stopAct (id : Nat) (s : State) : State × Option (ReplyCode × List Fld) :=
  if s.wing.st ≠ .standby then refuse .busy s
  else
    match s.sweep.run with
    | .stopped => replyWith .ok [] s
    | .starting => replyWith .ok [] (modSweep (fun w => { w with run := .stopped }) s)
    | .running | .stopping =>
      (modSweep (fun w => { w with run := .stopping, stopIds := w.stopIds ++ [id] }) s, none)

/-- SWEEP_CONTROL_STOP (R164). -/
def execSweepControlStop (h : ReqHdr) (s : State) : Host.Outcome State Fault Refusal :=
  request .sweepControl h stopAct s

/-! ## Sweep and panel events -/

/-- The warm-up ends and a sweep that waits begins (R161, R163). -/
def warmupEnds (w : Sweep) : Sweep := if w.warmLeft.isSome then startConv { w with warmLeft := none } else w

/-- WARMUP_EXPIRY (R161). -/
def execWarmupExpiry (s : State) : Host.Outcome State Fault Refusal := effect (modSweep warmupEnds) s

/-- CONVERSION_COMPLETE (R163). -/
def execConversionComplete (raw : Nat) (s : State) : Host.Outcome State Fault Refusal := effect (conversionDone raw) s

/-- PANEL_INPUT_CHANGE (R178). -/
def execPanelInputChange (i : PanelInput) (high : Bool) (s : State) : Host.Outcome State Fault Refusal :=
  effect (panelArrives i high) s

/-! ## Wing timers -/

/-- The hold clear timer expires (R186). -/
def holdClearEnds (s : State) : State :=
  if s.wing.holdTimer.isSome then
    let s := modWing (fun w => { w with holdTimer := none }) s
    match s.wing.st with
    | .hold => returnNormal s
    | .clearing =>
      let s := modWing (fun w => { w with clearing := w.clearing.filter fun p => p.2 = .requested }) s
      if s.wing.clearing.isEmpty then returnNormal s else modWing (fun w => { w with returning := true }) s
    | _ => s
  else s

/-- HOLD_CLEAR_EXPIRY (R186). -/
def execHoldClearExpiry (s : State) : Host.Outcome State Fault Refusal := effect holdClearEnds s

/-- The park timer expires (R190). -/
def parkTimerEnds (s : State) : State :=
  if s.wing.parkTimer.isSome ∧ s.wing.st = .parking then enterSealing true s else s

/-- PARK_TIMER_EXPIRY (R190). -/
def execParkTimerExpiry (s : State) : Host.Outcome State Fault Refusal := effect parkTimerEnds s

/-- The restart timer expires (R196). -/
def restartTimerEnds (s : State) : State :=
  if s.wing.restartTimer.isSome ∧ s.wing.st = .restarting then enterNormal (dropUnreported s) else s

/-- RESTART_TIMER_EXPIRY (R196). -/
def execRestartTimerExpiry (s : State) : Host.Outcome State Fault Refusal := effect restartTimerEnds s

end Sys2Proof.Machine
end

