-- ==== Sys2Proof/Machine/ReceiverCmds.lean ====
section
/-! DEFINITION. The receiver as bytes reach it (R203): frames discarded, frames in progress, and complete frames,
each of which acts as the request it carries (R204). -/

namespace Sys2Proof.Machine

open Sys2Proof

/-- What a request frame does (R204). The commands that are no request frame arrive by other ways, and do
nothing here. -/
def runRequest (c : Instr) (s : State) : Host.Outcome State Fault Refusal :=
  match c with
  | .unknownRequestKind h kind => execUnknownRequestKind h kind s
  | .identify h => execIdentify h s
  | .configureGeometry h aisleCount columns levels more => execConfigureGeometry h aisleCount columns levels more s
  | .configureCells h items more => execConfigureCells h items more s
  | .configureProfiles h p more => execConfigureProfiles h p more s
  | .configureAisleAssign h items more => execConfigureAisleAssign h items more s
  | .configureStations h items more => execConfigureStations h items more s
  | .configureDispatch h aging pressure more => execConfigureDispatch h aging pressure more s
  | .configureTrays h th limit more => execConfigureTrays h th limit more s
  | .configureSessions h idle auto more => execConfigureSessions h idle auto more s
  | .configureSweep h range items more => execConfigureSweep h range items more s
  | .configureFire h holdClear parkDeadline parkColumn restartDelay more => execConfigureFire h holdClear parkDeadline parkColumn restartDelay more s
  | .start h => execStart h s
  | .restart h => execRestart h s
  | .resume h incident => execResume h incident s
  | .flush h => execFlush h s
  | .lend h bin slip width station item => execLend h bin slip width station item s
  | .cancelLend h slip => execCancelLend h slip s
  | .fetch h bin station => execFetch h bin station s
  | .retire h bin => execRetire h bin s
  | .induct h bin capacity fill => execInduct h bin capacity fill s
  | .returnIntake h width station item => execReturnIntake h width station item s
  | .drainTray h station => execDrainTray h station s
  | .clearTray h station item => execClearTray h station item s
  | .locate h bin => execLocate h bin s
  | .queryOrder h selector value => execQueryOrder h selector value s
  | .queryStation h station => execQueryStation h station s
  | .queryCarrier h aisle => execQueryCarrier h aisle s
  | .queryTray h station => execQueryTray h station s
  | .querySweep h => execQuerySweep h s
  | .queryIncident h => execQueryIncident h s
  | .queryWing h mask => execQueryWing h mask s
  | .survey h aisle kind startCol stopCol => execSurvey h aisle kind startCol stopCol s
  | .acceptMap h aisle => execAcceptMap h aisle s
  | .carrierClear h aisle => execCarrierClear h aisle s
  | .lineClear h line => execLineClear h line s
  | .sweepControlContinuous h => execSweepControlContinuous h s
  | .sweepControlSingle h => execSweepControlSingle h s
  | .sweepControlStop h => execSweepControlStop h s
  | .coldStart _ _ _ | .warmRestart _ _ _ | .linkReset _ | .frameDiscarded _ | .frameByteTimeout _
  | .transmitComplete | .warmupExpiry | .conversionComplete _ | .panelInputChange _ _ | .holdClearExpiry
  | .parkTimerExpiry | .restartTimerExpiry | .segmentComplete _ _ _ | .segmentFault _ _ _ | .segmentDeadline _ _
  | .settleTimerExpiry _ | .driveStatusReport _ _ _ _ _ | .carrierClearTimeout _ | .discoveryTimeout
  | .diversionComplete _ | .advanceComplete _ | .releaseComplete _ | .inboundDiversionComplete _
  | .lineFaultReport _ _ | .lineTransferDeadline _ _ | .lineContentsReport _ _ _ _ | .lineClearTimeout _
  | .terminalFullReport _ _ _ | .terminalChangeReport _ _ _ | .itemScan _ _ | .absentButton _ | .releaseButton _
  | .damagedButton _ | .autoReleaseExpiry _ | .idleTimerExpiry _ | .trayWaitLimitReached _ _
  | .flashWriteComplete | .flashWriteError | .journalRetryExpiry => .next s

/-- Discards raise the count, which holds at 65,535 (R203). -/
def addDiscards (n : Nat) (k : Link) : Link := { k with discards := min 65535 (k.discards + n) }

/-- A complete frame acts as its command (R204). The messages it sends on the field buses follow those that the
bytes before it have caused. -/
def frameActs (c : Instr) (s : State) : State :=
  match runRequest c s with
  | .next t => { t with yard := { t.yard with bus := s.yard.bus ++ t.yard.bus } }
  | _ => s

/-- The receiver takes one byte (R203): it goes on with its frame, discards it, or hands it on complete. -/
def receiveByte (s : State) (b : Byte) : State :=
  let r := rxByte s.link.rx b
  let s := { s with link := { s.link with rx := r.1 } }
  match r.2 with
  | .none => s
  | .discard => { s with link := addDiscards 1 s.link }
  | .complete kind tag body => frameActs (frameCmd kind tag body) s

/-- The receiver takes bytes in turn (R203). -/
def receive (bytes : List Byte) (s : State) : State := bytes.foldl receiveByte s

/-- FRAME_DISCARDED (R203): bytes arrive, such as make a frame with a LEN above 240 or a CRC that does not match. -/
def execFrameDiscarded (bytes : List Byte) (s : State) : Host.Outcome State Fault Refusal := quiet (receive bytes) s

/-- A frame in progress has received no byte for 10 ds (R203). -/
def byteTimeout (s : State) : State :=
  match s.link.rx with
  | .hunting => s
  | .frame _ _ => { s with link := addDiscards 1 { s.link with rx := .hunting } }

/-- FRAME_BYTE_TIMEOUT (R203): bytes arrive, and then none for 10 ds, which the command asserts of any frame then
in progress (assumption 73). -/
def execFrameByteTimeout (bytes : List Byte) (s : State) : Host.Outcome State Fault Refusal :=
  quiet (fun s => byteTimeout (receive bytes s)) s

end Sys2Proof.Machine
end

