-- ==== Sys2Proof/Machine/StationCmds.lean ====
section
/-! DEFINITION. Scans, buttons and session timers (R114 to R120, R133). -/

namespace Sys2Proof.Machine

open Sys2Proof

/-! ## Scans (R114, R133) -/

/-- A stray scan (R114): cause 1 no match, 2 releasing, 3 no session. -/
def strayScan (e : Env) (st : Station) (c : ItemCode) (cause : Nat) (y : Yard) : Yard :=
  notify e .strayScan [.u1 (stationNo st), .item c, opt2 (y.stations[st].present.map (·.bin)), .u1 cause] y

/-- A bin's fill. -/
def fillOf (b : Nat) (y : Yard) : Nat :=
  match getBin b y with
  | some r => r.fill
  | none => 0

/-- A pick is scanned: it is Done, the fill falls, and PickDone is raised (R114). -/
def pickScanned (e : Env) (st : Station) (s : Session) (o : Order) (p : Pick) (y : Yard) : Yard :=
  let y := modOrder o.no (fun o => { o with picks := settlePick (fun q => q.slip = p.slip) .done o.picks }) y
  let y := lowerFill s.bin p.width y
  notify e .pickDone [.u1 (stationNo st), .u2 s.bin, .u2 o.no, .u4 p.slip, .item p.item, .u2 (fillOf s.bin y)] y

/-- A placement counts toward the demand that is active, which ends when it is served (R133, R137). -/
def placementCounts (e : Env) (st : Station) (y : Yard) : Yard :=
  if y.trays[st].demand then
    let y := modTray st (fun t => { t with placed := t.placed + 1 }) y
    if e.cfg.th + 1 ≤ y.trays[st].placed then demandEnd st y else y
  else y

/-- A placement is scanned: it is done (R133). -/
def placementScanned (e : Env) (st : Station) (s : Session) (p : Placement) (y : Yard) : Yard :=
  let y := modTray st (fun t => { t with items := t.items.filter fun i => i.item ≠ p.item }) y
  let y := modSession st (fun s => { s with placements := s.placements.filter fun q => q.item ≠ p.item }) y
  let y := placementCounts e st (raiseFill s.bin p.width y)
  notify e .placeDone [.u1 (stationNo st), .u2 s.bin, .item p.item, .u1 p.width, .u2 (fillOf s.bin y)] y

/-- The Open pick of a session's order with an item code. -/
def scannedPick (s : Session) (c : ItemCode) (y : Yard) : Option (Order × Pick) :=
  (sessionOrder s y).bind fun o => (o.picks.find? fun p => p.st = .opened ∧ p.item = c).map fun p => (o, p)

/-- An item is scanned at a station (R114). -/
def scanned (e : Env) (st : Station) (c : ItemCode) (y : Yard) : Yard :=
  match y.stations[st].session with
  | none => strayScan e st c 3 y
  | some s =>
    if s.releasing then strayScan e st c 2 y
    else
      let y := staffAct e st y
      match scannedPick s c y with
      | some (o, p) => pickScanned e st s o p y
      | none =>
        match s.placements.find? fun p => p.item = c with
        | some p => placementScanned e st s p y
        | none => strayScan e st c 1 y

/-- ITEM_SCAN (R114). -/
def execItemScan (st : Station) (c : ItemCode) (s : State) : Host.Outcome State Fault Refusal :=
  effect (onYard fun e => scanned e st c) s

/-! ## Buttons (R115, R116, R118) -/

/-- The Absent button (R115). -/
def absentPressed (e : Env) (st : Station) (y : Yard) : Yard :=
  match y.stations[st].session with
  | none => y
  | some s =>
    if s.releasing then y
    else
      let y := staffAct e st y
      match sessionOrder s y with
      | none => y
      | some o =>
        match o.picks.find? fun p => p.st = .opened with
        | none => y
        | some p =>
          notify e .pickAbsent [.u1 (stationNo st), .u2 s.bin, .u2 o.no, .u4 p.slip]
            (modOrder o.no (fun o => { o with picks := settlePick (fun _ => true) .absent o.picks }) y)

/-- ABSENT_BUTTON (R115). -/
def execAbsentButton (st : Station) (s : State) : Host.Outcome State Fault Refusal :=
  effect (onYard fun e => absentPressed e st) s

/-- RELEASE_BUTTON (R116). -/
def execReleaseButton (st : Station) (s : State) : Host.Outcome State Fault Refusal :=
  effect (onYard fun e => enterReleasing e st) s

/-- The Damaged button (R118). -/
def damagedPressed (e : Env) (st : Station) (y : Yard) : Yard :=
  match y.stations[st].session with
  | none => y
  | some s => enterReleasing e st (setDamaged s.bin y)

/-- DAMAGED_BUTTON (R118). -/
def execDamagedButton (st : Station) (s : State) : Host.Outcome State Fault Refusal :=
  effect (onYard fun e => damagedPressed e st) s

/-! ## Session timers (R119 to R121) -/

/-- AUTO_RELEASE_EXPIRY (R119). -/
def execAutoReleaseExpiry (st : Station) (s : State) : Host.Outcome State Fault Refusal :=
  effect (onYard fun e => autoExpires e st) s

/-- IDLE_TIMER_EXPIRY (R120). -/
def execIdleTimerExpiry (st : Station) (s : State) : Host.Outcome State Fault Refusal :=
  effect (onYard fun e => idleExpires e st) s

end Sys2Proof.Machine
end

