-- ==== Sys2Proof/Machine/Dispatch.lean ====
section
/-! DEFINITION. The command dispatch: one arm per command, one meaning per arm. -/

namespace Sys2Proof.Machine

open Sys2Proof

def exec (i : Instr) (s : State) : Host.Outcome State Fault Refusal :=
  match i with
  | .coldStart straps pins badSections => Sys2Proof.Machine.execColdStart straps pins badSections s
  | .warmRestart flushError pins badSections => Sys2Proof.Machine.execWarmRestart flushError pins badSections s
  | .linkReset bitTimes => Sys2Proof.Machine.execLinkReset bitTimes s
  | .frameDiscarded bytes => Sys2Proof.Machine.execFrameDiscarded bytes s
  | .frameByteTimeout bytes => Sys2Proof.Machine.execFrameByteTimeout bytes s
  | .unknownRequestKind h kind => Sys2Proof.Machine.execUnknownRequestKind h kind s
  | .transmitComplete => Sys2Proof.Machine.execTransmitComplete s
  | .identify h => Sys2Proof.Machine.execIdentify h s
  | .configureGeometry h aisleCount columns levels more => Sys2Proof.Machine.execConfigureGeometry h aisleCount columns levels more s
  | .configureCells h items more => Sys2Proof.Machine.execConfigureCells h items more s
  | .configureProfiles h p more => Sys2Proof.Machine.execConfigureProfiles h p more s
  | .configureAisleAssign h items more => Sys2Proof.Machine.execConfigureAisleAssign h items more s
  | .configureStations h items more => Sys2Proof.Machine.execConfigureStations h items more s
  | .configureDispatch h aging pressure more => Sys2Proof.Machine.execConfigureDispatch h aging pressure more s
  | .configureTrays h th limit more => Sys2Proof.Machine.execConfigureTrays h th limit more s
  | .configureSessions h idle auto more => Sys2Proof.Machine.execConfigureSessions h idle auto more s
  | .configureSweep h range items more => Sys2Proof.Machine.execConfigureSweep h range items more s
  | .configureFire h holdClear parkDeadline parkColumn restartDelay more => Sys2Proof.Machine.execConfigureFire h holdClear parkDeadline parkColumn restartDelay more s
  | .start h => Sys2Proof.Machine.execStart h s
  | .restart h => Sys2Proof.Machine.execRestart h s
  | .resume h incident => Sys2Proof.Machine.execResume h incident s
  | .flush h => Sys2Proof.Machine.execFlush h s
  | .lend h bin slip width station item => Sys2Proof.Machine.execLend h bin slip width station item s
  | .cancelLend h slip => Sys2Proof.Machine.execCancelLend h slip s
  | .fetch h bin station => Sys2Proof.Machine.execFetch h bin station s
  | .retire h bin => Sys2Proof.Machine.execRetire h bin s
  | .induct h bin capacity fill => Sys2Proof.Machine.execInduct h bin capacity fill s
  | .returnIntake h width station item => Sys2Proof.Machine.execReturnIntake h width station item s
  | .drainTray h station => Sys2Proof.Machine.execDrainTray h station s
  | .clearTray h station item => Sys2Proof.Machine.execClearTray h station item s
  | .locate h bin => Sys2Proof.Machine.execLocate h bin s
  | .queryOrder h selector value => Sys2Proof.Machine.execQueryOrder h selector value s
  | .queryStation h station => Sys2Proof.Machine.execQueryStation h station s
  | .queryCarrier h aisle => Sys2Proof.Machine.execQueryCarrier h aisle s
  | .queryTray h station => Sys2Proof.Machine.execQueryTray h station s
  | .querySweep h => Sys2Proof.Machine.execQuerySweep h s
  | .queryIncident h => Sys2Proof.Machine.execQueryIncident h s
  | .queryWing h mask => Sys2Proof.Machine.execQueryWing h mask s
  | .survey h aisle kind startCol stopCol => Sys2Proof.Machine.execSurvey h aisle kind startCol stopCol s
  | .acceptMap h aisle => Sys2Proof.Machine.execAcceptMap h aisle s
  | .carrierClear h aisle => Sys2Proof.Machine.execCarrierClear h aisle s
  | .lineClear h line => Sys2Proof.Machine.execLineClear h line s
  | .sweepControlContinuous h => Sys2Proof.Machine.execSweepControlContinuous h s
  | .sweepControlSingle h => Sys2Proof.Machine.execSweepControlSingle h s
  | .sweepControlStop h => Sys2Proof.Machine.execSweepControlStop h s
  | .warmupExpiry => Sys2Proof.Machine.execWarmupExpiry s
  | .conversionComplete raw => Sys2Proof.Machine.execConversionComplete raw s
  | .panelInputChange input high => Sys2Proof.Machine.execPanelInputChange input high s
  | .holdClearExpiry => Sys2Proof.Machine.execHoldClearExpiry s
  | .parkTimerExpiry => Sys2Proof.Machine.execParkTimerExpiry s
  | .restartTimerExpiry => Sys2Proof.Machine.execRestartTimerExpiry s
  | .segmentComplete aisle segNo report => Sys2Proof.Machine.execSegmentComplete aisle segNo report s
  | .segmentFault aisle segNo fault => Sys2Proof.Machine.execSegmentFault aisle segNo fault s
  | .segmentDeadline aisle segNo => Sys2Proof.Machine.execSegmentDeadline aisle segNo s
  | .settleTimerExpiry aisle => Sys2Proof.Machine.execSettleTimerExpiry aisle s
  | .driveStatusReport aisle col level fork fault => Sys2Proof.Machine.execDriveStatusReport aisle col level fork fault s
  | .carrierClearTimeout aisle => Sys2Proof.Machine.execCarrierClearTimeout aisle s
  | .discoveryTimeout => Sys2Proof.Machine.execDiscoveryTimeout s
  | .diversionComplete transferNo => Sys2Proof.Machine.execDiversionComplete transferNo s
  | .advanceComplete transferNo => Sys2Proof.Machine.execAdvanceComplete transferNo s
  | .releaseComplete transferNo => Sys2Proof.Machine.execReleaseComplete transferNo s
  | .inboundDiversionComplete transferNo => Sys2Proof.Machine.execInboundDiversionComplete transferNo s
  | .lineFaultReport line transferNo => Sys2Proof.Machine.execLineFaultReport line transferNo s
  | .lineTransferDeadline line transferNo => Sys2Proof.Machine.execLineTransferDeadline line transferNo s
  | .lineContentsReport line bins inbound fault => Sys2Proof.Machine.execLineContentsReport line bins inbound fault s
  | .lineClearTimeout line => Sys2Proof.Machine.execLineClearTimeout line s
  | .terminalFullReport station next present => Sys2Proof.Machine.execTerminalFullReport station next present s
  | .terminalChangeReport station place bin => Sys2Proof.Machine.execTerminalChangeReport station place bin s
  | .itemScan station item => Sys2Proof.Machine.execItemScan station item s
  | .absentButton station => Sys2Proof.Machine.execAbsentButton station s
  | .releaseButton station => Sys2Proof.Machine.execReleaseButton station s
  | .damagedButton station => Sys2Proof.Machine.execDamagedButton station s
  | .autoReleaseExpiry station => Sys2Proof.Machine.execAutoReleaseExpiry station s
  | .idleTimerExpiry station => Sys2Proof.Machine.execIdleTimerExpiry station s
  | .trayWaitLimitReached station item => Sys2Proof.Machine.execTrayWaitLimitReached station item s
  | .flashWriteComplete => Sys2Proof.Machine.execFlashWriteComplete s
  | .flashWriteError => Sys2Proof.Machine.execFlashWriteError s
  | .journalRetryExpiry => Sys2Proof.Machine.execJournalRetryExpiry s

end Sys2Proof.Machine
end

