-- ==== Sys2Proof/Machine/Step.lean ====
section
/-! DEFINITION. One step of the part: the command at the front of the queue acts; with none waiting, a
decisecond passes. -/

namespace Sys2Proof.Machine

open Sys2Proof

/-- One step: the command at the front is taken from the queue and acts on everything else; on an empty
queue time passes (assumption 5). -/
def step (s : State) : Host.Outcome State Fault Refusal :=
  match s.pending with
  | c :: rest => exec c { s with pending := rest }
  | [] => .next (tick s)

/-- No row of the table gives its command bits, so a word spells none and nothing joins the queue. -/
def State.withFetchWord (s : State) (nbits w : Nat) : State :=
  match decodeTableWord nbits w with
  | some c => { s with pending := c :: s.pending }
  | none => s

end Sys2Proof.Machine
end

