-- ==== Sys2Proof/Safety.lean ====
section
/-! DEFINITION. What a safe state of the part is, in the terms the statements use. -/

namespace Sys2Proof.Machine

open Sys2Proof

/-- Whether the wing is sealed off: Sealing or Sealed (R191). -/
def sealedOff : WingSt → Bool
  | .sealing | .sealed => true
  | _ => false

/-- Whether the wing is held: Hold or Clearing (R184). -/
def wingHeld : WingSt → Bool
  | .hold | .clearing => true
  | _ => false

/-- The wing record is consistent: the shutters close and the drives have no power exactly while the wing is
sealed off (R191), each wing timer runs only in the states that use it (R186, R190, R196), and a clearing
list stands only while the wing is held (R185). -/
structure WingSafe (w : Wing) : Prop where
  shutters : w.shutClose = sealedOff w.st
  power : w.drvPwr = !sealedOff w.st
  holdTimer : w.holdTimer.isSome → wingHeld w.st = true
  parkTimer : w.parkTimer.isSome → w.st = .parking
  restartTimer : w.restartTimer.isSome → w.st = .restarting
  clearing : wingHeld w.st = false → w.clearing = []

/-- The cause level and the Hold indication are those that the zones and the panel make present (R178). -/
def CausesTrue (s : State) : Prop :=
  s.wing.cause = causeLevel s.sweep.zones s.wing.panel ∧ s.wing.holdCause = holdPresent s.sweep.zones s.wing.panel

/-- The host link's lists are within their bounds (R204, R206), and the requests in the inbox and those of
the Stop requests that wait were given their identifiers before the next one. -/
structure LinkSafe (s : State) : Prop where
  inbox : s.link.inbox.length ≤ 4
  overrun : s.link.overrun.length ≤ 4
  ids : ∀ q ∈ s.link.inbox, q.id < s.link.nextId
  stops : ∀ n ∈ s.sweep.stopIds, n < s.link.nextId

/-- The sparse tables of the map, the bins and the flash are in their canonical form. -/
structure TablesSorted (s : State) : Prop where
  cells : KSorted s.yard.cells
  bins : KSorted s.yard.bins
  flashCells : KSorted s.flash.cells
  flashAttrs : KSorted s.flash.attrs
  flashFills : KSorted s.flash.fills

/-- A geometry is within the limits of R1, so that every cell in it has a code of its own. -/
def GeometryFits (g : Geometry) : Prop := g.columns ≤ 64 ∧ g.levels ≤ 16

/-- A control write stores no geometry beyond those limits. -/
def WriteFits : CtlWrite → Prop
  | .settings (.geometry g) => GeometryFits g
  | _ => True

/-- The geometry in the records, in flash and on its way to flash is within the limits of R1. -/
structure GeometrySafe (s : State) : Prop where
  records : GeometryFits s.cfg.geometry
  flash : ∀ g, s.flash.settings.geometry = some g → GeometryFits g
  waiting : ∀ w ∈ s.yard.journal.ctl, WriteFits w
  writing : ∀ w, s.yard.journal.writing = some (.ctl w) → WriteFits w

/-- A journal key that names a cell names one with a code of its own. -/
def KeyFits : JKey → Prop
  | .cell a => 1 ≤ a.col ∧ a.col ≤ 64 ∧ a.level < 16
  | _ => True

/-- The journal's list holds at most 64 entries, no key twice and no marked one (R15, R17). -/
structure JournalSafe (j : Journal) : Prop where
  bound : j.entries.length ≤ 64
  keys : (j.entries.map (·.key)).Nodup
  unmarked : ∀ e ∈ j.entries, marked j e.key = false
  fits : ∀ e ∈ j.entries, KeyFits e.key

/-- The queue holds at most 96 orders of different numbers, with at most 8 picks each, and at most one live
order of a bin: the one its record names (R69, R71, R72, R87). A Retired bin has none. -/
structure OrdersSafe (y : Yard) : Prop where
  bound : y.orders.length ≤ 96
  numbers : (y.orders.map (·.no)).Nodup
  picks : ∀ o ∈ y.orders, o.picks.length ≤ 8
  live : ∀ o ∈ y.orders, o.closing = false → ∃ r, getBin o.bin y = some r ∧ r.live = some o.no
  retired : ∀ b r, getBin b y = some r → r.st = .retired → r.live = none

/-- The lists of the yard are within their bounds: the journal's (R15), the outbox (R207), the order queue (R69),
each tray (R128) and each session's placements (R132). -/
structure ListsSafe (y : Yard) : Prop where
  journal : JournalSafe y.journal
  outbox : y.post.outbox.length ≤ 32
  orders : OrdersSafe y
  trays : ∀ st : Station, y.trays[st].items.length ≤ 24
  placements : ∀ (st : Station) (x : Session), y.stations[st].session = some x → x.placements.length ≤ 8

/-- The bins recorded in places other than cells (R9): on a fork, on a line, in an inbound place, at a station. -/
def placedBins (y : Yard) : List Nat :=
  y.carriers.toList.filterMap (·.load) ++ y.lines.delivery.map (·.bin) ++ y.lines.returns.map (·.bin)
    ++ y.lines.inbound.toList.filterMap id ++ y.stations.toList.filterMap (fun r => r.next.map (·.bin))
    ++ y.stations.toList.filterMap (fun r => r.present.map (·.bin))

/-- A bin is in one place (R9): no place other than a cell is recorded with a bin that another has, the bin
in such a place has a record that says so and names no cell, and the bin of an Occupied cell is recorded Stored in
that cell. Listed cells lie within the geometry. -/
structure BinsPlaced (s : State) : Prop where
  once : (placedBins s.yard).Nodup
  there : ∀ b ∈ placedBins s.yard, ∃ r, getBin b s.yard = some r ∧ inPlace r = true
  noCell : ∀ b r, getBin b s.yard = some r → inPlace r = true → r.cell = none
  stored : ∀ k b, kget s.yard.cells k = some (.occupied b) →
    ∃ r a, getBin b s.yard = some r ∧ r.st = .stored ∧ r.cell = some a ∧ cellOfCode k = some a
  within : ∀ k c, kget s.yard.cells k = some c → ∃ a, cellOfCode k = some a ∧ inGeometry s.cfg.geometry a = true

/-- The idle timeout is within R127's range in the records, in flash and on its way there, and in Standby, where
no session timer counts (R121), none has come to its end. -/
structure SessionsSafe (s : State) : Prop where
  records : 30 ≤ s.cfg.idleTimeout
  flash : ∀ v, s.flash.settings.sessions = some v → 30 ≤ v.1
  waiting : ∀ idle auto, .settings (.sessions idle auto) ∈ s.yard.journal.ctl → 30 ≤ idle
  writing : ∀ idle auto, s.yard.journal.writing = some (.ctl (.settings (.sessions idle auto))) → 30 ≤ idle
  rest : s.wing.st = .standby → ∀ (st : Station) (x : Session), s.yard.stations[st].session = some x →
    x.idle ≠ some 0 ∧ x.auto ≠ some 0

/-- A journal key of attributes names a bin by a number that a bin can have (R8). -/
def KeyNumbered : JKey → Prop
  | .attr b => binOk b = true
  | _ => True

/-- The records of the bin table have numbers from 1 to 20,480 (R8), and so have the attributes in flash and
those on their way there. -/
structure BinsNumbered (s : State) : Prop where
  records : ∀ b r, getBin b s.yard = some r → binOk b = true
  flash : ∀ b t, kget s.flash.attrs b = some t → binOk b = true
  entries : ∀ e ∈ s.yard.journal.entries, KeyNumbered e.key
  marks : ∀ b ∈ s.yard.journal.attrMarks, binOk b = true
  writing : ∀ e r, s.yard.journal.writing = some (.entry e r) → KeyNumbered e.key

/-- WORK_HELD is high exactly while the wing is neither in Standby nor in Normal and work waits (R200), and WING_OK
exactly while the wing is Normal with no zone Degraded and no carrier of the geometry Faulted or Offline (R201). -/
structure OutputsTrue (s : State) : Prop where
  workHeld : s.wing.workHeld = true ↔ (s.wing.st ≠ .standby ∧ s.wing.st ≠ .normal) ∧
    ((∃ o ∈ s.yard.orders, o.st = .queued ∨ ∃ r, o.st = .blocked r)
      ∨ ∃ st : Station, ∃ i ∈ s.yard.trays[st].items, i.st = .waiting)
  wingOk : s.wing.wingOk = true ↔ s.wing.st = .normal ∧ (∀ z : Zone, s.sweep.zones[z].degraded = false)
    ∧ ∀ a : Aisle, a.val + 1 ≤ s.cfg.geometry.aisleCount →
      s.yard.carriers[a].st ≠ .faulted ∧ s.yard.carriers[a].st ≠ .offline

/-- A request's frame is one the receiver takes and the request's own rule answers (R204): no Restart waits
to begin, the inbox has room, the tag is not 0 and the body is well formed. -/
structure Taken (h : ReqHdr) (s : State) : Prop where
  safe : LinkSafe s
  noRestart : s.link.restart = .none
  room : s.link.inbox.length < 4
  tag : h.tag ≠ 0
  body : h.bodyOk = true

/-! ## The bodies of Configure -/

/-- Whether a content has a layout that its presence mask announces: so many bytes follow the mask (spec 11.8). -/
def Masked (bytes : Byte → Nat) (l : List Byte) : Prop := ∃ m t, l = m :: t ∧ t.length = bytes m

/-- A bit of a presence mask, as 0 or 1. -/
def maskBit (m : Byte) (n : Nat) : Nat := m.toNat / 2 ^ n % 2

/-- The layout of a Configure section's content by its code (R210, spec 11.8): how many bytes follow each count and
each presence mask. -/
def sectionFits : Nat → List Byte → Prop
  | 1, l => l.length = 3
  | 2, l => Masked (fun n => 3 * n.toNat) l
  | 3, l => ∃ p t, l = p :: t ∧ Masked (fun m => ((List.range 6).map (maskBit m)).sum) t
  | 4, l => Masked (fun n => 2 * n.toNat) l
  | 5, l => ∃ items : List (Byte × Byte × List Byte), items.length ≤ 255
      ∧ l = BitVec.ofNat 8 items.length :: items.flatMap (fun p => p.1 :: p.2.1 :: p.2.2)
      ∧ ∀ p ∈ items, p.2.2.length = maskBit p.2.1 0 + maskBit p.2.1 1
  | 6, l => Masked (fun m => maskBit m 0 + maskBit m 1) l
  | 7, l => Masked (fun m => maskBit m 0 + 2 * maskBit m 1) l
  | 8, l => Masked (fun m => 2 * maskBit m 0 + maskBit m 1) l
  | 9, l => ∃ (m : Byte) (range : List Byte) (items : List (Byte × Byte × Byte × List Byte)),
      range.length = 2 * maskBit m 0 ∧ items.length ≤ 255
      ∧ l = m :: (range ++ BitVec.ofNat 8 items.length :: items.flatMap (fun p => p.1 :: p.2.1 :: p.2.2.1 :: p.2.2.2))
      ∧ ∀ p ∈ items, p.2.2.2.length = maskBit p.2.1 0 + maskBit p.2.1 1
          + 2 * ((List.range 6).map fun n => maskBit p.2.1 (n + 2)).sum + maskBit p.2.2.1 0
  | 10, l => Masked (fun m => 2 * maskBit m 0 + 2 * maskBit m 1 + maskBit m 2 + 2 * maskBit m 3) l
  | _, _ => False

/-! ## Choosing among cells -/

/-- The order of cells of equal cost (R38): lower column, lower level, side N before S, front before deep. -/
def TieBefore (x z : CellAddr) : Prop :=
  x.col < z.col ∨ x.col = z.col ∧ (x.level < z.level ∨ x.level = z.level ∧
    (x.side = .north ∧ z.side = .south ∨ x.side = z.side ∧ x.depth = .front ∧ z.depth = .deep))

/-- A cell ranks before another by its cost, and at equal cost by the order of R38. -/
def Cheaper (cost : CellAddr → Nat) (x z : CellAddr) : Prop := cost x < cost z ∨ cost x = cost z ∧ TieBefore x z

/-- A choice names the cell that ranks before every other that fits, and none only where none fits. -/
def FirstOf (fits : CellAddr → Prop) (before : CellAddr → CellAddr → Prop) (choice : Option CellAddr) : Prop :=
  (∀ x, choice = some x → fits x ∧ ∀ z, fits z → z ≠ x → before x z) ∧ (choice = none → ∀ z, ¬fits z)

/-! ## Effects -/

/-- A command completes: `u` is the state its own effect makes, and everything that follows a command is then
done (R81, R95 to R100, R113, R184, R189, R200, R201, R206). -/
def Completes (c : Instr) (s u : State) : Prop := exec c s = .next (finish u)

/-- A command that changes no record of the yard completes: only the transmitter follows it (R206). -/
def CompletesQuietly (c : Instr) (s u : State) : Prop := exec c s = .next (transmit u)

/-- The link after a request has entered the inbox with its reply ready (R205). -/
def answeredLink (kind : Nat) (h : ReqHdr) (code : ReplyCode) (items : List Fld) (k : Link) : Link :=
  { k with
    nextId := k.nextId + 1
    inbox := k.inbox ++ [⟨k.nextId, kind, h.tag, some ⟨kind + 0x40, h.tag, code, items⟩⟩] }

/-- The link after a request has entered the inbox with its reply waiting (R205). -/
def waitingLink (kind : Nat) (h : ReqHdr) (k : Link) : Link :=
  { k with nextId := k.nextId + 1, inbox := k.inbox ++ [⟨k.nextId, kind, h.tag, none⟩] }

/-- The request's kind and header of a command that is a request frame (R209); a kind no request has is 0. -/
def requestOf : Instr → Option (Nat × ReqHdr)
  | .unknownRequestKind h _ => some (0, h)
  | .identify h => some (reqCode .identify, h)
  | .configureGeometry h _ _ _ _ | .configureCells h _ _ | .configureProfiles h _ _ | .configureAisleAssign h _ _
  | .configureStations h _ _ | .configureDispatch h _ _ _ | .configureTrays h _ _ _ | .configureSessions h _ _ _
  | .configureSweep h _ _ _ | .configureFire h _ _ _ _ _ => some (reqCode .configure, h)
  | .start h => some (reqCode .start, h)
  | .restart h => some (reqCode .restart, h)
  | .resume h _ => some (reqCode .resume, h)
  | .flush h => some (reqCode .flush, h)
  | .lend h _ _ _ _ _ => some (reqCode .lend, h)
  | .cancelLend h _ => some (reqCode .cancelLend, h)
  | .fetch h _ _ => some (reqCode .fetch, h)
  | .retire h _ => some (reqCode .retire, h)
  | .induct h _ _ _ => some (reqCode .induct, h)
  | .returnIntake h _ _ _ => some (reqCode .returnIntake, h)
  | .drainTray h _ => some (reqCode .drainTray, h)
  | .clearTray h _ _ => some (reqCode .clearTray, h)
  | .locate h _ => some (reqCode .locate, h)
  | .queryOrder h _ _ => some (reqCode .queryOrder, h)
  | .queryStation h _ => some (reqCode .queryStation, h)
  | .queryCarrier h _ => some (reqCode .queryCarrier, h)
  | .queryTray h _ => some (reqCode .queryTray, h)
  | .querySweep h => some (reqCode .querySweep, h)
  | .queryIncident h => some (reqCode .queryIncident, h)
  | .queryWing h _ => some (reqCode .queryWing, h)
  | .survey h _ _ _ _ => some (reqCode .survey, h)
  | .acceptMap h _ => some (reqCode .acceptMap, h)
  | .carrierClear h _ => some (reqCode .carrierClear, h)
  | .lineClear h _ => some (reqCode .lineClear, h)
  | .sweepControlContinuous h | .sweepControlSingle h | .sweepControlStop h => some (reqCode .sweepControl, h)
  | .coldStart _ _ _ | .warmRestart _ _ _ | .linkReset _ | .frameDiscarded _ | .frameByteTimeout _ | .transmitComplete
  | .warmupExpiry | .conversionComplete _ | .panelInputChange _ _ | .holdClearExpiry | .parkTimerExpiry
  | .restartTimerExpiry | .segmentComplete _ _ _ | .segmentFault _ _ _ | .segmentDeadline _ _ | .settleTimerExpiry _
  | .driveStatusReport _ _ _ _ _ | .carrierClearTimeout _ | .discoveryTimeout | .diversionComplete _
  | .advanceComplete _ | .releaseComplete _ | .inboundDiversionComplete _ | .lineFaultReport _ _
  | .lineTransferDeadline _ _ | .lineContentsReport _ _ _ _ | .lineClearTimeout _ | .terminalFullReport _ _ _
  | .terminalChangeReport _ _ _ | .itemScan _ _ | .absentButton _ | .releaseButton _ | .damagedButton _
  | .autoReleaseExpiry _ | .idleTimerExpiry _ | .trayWaitLimitReached _ _ | .flashWriteComplete | .flashWriteError
  | .journalRetryExpiry => none

/-- Whether a command is a start of the part. -/
def isStart : Instr → Bool
  | .coldStart _ _ _ | .warmRestart _ _ _ => true
  | _ => false

/-- Whether a command is a Configure request, or bytes of the host link, which may carry one. -/
def isConfigure (c : Instr) : Bool :=
  decide ((requestOf c).map (·.1) = some (reqCode .configure)) ||
    match c with
    | .frameDiscarded _ | .frameByteTimeout _ => true
    | _ => false

/-- The sections of a command that is a Configure request, in the order listed (R210). -/
def sectionsOf : Instr → Option (ReqHdr × List CfgSection)
  | .configureGeometry h a c l more => some (h, .geometry a c l :: more)
  | .configureCells h items more => some (h, .cells items :: more)
  | .configureProfiles h p more => some (h, .profiles p :: more)
  | .configureAisleAssign h items more => some (h, .aisleAssign items :: more)
  | .configureStations h items more => some (h, .stations items :: more)
  | .configureDispatch h a p more => some (h, .dispatch a p :: more)
  | .configureTrays h t l more => some (h, .trays t l :: more)
  | .configureSessions h i a more => some (h, .sessions i a :: more)
  | .configureSweep h r items more => some (h, .sweep r items :: more)
  | .configureFire h c p k d more => some (h, .fire c p k d :: more)
  | _ => none

/-- The records outside the yard and the link are as they were. -/
structure SameElse (s u : State) : Prop where
  cfg : u.cfg = s.cfg
  sweep : u.sweep = s.sweep
  wing : u.wing = s.wing
  flash : u.flash = s.flash
  clock : u.clock = s.clock
  pending : u.pending = s.pending

/-- The map and the bins are as they were. -/
structure SameStock (y z : Yard) : Prop where
  cells : z.cells = y.cells
  verif : z.verif = y.verif
  bins : z.bins = y.bins

/-- The carriers, the arbiters and the estimators are as they were. -/
structure SameMotion (y z : Yard) : Prop where
  carriers : z.carriers = y.carriers
  arbs : z.arbs = y.arbs
  est : z.est = y.est

/-- The lines, stations and trays are as they were. -/
structure SameDesks (y z : Yard) : Prop where
  lines : z.lines = y.lines
  stations : z.stations = y.stations
  trays : z.trays = y.trays

/-- No tray has a space-bin choice to make: each with active demand has its Space order in the queue (R140). -/
abbrev NoTrayChooses (y : Yard) : Prop := ∀ st : Station, y.trays[st].demand = true → y.trays[st].spaceOrder.isSome

/-- Orders and bins are as they were but for new Space orders without picks at the tail of the queue, each the live
order of its bin (R141). -/
structure SpaceOrdersAdded (y z : Yard) : Prop where
  orders : ∃ l, z.orders = y.orders ++ l ∧ ∀ o ∈ l, o.cls = .space ∧ o.picks = [] ∧ o.retire = false ∧ o.closing = false
  bins : ∀ b, getBin b z = getBin b y ∨ ∃ o ∈ z.orders, o.bin = b ∧ o.cls = .space
    ∧ getBin b z = (getBin b y).map fun r => { r with live := some o.no }

/-- A Lend or a Fetch has made one order `o` at the tail of the queue, of a class, for a bin, to a station, with a list
of picks, and it is the bin's live order (R69 to R71, R75, R77). Map, carriers, lines, trays, journal and notices are
as they were. -/
structure OrderMade (e : Env) (cls : OrderClass) (b : Nat) (st : Station) (picks : List Pick) (y z : Yard) (o : Order) : Prop
    extends SameMotion y z where
  orders : z.orders = y.orders ++ [o]
  order : o = ⟨o.no, b, st, cls, e.now, o.st, false, picks, false, none⟩
  fresh : ∀ p ∈ y.orders, p.no ≠ o.no
  live : getBin b z = (getBin b y).map fun r => { r with live := some o.no }
  others : ∀ x, x ≠ b → getBin x z = getBin x y
  cells : z.cells = y.cells
  verif : z.verif = y.verif
  lines : z.lines = y.lines
  trays : z.trays = y.trays
  journal : z.journal = y.journal
  post : z.post = y.post

/-- The station a new order of a class goes to by R73: the named one, and for station 0 the one with the largest free
admission of those that serve the class, the lowest number of equals. -/
abbrev AddressedTo (e : Env) (cls : OrderClass) (n : Nat) (y : Yard) (st : Station) : Prop :=
  n = stationNo st ∨ n = 0 ∧ serves y.stations[st].role cls = true
    ∧ ∀ d : Station, serves y.stations[d].role cls = true →
      freeAdmission e d y < freeAdmission e st y ∨ freeAdmission e d y = freeAdmission e st y ∧ st ≤ d

/-- The link after a Lend or a Fetch that named station `n` (0 for any) is answered with an order (R76, R77): OK, or
REDIRECTED where the order's station is another than a named one, or HELD in Hold and Clearing, with that said in a
byte of its own. -/
def orderAnswered (kind : Nat) (h : ReqHdr) (n : Nat) (wing : WingSt) (o : Order) (k : Link) : Link :=
  let other := n ≠ 0 ∧ n ≠ stationNo o.station
  let items : List Fld := [.u2 o.no, .u1 (stationNo o.station), .u1 (orderStCode o.st), .u1 (orderReasonCode o.st),
    .u2 o.picks.length]
  if wing = .hold ∨ wing = .clearing then answeredLink kind h .held (items ++ [.u1 (if other then 1 else 0)]) k
  else answeredLink kind h (if other then .redirected else .ok) items k

/-- Nothing is changed but what the trays' space-bin choices may change: orders and bins by the Space orders made, each
tray's Space order and its two marks, and the notices (R140, R141). -/
structure ChoicesOnly (y z : Yard) : Prop extends SpaceOrdersAdded y z, SameMotion y z where
  cells : z.cells = y.cells
  verif : z.verif = y.verif
  lines : z.lines = y.lines
  stations : z.stations = y.stations
  journal : z.journal = y.journal
  bus : z.bus = y.bus
  trays : ∀ st : Station, ∃ n w f,
    z.trays[st] = { y.trays[st] with spaceOrder := n, noSpace := w, refusedFull := f }

end Sys2Proof.Machine
end

