-- ==== Sys2Proof/Certificates/Slice0/Obligations.lean ====
section
/-! DEFINITION. The statements about the part, for the provers. `Completes c s u` says that command `c` has
in state `s` the own effect `u`, and that the step goes on to what follows every command. -/

open Sys2Proof Sys2Proof.Machine

/-! ## The queue, the clock and the records every command keeps -/

/-- A step takes the command at the front of the queue and is that command's meaning over the rest. -/
def Obligations.StepRunsFrontCommand : Prop :=
  ∀ (c : Instr) (rest : List Instr) (s : State), s.pending = c :: rest → step s = exec c { s with pending := rest }

/-- On an empty queue one decisecond passes (the model's choice, log 5). Each timer in deciseconds that runs is
one less, and with the end of a second each timer in seconds, those of the sessions in Normal only; the clock goes
on, and nothing else changes. That timers in seconds count at the clock's second boundary is log 30, that the clock
wraps at 4,294,967,295 with stamps as differences log 31, the receiver's own count of 10 ds log 73: the model's choice. A timer that has come to its end puts its expiry in the queue, in the order of the
list; so does a tray item that has waited its limit unmarked, at the end of a second. -/
def Obligations.IdleStepPassesTime : Prop :=
  ∀ s : State, s.pending = [] → s.clock.ds ≤ 9 → ∃ t, step s = .next t
    ∧ (s.clock.ds < 9 → t.clock = ⟨s.clock.sec, s.clock.ds + 1⟩)
    ∧ (s.clock.ds = 9 → s.clock.sec < 4294967295 → t.clock = ⟨s.clock.sec + 1, 0⟩)
    ∧ (s.clock.ds = 9 → s.clock.sec = 4294967295 → t.clock = ⟨0, 0⟩)
    ∧ (let y := s.yard
       let less := fun x : Option Nat => x.map (· - 1)
       let line := fun r : LineRec => { r with
         transfers := r.transfers.map fun x => { x with left := x.left - 1 }, clear := r.clear.map fun w => { w with left := w.left - 1 } }
       t.cfg = s.cfg ∧ t.flash = s.flash
       ∧ t.wing = { s.wing with
           parkTimer := less s.wing.parkTimer, restartTimer := less s.wing.restartTimer
           holdTimer := if s.clock.ds = 9 then less s.wing.holdTimer else s.wing.holdTimer }
       ∧ t.sweep = { s.sweep with warmLeft := less s.sweep.warmLeft }
       ∧ t.link = { s.link with rx := match s.link.rx with | .hunting => .hunting | .frame l n => .frame l (n - 1) }
       ∧ SameStock y t.yard ∧ t.yard.orders = y.orders ∧ t.yard.nextOrder = y.nextOrder ∧ t.yard.trays = y.trays
       ∧ t.yard.post = y.post ∧ t.yard.arbs = y.arbs ∧ t.yard.bus = []
       ∧ t.yard.journal = { y.journal with retryLeft := less y.journal.retryLeft }
       ∧ t.yard.disc = { y.disc with left := less y.disc.left }
       ∧ t.yard.lines = { y.lines with del := line y.lines.del, ret := line y.lines.ret }
       ∧ (∀ a : Aisle, t.yard.est[a] = { y.est[a] with settleLeft := y.est[a].settleLeft - 1 }
           ∧ t.yard.carriers[a] = { y.carriers[a] with
             seg := y.carriers[a].seg.map fun g => if g.deadline.isSome then { g with left := g.left - 1 } else g
             clear := y.carriers[a].clear.map fun w => { w with left := w.left - 1 } })
       ∧ ∀ st : Station, t.yard.stations[st] = { y.stations[st] with session := y.stations[st].session.map fun x =>
           if s.clock.ds = 9 ∧ s.wing.st = .normal then { x with idle := less x.idle, auto := less x.auto } else x })
    ∧ (let due := fun (b : Prop) [Decidable b] (c : Instr) => if b then [c] else []
       let aisle := fun a : Aisle =>
         due (s.yard.est[a].st = .settling ∧ s.yard.est[a].settleLeft = 1) (.settleTimerExpiry a)
           ++ (match s.yard.carriers[a].seg with
             | some g => due (g.deadline.isSome ∧ g.left = 1) (.segmentDeadline a g.no)
             | none => [])
           ++ due (s.yard.carriers[a].clear.map (·.left) = some 1) (.carrierClearTimeout a)
       let line := fun (l : LineId) (r : LineRec) =>
         (r.transfers.filter fun x => x.left = 1).map (fun x => Instr.lineTransferDeadline l x.no)
           ++ due (r.clear.map (·.left) = some 1) (.lineClearTimeout l)
       let session := fun st : Station =>
         match s.yard.stations[st].session with
         | some x => due (s.wing.st = .normal ∧ x.auto = some 1) (.autoReleaseExpiry st)
             ++ due (s.wing.st = .normal ∧ x.idle = some 1) (.idleTimerExpiry st)
         | none => []
       let waited := fun st : Station =>
         (s.yard.trays[st].items.filter fun i => i.st = .waiting ∧ i.mark = false ∧ s.cfg.waitLimit ≤ t.clock.sec - i.stamp).map
           fun i => Instr.trayWaitLimitReached st i.item
       t.pending = due (s.wing.parkTimer = some 1) .parkTimerExpiry ++ due (s.wing.restartTimer = some 1) .restartTimerExpiry
         ++ due (s.sweep.warmLeft = some 1) .warmupExpiry ++ [0, 1, 2, 3, 4, 5].flatMap aisle
         ++ line .delivery s.yard.lines.del ++ line .ret s.yard.lines.ret
         ++ due (s.yard.disc.left = some 1) .discoveryTimeout ++ due (s.yard.journal.retryLeft = some 1) .journalRetryExpiry
         ++ (match s.link.rx with | .frame _ 1 => [.frameByteTimeout []] | _ => [])
         ++ if s.clock.ds = 9 then
              due (s.wing.holdTimer = some 1) .holdClearExpiry ++ [0, 1, 2, 3].flatMap session ++ [0, 1, 2, 3].flatMap waited
            else [])

/-- Every command is answered with a next state (log 60: no command stops, the model's reading) and reads no
command that waits behind it; the wing clock moves at a start only, to 0 (log 5: a command takes no time, the
model's choice); the settings change at a Configure, at bytes that may carry one, or at a start only; flash changes
at the completion of a write or at a warm restart only. -/
def Obligations.CommandsChangeOnlyTheirOwn : Prop :=
  ∀ (c : Instr) (s : State), ∃ t, exec c s = .next t ∧ t.pending = s.pending
    ∧ (t.clock = s.clock ∨ (isStart c = true ∧ t.clock = ⟨0, 0⟩))
    ∧ (isConfigure c = false → isStart c = false → t.cfg = s.cfg)
    ∧ (c ≠ .flashWriteComplete → (∀ e p b, c ≠ .warmRestart e p b) → t.flash = s.flash)

/-! ## Invariants that every step keeps -/

/-- The shutters, the drive power, the wing timers and the clearing list stay with the wing state. R191 gives the
outputs of Sealing and Sealed; that the shutters are open and the drives powered in Standby is log 29, the model's
reading. -/
def Obligations.WingStaysSafe : Prop :=
  ∀ s t : State, WingSafe s.wing → step s = .next t → WingSafe t.wing

/-- The cause level stays the highest present. -/
def Obligations.CausesStayTrue : Prop :=
  ∀ s t : State, CausesTrue s → step s = .next t → CausesTrue t

/-- The inbox and the overrun list stay within their bounds, and identifiers stay fresh. -/
def Obligations.LinkStaysSafe : Prop :=
  ∀ s t : State, LinkSafe s → step s = .next t → LinkSafe t

/-- Every step keeps the sparse tables in canonical form, the geometry within the limits of R1 in the records, in
flash and on its way there, and the lists of the yard within their bounds: the journal at most 64 entries with no
key twice and none marked (R15), the outbox at most 32 (R207), the queue at most 96 orders of different numbers with
at most 8 picks each and at most one live order of a bin, the one its record names (R69, R71, R72, R87), each tray at
most 24 items (R128) and each session at most 8 placements (R132). The idle timeout stays 30 s or more (R127), so that
in Standby, where no session timer counts (R121), none stands at its end; and every record of the bin table has a number
from 1 to 20,480 (R8). -/
def Obligations.TablesAndListsStaySafe : Prop :=
  (∀ s t : State, TablesSorted s → GeometrySafe s → ListsSafe s.yard → step s = .next t →
    TablesSorted t ∧ GeometrySafe t ∧ ListsSafe t.yard)
  ∧ (∀ s t : State, SessionsSafe s → step s = .next t → SessionsSafe t)
  ∧ ∀ s t : State, BinsNumbered s → step s = .next t → BinsNumbered t

/-- Every step keeps a bin in one place (R9): no fork, line, inbound place or station place is recorded with a bin
that another has, the bin's record says that it stands in such a place and names no cell, and the bin of an Occupied
cell is recorded Stored in that cell; listed cells lie within the geometry (R1). -/
def Obligations.BinsStandInOnePlace : Prop :=
  ∀ s t : State, TablesSorted s → GeometrySafe s → ListsSafe s.yard → BinsPlaced s → step s = .next t → BinsPlaced t

/-- The invariants hold at reset. The values they rest on that the spec does not give are the model's: the outputs
in Standby (log 29), the panel inputs low (log 4), blank flash with both markers false (log 1). -/
def Obligations.InvariantsHoldAtReset : Prop :=
  (WingSafe State.reset.wing ∧ CausesTrue State.reset ∧ LinkSafe State.reset)
    ∧ TablesSorted State.reset ∧ GeometrySafe State.reset ∧ ListsSafe State.reset.yard ∧ BinsPlaced State.reset
    ∧ SessionsSafe State.reset ∧ BinsNumbered State.reset ∧ OutputsTrue State.reset

/-! ## The derived outputs -/

/-- Every step keeps WORK_HELD and WING_OK as their rules say: WORK_HELD is high exactly while the wing is in none of
Standby and Normal and an order is Queued or Blocked or an item Waiting (R200), WING_OK exactly while the wing is Normal
with no zone Degraded and no carrier of the geometry Faulted or Offline (R201). What follows a command sets both so,
however they stood. -/
def Obligations.OutputsFollowRecords : Prop :=
  (∀ s t : State, OutputsTrue s → step s = .next t → OutputsTrue t) ∧ ∀ s : State, OutputsTrue (finish s)

/-! ## The host link -/

/-- A request that arrives while the inbox holds four, or between the taking of a Restart and its beginning,
is not taken: OVERRUN or BUSY with its kind and tag joins the overrun list, or is dropped and counted when
that list holds four, and nothing else changes. -/
def Obligations.UntakenRequestsAreAnswered : Prop :=
  ∀ (c : Instr) (k : Nat) (h : ReqHdr) (s : State), requestOf c = some (k, h) →
    (s.link.restart ≠ .none ∨ 4 ≤ s.link.inbox.length) →
    let code := if s.link.restart = .none then ReplyCode.overrun else .busy
    ∃ u, (Completes c s u ∨ CompletesQuietly c s u) ∧ SameElse s u ∧ u.yard = { s.yard with bus := [] }
      ∧ (s.link.overrun.length < 4 →
          u.link = { s.link with overrun := s.link.overrun ++ [⟨k + 0x40, h.tag, code, []⟩] })
      ∧ (4 ≤ s.link.overrun.length → u.link = { s.link with
          overrunDrops := if s.link.overrunDrops < 65535 then s.link.overrunDrops + 1 else s.link.overrunDrops })

/-- A request with tag 0 or a malformed body is taken and refused FORM, and changes no record; so is a frame
whose kind is no request kind, with the reply kind 0x40. A complete frame spells the request of its kind and tag, and
its body is well formed exactly when it has the length that the catalogue gives the kind and its fields: an item code
is its length, 1 to 16, and bytes from 0x20 to 0x7E; the selector, kind, line and action codes are those of the kind;
a Configure body is one or more sections, each of a code from 1 to 10, its length and a content of that code's layout
(that a presence mask's further bits announce no value, and that a body of no section is malformed, is log 73, the
model's choice). A QueryWing mask of one byte is well formed with bit 7 set too (log 78: the model's choice). -/
def Obligations.MalformedRequestRefusedForm : Prop :=
  (∀ (c : Instr) (k : Nat) (h : ReqHdr) (s : State), requestOf c = some (k, h) → LinkSafe s → s.link.restart = .none →
    s.link.inbox.length < 4 → (h.tag = 0 ∨ h.bodyOk = false) →
    ∃ u, (Completes c s u ∨ CompletesQuietly c s u) ∧ SameElse s u ∧ u.yard = { s.yard with bus := [] }
      ∧ u.link = answeredLink k h .form [] s.link)
  ∧ (∀ (h : ReqHdr) (kind : Nat) (s : State), Taken h s →
      CompletesQuietly (.unknownRequestKind h kind) s { clearBus s with link := answeredLink 0 h .form [] s.link })
  ∧ ∀ (kind tag : Nat) (body : List Byte),
      ((kind = 0 ∨ 0x1B < kind) → frameCmd kind tag body = .unknownRequestKind ⟨tag, true⟩ kind)
      ∧ (1 ≤ kind → kind ≤ 0x1B → ∃ h, requestOf (frameCmd kind tag body) = some (kind, h) ∧ h.tag = tag
          ∧ (kind ∈ [0x01, 0x03, 0x04, 0x06, 0x14, 0x15] → (h.bodyOk = true ↔ body.length = 0))
          ∧ (kind ∈ [0x0D, 0x11, 0x12, 0x13, 0x16, 0x18, 0x19] → (h.bodyOk = true ↔ body.length = 1))
          ∧ (kind ∈ [0x0A, 0x0F] → (h.bodyOk = true ↔ body.length = 2))
          ∧ (kind = 0x09 → (h.bodyOk = true ↔ body.length = 3))
          ∧ (kind ∈ [0x05, 0x08] → (h.bodyOk = true ↔ body.length = 4))
          ∧ (let at' := fun i : Nat => (body.getD i 0#8).toNat
             let item := fun l : List Byte => ∃ (n : Byte) (c : List Byte), l = n :: c ∧ n.toNat = c.length ∧ 1 ≤ c.length
               ∧ c.length ≤ 16 ∧ ∀ b ∈ c, 0x20 ≤ b.toNat ∧ b.toNat ≤ 0x7E
             (kind = 0x07 → (h.bodyOk = true ↔ 8 ≤ body.length ∧ item (body.drop 8)))
             ∧ (kind = 0x0B → (h.bodyOk = true ↔ body.length = 4 ∨ body.length = 6))
             ∧ (kind = 0x0C → (h.bodyOk = true ↔ 2 ≤ body.length ∧ item (body.drop 2)))
             ∧ (kind = 0x0E → (h.bodyOk = true ↔ body.length = 1 ∨ item (body.drop 1)))
             ∧ (kind = 0x10 → (h.bodyOk = true ↔ body.length = 5 ∧ at' 0 ≤ 1))
             ∧ (kind = 0x17 → (h.bodyOk = true ↔ body.length = 6 ∧ (at' 1 = 1 ∨ at' 1 = 2)))
             ∧ (kind = 0x1A → (h.bodyOk = true ↔ body.length = 1 ∧ (at' 0 = 1 ∨ at' 0 = 2)))
             ∧ (kind = 0x1B → (h.bodyOk = true ↔ body.length = 1 ∧ 1 ≤ at' 0 ∧ at' 0 ≤ 3))
             ∧ (kind = 0x02 → (h.bodyOk = true ↔ ∃ l : List (Byte × List Byte), l ≠ []
                 ∧ body = l.flatMap (fun p => p.1 :: BitVec.ofNat 8 p.2.length :: p.2)
                 ∧ ∀ p ∈ l, p.2.length ≤ 255 ∧ sectionFits p.1.toNat p.2))))

/-- A hunting receiver that takes SYNC and a LEN above 240 discards the frame at once; one that takes a whole frame
whose CRC does not match discards it at its last byte; a frame in progress that receives no byte for 10 ds is
discarded, whatever the model's own count says (log 73: the model's choice). Each raises the count of discards. A
hunting receiver has nothing to discard. A whole frame whose CRC matches acts at once as the command that its kind,
tag and body spell (logs 33 and 73: the model's choice). A break of 20 bit times or more resets the link: the frame
in progress, the overrun list, the inbox and a Restart not begun are dropped, and everything else is kept, a Restart
among it whose reply has ended and that is due (log 35: the model's reading of when it begins); a shorter break
changes nothing. -/
def Obligations.BadFrameIsDiscarded : Prop :=
  (∀ (len k t : Byte) (body : List Byte) (lo hi : Byte) (s : State), s.link.rx = .hunting →
    s.link.discards < 65535 →
    (240 < len.toNat → CompletesQuietly (.frameDiscarded [0xC3#8, len]) s
      { clearBus s with link := { s.link with discards := s.link.discards + 1 } })
    ∧ (len.toNat ≤ 240 → body.length = len.toNat → [lo, hi] ≠ leBytes 2 (crc16 (len :: k :: t :: body)).toNat →
        CompletesQuietly (.frameDiscarded (0xC3#8 :: len :: k :: t :: (body ++ [lo, hi]))) s
          { clearBus s with link := { s.link with discards := s.link.discards + 1 } }))
  ∧ (∀ (n : Nat) (s : State),
    (20 ≤ n → CompletesQuietly (.linkReset n) s { clearBus s with
      link := { s.link with
        rx := .hunting, overrun := [], inbox := []
        restart := match s.link.restart with | .due => .due | .none | .taken _ => .none } })
    ∧ (n < 20 → CompletesQuietly (.linkReset n) s (clearBus s)))
  ∧ ∀ s : State,
      (∀ bytes n, s.link.rx = .frame bytes n → s.link.discards < 65535 →
        CompletesQuietly (.frameByteTimeout []) s
          { clearBus s with link := { s.link with rx := .hunting, discards := s.link.discards + 1 } })
      ∧ (s.link.rx = .hunting → s.link.discards ≤ 65535 → CompletesQuietly (.frameByteTimeout []) s (clearBus s))
      ∧ ∀ (len k t : Byte) (body : List Byte), s.link.rx = .hunting → body.length = len.toNat → len.toNat ≤ 240 →
          let core := len :: k :: t :: body
          exec (.frameDiscarded (0xC3#8 :: (core ++ leBytes 2 (crc16 core).toNat))) s
            = exec (frameCmd k.toNat t.toNat body) s

/-- The end of a transmission frees the transmitter: a sent overrun entry leaves its list (log 34: an entry is
listed until its frame has ended, the model's reading of the example after R208), a sent reply takes its request out
of the inbox, a sent notice leaves the outbox, and the reply to the very Restart taken makes the warm restart due,
with inbox, overrun list and outbox emptied (to one that a link reset has dropped meanwhile, no reply does: log 35).
A free transmitter then takes the oldest overrun entry, or the ready reply at the head of the inbox, or the oldest
notice; one that is sending goes on, and none begins while a restart is due. -/
def Obligations.TransmitterServesInOrder : Prop :=
  (∀ s : State, ∃ u, CompletesQuietly .transmitComplete s u ∧ SameElse s u ∧ u.link.tx = none
    ∧ (∀ r, s.link.tx = some (.overrun r) → u.yard = { s.yard with bus := [] }
        ∧ u.link = { s.link with
            tx := none, overrun := if s.link.overrun.head? = some r then s.link.overrun.drop 1 else s.link.overrun })
    ∧ (∀ id r, s.link.tx = some (.reply id r) →
        if s.link.restart = .taken id then
          u.link = { s.link with tx := none, inbox := [], overrun := [], restart := .due }
          ∧ u.yard = { s.yard with bus := [], post := { s.yard.post with outbox := [], sending := false } }
        else
          u.link = { s.link with tx := none, inbox := s.link.inbox.filter fun q => q.id ≠ id }
          ∧ u.yard = { s.yard with bus := [] })
    ∧ (∀ n, s.link.tx = some (.notice n) → s.yard.post.sending = true →
        u.yard.post.outbox = s.yard.post.outbox.drop 1 ∧ u.yard.post.sending = false)
    ∧ (s.link.tx = none → u = clearBus s))
  ∧ ∀ s : State,
      (s.link.tx.isSome → transmit s = s)
      ∧ (s.link.restart = .due → transmit s = s)
      ∧ (s.link.tx = none → s.link.restart ≠ .due →
        (∀ r l, s.link.overrun = r :: l → transmit s = { s with link := { s.link with tx := some (.overrun r) } })
        ∧ (s.link.overrun = [] → ∀ q l r, s.link.inbox = q :: l → q.reply = some r →
            transmit s = { s with link := { s.link with tx := some (.reply q.id r) } })
        ∧ (s.link.overrun = [] → (∀ q ∈ s.link.inbox.head?, q.reply = none) →
            (s.yard.post.outbox = [] → transmit s = s)
            ∧ ∀ n l, s.yard.post.outbox = n :: l → (transmit s).link.tx = some (.notice n)
                ∧ (transmit s).yard.post = { s.yard.post with sending := true }))

/-- A notice that finds the outbox full: of an urgent area, it comes in at the tail and the oldest notice of another
area leaves, or else the oldest of all; of another area, it is lost. The notice being sent stays at
the head and is never the one that leaves, and the outbox holds 32 as before. -/
def Obligations.FullOutboxKeepsUrgentNotices : Prop :=
  ∀ (e : Env) (k : NoticeKind) (items : List Fld) (y : Yard), y.post.outbox.length = 32 →
    let n : Notice := ⟨k, e.now, y.post.seq, items⟩
    let z := notify e k items y
    z.post.outbox.length = 32
    ∧ z.post.lost = (if y.post.lost < 65535 then y.post.lost + 1 else y.post.lost)
    ∧ z.post.seq = (if y.post.seq < 65535 then y.post.seq + 1 else 1)
    ∧ z.post.flags[areaCode (noticeArea k)] = true
    ∧ (y.post.sending = true → z.post.outbox.head? = y.post.outbox.head?)
    ∧ (urgent (noticeArea k) = true → z.post.outbox.getLast? = some n)
    ∧ (urgent (noticeArea k) = false → z.post.outbox = y.post.outbox)
    ∧ (let sent := if y.post.sending then y.post.outbox.take 1 else []
       let rest := if y.post.sending then y.post.outbox.drop 1 else y.post.outbox
       urgent (noticeArea k) = true →
        (∀ before m behind, rest = before ++ m :: behind → (∀ x ∈ before, urgent (noticeArea x.kind) = true) →
          urgent (noticeArea m.kind) = false → z.post.outbox = sent ++ before ++ behind ++ [n])
        ∧ ((∀ x ∈ rest, urgent (noticeArea x.kind) = true) → z.post.outbox = sent ++ rest.drop 1 ++ [n]))

/-- Identify, the queries of one record and QueryWing are answered OK with the items their rules list, in that
order, as the records stand, and change nothing but the link and, for QueryWing, the change flags named in its mask.
A station above 4 (or 0, of a tray), an aisle outside 1 to 6 and a selector above 1 are refused FORM, an order or a
slip not in the queue UNKNOWN. Where the rules and spec 11.8 leave a form open it is the model's: the part name as
an item-code field and the revision in 2 bytes (log 3), ages that read 0 while the stamp is later than the clock
(log 31), codes in the order listed and plan steps by their place in the plan (log 14), the segment, the task's names and the unset fields (log 17), the place in the release list (log
68), a transfer (log 75), the survey's next position (log 76), absent values of the sweep (log 77), the session's
state byte (log 15), the ages in 4 bytes (log 85), the smallest Waiting width 0 where no item waits (log 86), the
halt indication as it was set last (log 90), no survey held and an aisle that is not Surveying (log 105), the source
of a rise in three bytes (log 107), QueryWing's own entry in the inbox (log 20), a reply of more than 240
bytes (log 19), mask bit 7 (log 78). -/
def Obligations.QueriesAreAnswered : Prop :=
  (∀ (h : ReqHdr) (s : State), Taken h s →
    let y := s.yard
    let g := s.cfg.geometry
    let w := s.wing
    let v := s.sweep
    let now := s.clock.sec
    let answered := fun (c : Instr) (k : Nat) (items : List Fld) =>
      CompletesQuietly c s { clearBus s with link := answeredLink k h .ok items s.link }
    let refused := fun (c : Instr) (k : Nat) (code : ReplyCode) =>
      CompletesQuietly c s { clearBus s with link := answeredLink k h code [] s.link }
    let timer := fun x : Option Nat => Fld.u2 (x.getD 0xFFFF)
    let stamp := fun x : Option Nat => Fld.u4 (x.getD 0xFFFFFFFF)
    let source := fun x : Option Source => match x with
      | none => ([.u1 0, .u1 0, .u1 0] : List Fld)
      | some (.zone z i) => [.u1 1, .u1 z.val, .u1 i.val]
      | some (.panel p) => [.u1 2, .u1 (panelCode p), .u1 0]
    let pick := fun p : Pick => ([.u4 p.slip, .item p.item, .u1 p.width, .u1 (pickStCode p.st)] : List Fld)
    let order := fun o : Order => ([.u2 o.no, .u2 o.bin, .u1 (stationNo o.station), .u1 (classCode o.cls),
        .u1 (orderStCode o.st), .u1 (orderReasonCode o.st), flag o.closing, flag o.retire, .u4 o.entry, .u4 (now - o.entry),
        .u2 (1 + y.orders.findIdx fun x => x.no = o.no)] : List Fld) ++ listFlds o.picks pick
      ++ match orderEstimate (envOf s) o y with
        | some n => [.u2 n, .s2 ((n : Int) - ((min 1000 ((now - o.entry) * s.cfg.aging) : Nat) : Int))]
        | none => [.u2 0xFFFF, .u2 0xFFFF]
    answered (.identify h) 0x01 [.item Config.partName, .u2 Config.revision, .u1 g.aisleCount, .u1 g.columns, .u1 g.levels,
      flag s.cfg.geomValid, .u1 (rateCode s.link.rate), .u1 (if y.disc.warm then 2 else 1), .u4 now, .u2 y.disc.defaulted.length]
    ∧ answered (.querySweep h) 0x14 ([.u1 (if v.warmLeft.isSome then 1 else 2), .u2 (v.warmLeft.getD 0), .u1 (runCode v.run),
        .u1 (if v.single then 2 else 1), .u1 v.start.val, .u1 v.stop.val, .u1 v.next.val,
        .u1 ((v.conv.map (·.val)).getD 0xFF), .u4 v.passes]
      ++ ([0, 1, 2, 3, 4, 5, 6, 7, 8, 9, 10, 11, 12, 13, 14, 15] : List Slot).flatMap (fun i =>
        let r := v.slots[i]
        let th := fun t : Thresholds => ([.s2 t.pre, .s2 t.alarm, optS2 t.trip, .u2 t.hyst, .u1 t.confirm] : List Fld)
        [.u1 (kindCode r.cfg.kind), .u1 r.cfg.zone.val, .s2 r.cfg.low, .u2 r.cfg.span] ++ th r.cfg.th
          ++ (match r.pend with | some t => flag true :: th t | none => [flag false])
          ++ [.u1 (stageCode r.stage), .u2 r.settlingLeft, .u2 r.preCount, .u2 r.alarmCount]
          ++ [timer (r.last.map (·.1)), optS2 (r.last.bind (·.2))])
      ++ ([0, 1, 2, 3] : List Zone).flatMap fun z =>
        [.u1 (zoneStageCode v.zones[z].stage), flag v.zones[z].degraded] ++ listFlds (zoneFaults v z) fun i => [.u1 i.val])
    ∧ answered (.queryIncident h) 0x15 (.u4 w.incidentNo :: match w.incident with
      | none => []
      | some r => [.u1 (if r.isOpen then 1 else 2), flag r.restored] ++ source r.cause ++ [stamp r.start, .u1 (levelCode r.highest)]
        ++ listFlds r.triggers (fun t => .u4 t.stamp :: (source (some t.source) ++ [.u1 (levelCode t.level)]))
        ++ [.u2 r.later] ++ listFlds r.notParked (fun p => [.u1 (aisleNo p.1), .u1 (carrierStCode p.2)])
        ++ listFlds r.bins (fun b => [.u2 b.bin, .u1 (aisleNo b.aisle), .cell b.cell, .u1 (if b.unverified then 2 else 1)])
        ++ [flag r.obstructed, .u1 (match r.flush with | none => 0 | some .done => 1 | some .failed => 2), stamp r.resume])
    ∧ (∀ st : Station,
        let r := y.stations[st]
        let t := y.trays[st]
        let place := fun p : Option PlaceBin => ([opt2 (p.map (·.bin)), optAisle (p.bind (·.source))] : List Fld)
        let count := countBin r.next + countBin r.present + (y.lines.delivery.filter fun p => p.station = st).length
          + (y.orders.filter fun o => o.station = st ∧ o.st = .assigned).length
        let waiting := t.items.filter fun i => i.st = .waiting
        answered (.queryStation h (stationNo st)) 0x11 ([.u1 (roleCode r.role), .u1 s.cfg.stations[st].allowance]
          ++ place r.next ++ place r.present ++ [.u2 count, .s2 (2 + (s.cfg.stations[st].allowance : Int) - (count : Int)),
            .u1 (if y.lines.releaseList.contains st then 1 + y.lines.releaseList.findIdx (· = st) else 0)]
          ++ match r.session with
            | some q =>
              let o := q.order.bind fun no => orderOf no y
              [.u1 (if q.releasing then 2 else 1), .u2 q.bin, opt2 q.order, .u1 ((o.map fun o => classCode o.cls).getD 0),
                  flag q.armed, .u4 q.opened]
                ++ listFlds ((o.map (·.picks)).getD []) pick ++ listFlds q.placements (fun p => [.item p.item, .u1 p.width])
                ++ [timer q.idle, flag (decide (w.st ≠ .normal) && q.idle.isSome),
                  timer q.auto, flag (decide (w.st ≠ .normal) && q.auto.isSome)]
            | none => match r.present with
              | some p => if (getBin p.bin y).any (·.retirePending) then [.u1 3, .u2 p.bin] else [.u1 0, .u2 0]
              | none => [.u1 0, .u2 0])
        ∧ answered (.queryTray h (stationNo st)) 0x13 ([.u1 (roleCode r.role), .u2 s.cfg.th, .u2 s.cfg.waitLimit, flag t.demand,
            .u2 t.placed, flag t.noSpace, opt2 t.spaceOrder,
            .u1 ((t.spaceOrder.bind fun no => (orderOf no y).map fun o => orderStCode o.st).getD 0),
            .u2 waiting.length, .u2 (t.items.length - waiting.length), .u2 (waiting.map (·.width)).sum,
            .u1 ((smallestWidth t).getD 0)]
          ++ listFlds t.items fun i => [.item i.item, .u1 i.width, .u4 i.stamp, .u4 (now - i.stamp), flag i.mark]
            ++ match i.st with | .waiting => [.u1 1, .u2 0] | .assigned b => [.u1 2, .u2 b]))
    ∧ (let l := y.lines
       let line := fun (r : LineRec) (list : List Fld) (n m : Nat) =>
         [.u1 (lineStCode r.st), .u1 (lineFaultCode r.fault)] ++ list ++ [.u2 n, .u2 m]
           ++ listFlds r.transfers fun x => [.u1 (transferCode x.kind), .u2 x.no, .u2 x.bin, .u1 (transferEnd x.kind), .u2 x.left]
       answered (.queryStation h 0) 0x11
         (line l.del (listFlds l.delivery fun p => [.u2 p.bin, .u1 (stationNo p.station)]) l.delivery.length (deliveryCommitted y)
         ++ line l.ret (listFlds l.returns fun p => [.u2 p.bin, .u1 (aisleNo p.aisle)]) l.returns.length (returnCommitted y)
         ++ ([0, 1, 2, 3, 4, 5] : List Aisle).map (fun a => opt2 l.inbound[a])
         ++ listFlds l.mergeList (fun a => [.u1 (aisleNo a)]) ++ [optAisle l.mergeGrant]
         ++ listFlds l.releaseList (fun st => [.u1 (stationNo st)])
         ++ [.u2 ((([0, 1, 2, 3] : List Station).filter fun x => y.stations[x].role ≠ .closed).map
             fun x => 2 + s.cfg.stations[x].allowance).sum]))
    ∧ (∀ a : Aisle,
        let c := y.carriers[a]
        let e := y.est[a]
        let cells := unverifiedCells a y
        answered (.queryCarrier h (aisleNo a)) 0x12 ([.u1 (carrierStCode c.st)] ++ posFlds c.pos
          ++ [opt2 c.load, .u1 ((c.task.map taskCode).getD 0), .u1 ((c.task.map stepCode).getD 0)]
          ++ (match c.task with
            | some (.retrieve no _ _ _ _) => [.u2 no]
            | some (.putaway b _ _) => [.u2 b]
            | some (.survey r) => [.u1 (if r.full then 2 else 1), .u2 r.startCol, .u2 r.stopCol]
            | _ => [])
          ++ [.cell ((c.task.bind taskCell).filter fun x =>
              match getCell (envOf s) x y with | .reserved _ _ => true | _ => false)]
          ++ (match c.seg with
            | none => [.u1 0]
            | some i => [.u1 (segKindCode i.kind), .u2 i.no]
              ++ (match i.target with
                | .pos k l => [.u1 k, .u1 l, .cell none]
                | .cell x => [.u1 x.col, .u1 x.level, .cell (some x)]
                | .inboundPlace | .mouth => [.u1 0, .u1 0, .cell none]
                | .nothing => [.u1 0xFF, .u1 0xFF, .cell none])
              ++ [timer (i.deadline.map fun _ => i.estimate), timer (i.deadline.map fun _ => i.left),
                .u1 ((i.cut.map segKindCode).getD 0)])
          ++ [.u1 ((c.fault.map faultCode).getD 0), .u1 (assignCode e.inForce)]
          ++ (if e.inForce = .off then List.replicate 6 (.u1 0xFF) else [.u1 e.vset.rampH, .u1 e.vset.paceH, .u1 e.vset.rampV,
              .u1 e.vset.paceV, .u1 e.vset.forkFront, .u1 e.vset.forkDeep])
          ++ [.u1 (pstateCode e.st), timer (if e.st = .settling then some e.settleLeft else none), flag (aisleReady (envOf s) a y),
            .u1 (if y.verif[a].doubt = false ∧ cells = [] then 1 else 2), flag y.verif[a].doubt, .u2 cells.length]
          ++ (match y.arbs[a].surveyReq with
            | some q => [.u1 (if q.full then 2 else 1), .u2 q.startCol, .u2 q.stopCol]
            | none => [.u1 0, .u2 0, .u2 0])
          ++ match surveyOf a y with
            | some r => [.u1 (if r.full then 2 else 1), .u2 r.startCol, .u2 r.stopCol,
                flag (decide (c.st = .held) || decide (c.st = .clearing))]
              ++ posFlds r.todo.head? ++ [.u2 r.todo.length, .u2 r.scope.length, .u2 r.scopeRead.length, .u2 r.corrected.length,
                .u2 r.unreadable, .u2 r.incomplete, .u2 r.shadowed, .u2 r.conflicts, .u2 r.displaced]
            | none => [.u1 0]))
    ∧ (let count := fun p : OrderSt → Bool => Fld.u2 (y.orders.filter fun o => p o.st).length
       ∃ n, answered (.queryOrder h 0 0) 0x10 [.u2 y.orders.length, count (· = .queued),
          count (fun x => match x with | .blocked _ => true | _ => false), count (· = .assigned), count (· = .delivering),
          count (· = .atStation), .u2 (y.orders.filter (·.closing)).length, .u2 n]
        ∧ ((∀ o ∈ y.orders, o.no ≠ y.nextOrder) → n = y.nextOrder))
    ∧ (∀ n o, (n ≠ 0 ∧ orderOf n y = some o → answered (.queryOrder h 0 n) 0x10 (order o))
        ∧ ((y.orders.find? fun o => o.picks.any fun p => p.slip = n) = some o → answered (.queryOrder h 1 n) 0x10 (order o))
        ∧ (n ≠ 0 → orderOf n y = none → refused (.queryOrder h 0 n) 0x10 .unknown)
        ∧ ((∀ o ∈ y.orders, ∀ p ∈ o.picks, p.slip ≠ n) → refused (.queryOrder h 1 n) 0x10 .unknown))
    ∧ (∀ n m, (2 ≤ n → refused (.queryOrder h n m) 0x10 .form) ∧ (4 < n → refused (.queryStation h n) 0x11 .form)
        ∧ ((n = 0 ∨ 4 < n) → refused (.queryTray h n) 0x13 .form) ∧ ((n = 0 ∨ 6 < n) → refused (.queryCarrier h n) 0x12 .form))
    ∧ ∀ mask, ∃ u, CompletesQuietly (.queryWing h mask) s u ∧ SameElse s u
        ∧ u.link = answeredLink 0x16 h .ok ([.u1 (flagByte y.post.flags), .u4 now,
            .u1 (wingStCode w.st), .u1 (levelCode w.cause), flag w.panel.stage1, flag w.panel.stage2, flag w.panel.discharge,
            flag w.shutClose, flag w.drvPwr, flag w.workHeld, flag w.wingOk]
          ++ listFlds w.clearing (fun p => [.u1 (aisleNo p.1), .u1 (match p.2 with | .awaiting => 1 | .requested => 2)])
          ++ [timer w.holdTimer, timer w.parkTimer, timer w.restartTimer, flag w.halt, .u2 s.cfg.fire.holdClear,
            .u2 s.cfg.fire.parkDeadline, .u1 s.cfg.fire.parkColumn, .u2 s.cfg.fire.restartDelay,
            .u2 y.journal.entries.length, flag y.journal.holdOff, .u2 y.journal.errors,
            .u2 (y.journal.ctl.filter fun x => match x with | .settings _ => true | _ => false).length,
            .u2 y.post.outbox.length, .u2 y.post.seq, .u2 y.post.lost,
            .u2 (s.link.inbox.length + 1), .u2 s.link.discards, .u2 s.link.overrunDrops]) s.link
        ∧ u.yard = { y with bus := [], post := { y.post with flags := u.yard.post.flags } }
        ∧ ∀ i : Fin 7, u.yard.post.flags[i] = (y.post.flags[i] && !(mask.testBit i.val)))
  ∧ (∀ v : Vector Bool 7, flagByte v < 128 ∧ ∀ i : Fin 7, (flagByte v).testBit i.val = v[i])
  ∧ (([.standby, .normal, .hold, .clearing, .parking, .sealing, .sealed, .restarting].map wingStCode = [1, 2, 3, 4, 5, 6, 7, 8])
    ∧ ([.none, .hold, .park, .trip].map levelCode = [0, 1, 2, 3])
    ∧ ([.offline, .idle, .moving, .forking, .waitMerge, .held, .clearing, .parking, .parked, .halted, .faulted].map carrierStCode
      = [1, 2, 3, 4, 5, 6, 7, 8, 9, 10, 11])
    ∧ ([.notFound, .mismatch, .forkJam, .deadline, .driveFault, .binDamaged, .halted].map faultCode = [1, 2, 3, 4, 5, 6, 7])
    ∧ ([.lending, .returns, .mixed, .closed, .closing].map roleCode = [1, 2, 3, 4, 5])
    ∧ ([.queued, .blocked .unverified, .assigned, .delivering, .atStation].map orderStCode = [1, 2, 3, 4, 5])
    ∧ ([.unverified, .inTransit, .aisleDown, .noRoom, .frontReserved].map reasonCode = [1, 2, 3, 4, 5])
    ∧ ([.reader, .space, .staff].map classCode = [1, 2, 3])
    ∧ ([.opened, .done, .absent, .cancelled, .unserved].map pickStCode = [1, 2, 3, 4, 5])
    ∧ ([.profileA, .profileB, .slow, .off].map assignCode = [1, 2, 3, 4])
    ∧ ([.steady, .pending, .settling].map pstateCode = [1, 2, 3])
    ∧ ([.stopped, .starting, .running, .stopping].map runCode = [1, 2, 3, 4])
    ∧ ([.unused, .smoke, .heat, .humidity].map kindCode = [1, 2, 3, 4])
    ∧ ([.settling, .normal, .preAlarm, .alarm, .trip, .fault].map stageCode = [1, 2, 3, 4, 5, 6])
    ∧ ([.stored, .onCarrier, .onDelivery, .atStation, .onReturn, .inbound, .unverified, .retired].map binStCode
      = [1, 2, 3, 4, 5, 6, 7, 8])
    ∧ ∀ (n b : Nat) (x : CellAddr) (p : Nat × CellAddr) (z : Option CellAddr) (r : SurveyRun),
      ([.toBin, .takeBin, .toMouth, .waitMerge, .handoff].map (fun k => stepCode (.retrieve n b x k none)) = [1, 2, 3, 4, 5])
      ∧ ([.toFront, .takeFront, .toTarget, .putTarget, .toBin, .takeBin, .toMouth, .waitMerge, .handoff].map
          (fun k => stepCode (.retrieve n b x k (some p))) = [1, 2, 3, 4, 5, 6, 7, 8, 8])
      ∧ ([.toMouth, .takeInbound, .choose, .toCell, .putCell].map (fun k => stepCode (.putaway b k z)) = [1, 2, 3, 4, 5])
      ∧ stepCode (.survey r) = (if r.reading then 2 else 1) ∧ stepCode (.parkPlace b x n false) = 1
      ∧ stepCode (.parkPlace b x n true) = 2 ∧ stepCode (.parkMove n) = 1 ∧ stepCode .clearMove = 1)

/-- Locate reports a bin's record as it stands, with the cell reserved for it while a fork carries it there;
an unknown bin is refused UNKNOWN. It is taken in every wing state. -/
def Obligations.LocateReportsBinRecord : Prop :=
  ∀ (h : ReqHdr) (b : Nat) (s : State), Taken h s →
    (∀ r, getBin b s.yard = some r →
      let items : List Fld := [.u1 (binStCode r.st), .cell r.cell, optAisle r.aisle, optStation r.station, opt2 r.live,
        .u2 r.fill, .u2 r.capacity, flag r.damaged, flag r.retirePending, .cell (reservedCell (envOf s) b s.yard)]
      CompletesQuietly (.locate h b) s { clearBus s with link := answeredLink 0x0F h .ok items s.link })
    ∧ (getBin b s.yard = none → CompletesQuietly (.locate h b) s
      { clearBus s with link := answeredLink 0x0F h .unknown [] s.link })

/-! ## Map, bins and journal -/

/-- A cell can be picked or can receive a bin exactly as the slot map says of its own record and of the
front cell before a deep one. A front cell is a placement candidate when it is Empty and its deep cell is neither
Reserved nor Unverified; a deep cell when it and its front cell are Empty. An aisle has a candidate when some cell of it
within the geometry is one. -/
def Obligations.CellAccess : Prop :=
  ∀ (e : Env) (a : CellAddr) (b : Nat) (y : Yard),
    ((canPick e a y = true ↔ (∃ f, getCell e a y = .occupied f)
      ∧ (a.depth = .deep → getCell e { a with depth := .front } y = .empty))
    ∧ (canPlace e a b y = true ↔ (getCell e a y = .empty ∨ ∃ p, getCell e a y = .reserved b p)
      ∧ (a.depth = .deep → getCell e { a with depth := .front } y = .empty)))
    ∧ (a.depth = .front → (candidate e a y = true ↔ getCell e a y = .empty
      ∧ (∀ b p, getCell e { a with depth := .deep } y ≠ .reserved b p)
      ∧ ∀ b, getCell e { a with depth := .deep } y ≠ .unverified b))
    ∧ (a.depth = .deep → (candidate e a y = true ↔ getCell e a y = .empty
      ∧ getCell e { a with depth := .front } y = .empty))
    ∧ ∀ n : Aisle,
        (hasCandidate e n y = true ↔ ∃ x : CellAddr, x.aisle = n ∧ candidate e x y = true)

/-- A change for the journal: an entry of its key takes the new content in place, and a write of it in flight is out
of date; else a marked record stays marked; else it joins the tail of an open list of fewer than 64 that no sealing
flush empties, hold-off beginning at 64 and ending at 48 or fewer; and else it is marked. A flash write that
completes is stored; an entry leaves the list unless its content has been replaced since, and a marker, incident,
summary or settings write leaves the head of its own line; the one that ends the sealing flush closes the journal
and seals the wing. A write that ends with an error changes nothing in flash: outside Sealing it stays first in
line, the errors are one more (held at 65,535: log 20, the model's reading, R19 giving that count no ceiling), and
the journal waits 50 ds; during the sealing flush it ends the flush Failed and the wing is Sealed, the settings and
incident writes kept (log 28: the model's reading). The end of the wait frees the writer. A free writer begins the
oldest marker, incident, summary or settings write, or else the oldest entry, with the clean marker made false
first; that a control write goes before an entry whose write has failed is log 61, the model's choice. -/
def Obligations.JournalTakesChange : Prop :=
  (∀ (k : JKey) (v : JVal) (j : Journal), j.entries.length ≤ 64 →
    let z := journalChange k v j
    let listed := k ∈ j.entries.map (·.key)
    (listed → z = { j with
        entries := j.entries.map fun e => if e.key = k then { e with val := v } else e
        writing := match j.writing with | some (.entry e r) => some (.entry e (r || decide (e.key = k))) | w => w })
    ∧ (¬listed → marked j k = true → z = j)
    ∧ (¬listed → marked j k = false → j.closed = false → j.sealing = none → j.entries.length < 64 →
        z = { j with
          entries := j.entries ++ [⟨k, v⟩]
          holdOff := if j.entries.length = 63 then true else if j.entries.length ≤ 47 then false else j.holdOff })
    ∧ (¬listed → marked j k = false → (j.closed = true ∨ j.sealing.isSome ∨ j.entries.length = 64) →
        z = mark j k ∧ marked z k = true ∧ ∀ x, marked j x = true → marked z x = true))
  ∧ (∀ s : State, ∃ u, Completes .flashWriteComplete s u ∧ u.cfg = s.cfg ∧ u.clock = s.clock ∧ u.pending = s.pending
    ∧ SameStock s.yard u.yard ∧ SameMotion s.yard u.yard ∧ SameDesks s.yard u.yard ∧ u.yard.orders = s.yard.orders
    ∧ (∀ e, s.yard.journal.writing = some (.entry e true) →
        u.flash = putEntry s.flash e ∧ u.yard.journal.entries = s.yard.journal.entries ∧ u.yard.journal.writing = none
          ∧ u.yard.journal.ctl = s.yard.journal.ctl ∧ u.yard.journal.errors = 0 ∧ u.wing = s.wing)
    ∧ (∀ e, s.yard.journal.writing = some (.entry e false) →
        u.flash = putEntry s.flash e ∧ u.yard.journal.entries = s.yard.journal.entries.drop 1
          ∧ u.yard.journal.writing = none ∧ u.yard.journal.errors = 0 ∧ u.wing = s.wing)
    ∧ (∀ w, s.yard.journal.writing = some (.ctl w) →
        u.flash = putCtl s.flash w ∧ u.yard.journal.entries = s.yard.journal.entries ∧ u.yard.journal.writing = none
          ∧ u.yard.journal.ctl = s.yard.journal.ctl.drop 1 ∧ u.yard.journal.errors = 0)
    ∧ (s.wing.st = .sealing → s.yard.journal.writing = some (.ctl (.clean true)) →
        (∃ keys, s.yard.journal.sealing = some (keys, true)) →
        u.wing.st = .sealed ∧ u.yard.journal.closed = true ∧ u.yard.journal.sealing = none ∧ u.flash.clean = true
          ∧ u.wing.incident.map (·.flush) = s.wing.incident.map fun _ => some .done)
    ∧ (s.yard.journal.writing = none → s.wing.st ≠ .sealing → u = clearBus s))
  ∧ (∀ s : State, s.yard.journal.writing.isSome → ∃ u, Completes .flashWriteError s u ∧ u.flash = s.flash ∧ u.cfg = s.cfg
    ∧ u.clock = s.clock ∧ u.pending = s.pending ∧ SameStock s.yard u.yard ∧ SameMotion s.yard u.yard
    ∧ SameDesks s.yard u.yard ∧ u.yard.orders = s.yard.orders ∧ u.yard.journal.entries = s.yard.journal.entries
    ∧ u.yard.journal.writing = none
    ∧ (s.wing.st ≠ .sealing → u.yard.journal.ctl = s.yard.journal.ctl ∧ u.yard.journal.retryLeft = some 50
        ∧ u.yard.journal.errors = (if s.yard.journal.errors < 65535 then s.yard.journal.errors + 1 else s.yard.journal.errors)
        ∧ u.wing = s.wing)
    ∧ (s.wing.st = .sealing → s.yard.journal.sealing.isSome → u.wing.st = .sealed ∧ u.yard.journal.closed = true
        ∧ u.yard.journal.sealing = none ∧ u.yard.journal.retryLeft = none
        ∧ (∀ v, .settings v ∈ s.yard.journal.ctl → .settings v ∈ u.yard.journal.ctl)
        ∧ (∀ n, .incident n ∈ s.yard.journal.ctl → .incident n ∈ u.yard.journal.ctl)
        ∧ u.wing.incident.map (·.flush) = s.wing.incident.map fun _ => some .failed))
  ∧ (∀ s : State, ∃ u, Completes .journalRetryExpiry s u ∧ SameElse s u ∧ u.link = s.link
    ∧ u.yard = { s.yard with bus := [], journal := { s.yard.journal with retryLeft := none } })
  ∧ ∀ (clean : Bool) (j : Journal), j.writing = none → j.retryLeft = none → j.closed = false →
      (∀ w l, j.ctl = w :: l → beginWrite clean j = { j with writing := some (.ctl w) })
      ∧ (∀ e l, j.ctl = [] → j.entries = e :: l → beginWrite false j = { j with writing := some (.entry e false) }
          ∧ beginWrite true j = { j with ctl := [.clean false], writing := some (.ctl (.clean false)) })

/-- Flush is answered OK at once when nothing is to be written, BUSY while the journal is closed with
something to write, and otherwise waits for the entries in the list and the marked records. An entry written whose
content has not been replaced is one write fewer for each Flush that waits, and the one that has no more to wait for is
answered OK; where that leaves nothing to write or marked, the clean marker is asked for (R20; unless it stands true with
no control write waiting: log 51, the model's reading). A write error answers BUSY every Flush that the entry's key
was covered by, and so does the end of the sealing flush, done or failed, every Flush. The first error since a
success raises JournalFault with the write's kind and key (the kind's code: log 15, the model's choice), and a further
one none. -/
def Obligations.FlushWaitsForItsWrites : Prop :=
  (∀ (h : ReqHdr) (s : State), Taken h s → ∃ u, Completes (.flush h) s u ∧ SameElse s u ∧ SameStock s.yard u.yard
    ∧ SameMotion s.yard u.yard ∧ SameDesks s.yard u.yard ∧ u.yard.orders = s.yard.orders
    ∧ u.yard.journal.entries = s.yard.journal.entries
    ∧ (coveredKeys s.yard.journal = [] → u.link = answeredLink 0x06 h .ok [] s.link)
    ∧ (coveredKeys s.yard.journal ≠ [] → s.yard.journal.closed = true → u.link = answeredLink 0x06 h .busy [] s.link)
    ∧ (coveredKeys s.yard.journal ≠ [] → s.yard.journal.closed = false → u.link = waitingLink 0x06 h s.link
        ∧ u.yard.journal = { s.yard.journal with
            flushes := s.yard.journal.flushes ++ [⟨s.link.nextId, coveredKeys s.yard.journal⟩] }))
  ∧ ∀ s : State,
    let j := s.yard.journal
    let sealing := s.wing.st = .sealing ∧ j.sealing.isSome
    let answered := fun (u : State) (code : ReplyCode) (p : FlushWait → Prop) =>
      (∀ w ∈ j.flushes, p w → ∀ q ∈ s.link.inbox, q.id = w.id → q.reply = none →
        { q with reply := some ⟨q.kind + 0x40, q.tag, code, []⟩ } ∈ u.link.inbox)
      ∧ ((∀ w ∈ j.flushes, ¬p w) → u.link = s.link)
    (∀ e, j.writing = some (.entry e false) → ∃ u, Completes .flashWriteComplete s u
        ∧ u.yard.journal.flushes = (j.flushes.map fun w => { w with keys := w.keys.filter fun k => k ≠ e.key }).filter
            fun w => w.keys ≠ []
        ∧ answered u .ok (fun w => ∀ k ∈ w.keys, k = e.key)
        ∧ u.yard.journal.ctl = (if (∃ w ∈ j.flushes, ∀ k ∈ w.keys, k = e.key) ∧ j.entries.drop 1 = [] ∧ j.cellMarks = []
            ∧ j.fillMarks = [] ∧ j.attrMarks = [] ∧ j.closed = false ∧ j.sealing = none
            ∧ (s.flash.clean = false ∨ j.ctl ≠ []) then j.ctl ++ [.clean true] else j.ctl))
    ∧ (∀ e, j.writing = some (.entry e true) → ∃ u, Completes .flashWriteComplete s u ∧ u.link = s.link
        ∧ u.yard.journal.flushes = j.flushes)
    ∧ (s.wing.st = .sealing → j.writing = some (.ctl (.clean true)) → (∃ keys, j.sealing = some (keys, true)) →
        ∃ u, Completes .flashWriteComplete s u ∧ u.yard.journal.flushes = []
          ∧ (s.sweep.run ≠ .stopping → answered u .busy fun _ => True))
    ∧ ∀ w, j.writing = some w → ∃ u, Completes .flashWriteError s u
        ∧ (¬sealing → (∀ e r, w = .entry e r → u.yard.journal.flushes = j.flushes.filter (fun f => e.key ∉ f.keys)
              ∧ answered u .busy fun f => e.key ∈ f.keys)
            ∧ (∀ c, w = .ctl c → u.yard.journal.flushes = j.flushes ∧ u.link = s.link))
        ∧ (sealing → u.yard.journal.flushes = [] ∧ (s.sweep.run ≠ .stopping → answered u .busy fun _ => True))
        ∧ (j.errors ≠ 0 → ¬sealing → u.yard.post = s.yard.post)
        ∧ (j.errors = 0 → s.yard.post.outbox.length < 30 → ∃ n l, u.yard.post.outbox = s.yard.post.outbox ++ n :: l
            ∧ n.kind = .journalFault ∧ (¬sealing → l = [])
            ∧ n.items = match w with
              | .entry ⟨.cell a, _⟩ _ => [.u1 1, .cell (some a)]
              | .entry ⟨.fill b, _⟩ _ => [.u1 2, .u2 b]
              | .entry ⟨.attr b, _⟩ _ => [.u1 3, .u2 b]
              | .ctl (.clean _) => [.u1 4, .u2 0]
              | .ctl (.sealed _) => [.u1 5, .u2 0]
              | .ctl (.incident _) => [.u1 6, .u2 0]
              | .ctl (.summary _) => [.u1 7, .u2 0]
              | .ctl (.settings _) => [.u1 8, .u2 0])

/-- An Induct that is taken makes the bin's record anew, OnReturn with its capacity clamped and its fill
within it, at the tail of the return line; no cell, carrier, order or station changes. A number that no bin has is
refused FORM, one whose record is in a state other than Retired DUPLICATE, a full return line FULL, and Parking, Sealing,
Sealed and Restarting WING_DOWN, with no record changed; that of several grounds the first in this order counts is log
22, the model's reading. -/
def Obligations.InductPutsBinOnReturnLine : Prop :=
  ∀ (h : ReqHdr) (b cap : Nat) (fill : Option Nat) (s : State), Taken h s →
    let form := b = 0 ∨ 20480 < b
    let known := ∃ r, getBin b s.yard = some r ∧ r.st ≠ .retired
    let room := returnCommitted s.yard < 12
    let down := s.wing.st = .parking ∨ s.wing.st = .sealing ∨ s.wing.st = .sealed ∨ s.wing.st = .restarting
    let refused := fun code =>
      Completes (.induct h b cap fill) s { clearBus s with link := answeredLink 0x0B h code [] s.link }
    (¬form → ¬known → room →
      (s.wing.st = .standby ∨ s.wing.st = .normal ∨ s.wing.st = .hold ∨ s.wing.st = .clearing) →
      let c := max 100 (min 600 cap)
      let f := min c (fill.getD 0)
      ∃ u a, Completes (.induct h b cap fill) s u ∧ SameElse s u ∧ u.link = answeredLink 0x0B h .ok [.u2 c, .u2 f] s.link
        ∧ u.yard.lines.returns = s.yard.lines.returns ++ [⟨b, a⟩]
        ∧ getBin b u.yard = some ⟨c, f, .onReturn, none, some a, none, false, false, none⟩
        ∧ (∀ x, x ≠ b → getBin x u.yard = getBin x s.yard)
        ∧ u.yard.cells = s.yard.cells ∧ SameMotion s.yard u.yard ∧ u.yard.orders = s.yard.orders
        ∧ u.yard.stations = s.yard.stations ∧ u.yard.trays = s.yard.trays)
    ∧ (form → refused .form) ∧ (¬form → known → refused .duplicate) ∧ (¬form → ¬known → ¬room → refused .full)
    ∧ (¬form → ¬known → room → down → refused .wingDown)

/-- Retire sets RetirePending (R11) and flags the bin's live order (R78, last bullet); one already pending changes
nothing, and an unknown or Retired bin is refused UNKNOWN. A bin in a session (R124): an Open one hands its
placements back to the tray, which may then make its Space order (R134, R140), has its display updated and is armed;
one Releasing whose station waits in the release list leaves the list and closes without a transfer, its order
leaving the queue with OrderDone, upon which the trays it concerns may make theirs, after that notice (log 93, the
model's choice); one whose release transfer is in flight goes on (that it is armed is R112's), and the transfer runs
to its end. The Retire course, which follows every command, asks for a Staff order flagged for retirement, evaluated by
R80, for each bin that is Stored, RetirePending and without a live order, while the queue has room (of several, the
lowest number first: log 64, the model's choice), to the station of largest free admission, the lowest number of equals,
among those neither Closed nor Closing; where there is none it makes none (R11). -/
def Obligations.RetireSetsPending : Prop :=
  (∀ (h : ReqHdr) (b : Nat) (s : State), Taken h s →
    (∀ r, getBin b s.yard = some r → r.st ≠ .retired → r.retirePending = false →
      let flagged := s.yard.orders.map fun o => if r.live = some o.no then { o with retire := true } else o
      let done := fun u : State => Completes (.retire h b) s u ∧ SameElse s u ∧ u.link = answeredLink 0x0A h .ok [] s.link
        ∧ u.yard.cells = s.yard.cells ∧ SameMotion s.yard u.yard
      let marked := fun u : State => getBin b u.yard = some { r with retirePending := true }
        ∧ ∀ x, x ≠ b → getBin x u.yard = getBin x s.yard
      let added := fun u : State => ∃ l, u.yard.orders = flagged ++ l
        ∧ ∀ o ∈ l, o.cls = .space ∧ o.picks = [] ∧ o.retire = false ∧ o.closing = false
      let upToLive := fun u : State => ∀ x, ∃ q, getBin x u.yard = (getBin x s.yard).map fun r => { r with
        retirePending := if x = b then true else r.retirePending, live := q }
      (sessionOfBin b s.yard = none → ∃ u, done u ∧ marked u ∧ u.yard.orders = flagged ∧ SameDesks s.yard u.yard
        ∧ u.yard.journal = s.yard.journal)
      ∧ ∀ (st : Station) (x : Session), sessionOfBin b s.yard = some st → s.yard.stations[st].session = some x →
        let becomes := fun (u : State) (z : Option Session) =>
          u.yard.stations = s.yard.stations.set st { s.yard.stations[st] with session := z }
        (x.releasing = false → ∃ u d, done u ∧ added u ∧ upToLive u ∧ u.yard.lines = s.yard.lines
          ∧ u.yard.stations = s.yard.stations.set st { s.yard.stations[st] with
              session := some { x with armed := true, placements := [] }, shown := d }
          ∧ ((x.placements = [] ∨ s.wing.st ≠ .normal ∨ s.yard.trays[st].demand = true) → marked u ∧ u.yard.orders = flagged)
          ∧ (x.placements = [] → d = s.yard.stations[st].shown)
          ∧ (∀ p ∈ x.placements, ∀ i ∈ u.yard.trays[st].items, i.item = p.item → i.st = .waiting)
          ∧ u.yard.trays[st].items.map (fun i => (i.item, i.width, i.stamp))
            = s.yard.trays[st].items.map (fun i => (i.item, i.width, i.stamp))
          ∧ ∀ d : Station, d ≠ st → u.yard.trays[d] = s.yard.trays[d])
        ∧ (x.releasing = true → st ∉ s.yard.lines.releaseList → ∃ u, done u ∧ marked u ∧ u.yard.orders = flagged
          ∧ becomes u (some { x with armed := true }) ∧ u.yard.lines = s.yard.lines ∧ u.yard.trays = s.yard.trays)
        ∧ (x.releasing = true → st ∈ s.yard.lines.releaseList → ∃ u, done u
          ∧ u.yard.stations = s.yard.stations.set st { s.yard.stations[st] with session := none, shown := displayOf st u.yard }
          ∧ u.yard.lines = { s.yard.lines with releaseList := s.yard.lines.releaseList.filter fun d => d ≠ st }
          ∧ upToLive u
          ∧ (x.order = none → u.yard.orders = flagged ∧ u.yard.trays = s.yard.trays ∧ u.yard.post = s.yard.post)
          ∧ ∀ no o, x.order = some no → orderOf no s.yard = some o →
              (∃ l, u.yard.orders = flagged.filter (fun z => z.no ≠ no) ++ l ∧ ∀ z ∈ l, z.cls = .space ∧ z.picks = [])
              ∧ ((∀ d : Station, s.yard.trays[d].demand = false) → u.yard.orders = flagged.filter (fun z => z.no ≠ no))
              ∧ (s.yard.post.outbox.length < 32 → ∃ n l, u.yard.post.outbox = s.yard.post.outbox ++ n :: l
                  ∧ n.kind = .orderDone ∧ ∀ m ∈ l, m.kind = .trayNoSpace)))
    ∧ (∀ r, getBin b s.yard = some r → r.st ≠ .retired → r.retirePending = true →
        Completes (.retire h b) s { clearBus s with link := answeredLink 0x0A h .ok [] s.link })
    ∧ ((∀ r, getBin b s.yard = some r → r.st = .retired) →
        Completes (.retire h b) s { clearBus s with link := answeredLink 0x0A h .unknown [] s.link }))
  ∧ ∀ (e : Env) (y : Yard), KSorted y.bins →
      let wants := (y.bins.filter fun p =>
        decide (p.2.st = .stored) && p.2.retirePending && decide (p.2.live = none)).map (·.1)
      let opens := fun st : Station => y.stations[st].role ≠ .closed ∧ y.stations[st].role ≠ .closing
      let z := retireCourse e y
      z = { y with orders := z.orders, bins := z.bins, nextOrder := z.nextOrder }
      ∧ ∃ l, z.orders = y.orders ++ l
        ∧ ((∀ st, ¬opens st) → l = [])
        ∧ ((∃ st, opens st) → l.map (·.bin) = wants.take (96 - y.orders.length))
        ∧ ((y.orders.map (·.no)).Nodup → (z.orders.map (·.no)).Nodup)
        ∧ (∀ o ∈ l, o = ⟨o.no, o.bin, o.station, .staff, e.now, orderOutcome e o y, false, [], true, none⟩
          ∧ opens o.station
          ∧ (∀ st, opens st → freeAdmission e st y < freeAdmission e o.station y
              ∨ freeAdmission e st y = freeAdmission e o.station y ∧ o.station ≤ st)
          ∧ getBin o.bin z = (getBin o.bin y).map fun r => { r with live := some o.no })
        ∧ ∀ b, (∀ o ∈ l, o.bin ≠ b) → getBin b z = getBin b y


/-! ## Travel estimates -/

/-- Travel takes, of its two axes, the longer: ramp plus distance times pace, and 0 for no distance. The fork time is
fork_deep for a deep cell and fork_front for a front cell, the mouth and the inbound place, whatever the side; between
the inbound place and the mouth there is no travel. A retrieval's estimate is the travel to the cell, the stroke, the
travel to the mouth and the stroke there; with a bin in the front cell, the stroke that takes it, the travel to its
target, the stroke that puts it there and the travel back come before; it is held at 4,095. A front cell Reserved or
Disabled, one Unverified, or no target give the block reasons. The four rankings name the first of the aisle's candidates
by cost and then by column, level, side N before S and front before deep, and none in an aisle that is Off: the shuffle
target is at another position, every deep candidate before every front one, its cost the travel from the bin's position
and the fork time; the put-away cell counts the travel from the mouth; the park placement the travel from the carrier and
on to the park position, and lies within the budget. The fetch estimate is the travel to the mouth and both strokes. -/
def Obligations.EstimatesFollowProfile : Prop :=
  (∀ (v : Profile) (x : CellAddr) (p : Nat × Nat) (k : SegKind), k = .forkIn ∨ k = .forkOut →
    (x.depth = .front → segEstimate v p k (.cell x) = v.forkFront ∧ forkTime v x.depth = v.forkFront)
    ∧ (x.depth = .deep → segEstimate v p k (.cell x) = v.forkDeep ∧ forkTime v x.depth = v.forkDeep)
    ∧ segEstimate v p k .mouth = v.forkFront ∧ segEstimate v p k .inboundPlace = v.forkFront
    ∧ travelTime v mouthPos mouthPos = 0)
  ∧ (∀ (v : Profile) (c l d m : Nat),
    let axis := fun (ramp pace i j : Nat) => if i = j then 0 else ramp + (max i j - min i j) * pace
    travelTime v (c, l) (d, m) = max (axis v.rampH v.paceH c d) (axis v.rampV v.paceV l m)
    ∧ segEstimate v (c, l) .travel (.pos d m) = travelTime v (c, l) (d, m))
  ∧ ∀ (e : Env) (x : CellAddr) (q : Nat × Nat) (y : Yard),
    let v := if y.est[x.aisle].inForce = .off then e.cfg.profA else y.est[x.aisle].vset
    let p := (x.col, x.level)
    let front := getCell e { x with depth := .front } y
    let off : Prop := y.est[x.aisle].inForce = .off
    let fits := fun z : CellAddr => ¬off ∧ z.aisle = x.aisle ∧ candidate e z y = true
    let away := fun z : CellAddr => fits z ∧ ¬(z.side = x.side ∧ z.col = x.col ∧ z.level = x.level)
    let fork := fun z : CellAddr => if z.depth = .deep then v.forkDeep else v.forkFront
    let park := fun z : CellAddr => min 4095 (travelTime v q (z.col, z.level) + fork z
      + travelTime v (z.col, z.level) (e.cfg.fire.parkColumn, 0))
    (x.depth = .front → retrieval e x q y
      = .ok (min 4095 (travelTime v q p + v.forkFront + travelTime v p (0, 0) + v.forkFront), none))
    ∧ (x.depth = .deep →
      (front = .empty → retrieval e x q y
        = .ok (min 4095 (travelTime v q p + v.forkDeep + travelTime v p (0, 0) + v.forkFront), none))
      ∧ ((∃ b w, front = .reserved b w) ∨ front = .disabled → retrieval e x q y = .error .frontReserved)
      ∧ (∀ b, front = .unverified b → retrieval e x q y = .error .unverified)
      ∧ ∀ f, front = .occupied f →
        (shuffleTarget e x y = none → retrieval e x q y = .error .noRoom)
        ∧ ∀ z, shuffleTarget e x y = some z → retrieval e x q y
          = .ok (min 4095 (travelTime v q p + v.forkFront + travelTime v p (z.col, z.level)
              + fork z + travelTime v (z.col, z.level) p + v.forkDeep
              + travelTime v p (0, 0) + v.forkFront), some (f, z)))
    ∧ FirstOf away (fun z w => z.depth = .deep ∧ w.depth = .front
        ∨ z.depth = w.depth ∧ Cheaper (fun c => min 4095 (travelTime v p (c.col, c.level) + fork c)) z w) (shuffleTarget e x y)
    ∧ FirstOf fits (Cheaper fun c => min 4095 (travelTime v (0, 0) (c.col, c.level) + fork c)) (putAwayCell e x.aisle y)
    ∧ FirstOf (fun z => fits z ∧ park z ≤ e.budget) (Cheaper park) (parkCell e x.aisle q y)
    ∧ fetchEstimate e x y
      = if off then none else some (min 4095 (travelTime v p (0, 0) + fork x + v.forkFront))

/-! ## Carriers -/

/-- A Travel that completes while the wing is held leaves the carrier Held at its target with its load and
task, or Idle when a report has taken its Retrieve from it during the segment (R85; in Hold and Clearing too: log 27, the
model's reading), and changes nothing else. -/
def Obligations.TravelCompletesUnderHold : Prop :=
  ∀ (a : Aisle) (g : Segment) (c l : Nat) (s : State), wingHeld s.wing.st = true → s.yard.carriers[a].seg = some g →
    g.kind = .travel → g.target = .pos c l → s.yard.est[a].st ≠ .pending → s.yard.carriers[a].task ≠ some .clearMove →
    Completes (.segmentComplete a g.no .done) s { s with yard := { s.yard with
      bus := []
      carriers := s.yard.carriers.set a { s.yard.carriers[a] with
        seg := none, pos := some (c, l), st := if s.yard.carriers[a].freed then .idle else .held } } }

/-- A ForkIn that reads the bin expected of a cell, while the wing is held, takes that bin onto the fork: the
cell is Empty and the bin OnCarrier, and no other cell or bin changes. The carrier is Held, or Idle when a report has
taken its Retrieve from it during the segment (R85; that this goes for Hold and Clearing too is log 27, the model's
reading). -/
def Obligations.ForkInTakesExpectedBin : Prop :=
  ∀ (a : Aisle) (g : Segment) (x : CellAddr) (b : Nat) (r : Bin) (s : State), BinsNumbered s → wingHeld s.wing.st = true →
    s.yard.carriers[a].seg = some g → g.kind = .forkIn → g.target = .cell x → g.expect = some b →
    s.yard.est[a].st ≠ .pending → KSorted s.yard.cells → getCell (envOf s) x s.yard = .occupied b →
    getBin b s.yard = some r → r.st = .stored → r.cell = some x →
    ∃ u, Completes (.segmentComplete a g.no (.tag (.bin b))) s u ∧ SameElse s u ∧ u.link = s.link
      ∧ getCell (envOf s) x u.yard = .empty ∧ (∀ k, k ≠ cellCode x → kget u.yard.cells k = kget s.yard.cells k)
      ∧ getBin b u.yard = some { r with st := .onCarrier, cell := none, aisle := none, station := none }
      ∧ (∀ d, d ≠ b → getBin d u.yard = getBin d s.yard)
      ∧ u.yard.carriers[a].load = some b ∧ u.yard.carriers[a].seg = none
      ∧ u.yard.carriers[a].st = (if s.yard.carriers[a].freed then .idle else .held)
      ∧ u.yard.carriers[a].pos = s.yard.carriers[a].pos ∧ (∀ d : Aisle, d ≠ a → u.yard.carriers[d] = s.yard.carriers[d])
      ∧ SameDesks s.yard u.yard ∧ u.yard.orders = s.yard.orders

/-- A ForkOut that completes at a cell while the wing is held puts the carried bin down: the cell is Occupied by it
and the bin Stored there, and no other cell or bin changes; the carrier is Held, or Idle when a report has taken its
Retrieve from it during the segment (R85; in Hold and Clearing too: log 27, the model's reading). Where the stroke completes a put-away, the effects that
R143 lists after these follow: the bin's order, the Retire course and the trays' choices (that they come in this
order is log 93, the model's choice). -/
def Obligations.ForkOutStoresCarriedBin : Prop :=
  ∀ (a : Aisle) (g : Segment) (x : CellAddr) (b : Nat) (r : Bin) (s : State), wingHeld s.wing.st = true →
    s.yard.carriers[a].seg = some g → g.kind = .forkOut → g.target = .cell x → s.yard.carriers[a].load = some b →
    s.yard.est[a].st ≠ .pending → inGeometry s.cfg.geometry x = true → getCell (envOf s) x s.yard ≠ .absent →
    getBin b s.yard = some r →
    ∃ u, Completes (.segmentComplete a g.no .done) s
        { u with yard := putawayEnds (envOf s) s.yard.carriers[a].task u.yard } ∧ SameElse s u ∧ u.link = s.link
      ∧ getCell (envOf s) x u.yard = .occupied b ∧ (∀ k, k ≠ cellCode x → kget u.yard.cells k = kget s.yard.cells k)
      ∧ getBin b u.yard = some { r with st := .stored, cell := some x, aisle := some x.aisle, station := none }
      ∧ (∀ d, d ≠ b → getBin d u.yard = getBin d s.yard)
      ∧ u.yard.carriers[a].load = none ∧ u.yard.carriers[a].seg = none
      ∧ u.yard.carriers[a].st = (if s.yard.carriers[a].freed then .idle else .held)
      ∧ (∀ d : Aisle, d ≠ a → u.yard.carriers[d] = s.yard.carriers[d])
      ∧ SameDesks s.yard u.yard ∧ u.yard.orders = s.yard.orders

/-- A fault report for a Travel in flight, or the end of its deadline, makes the carrier Faulted with the reason the
report gives (DRIVE_FAULT for a kind not listed, and for a bin damaged where none is taken) or DEADLINE: it keeps
position and load, the drive unit is sent Halt, and map, bins, lines, stations and trays stay as they are; the Assigned
order of a Retrieve returns to evaluation. A change that waits in a Pending aisle takes effect, and the aisle settles 20
ds (R28); one that takes the aisle from Off has every tray make its choice, after the rest (log 93: the model's
choice). A ClearMove's end gives the suspended task back as the task record (none, where none was suspended: log 104, the
model's choice), and the wing, told that it failed,
takes the aisle off the clearing list and records the shutter plane obstructed (R60, R185). A completion, a fault or
a deadline whose number is not that of the segment in flight changes nothing (R53; that a number never comes again
is log 10, the model's reading). -/
def Obligations.TravelFaultFaultsCarrier : Prop :=
  (∀ (a : Aisle) (g : Segment) (f : DriveFault) (s : State), s.yard.carriers[a].seg = some g → g.kind = .travel →
    g.deadline.isSome →
    ∀ (c : Instr) (why : FaultReason),
      (c = .segmentFault a g.no f ∧ why = (match f with | .forkJam => .forkJam | _ => .driveFault)
        ∨ c = .segmentDeadline a g.no ∧ why = .deadline) →
      let was := s.yard.carriers[a]
      let speed := s.yard.est[a]
      let now : Assign := s.cfg.assign[a]
      let task := match was.suspended with
        | some t => some t
        | none => if was.task = some .clearMove then none else was.task
      let leaves := speed.st = .pending ∧ speed.inForce = .off ∧ now ≠ .off
      ∃ u, Completes c s { u with yard := if leaves then trayChoices (envOf s) u.yard else u.yard }
        ∧ SameElse s u ∧ u.link = s.link ∧ SameStock s.yard u.yard ∧ SameDesks s.yard u.yard
        ∧ u.yard.est = (if speed.st = .pending then s.yard.est.set a ⟨now, valueSet s.cfg now, .settling, 20⟩ else s.yard.est)
        ∧ u.yard.carriers[a].st = .faulted ∧ u.yard.carriers[a].fault = some why ∧ u.yard.carriers[a].seg = none
        ∧ u.yard.carriers[a].pos = was.pos ∧ u.yard.carriers[a].load = was.load ∧ u.yard.carriers[a].suspended = none
        ∧ ((∀ r, task ≠ some (.survey r)) → u.yard.carriers[a].task = task)
        ∧ (∀ d : Aisle, d ≠ a → u.yard.carriers[d] = s.yard.carriers[d]) ∧ u.yard.bus = [.driveHalt a]
        ∧ u.yard.orders = (match task with
          | some (.retrieve no _ _ _ _) => s.yard.orders.map fun o => if o.no = no
              then { o with st := if o.st = .assigned then .queued else o.st } else o
          | _ => s.yard.orders)
        ∧ (wingHeld s.wing.st = true → (∃ k, (a, k) ∈ s.wing.clearing) → ∀ t, exec c s = .next t →
            t.wing.incident.map (·.obstructed) = s.wing.incident.map (fun _ => true) ∧ ∀ p ∈ t.wing.clearing, p.1 ≠ a))
  ∧ ∀ (a : Aisle) (no : Nat) (r : SegReport) (f : DriveFault) (s : State),
      (∀ g, s.yard.carriers[a].seg = some g → g.no ≠ no) →
      Completes (.segmentComplete a no r) s (clearBus s) ∧ Completes (.segmentFault a no f) s (clearBus s)
        ∧ Completes (.segmentDeadline a no) s (clearBus s)

/-- The end of an aisle's settle timer makes a Settling aisle Steady, and the end of discovery's time ends it
with one StartupDone notice: the kind of start, the wing state, whether the geometry is valid, the sections defaulted,
the Unverified aisles with their doubt, the orphans (the bins found for which no order stands in the queue) with their
places, the conflicts with both places, and the devices that have not reported (the codes of places and devices: log 15;
that an orphan is listed where it was found, wherever it is by then: log 108: the model's choice); an aisle that is not Settling or whose timer has been set again since, and a discovery
that has ended, are left. Where an aisle has gone from not ready to ready, by a settle timer's end or for whatever other
cause, what follows the command raises AisleReady with the aisle and its assignment in force (R30), and where it has not,
none. -/
def Obligations.SettleAndDiscoveryEnd : Prop :=
  (∀ (a : Aisle) (s : State),
    (s.yard.est[a].st = .settling → s.yard.est[a].settleLeft = 0 → Completes (.settleTimerExpiry a) s { s with yard := { s.yard with
      bus := [], est := s.yard.est.set a { s.yard.est[a] with st := .steady, settleLeft := 0 } } })
    ∧ ((s.yard.est[a].st ≠ .settling ∨ s.yard.est[a].settleLeft ≠ 0) → Completes (.settleTimerExpiry a) s (clearBus s))
    ∧ (s.yard.disc.left.isSome → ∃ u, Completes .discoveryTimeout s u ∧ SameElse s u ∧ u.link = s.link
        ∧ u.yard.disc = { s.yard.disc with left := none } ∧ SameStock s.yard u.yard ∧ SameMotion s.yard u.yard
        ∧ SameDesks s.yard u.yard ∧ u.yard.orders = s.yard.orders
        ∧ (s.yard.post.outbox.length < 32 → ∃ n, u.yard.post.outbox = s.yard.post.outbox ++ [n] ∧ n.kind = .startupDone
            ∧ (let d := s.yard.disc
               let place := fun p : Place => match p with
                 | .fork a => ([.u1 1, .u1 (aisleNo a)] : List Fld)
                 | .delivery => [.u1 2, .u1 0]
                 | .ret => [.u1 3, .u1 0]
                 | .inbound a => [.u1 4, .u1 (aisleNo a)]
                 | .next st => [.u1 5, .u1 (stationNo st)]
                 | .present st => [.u1 6, .u1 (stationNo st)]
               let doubtful := ([0, 1, 2, 3, 4, 5] : List Aisle).filter fun a =>
                 decide (aisleNo a ≤ s.cfg.geometry.aisleCount) && !aisleVerified a s.yard
               n.items = [.u1 (if d.warm then 2 else 1), .u1 (wingStCode s.wing.st), flag s.cfg.geomValid]
                 ++ listFlds d.defaulted (fun k => [.u1 k])
                 ++ listFlds doubtful (fun a => [.u1 (aisleNo a), flag s.yard.verif[a].doubt])
                 ++ listFlds (d.found.filter fun p => decide (∀ o ∈ s.yard.orders, o.bin ≠ p.1)) (fun p => .u2 p.1 :: place p.2)
                 ++ listFlds d.conflicts (fun p => .u2 p.1 :: (place p.2.1 ++ place p.2.2))
                 ++ listFlds d.expected (fun x => match x with
                   | .drive a => [.u1 1, .u1 (aisleNo a)]
                   | .line l => [.u1 2, .u1 (match l with | .delivery => 1 | .ret => 2)]
                   | .terminal st => [.u1 3, .u1 (stationNo st)]))))
    ∧ (s.yard.disc.left = none → Completes .discoveryTimeout s (clearBus s)))
  ∧ ∀ (e : Env) (a : Aisle) (y : Yard),
      let now := aisleReady e a y
      let noted := { y with arbs := y.arbs.set a { y.arbs[a] with wasReady := now } }
      (now = true → y.arbs[a].wasReady = false →
        readyEdge e a y = notify e .aisleReady [.u1 (aisleNo a), .u1 (assignCode y.est[a].inForce)] noted)
      ∧ ((now = false ∨ y.arbs[a].wasReady = true) → readyEdge e a y = noted)

/-- What a carrier does when its segment has ended goes by the wing state. In Normal the plan goes on: a Retrieve at
its bin's cell begins the ForkIn when the check finds the bin there and the front clear, and else ends Idle with its
order back in evaluation; one at the mouth waits for the merge, and its ForkOut there puts the bin at the delivery
line's tail, addressed to its order's station, with the order Delivering and the grant given back; a put-away ends
Idle, and then its bin's order is evaluated, the Retire course is begun again and every tray makes its choice (R143;
that they come in this order is log 93, the model's choice). In Standby a carrier with no task is Idle. In Parking
one at its park position is Parked; one with no park plan takes it: a load is given a cell that lies within the
budget, reserved as park placement, and else the Travel to the park column begins. In Hold and Clearing a
ClearMove's end gives the suspended task back and the carrier is Held, or Idle when a report has taken its Retrieve from it
during the segment (R85; in Hold and Clearing too: log 27, the model's reading); entry to Hold sends an Idle carrier in the
shutter plane on a ClearMove to column 2. -/
def Obligations.SegmentsEndByWingState : Prop :=
  (∀ (a : Aisle) (g : Segment) (s : State), s.yard.carriers[a].seg = some g → s.yard.est[a].st ≠ .pending →
    let c := s.yard.carriers[a]
    let vals := if s.yard.est[a].inForce = .off then s.cfg.profA else s.yard.est[a].vset
    let done := Instr.segmentComplete a g.no .done
    let next := fun (k : SegKind) (t : SegTarget) (expect : Option Nat) (est : Nat) =>
      (⟨k, c.segNo + 1, t, expect, est, some (2 * est + 50), 2 * est + 50, none⟩ : Segment)
    let begun := fun (n : Segment) (p : Nat × Nat) (st : CarrierSt) (task : Task) =>
      { c with pos := some p, st := st, task := some task, seg := some n, segNo := c.segNo + 1, freed := false }
    let free := fun p : Nat × Nat => { c with seg := none, pos := some p, task := none, st := .idle }
    let becomes := fun (z : Carrier) (bus : List BusMsg) => { s.yard with bus := bus, carriers := s.yard.carriers.set a z }
    (∀ (no b : Nat) (x : CellAddr), s.wing.st = .normal → g.kind = .travel → g.target = .pos x.col x.level →
      c.task = some (.retrieve no b x .toBin none) →
      let here := getCell (envOf s) x s.yard = .occupied b
        ∧ (x.depth = .deep → getCell (envOf s) { x with depth := .front } s.yard = .empty)
      let n := next .forkIn (.cell x) (some b) (if x.depth = .deep then vals.forkDeep else vals.forkFront)
      (here → Completes done s { s with
        yard := becomes (begun n (x.col, x.level) .forking (.retrieve no b x .takeBin none)) [.segment a n] })
      ∧ (¬here → Completes done s { s with yard := { becomes (free (x.col, x.level)) [] with
          orders := s.yard.orders.map fun o => if o.no = no
            then { o with st := if o.st = .assigned then .queued else o.st } else o } }))
    ∧ (∀ (no b : Nat) (x : CellAddr) (sh : Option (Nat × CellAddr)), s.wing.st = .normal → g.kind = .travel →
        g.target = .pos 0 0 → c.task = some (.retrieve no b x .toMouth sh) →
        Completes done s { s with yard := { becomes { c with
            seg := none, pos := some (0, 0), st := .waitMerge, task := some (.retrieve no b x .waitMerge sh) } [] with
          lines := { s.yard.lines with mergeList :=
            if a ∈ s.yard.lines.mergeList then s.yard.lines.mergeList else s.yard.lines.mergeList ++ [a] } } })
    ∧ (∀ (no b d : Nat) (x : CellAddr) (step : RStep) (sh : Option (Nat × CellAddr)) (o : Order) (r : Bin),
        s.wing.st = .normal → g.kind = .forkOut → g.target = .mouth → c.task = some (.retrieve no b x step sh) →
        c.load = some d → orderOf no s.yard = some o → getBin d s.yard = some r →
        ∃ u, Completes done s u ∧ SameElse s u ∧ u.link = s.link
          ∧ u.yard.carriers = s.yard.carriers.set a { c with seg := none, load := none, task := none, st := .idle }
          ∧ u.yard.lines = { s.yard.lines with
              delivery := s.yard.lines.delivery ++ [⟨d, o.station, some a⟩]
              mergeGrant := if s.yard.lines.mergeGrant = some a then none else s.yard.lines.mergeGrant }
          ∧ getBin d u.yard = some { r with st := .onDelivery, cell := none, aisle := none, station := some o.station }
          ∧ (∀ z, z ≠ d → getBin z u.yard = getBin z s.yard) ∧ u.yard.cells = s.yard.cells
          ∧ u.yard.orders = s.yard.orders.map fun q => if q.no = no then { q with st := .delivering } else q)
    ∧ (∀ (b d : Nat) (step : PStep) (x : CellAddr) (z : Option CellAddr) (r : Bin), s.wing.st = .normal → g.kind = .forkOut →
        g.target = .cell x → c.task = some (.putaway b step z) → c.load = some d → inGeometry s.cfg.geometry x = true →
        getCell (envOf s) x s.yard ≠ .absent → getBin d s.yard = some r →
        ∃ u, Completes done s
            { u with yard := trayChoices (envOf s) (retireCourse (envOf s) (evalBin (envOf s) b u.yard)) }
          ∧ SameElse s u ∧ u.link = s.link ∧ u.yard.orders = s.yard.orders
          ∧ u.yard.carriers = s.yard.carriers.set a { c with seg := none, load := none, task := none, st := .idle }
          ∧ getCell (envOf s) x u.yard = .occupied d ∧ (∀ k, k ≠ cellCode x → kget u.yard.cells k = kget s.yard.cells k)
          ∧ getBin d u.yard = some { r with st := .stored, cell := some x, aisle := some x.aisle, station := none }
          ∧ (∀ e, e ≠ d → getBin e u.yard = getBin e s.yard) ∧ SameDesks s.yard u.yard)
    ∧ ∀ k l : Nat, g.kind = .travel → g.target = .pos k l →
      (s.wing.st = .standby → c.task = none → Completes done s { s with yard := becomes (free (k, l)) [] })
      ∧ (s.wing.st = .parking → l = 0 → c.task = some (.parkMove k) →
          Completes done s { s with yard := becomes { free (k, l) with st := .parked } [] })
      ∧ (s.wing.st = .parking → c.task = none → c.suspended = none →
          let col := s.cfg.fire.parkColumn
          let left := fun (y : Yard) => { y with
            lines := { s.yard.lines with mergeList := s.yard.lines.mergeList.filter fun z => z ≠ a } }
          (c.load = none → (k, l) ≠ (col, 0) →
            let n := next .travel (.pos col 0) none (travelTime vals (k, l) (col, 0))
            Completes done s { s with yard := left (becomes (begun n (k, l) .parking (.parkMove col)) [.segment a n]) })
          ∧ ∀ b x, c.load = some b → parkCell (envOf s) a (k, l) s.yard = some x → (k, l) ≠ (x.col, x.level) →
            let n := next .travel (.pos x.col x.level) none (travelTime vals (k, l) (x.col, x.level))
            candidate (envOf s) x s.yard = true
            ∧ min 4095 (travelTime vals (k, l) (x.col, x.level) + forkTime vals x.depth + travelTime vals (x.col, x.level) (col, 0))
                ≤ s.wing.parkTimer.getD 0
            ∧ ∃ u, Completes done s u ∧ SameElse s u ∧ u.link = s.link ∧ u.yard.bus = [.segment a n]
              ∧ u.yard.carriers = s.yard.carriers.set a (begun n (k, l) .parking (.parkPlace b x col false))
              ∧ getCell (envOf s) x u.yard = .reserved b .parkPlacement
              ∧ (∀ i, i ≠ cellCode x → kget u.yard.cells i = kget s.yard.cells i) ∧ u.yard.bins = s.yard.bins)
      ∧ (wingHeld s.wing.st = true → c.task = some .clearMove →
          Completes done s { s with yard := becomes { c with
            seg := none, pos := some (k, l), task := c.suspended, suspended := none
            st := if c.freed then .idle else .held } [] }))
  ∧ ∀ (a : Aisle) (k l : Nat) (s : State), s.wing.st = .normal → CausesTrue s → s.wing.cause = .none →
    a.val + 1 ≤ s.cfg.geometry.aisleCount →
    let c := s.yard.carriers[a]
    c.st = .idle → c.seg = none → c.pos = some (k, l) → k ≤ 1 →
    let est := travelTime (if s.yard.est[a].inForce = .off then s.cfg.profA else s.yard.est[a].vset) (k, l) (2, l)
    ∃ u, Completes (.panelInputChange .stage1 true) s u ∧ u.wing.st = .clearing ∧ (a, .requested) ∈ u.wing.clearing
      ∧ u.yard.carriers[a] = { c with
          st := .clearing, suspended := c.task, task := some .clearMove, segNo := c.segNo + 1, freed := false
          seg := some ⟨.travel, c.segNo + 1, .pos 2 l, none, est, some (2 * est + 50), 2 * est + 50, none⟩ }

/-- A stroke that ends by a jam, a drive fault or its deadline is unsettled: the carrier is Faulted, the drive unit is
sent Halt, and the cell is Unverified with the bin it expects or receives, which is Unverified with that cell; at the
mouth the bin stays the load and the grant is given back. BIN_DAMAGED ends a ForkIn with its records kept and the bin
Damaged. A ForkIn cut by the park timer's Halt is unsettled too, its carrier Halted. A ForkIn that reads another bin
than it expects is a MISMATCH, the carrier Faulted: at a cell, the cell is Unverified with the bin read, the expected one
is Unverified with no cell and the one read with this cell, but that one recorded in another place keeps its record; at
an inbound place, the bin read is recorded there and the expected one is Unverified. One that reads nothing leaves cell
or place empty and the bin Unverified with no cell, and the carrier does not fault; one that cannot read is a MISMATCH
with the cell Unverified, or the inbound place as it was. After a stroke that does not fault it while the wing is held
the carrier is Held, or Idle when a report has taken its Retrieve from it during the segment (R85; in Hold and Clearing
too: log 27, the model's reading). -/
def Obligations.StrokesEndAsFound : Prop :=
  ∀ (a : Aisle) (g : Segment) (b : Nat) (r : Bin) (s : State), s.yard.carriers[a].seg = some g → s.yard.est[a].st ≠ .pending →
    KSorted s.yard.cells → getBin b s.yard = some r →
    let c := s.yard.carriers[a]
    let y := s.yard
    let faulted := fun (u : State) (why : FaultReason) => SameElse s u ∧ u.link = s.link ∧ u.yard.carriers[a].st = .faulted
      ∧ u.yard.carriers[a].fault = some why ∧ u.yard.carriers[a].seg = none ∧ u.yard.carriers[a].pos = c.pos
    let lost := fun (u : State) (d : Nat) (q : Bin) (x : Option CellAddr) => ∃ z, getBin d u.yard = some z
      ∧ z = { q with st := .unverified, cell := x, aisle := none, station := none, live := z.live }
    let others := fun (u : State) (x : CellAddr) => (∀ k, k ≠ cellCode x → kget u.yard.cells k = kget y.cells k)
      ∧ SameDesks y u.yard ∧ ∀ d : Aisle, d ≠ a → u.yard.carriers[d] = y.carriers[d]
    let ends := fun (cmd : Instr) (why : FaultReason) => (cmd = .segmentFault a g.no .forkJam ∧ why = .forkJam)
      ∨ (cmd = .segmentFault a g.no .driveFault ∧ why = .driveFault)
      ∨ (cmd = .segmentDeadline a g.no ∧ g.deadline.isSome ∧ why = .deadline)
    let reads := fun t : TagRead => Instr.segmentComplete a g.no (.tag t)
    let waits := if c.freed then CarrierSt.idle else .held
    (∀ (cmd : Instr) (why : FaultReason) (x : CellAddr), ends cmd why → g.kind = .forkIn → g.target = .cell x →
      g.expect = some b → getCell (envOf s) x y = .occupied b → r.st = .stored → r.cell = some x →
      ∃ u, Completes cmd s u ∧ faulted u why ∧ u.yard.bus = [.driveHalt a] ∧ others u x
        ∧ getCell (envOf s) x u.yard = .unverified (some b) ∧ lost u b r (some x)
        ∧ u.yard.carriers[a].load = c.load ∧ ∀ d, d ≠ b → getBin d u.yard = getBin d y)
    ∧ (∀ (cmd : Instr) (why : FaultReason) (x : CellAddr), ends cmd why → g.kind = .forkOut → g.target = .cell x →
        c.load = some b → inGeometry s.cfg.geometry x = true → getCell (envOf s) x y ≠ .absent →
        ∃ u, Completes cmd s u ∧ faulted u why ∧ u.yard.bus = [.driveHalt a] ∧ others u x
          ∧ getCell (envOf s) x u.yard = .unverified (some b) ∧ lost u b r (some x)
          ∧ u.yard.carriers[a].load = none ∧ ∀ d, d ≠ b → getBin d u.yard = getBin d y)
    ∧ (∀ (cmd : Instr) (why : FaultReason), ends cmd why → g.kind = .forkOut → g.target = .mouth → y.lines.mergeGrant = some a →
        ∃ u, Completes cmd s u ∧ faulted u why ∧ SameStock y u.yard ∧ u.yard.lines = { y.lines with mergeGrant := none }
          ∧ u.yard.carriers[a].load = c.load)
    ∧ (g.kind = .forkIn → g.expect = some b → ∃ u, Completes (.segmentFault a g.no .binDamaged) s u
        ∧ faulted u .binDamaged ∧ u.yard.bus = [.driveHalt a] ∧ u.yard.cells = y.cells ∧ SameDesks y u.yard
        ∧ getBin b u.yard = some { r with damaged := true } ∧ ∀ d, d ≠ b → getBin d u.yard = getBin d y)
    ∧ (∀ x : CellAddr, s.wing.st = .parking → s.wing.parkTimer.isSome → c.st = .forking → (∀ d : Aisle, d ≠ a → y.carriers[d].seg = none) →
        g.kind = .forkIn → g.target = .cell x → g.expect = some b → getCell (envOf s) x y = .occupied b → r.st = .stored →
        r.cell = some x →
        ∃ u, Completes .parkTimerExpiry s u ∧ u.wing.st = .sealing ∧ u.yard.carriers[a].st = .halted
          ∧ u.yard.carriers[a].seg = some ⟨.halt, c.segNo + 1, .nothing, none, 0, none, 0, some .forkIn⟩
          ∧ u.yard.carriers[a].load = c.load ∧ getCell (envOf s) x u.yard = .unverified (some b) ∧ lost u b r (some x))
    ∧ (∀ x : CellAddr, wingHeld s.wing.st = true → g.kind = .forkIn → g.target = .cell x → g.expect = some b →
        getCell (envOf s) x y = .occupied b → r.st = .stored → r.cell = some x →
        (∀ f, f ≠ b → 1 ≤ f → f ≤ 20480 → ∃ u, Completes (reads (.bin f)) s u ∧ faulted u .mismatch
          ∧ getCell (envOf s) x u.yard = .unverified (some f) ∧ lost u b r none ∧ u.yard.carriers[a].load = c.load
          ∧ (getBin f y = none → getBin f u.yard = some ⟨100, 0, .unverified, some x, none, none, true, false, none⟩)
          ∧ ∀ q, getBin f y = some q → q.st ≠ .retired →
            if inPlace q then getBin f u.yard = some q
            else lost u f q (some x) ∧ ∀ z, q.st = .stored → q.cell = some z → z ≠ x → getCell (envOf s) z y = .occupied f →
              getCell (envOf s) z u.yard = .unverified (some f))
        ∧ (∃ u, Completes (reads .empty) s u ∧ SameElse s u ∧ u.link = s.link ∧ getCell (envOf s) x u.yard = .empty
            ∧ lost u b r none ∧ u.yard.carriers[a].st = waits ∧ u.yard.carriers[a].seg = none ∧ u.yard.carriers[a].load = c.load
            ∧ (y.post.outbox.length < 32 → ∃ n, u.yard.post.outbox = y.post.outbox ++ [n] ∧ n.kind = .carrierFault))
        ∧ ∃ u, Completes (reads .unreadable) s u ∧ faulted u .mismatch ∧ others u x
            ∧ getCell (envOf s) x u.yard = .unverified (some b) ∧ lost u b r (some x) ∧ u.yard.carriers[a].load = c.load)
    ∧ (wingHeld s.wing.st = true → g.kind = .forkIn → g.target = .inboundPlace → g.expect = some b →
        c.task = some (.putaway b .takeInbound none) → c.suspended = none → y.lines.inbound[a] = some b → r.st = .inbound →
        (1 ≤ b → b ≤ 20480 → ∃ u z, Completes (reads (.bin b)) s u ∧ SameElse s u ∧ u.yard.lines.inbound[a] = none
          ∧ getBin b u.yard = some z
          ∧ z = { r with st := .onCarrier, cell := none, aisle := none, station := none, live := z.live }
          ∧ u.yard.carriers[a] = { c with seg := none, load := some b, task := some (.putaway b .choose none), st := waits })
        ∧ (∀ f, f ≠ b → 1 ≤ f → f ≤ 20480 → ∃ u z, Completes (reads (.bin f)) s u ∧ faulted u .mismatch
            ∧ u.yard.lines.inbound[a] = some f ∧ lost u b r none ∧ getBin f u.yard = some z
            ∧ z.st = .inbound ∧ z.aisle = some a ∧ z.cell = none ∧ z.station = none)
        ∧ (∃ u, Completes (reads .empty) s u ∧ SameElse s u ∧ u.link = s.link ∧ u.yard.lines.inbound[a] = none ∧ lost u b r none
            ∧ u.yard.carriers[a] = { c with seg := none, task := none, st := waits }
            ∧ (y.post.outbox.length < 32 → ∃ n, u.yard.post.outbox = y.post.outbox ++ [n] ∧ n.kind = .carrierFault))
        ∧ ∃ u, Completes (reads .unreadable) s u ∧ faulted u .mismatch ∧ SameStock y u.yard ∧ SameDesks y u.yard)


/-- A Read corrects the map at each cell read, north before south, front before deep, by what the tag and the
records say: a bin recorded in another place, or a Disabled cell, is a conflict; a bin Stored elsewhere is displaced
from there; any other bin becomes Stored here, one without a record with 100, 0 and Damaged, a Retired one with
RetirePending; an empty cell becomes Empty; an unreadable one Unverified (a Reserved cell as an Empty one: log 40,
the model's choice). Any other bin recorded in a cell read is left Unverified with no cell, and the counts follow.
The deep cell is read only behind a front read empty, and is counted shadowed or incomplete otherwise. After each
cell the aisle's verification status is derived again, every tray makes its choice when it has become Verified
(R140, R147; by ascending station: log 93, the model's choice), and every order is evaluated (R81; after these: log 13):
one Queued or Blocked takes the outcome of R80's first condition that holds, with an OrderBlocked notice when that is
another than it had, and a tray's own pickless Space order that becomes Blocked(UNVERIFIED) under active demand is
withdrawn (R142). The Read of the last position ends the survey: the
carrier is Idle, a Pass over the whole aisle clears its doubt, and AisleSurveyed is raised (its layout is log 71).
-/
def Obligations.ReadingsCorrectTheMap : Prop :=
  (∀ (e : Env) (a : CellAddr) (t : TagRead) (y : Yard) (r : SurveyRun), GeometryFits e.cfg.geometry → KSorted y.cells →
    getCell e a y ≠ .absent →
    let z := (readCell e a t y r).1
    let q := (readCell e a t y r).2
    let old := getCell e a y
    let one := fun (p : Prop) [Decidable p] => if p then 1 else 0
    let lost := fun x : Bin => { x with st := .unverified, cell := none, aisle := none, station := none }
    let othersLeave := fun keep : Option Nat => ∀ d, some d ≠ keep →
      getBin d z = (getBin d y).map fun x => if x.cell = some a then lost x else x
    let counts := fun (conflict : Nat) (unread : Nat) (displaced : Nat) => q.conflicts = r.conflicts + conflict
      ∧ q.unreadable = r.unreadable + unread ∧ q.displaced = r.displaced + displaced
    let cellIs := fun c : Cell => getCell e a z = c
    let onlyHere := ∀ k, k ≠ cellCode a → kget z.cells k = kget y.cells k
    let tag := match t with | .bin b => if 1 ≤ b ∧ b ≤ 20480 then t else .unreadable | _ => t
    q.scopeRead = (if a ∈ r.scope then r.scopeRead ++ [a] else r.scopeRead)
    ∧ q.scope = r.scope ∧ q.incomplete = r.incomplete ∧ q.shadowed = r.shadowed ∧ q.todo = r.todo
    ∧ (∀ x, x ∈ q.corrected ↔ x ∈ r.corrected ∨ getCell e x z ≠ getCell e x y)
    ∧ (old = .disabled → z = y ∧ counts (one (tag ≠ .empty)) (one (tag = .unreadable ∧ a ∈ r.scope)) 0)
    ∧ (old ≠ .disabled →
        (tag = .empty → cellIs .empty ∧ onlyHere ∧ othersLeave none ∧ counts 0 0 0)
        ∧ (tag = .unreadable → onlyHere ∧ counts 0 (one (a ∈ r.scope)) 0
            ∧ ((old = .empty ∨ ∃ b p, old = .reserved b p) → cellIs (.unverified none) ∧ z.bins = y.bins)
            ∧ (∀ b, old = .unverified b → z = y)
            ∧ ∀ b, old = .occupied b → cellIs (.unverified (some b)) ∧ (∀ d, d ≠ b → getBin d z = getBin d y)
                ∧ getBin b z = (getBin b y).map fun x => { lost x with cell := some a })
        ∧ ∀ b, tag = .bin b → othersLeave (some b)
            ∧ (getBin b y = none → cellIs (.occupied b) ∧ onlyHere ∧ counts 0 0 0
                ∧ getBin b z = some ⟨100, 0, .stored, some a, some a.aisle, none, true, false, none⟩)
            ∧ ∀ x, getBin b y = some x →
                let here := { x with st := .stored, cell := some a, aisle := some a.aisle, station := none }
                (inPlace x = true → cellIs (.unverified (some b)) ∧ onlyHere ∧ getBin b z = some x ∧ counts 1 0 0)
                ∧ (x.st = .stored → x.cell = some a → cellIs (.occupied b) ∧ onlyHere ∧ getBin b z = some x ∧ counts 0 0 0)
                ∧ (∀ c, x.st = .stored → x.cell = some c → c ≠ a → cellIs (.occupied b) ∧ getBin b z = some here
                    ∧ (getCell e c y ≠ .absent → getCell e c z = .unverified (some b))
                    ∧ (∀ k, k ≠ cellCode a → k ≠ cellCode c → kget z.cells k = kget y.cells k)
                    ∧ counts 0 0 (one (c ∈ r.scopeRead)))
                ∧ (x.st = .unverified → cellIs (.occupied b) ∧ onlyHere ∧ getBin b z = some here ∧ counts 0 0 0)
                ∧ (x.st = .retired → cellIs (.occupied b) ∧ onlyHere ∧ counts 0 0 0
                    ∧ getBin b z = some { here with retirePending := true })))
  ∧ (∀ (e : Env) (f : CellAddr) (t : SideRead) (y : Yard) (r : SurveyRun),
      let derived := fun (p : Yard × SurveyRun) =>
        let y := { p.1 with verif := p.1.verif.set f.aisle { p.1.verif[f.aisle] with verified := aisleVerified f.aisle p.1 } }
        let y := if aisleVerified f.aisle p.1 = true ∧ p.1.verif[f.aisle].verified = false then trayChoices e y else y
        (evalOrders e y, p.2)
      let q := derived (readCell e f t.front y r)
      let deep := { f with depth := .deep }
      (t.front = .empty → readSide e f t y r = derived (readCell e deep t.deep q.1 q.2))
      ∧ (t.front ≠ .empty → readSide e f t y r = (q.1,
          let holds : Bool := match t.front with | .bin b => decide (1 ≤ b ∧ b ≤ 20480) | _ => false
          if deep ∉ r.scope then q.2
          else if r.full && holds then { q.2 with shadowed := q.2.shadowed + 1 }
          else { q.2 with incomplete := q.2.incomplete + 1 })))
  ∧ (∀ (e : Env) (o : Order) (y : Yard),
      let out := orderOutcome e o y
      let z := evalOrder e o.no y
      ((∀ r, getBin o.bin y = some r → r.st = .unverified) → out = .blocked .unverified)
      ∧ (∀ r, getBin o.bin y = some r →
        (r.st ≠ .unverified → (r.st ≠ .stored ∨ r.cell = none) → out = .blocked .inTransit)
        ∧ ∀ x, r.st = .stored → r.cell = some x →
          let c := y.carriers[x.aisle]
          let front := getCell e { x with depth := .front } y
          let down := y.est[x.aisle].inForce = .off ∨ c.st = .faulted ∨ c.st = .offline
            ∨ ∃ q : SurveyRun, q.ended = false ∧ (c.task = some (.survey q) ∨ c.suspended = some (.survey q))
          (down → out = .blocked .aisleDown)
          ∧ (¬down → x.depth = .front → out = .queued)
          ∧ (¬down → x.depth = .deep →
            (front = .empty → out = .queued)
            ∧ ((∃ b w, front = .reserved b w) ∨ front = .disabled → out = .blocked .frontReserved)
            ∧ (∀ b, front = .unverified b → out = .blocked .unverified)
            ∧ ∀ b, front = .occupied b → out = if shuffleTarget e x y = none then .blocked .noRoom else .queued))
      ∧ (orderOf o.no y = some o →
        let waits := o.st = .queued ∨ ∃ w, o.st = .blocked w
        let raised := notify e .orderBlocked
          [.u2 o.no, .u2 o.bin, .u1 (match out with | .blocked w => reasonCode w | _ => 0)]
          { y with orders := y.orders.map fun p => if p.no = o.no then { p with st := out } else p }
        let withdrawn := out = .blocked .unverified ∧ o.cls = .space ∧ o.picks = [] ∧ o.retire = false
          ∧ ∃ st : Station, y.trays[st].spaceOrder = some o.no ∧ y.trays[st].demand = true
        ((¬waits ∨ out = o.st) → z = y)
        ∧ (waits → out ≠ o.st → (¬withdrawn → z = raised) ∧ (withdrawn → z = removeOrder e o.no raised)))
      ∧ evalOrders e y = (y.orders.map (·.no)).foldl (fun y no => evalOrder e no y) y)
  ∧ ∀ (a : Aisle) (g : Segment) (p : Nat × Nat) (n m : SideRead) (r : SurveyRun) (s : State),
      s.yard.carriers[a].seg = some g → g.kind = .read → s.yard.est[a].st ≠ .pending →
      s.yard.carriers[a].task = some (.survey r) → r.ended = false → r.todo = [p] →
      (s.wing.st = .normal ∨ s.wing.st = .standby) →
      let e := envOf s
      let rest := { s.yard with bus := [], carriers := s.yard.carriers.set a { s.yard.carriers[a] with seg := none } }
      let north := readSide e ⟨a, .north, p.1, p.2, .front⟩ n rest { r with todo := [], reading := false }
      let south := readSide e ⟨a, .south, p.1, p.2, .front⟩ m north.1 north.2
      let q := south.2
      let pass := decide (q.scopeRead.length + q.shadowed = q.scope.length ∧ q.unreadable = 0 ∧ q.incomplete = 0
        ∧ q.conflicts = 0 ∧ q.displaced = 0)
      let whole := pass && r.full && decide (r.startCol = 1 ∧ r.stopCol = s.cfg.geometry.columns)
      ∃ u, Completes (.segmentComplete a g.no (.read n m)) s u ∧ SameElse s u ∧ u.link = s.link
        ∧ u.yard.cells = south.1.cells ∧ u.yard.journal = south.1.journal ∧ SpaceOrdersAdded south.1 u.yard
        ∧ (whole = false → u.yard.bins = south.1.bins ∧ u.yard.orders = south.1.orders ∧ u.yard.trays = south.1.trays)
        ∧ u.yard.carriers = s.yard.carriers.set a { s.yard.carriers[a] with seg := none, task := none, st := .idle }
        ∧ (∀ d : Aisle, d ≠ a → u.yard.verif[d] = s.yard.verif[d])
        ∧ u.yard.verif[a].doubt = (if whole then false else s.yard.verif[a].doubt)
        ∧ u.yard.verif[a].verified = aisleVerified a u.yard
        ∧ u.yard.lines = s.yard.lines ∧ u.yard.stations = s.yard.stations
        ∧ (let items : List Fld := [.u1 (aisleNo a), .u1 (if r.full then 2 else 1), .u2 r.startCol, .u2 r.stopCol,
                .u1 (if pass then 1 else 2), .u2 q.scope.length, .u2 q.scopeRead.length, .u2 q.corrected.length,
                .u2 q.unreadable, .u2 q.incomplete, .u2 q.shadowed, .u2 q.conflicts, .u2 q.displaced,
                .u1 (if aisleVerified a u.yard then 1 else 2), .u1 (if u.yard.verif[a].doubt then 1 else 0)]
           (∃ z, u.yard.post = (notify e .aisleSurveyed items z).post)
           ∧ (NoTrayChooses south.1 → SameDesks south.1 u.yard ∧ u.yard.orders = south.1.orders
              ∧ (south.1.post.outbox.length < 32 → ∃ i, u.yard.post.outbox = south.1.post.outbox ++ [i]
                  ∧ i.kind = .aisleSurveyed ∧ i.items = items)))

/-- An arbiter begins a task only for an Idle carrier of a ready aisle, with no hold-off, in Normal or (a survey) in
Standby, and takes the first that applies: a load goes to the cell the put-away ranking names, which is reserved, or
waits; then a requested survey (one of no position begins and ends in that choice: log 82, the model's choice); then an inbound bin a cell can take, when the returns press or no order is eligible;
then the order ranked first, which becomes Assigned, its shuffle target reserved. A tray chooses among the Stored
bins neither Damaged, RetirePending nor ordered, in a Verified aisle that is not Off, with room for its narrowest
Waiting item: first those with room for the need, by fetch estimate, then by room; the order for the bin chosen
joins the queue, or is refused at 96; with none, it raises TrayNoSpace once. With no active demand, or with its
Space order in the queue, it chooses nothing. Where every tray chooses they do so by ascending station, and where an
order leaves the queue, the tray whose Space order it was, or whose last request the full queue has refused, chooses at
once; until it asks again that request stays its last (log 93: the order is the model's). -/
def Obligations.ArbitersAndTraysChoose : Prop :=
  (∀ (e : Env) (a : Aisle) (y : Yard),
    let c := y.carriers[a]
    let z := choose e a y
    let mayAct := c.st = .idle ∧ aisleReady e a y = true ∧ y.journal.holdOff = false
    let travels := fun (p : Nat × Nat) (t : Task) => z.carriers[a].task = some t ∧ z.carriers[a].st = .moving
      ∧ z.carriers[a].load = c.load ∧ ∃ g, z.carriers[a].seg = some g ∧ g.kind = .travel ∧ g.target = .pos p.1 p.2
        ∧ g.no = c.segNo + 1 ∧ z.bus = y.bus ++ [.segment a g]
    let rests := z.carriers = y.carriers ∧ z.orders = y.orders ∧ z.cells = y.cells ∧ z.bus = y.bus
    let first := rankFirst e y (eligibleOrders e a y)
    let surveys := fun (q : SurveyReq) => z.arbs[a].surveyReq = none ∧ (KSorted y.bins → SpaceOrdersAdded y z) ∧ z.cells = y.cells
      ∧ z.lines = y.lines ∧ z.stations = y.stations
      ∧ (((surveyRun e a q y).todo ≠ [] ∨ (1 ≤ e.cfg.geometry.columns ∧ 1 ≤ e.cfg.geometry.levels)) →
          SameDesks y z ∧ z.orders = y.orders)
      ∧ (match (surveyRun e a q y).todo with
         | [] => z.carriers[a].task = none ∧ z.carriers[a].st = .idle
         | p :: _ => (carrierPos c ≠ p → travels p (.survey { surveyRun e a q y with reading := false }))
            ∧ (carrierPos c = p → z.carriers[a].task = some (.survey { surveyRun e a q y with reading := true })
                ∧ ∃ g, z.carriers[a].seg = some g ∧ g.kind = .read ∧ g.target = .pos p.1 p.2))
    let retrieves := ∀ (o : Order) (x : CellAddr) (t : Nat) (sh : Option (Nat × CellAddr)), first = some o →
      storedCell o.bin y = some x → orderRetrieval e o y = some (t, sh) → carrierPos c ≠ cellPos x →
      z.orders = y.orders.map (fun w => if w.no = o.no then { w with st := .assigned } else w)
      ∧ travels (cellPos x) (.retrieve o.no o.bin x (if sh.isSome then .toFront else .toBin) sh)
      ∧ (∀ f w, sh = some (f, w) → getCell e w z = .reserved f .shuffle)
      ∧ (sh = none → z.cells = y.cells)
    (aisleReady e a y = true ↔ aisleNo a ≤ e.cfg.geometry.aisleCount ∧ y.est[a].inForce ≠ .off ∧ y.est[a].st = .steady
      ∧ c.st ≠ .faulted ∧ c.st ≠ .offline
      ∧ ∀ r, (c.task = some (.survey r) ∨ c.suspended = some (.survey r)) → r.ended = true)
    ∧ (¬(mayAct ∧ (e.wing = .normal ∨ e.wing = .standby)) → z = y)
    ∧ (mayAct → e.wing = .standby → (c.load.isSome ∨ y.arbs[a].surveyReq = none) → z = y)
    ∧ (mayAct → e.wing = .normal → ∀ b, c.load = some b →
        (putAwayCell e a y = none → rests)
        ∧ ∀ x, putAwayCell e a y = some x → getCell e x z = .reserved b .putAway ∧ z.orders = y.orders
            ∧ (∀ k, k ≠ cellCode x → kget z.cells k = kget y.cells k)
            ∧ (carrierPos c ≠ cellPos x → travels (cellPos x) (.putaway b .toCell (some x))))
    ∧ (mayAct → c.load = none → (e.wing = .normal ∨ e.wing = .standby) → ∀ q, y.arbs[a].surveyReq = some q → surveys q)
    ∧ (mayAct → e.wing = .normal → c.load = none → y.arbs[a].surveyReq = none →
        (∀ b, y.lines.inbound[a] = some b → hasCandidate e a y = true →
          (e.cfg.pressure ≤ y.lines.returns.length ∨ eligibleOrders e a y = []) → carrierPos c ≠ mouthPos →
          travels mouthPos (.putaway b .toMouth none) ∧ z.orders = y.orders ∧ z.cells = y.cells)
        ∧ ((y.lines.inbound[a] = none ∨ hasCandidate e a y = false
            ∨ (y.lines.returns.length < e.cfg.pressure ∧ eligibleOrders e a y ≠ [])) → retrieves)
        ∧ ((y.lines.inbound[a] = none ∨ hasCandidate e a y = false) → eligibleOrders e a y = [] → rests)))
  ∧ ∀ (e : Env) (st : Station) (y : Yard), KSorted y.bins →
      let t := y.trays[st]
      let waiting := t.items.filter fun i => i.st = .waiting
      let need := min 600 ((waiting.map (·.width)).sum)
      let isCandidate := fun c : SpaceBin => ∃ r x, getBin c.bin y = some r ∧ r.st = .stored ∧ r.cell = some x
        ∧ r.damaged = false ∧ r.retirePending = false ∧ r.live = none ∧ aisleVerified x.aisle y = true
        ∧ y.est[x.aisle].inForce ≠ .off ∧ fetchEstimate e x y = some c.fetch ∧ c.free = r.capacity - r.fill
        ∧ ∃ i ∈ waiting, i.width ≤ c.free
      let sooner := fun c d : SpaceBin => c.fetch < d.fetch ∨ (c.fetch = d.fetch ∧ c.bin < d.bin)
      (∀ c, chooseBin e st y = some c → isCandidate c ∧ ∀ d, isCandidate d → d ≠ c →
        (need ≤ c.free ∧ (d.free < need ∨ sooner c d))
        ∨ (c.free < need ∧ d.free < need ∧ (d.free < c.free ∨ (d.free = c.free ∧ sooner c d))))
      ∧ (chooseBin e st y = none ↔ ∀ c, ¬isCandidate c)
      ∧ (chooseBin e st y = none → t.demand = true → t.spaceOrder = none →
          let z := spaceChoice e st y
          z.trays = y.trays.set st { t with noSpace := true } ∧ z.orders = y.orders
          ∧ (t.noSpace = true → z.post = y.post)
          ∧ (t.noSpace = false → y.post.outbox.length < 32 →
              ∃ n, z.post.outbox = y.post.outbox ++ [n] ∧ n.kind = .trayNoSpace))
      ∧ (∀ c, chooseBin e st y = some c → t.demand = true → t.spaceOrder = none →
          let z := spaceChoice e st y
          z.post = y.post
          ∧ (96 ≤ y.orders.length → z = { y with trays := y.trays.set st { t with refusedFull := true } })
          ∧ (y.orders.length < 96 → ∃ o, z.orders = y.orders ++ [o]
              ∧ o = ⟨o.no, c.bin, st, .space, e.now, o.st, false, [], false, none⟩
              ∧ (∀ p ∈ y.orders, p.no ≠ o.no)
              ∧ z.trays = y.trays.set st { t with spaceOrder := some o.no, noSpace := false, refusedFull := false }
              ∧ (∃ r, getBin c.bin y = some r ∧ getBin c.bin z = some { r with live := some o.no })
              ∧ ∀ b, b ≠ c.bin → getBin b z = getBin b y))
      ∧ ((t.demand = false ∨ t.spaceOrder.isSome) → spaceChoice e st y = y)
      ∧ ChoicesOnly y (trayChoices e y)
      ∧ trayChoices e y = spaceChoice e 3 (spaceChoice e 2 (spaceChoice e 1 (spaceChoice e 0 y)))
      ∧ ∀ no : Nat,
        let told := { y with trays := y.trays.set st { t with
          spaceOrder := if t.spaceOrder = some no then none else t.spaceOrder } }
        trayOrderLeft e no st y = (if t.spaceOrder = some no ∨ t.refusedFull = true then spaceChoice e st told else y)
        ∧ traysOrderLeft e no y = trayOrderLeft e no 3 (trayOrderLeft e no 2 (trayOrderLeft e no 1 (trayOrderLeft e no 0 y)))

/-- A drive unit that reports for an Offline carrier in Normal brings it Idle to the reported position, or
Faulted with DRIVE_FAULT, with an empty fork when none is reported; map, bins and lines stay as they are. In Restarting
a report gives a carrier that is not Offline its position, and a Halted one becomes Faulted with reason HALTED, a Parked
one Idle, and one in another state stays in it; a load that the report does not name becomes Unverified with no cell.
That the drive fault such a report carries changes nothing is log 63, the model's choice. -/
def Obligations.DriveReportEndsOffline : Prop :=
  (∀ (a : Aisle) (col level : Nat) (fault : Bool) (s : State), s.wing.st = .normal →
    a.val + 1 ≤ s.cfg.geometry.aisleCount → s.yard.carriers[a].st = .offline → s.yard.carriers[a].clear = none →
    s.yard.carriers[a].load = none → s.yard.carriers[a].task = none → s.yard.carriers[a].suspended = none →
    ∃ u, Completes (.driveStatusReport a col level none fault) s u ∧ SameElse s u ∧ u.link = s.link
      ∧ u.yard.carriers[a].pos = some (col, level) ∧ u.yard.carriers[a].load = none
      ∧ u.yard.carriers[a].st = (if fault then .faulted else .idle)
      ∧ u.yard.carriers[a].fault = (if fault then some .driveFault else s.yard.carriers[a].fault)
      ∧ (∀ d : Aisle, d ≠ a → u.yard.carriers[d] = s.yard.carriers[d])
      ∧ SameStock s.yard u.yard ∧ SameDesks s.yard u.yard ∧ u.yard.orders = s.yard.orders
      ∧ u.yard.disc.expected = s.yard.disc.expected.filter (fun d => d ≠ .drive a))
  ∧ ∀ (a : Aisle) (col level : Nat) (fork : Option Nat) (fault : Bool) (s : State), s.wing.st = .restarting →
    a.val + 1 ≤ s.cfg.geometry.aisleCount → s.yard.carriers[a].st ≠ .offline → s.yard.carriers[a].clear = none →
    s.yard.carriers[a].suspended = none → s.yard.est[a].st ≠ .pending → (∀ b, fork = some b → 1 ≤ b ∧ b ≤ 20480) →
    (fork = s.yard.carriers[a].load ∨ fork = none) →
    let was := s.yard.carriers[a].st
    ∃ u, Completes (.driveStatusReport a col level fork fault) s u ∧ SameElse s u ∧ u.link = s.link
      ∧ u.yard.carriers[a].pos = some (col, level) ∧ u.yard.carriers[a].load = fork ∧ u.yard.carriers[a].reported = true
      ∧ u.yard.carriers[a].st = (if was = .halted then .faulted else if was = .parked then .idle else u.yard.carriers[a].st)
      ∧ u.yard.carriers[a].fault = (if was = .halted then some .halted else s.yard.carriers[a].fault)
      ∧ (was = .halted → u.yard.carriers[a].seg = none)
      ∧ u.yard.disc.expected = s.yard.disc.expected.filter (fun d => d ≠ .drive a)
      ∧ (fork = s.yard.carriers[a].load → SameStock s.yard u.yard ∧ SameDesks s.yard u.yard
          ∧ (was ≠ .halted → u.yard.orders = s.yard.orders ∧ u.yard.carriers[a] = { s.yard.carriers[a] with
              pos := some (col, level), reported := true, st := if was = .parked then .idle else was })
          ∧ ∀ d : Aisle, d ≠ a → u.yard.carriers[d] = s.yard.carriers[d])
      ∧ ∀ b r, s.yard.carriers[a].load = some b → fork = none → getBin b s.yard = some r →
          getBin b u.yard = some { r with st := .unverified, cell := none, aisle := none, station := none }
          ∧ ∀ d, d ≠ b → getBin d u.yard = getBin d s.yard

/-- CarrierClear of a Faulted carrier in Normal or Standby asks the drive unit for its status and waits for
it; of a carrier that is not Faulted, of one whose CarrierClear waits already, and in another wing state it is refused
BUSY, and for an aisle outside 1 to 6 FORM; and 50 ds without a report answer it BUSY. The report gives the
carrier its position and load, ends its task, with a reservation the task still holds released (its cell is Empty), ends
its fault and makes it Idle, and is answered OK with position and load; the cell of a bin it takes over becomes Empty; Unverified cells left in the aisle call for a Spot survey of its whole
length where none is held (R150). A drive fault in the report keeps it Faulted, and out of Normal and Standby nothing of the
report is applied: both are answered BUSY. That this goes for Restarting too, where R68 would have the report applied,
is log 63, the model's choice. -/
def Obligations.CarrierClearAsksDrive : Prop :=
  ∀ (h : ReqHdr) (a : Aisle) (s : State),
    (Taken h s → s.yard.carriers[a].st = .faulted → s.yard.carriers[a].clear = none →
      (s.wing.st = .normal ∨ s.wing.st = .standby) →
      Completes (.carrierClear h (aisleNo a)) s { s with
        link := waitingLink 0x19 h s.link
        yard := { s.yard with
          bus := [.driveStatus a]
          carriers := s.yard.carriers.set a { s.yard.carriers[a] with clear := some ⟨s.link.nextId, 50⟩ } } })
    ∧ (Taken h s → (s.yard.carriers[a].st ≠ .faulted ∨ s.yard.carriers[a].clear.isSome
          ∨ (s.wing.st ≠ .normal ∧ s.wing.st ≠ .standby)) →
        Completes (.carrierClear h (aisleNo a)) s { clearBus s with link := answeredLink 0x19 h .busy [] s.link })
    ∧ (Taken h s → ∀ n, (n = 0 ∨ 6 < n) →
        Completes (.carrierClear h n) s { clearBus s with link := answeredLink 0x19 h .form [] s.link })
    ∧ (∀ w, s.yard.carriers[a].clear = some w → ∃ u, Completes (.carrierClearTimeout a) s u ∧ SameElse s u
        ∧ u.yard = { s.yard with
            bus := [], carriers := s.yard.carriers.set a { s.yard.carriers[a] with clear := none } }
        ∧ (∀ q ∈ s.link.inbox, q.id = w.id → q.reply = none →
            { q with reply := some ⟨q.kind + 0x40, q.tag, .busy, []⟩ } ∈ u.link.inbox)
        ∧ u.link = { s.link with inbox := u.link.inbox })
    ∧ ∀ (w : ClearWait) (col level : Nat) (fork : Option Nat) (fault : Bool), a.val + 1 ≤ s.cfg.geometry.aisleCount →
      s.yard.carriers[a].st = .faulted → s.yard.carriers[a].clear = some w →
      let answered := fun (u : State) (code : ReplyCode) (items : List Fld) => u.link = { s.link with
        inbox := s.link.inbox.map fun q =>
          if q.id = w.id ∧ q.reply = none then { q with reply := some ⟨q.kind + 0x40, q.tag, code, items⟩ } else q }
      let left := fun (u : State) => SameElse s u ∧ u.yard.orders = s.yard.orders
        ∧ ∀ d : Aisle, d ≠ a → u.yard.carriers[d] = s.yard.carriers[d]
      let idle := fun (u : State) => SameElse s u ∧ answered u .ok [.u1 col, .u1 level, .u2 (fork.getD 0)]
        ∧ u.yard.carriers[a].st = .idle ∧ u.yard.carriers[a].fault = none ∧ u.yard.carriers[a].task = none
        ∧ u.yard.carriers[a].clear = none ∧ u.yard.carriers[a].pos = some (col, level) ∧ u.yard.carriers[a].load = fork
      let cmd := Instr.driveStatusReport a col level fork fault
      (s.wing.st ≠ .normal → s.wing.st ≠ .standby → ∃ u, Completes cmd s u ∧ left u ∧ answered u .busy []
        ∧ u.yard.carriers[a] = { s.yard.carriers[a] with clear := none } ∧ SameStock s.yard u.yard ∧ SameDesks s.yard u.yard)
      ∧ ((s.wing.st = .normal ∨ s.wing.st = .standby) → fault = true → ∃ u, Completes cmd s u ∧ left u ∧ answered u .busy []
          ∧ u.yard.carriers[a] = { s.yard.carriers[a] with clear := none, fault := some .driveFault }
          ∧ SameStock s.yard u.yard ∧ SameDesks s.yard u.yard)
      ∧ ((s.wing.st = .normal ∨ s.wing.st = .standby) → fault = false →
          (fork = s.yard.carriers[a].load → (∀ b, fork = some b → 1 ≤ b ∧ b ≤ 20480) →
            let holds := fun x : CellAddr => (∃ no b y k f, s.yard.carriers[a].task = some (.retrieve no b y k (some (f, x))))
              ∨ (∃ b k, s.yard.carriers[a].task = some (.putaway b k (some x)))
              ∨ ∃ b col k, s.yard.carriers[a].task = some (.parkPlace b x col k)
            ∃ u, Completes cmd s u ∧ idle u ∧ left u ∧ SameDesks s.yard u.yard
              ∧ u.yard.bins = s.yard.bins ∧ u.yard.verif = s.yard.verif ∧ u.yard.journal = s.yard.journal
              ∧ (∀ x, holds x → (s.yard.carriers[a].seg = none → KSorted s.yard.cells →
                    getCell (envOf s) x u.yard = (match getCell (envOf s) x s.yard with
                      | .reserved _ _ => .empty
                      | k => k))
                  ∧ ∀ k, k ≠ cellCode x → kget u.yard.cells k = kget s.yard.cells k)
              ∧ ((∀ x, ¬holds x) → u.yard.cells = s.yard.cells)
              ∧ u.yard.arbs[a].surveyReq = if unverifiedCells a s.yard = [] ∨ s.yard.arbs[a].surveyReq.isSome
                  then s.yard.arbs[a].surveyReq else some ⟨false, 1, s.cfg.geometry.columns⟩)
          ∧ ∀ (b : Nat) (r : Bin) (x : CellAddr), fork = some b → s.yard.carriers[a].load = none → 1 ≤ b → b ≤ 20480 →
            getBin b s.yard = some r → r.st = .stored → r.cell = some x → KSorted s.yard.cells →
            getCell (envOf s) x s.yard = .occupied b →
            ∃ u q, Completes cmd s u ∧ idle u ∧ getCell (envOf s) x u.yard = .empty
              ∧ getBin b u.yard = some q
              ∧ q = { r with st := .onCarrier, cell := none, aisle := none, station := none, live := q.live })

/-! ## Orders -/

/-- A Lend for a Stored bin with no live order, at a named station that serves readers, while the queue has
room, makes a Reader order with one Open pick at the tail, and is answered OK, or HELD while the wing is held. The bin's
live order is set; no cell, carrier, line, station or tray changes. A queue of 96 orders refuses it FULL. For a bin with
a live order the pick joins that order, at the tail of its picks, and arms its session, answered OK, REDIRECTED when the
order goes to another station, or HELD; eight picks refuse it FULL, and a station of the order that serves no readers
BUSY. A bin without a live order that stands in an Open session of a station that serves readers, or comes to one, gets
an order At Station there, which the session takes and which arms it, or a Delivering one; any other bin's order goes to
the station named, or for station 0 to the one of largest free admission among those that serve readers (R73; with none
it is BUSY, before FULL: log 22, the model's reading), in the state R80 gives: Queued or Blocked for a Stored bin,
Blocked(UNVERIFIED) for an Unverified one, and Blocked(IN_TRANSIT) for one elsewhere. -/
def Obligations.LendMakesReaderOrder : Prop :=
  (∀ (h : ReqHdr) (b slip width : Nat) (st : Station) (item : ItemCode) (r : Bin) (s : State), Taken h s →
    slip ≠ 0 → itemOk item = true → 1 ≤ b → b ≤ 20480 →
    (s.wing.st = .normal ∨ s.wing.st = .hold ∨ s.wing.st = .clearing) →
    getBin b s.yard = some r → r.st ≠ .retired → slipInQueue slip s.yard = false → itemInUse item s.yard = false →
    serves s.yard.stations[st].role .reader = true →
    let pick : Pick := ⟨slip, item, max 1 (min 120 width), .opened⟩
    let cmd := Instr.lend h b slip width (stationNo st) item
    let refused := fun code => Completes cmd s { clearBus s with link := answeredLink 0x07 h code [] s.link }
    (r.st = .stored → r.live = none → sessionOfBin b s.yard = none → comingTo b s.yard = none →
      (s.yard.orders.length < 96 →
        ∃ u o, Completes cmd s u ∧ SameElse s u ∧ u.yard.orders = s.yard.orders ++ [o]
          ∧ o = ⟨o.no, b, st, .reader, s.clock.sec, o.st, false, [pick], false, none⟩
          ∧ (o.st = .queued ∨ ∃ w, o.st = .blocked w) ∧ (∀ p ∈ s.yard.orders, p.no ≠ o.no)
          ∧ getBin b u.yard = some { r with live := some o.no } ∧ (∀ x, x ≠ b → getBin x u.yard = getBin x s.yard)
          ∧ u.yard.cells = s.yard.cells ∧ SameMotion s.yard u.yard ∧ SameDesks s.yard u.yard
          ∧ (let items : List Fld := [.u2 o.no, .u1 (stationNo st), .u1 (orderStCode o.st), .u1 (orderReasonCode o.st), .u2 1]
             u.link = if s.wing.st = .normal then answeredLink 0x07 h .ok items s.link
               else answeredLink 0x07 h .held (items ++ [.u1 0]) s.link))
      ∧ (96 ≤ s.yard.orders.length → refused .full))
    ∧ ∀ no o, r.live = some no → orderOf no s.yard = some o →
      (serves s.yard.stations[o.station].role .reader = true → o.picks.length < 8 →
        ∃ u, Completes cmd s u ∧ SameElse s u
          ∧ u.yard.orders = s.yard.orders.map (fun q => if q.no = no then { q with picks := q.picks ++ [pick] } else q)
          ∧ SameStock s.yard u.yard ∧ SameMotion s.yard u.yard ∧ u.yard.lines = s.yard.lines ∧ u.yard.trays = s.yard.trays
          ∧ u.yard.stations = (match sessionOn no s.yard with
            | some x => s.yard.stations.set x { s.yard.stations[x] with
                session := s.yard.stations[x].session.map fun z => { z with armed := true } }
            | none => s.yard.stations)
          ∧ (let items : List Fld := [.u2 no, .u1 (stationNo o.station), .u1 (orderStCode o.st), .u1 (orderReasonCode o.st),
               .u2 (o.picks.length + 1)]
             u.link = if s.wing.st = .normal then answeredLink 0x07 h (if o.station = st then .ok else .redirected) items s.link
               else answeredLink 0x07 h .held (items ++ [.u1 (if o.station = st then 0 else 1)]) s.link))
      ∧ (serves s.yard.stations[o.station].role .reader = true → 8 ≤ o.picks.length → refused .full)
      ∧ (serves s.yard.stations[o.station].role .reader = false → refused .busy))
  ∧ ∀ (h : ReqHdr) (b slip width n : Nat) (item : ItemCode) (r : Bin) (s : State), Taken h s →
    slip ≠ 0 → itemOk item = true → 1 ≤ b → b ≤ 20480 → n ≤ 4 →
    (s.wing.st = .normal ∨ s.wing.st = .hold ∨ s.wing.st = .clearing) →
    getBin b s.yard = some r → r.st ≠ .retired → r.live = none → slipInQueue slip s.yard = false →
    itemInUse item s.yard = false → (∀ st : Station, n = stationNo st → serves s.yard.stations[st].role .reader = true) →
    let cmd := Instr.lend h b slip width n item
    let refused := fun code => Completes cmd s { clearBus s with link := answeredLink 0x07 h code [] s.link }
    let reads := fun st : Station => serves s.yard.stations[st].role .reader = true
    let made := fun (st : Station) (u : State) (o : Order) => Completes cmd s u ∧ SameElse s u
      ∧ OrderMade (envOf s) .reader b st [⟨slip, item, max 1 (min 120 width), .opened⟩] s.yard u.yard o
      ∧ u.link = orderAnswered 0x07 h n s.wing.st o s.link
    let elsewhere := (∀ st x, sessionOfBin b s.yard = some st → s.yard.stations[st].session = some x →
        x.releasing = true ∨ ¬reads st)
      ∧ (sessionOfBin b s.yard = none → ∀ st, comingTo b s.yard = some st → ¬reads st)
    (∀ st x, sessionOfBin b s.yard = some st → s.yard.stations[st].session = some x → x.releasing = false → reads st →
      (s.yard.orders.length < 96 → ∃ u o, made st u o ∧ o.st = .atStation
        ∧ u.yard.stations = s.yard.stations.set st { s.yard.stations[st] with
            session := some { x with order := some o.no, armed := true } })
      ∧ (96 ≤ s.yard.orders.length → refused .full))
    ∧ (∀ st, sessionOfBin b s.yard = none → comingTo b s.yard = some st → reads st →
        (s.yard.orders.length < 96 → ∃ u o, made st u o ∧ o.st = .delivering ∧ u.yard.stations = s.yard.stations)
        ∧ (96 ≤ s.yard.orders.length → refused .full))
    ∧ (elsewhere → (∀ st, AddressedTo (envOf s) .reader n s.yard st →
        (s.yard.orders.length < 96 → ∃ u o, made st u o ∧ u.yard.stations = s.yard.stations
          ∧ o.st = (if r.st = .unverified then .blocked .unverified else if r.st ≠ .stored then .blocked .inTransit
              else orderOutcome (envOf s) o s.yard))
        ∧ (96 ≤ s.yard.orders.length → refused .full))
      ∧ (n = 0 → (∀ st, ¬reads st) → refused .busy))

/-- The refusals of Lend, in the order of its checks, change no record. -/
def Obligations.LendChecksInOrder : Prop :=
  ∀ (h : ReqHdr) (b slip width station : Nat) (item : ItemCode) (s : State), Taken h s →
    let form := slip = 0 ∨ itemOk item = false ∨ b = 0 ∨ 20480 < b ∨ 4 < station
    let down := s.wing.st = .standby ∨ s.wing.st = .parking ∨ s.wing.st = .sealing ∨ s.wing.st = .sealed ∨ s.wing.st = .restarting
    let unknown := ∀ r, getBin b s.yard = some r → r.st = .retired
    let twice := slipInQueue slip s.yard = true ∨ itemInUse item s.yard = true
    let closed := ∃ st : Station, station = stationNo st ∧ serves s.yard.stations[st].role .reader = false
    let refused := fun code => Completes (.lend h b slip width station item) s
      { clearBus s with link := answeredLink 0x07 h code [] s.link }
    (form → refused .form) ∧ (¬form → down → refused .wingDown) ∧ (¬form → ¬down → unknown → refused .unknown)
      ∧ (¬form → ¬down → ¬unknown → twice → refused .duplicate)
      ∧ (¬form → ¬down → ¬unknown → ¬twice → closed → refused .busy)

/-- A Fetch for a Stored bin with no live order, at a named station that serves staff, makes a Staff order without
picks at the tail of the queue; for a bin with a live order it makes none and reports that order. The reply for a
live order gives its number, station, state, reason and number of picks, OK at the station named and REDIRECTED
otherwise: that these five items are R76's is log 18, the model's reading of R77. Its refusals in the order of its
checks change no record; a queue of 96 orders refuses a new order FULL, and that it is BUSY before it where no
station serves staff is log 22, the model's reading. A bin in an Open session, or on its way to a station, gets a Staff
order At Station there, which the session takes and which arms it, or a Delivering one, whatever the station's role and
the one named; any other bin's order goes by R73, in the state R80 gives: Queued or Blocked for a Stored bin,
Blocked(UNVERIFIED) for an Unverified one, and Blocked(IN_TRANSIT) for one elsewhere. Each is answered as R76 has it: OK,
REDIRECTED where a named station is not the order's, and HELD in place of either in Hold and Clearing. -/
def Obligations.FetchMakesStaffOrder : Prop :=
  (∀ (h : ReqHdr) (b : Nat) (st : Station) (r : Bin) (s : State), Taken h s → 1 ≤ b → b ≤ 20480 →
    s.wing.st = .normal → getBin b s.yard = some r → r.st = .stored → serves s.yard.stations[st].role .staff = true →
    (r.live = none → sessionOfBin b s.yard = none → comingTo b s.yard = none → s.yard.orders.length < 96 →
      ∃ u o, Completes (.fetch h b (stationNo st)) s u ∧ SameElse s u ∧ u.yard.orders = s.yard.orders ++ [o]
        ∧ o = ⟨o.no, b, st, .staff, s.clock.sec, o.st, false, [], false, none⟩
        ∧ getBin b u.yard = some { r with live := some o.no } ∧ (∀ x, x ≠ b → getBin x u.yard = getBin x s.yard)
        ∧ u.yard.cells = s.yard.cells ∧ SameMotion s.yard u.yard ∧ SameDesks s.yard u.yard
        ∧ ∃ items, u.link = answeredLink 0x09 h .ok items s.link)
    ∧ (∀ no o, r.live = some no → orderOf no s.yard = some o →
        let items : List Fld := [.u2 o.no, .u1 (stationNo o.station), .u1 (orderStCode o.st), .u1 (orderReasonCode o.st),
          .u2 o.picks.length]
        Completes (.fetch h b (stationNo st)) s { clearBus s with
          link := answeredLink 0x09 h (if o.station = st then .ok else .redirected) items s.link }))
  ∧ (∀ (h : ReqHdr) (b n : Nat) (r : Bin) (s : State), Taken h s → 1 ≤ b → b ≤ 20480 → n ≤ 4 →
    (s.wing.st = .normal ∨ s.wing.st = .hold ∨ s.wing.st = .clearing) → getBin b s.yard = some r → r.st ≠ .retired →
    (∀ st : Station, n = stationNo st → serves s.yard.stations[st].role .staff = true) →
    let cmd := Instr.fetch h b n
    let made := fun (st : Station) (u : State) (o : Order) => Completes cmd s u ∧ SameElse s u
      ∧ OrderMade (envOf s) .staff b st [] s.yard u.yard o ∧ u.link = orderAnswered 0x09 h n s.wing.st o s.link
    (∀ no o, r.live = some no → orderOf no s.yard = some o →
      Completes cmd s { clearBus s with link := orderAnswered 0x09 h n s.wing.st o s.link })
    ∧ (r.live = none → 96 ≤ s.yard.orders.length → (∃ st : Station, serves s.yard.stations[st].role .staff = true) →
        Completes cmd s { clearBus s with link := answeredLink 0x09 h .full [] s.link })
    ∧ (r.live = none → s.yard.orders.length < 96 →
        (∀ st x, sessionOfBin b s.yard = some st → s.yard.stations[st].session = some x → x.releasing = false →
          ∃ u o, made st u o ∧ o.st = .atStation ∧ u.yard.stations = s.yard.stations.set st { s.yard.stations[st] with
            session := some { x with order := some o.no, armed := true } })
        ∧ (∀ st, sessionOfBin b s.yard = none → comingTo b s.yard = some st →
            ∃ u o, made st u o ∧ o.st = .delivering ∧ u.yard.stations = s.yard.stations)
        ∧ ((∀ st x, sessionOfBin b s.yard = some st → s.yard.stations[st].session = some x → x.releasing = true) →
            (sessionOfBin b s.yard = none → comingTo b s.yard = none) →
            ∀ st, AddressedTo (envOf s) .staff n s.yard st → ∃ u o, made st u o ∧ u.yard.stations = s.yard.stations
              ∧ o.st = (if r.st = .unverified then .blocked .unverified else if r.st ≠ .stored then .blocked .inTransit
                  else orderOutcome (envOf s) o s.yard))))
  ∧ ∀ (h : ReqHdr) (b station : Nat) (s : State), Taken h s →
    let form := b = 0 ∨ 20480 < b ∨ 4 < station
    let down := s.wing.st = .standby ∨ s.wing.st = .parking ∨ s.wing.st = .sealing ∨ s.wing.st = .sealed ∨ s.wing.st = .restarting
    let unknown := ∀ r, getBin b s.yard = some r → r.st = .retired
    let closed := ∃ st : Station, station = stationNo st ∧ serves s.yard.stations[st].role .staff = false
    let none' := station = 0 ∧ ∀ st : Station, serves s.yard.stations[st].role .staff = false
    let refused := fun code => Completes (.fetch h b station) s { clearBus s with link := answeredLink 0x09 h code [] s.link }
    (form → refused .form) ∧ (¬form → down → refused .wingDown) ∧ (¬form → ¬down → unknown → refused .unknown)
      ∧ (¬form → ¬down → ¬unknown → closed → refused .busy)
      ∧ ∀ r, getBin b s.yard = some r → r.st = .stored → r.live = none → sessionOfBin b s.yard = none → comingTo b s.yard = none →
        (¬form → ¬down → none' → refused .busy)
        ∧ (¬form → ¬down → ¬closed → ¬none' → 96 ≤ s.yard.orders.length → refused .full)

/-- CancelLend of an Open pick of an order that has been claimed settles that pick Cancelled and no other; of a
settled pick it changes nothing; of a slip not in the queue it is refused UNKNOWN. The second byte of the reply,
whether the order was removed, is log 18, the model's reading. An Open pick of an order that is Queued or Blocked
leaves its list; a Reader order left with none and without the retire flag leaves the queue, its bin's live order is
cleared, and the trays that this concerns choose at once (R142; by ascending station: log 93, the model's choice).
Slip 0 is refused FORM. -/
def Obligations.CancelLendSettlesPick : Prop :=
  ∀ (h : ReqHdr) (slip : Nat) (s : State), Taken h s →
    (slip = 0 → Completes (.cancelLend h slip) s { clearBus s with link := answeredLink 0x08 h .form [] s.link })
    ∧ (slip ≠ 0 → (∀ o p, slipPick slip s.yard = some (o, p) → p.st = .opened → (o.st = .assigned ∨ o.st = .delivering ∨ o.st = .atStation) →
      Completes (.cancelLend h slip) s { s with
        link := answeredLink 0x08 h .ok [.u1 4, .u1 0] s.link
        yard := { s.yard with
          bus := []
          orders := s.yard.orders.map fun q =>
            if q.no = o.no then { q with picks := settlePick (fun p => p.slip = slip) .cancelled q.picks } else q } })
    ∧ (∀ o p, slipPick slip s.yard = some (o, p) → p.st ≠ .opened → Completes (.cancelLend h slip) s
        { clearBus s with link := answeredLink 0x08 h .ok [.u1 (pickStCode p.st), .u1 0] s.link })
    ∧ (slipPick slip s.yard = none → Completes (.cancelLend h slip) s
        { clearBus s with link := answeredLink 0x08 h .unknown [] s.link })
    ∧ ∀ o p, slipPick slip s.yard = some (o, p) → p.st = .opened → (o.st = .queued ∨ ∃ w, o.st = .blocked w) →
      let rest := o.picks.filter fun q => q.slip ≠ slip
      let leaves := rest = [] ∧ o.cls = .reader ∧ o.retire = false
      (¬leaves → Completes (.cancelLend h slip) s { s with
        link := answeredLink 0x08 h .ok [.u1 0, .u1 0] s.link
        yard := { s.yard with
          bus := [], orders := s.yard.orders.map fun q => if q.no = o.no then { q with picks := rest } else q } })
      ∧ (leaves → orderOf o.no s.yard = some o → ∃ u, Completes (.cancelLend h slip) s
          { u with yard := traysOrderLeft (envOf s) o.no u.yard } ∧ SameElse s u
        ∧ u.link = answeredLink 0x08 h .ok [.u1 0, .u1 1] s.link
        ∧ u.yard.orders = s.yard.orders.filter (fun q => q.no ≠ o.no)
        ∧ (∀ r, getBin o.bin s.yard = some r →
            getBin o.bin u.yard = some { r with live := if r.live = some o.no then none else r.live })
        ∧ (∀ b, b ≠ o.bin → getBin b u.yard = getBin b s.yard)
        ∧ u.yard.cells = s.yard.cells ∧ SameMotion s.yard u.yard ∧ SameDesks s.yard u.yard ∧ u.yard.post = s.yard.post
        ∧ ChoicesOnly u.yard (traysOrderLeft (envOf s) o.no u.yard)
        ∧ ∀ st : Station, let t := s.yard.trays[st]
            t.demand = false → (traysOrderLeft (envOf s) o.no u.yard).trays[st] = { t with
              spaceOrder := if t.spaceOrder = some o.no then none else t.spaceOrder }))

/-- The order ranked first among the eligible has the best class rank, the best score within it, and the
earliest place among those of equal rank and score. Reader ranks 0, Staff 2, and Space 1, or 0 while the first Waiting
item of its station's tray has waited the limit (R84). The score is the estimate, of at most 4,095, less the seconds
since the order's entry times the aging, of at most 1,000 (R37; an age and a wait read 0 while their stamp is later than
the clock: log 31, the model's reading); an order has an estimate while its bin is Stored in a
ready aisle and its retrieval has one. The eligible orders of an aisle are, in queue order, those Queued, in Normal with
no hold-off, whose bin is Stored in that aisle and the aisle ready, whose station serves the class (R73) and has a
committed count below 2 + L_s (R83); the count is of the bins in its two places, of those on the delivery line addressed
to it, and of its Assigned orders, and the free admission is 2 + L_s less it (R82). -/
def Obligations.RankingIsByClassScorePlace : Prop :=
  (∀ (e : Env) (y : Yard) (l : List Order) (o : Order), rankFirst e y l = some o →
    (∀ p ∈ l, classRank e o y < classRank e p y
      ∨ (classRank e o y = classRank e p y ∧ (rankKey e o y).2 ≤ (rankKey e p y).2))
    ∧ ∃ before after, l = before ++ o :: after
        ∧ ∀ p ∈ before, rankKey e p y ≠ rankKey e o y)
  ∧ (∀ (e : Env) (y : Yard) (o : Order),
    let waiting := y.trays[o.station].items.filter fun i => i.st = .waiting
    let credit : Int := (min 1000 ((e.now - o.entry) * e.cfg.aging) : Nat)
    (rankKey e o y).1 = classRank e o y
    ∧ classRank e o y = (match o.cls with
      | .reader => 0
      | .staff => 2
      | .space => if (waiting.head?.map fun i => decide (e.cfg.waitLimit ≤ e.now - i.stamp)) = some true then 0 else 1)
    ∧ ∀ n, (orderEstimate e o y = some n ↔ ∃ r x sh, getBin o.bin y = some r ∧ r.st = .stored ∧ r.cell = some x
          ∧ aisleReady e x.aisle y = true ∧ retrieval e x (carrierPos y.carriers[x.aisle]) y = .ok (n, sh))
        ∧ (orderEstimate e o y = some n → n ≤ 4095 ∧ (rankKey e o y).2 = (n : Int) - credit))
  ∧ ∀ (e : Env) (y : Yard),
    (∀ st : Station, committed st y = (if y.stations[st].next.isSome then 1 else 0)
        + (if y.stations[st].present.isSome then 1 else 0) + (y.lines.delivery.filter fun p => p.station = st).length
        + (y.orders.filter fun o => o.station = st ∧ o.st = .assigned).length
      ∧ freeAdmission e st y = (2 + e.cfg.stations[st].allowance : Nat) - (committed st y : Int))
    ∧ ∀ a : Aisle, (eligibleOrders e a y).Sublist y.orders
      ∧ ∀ o : Order, o ∈ eligibleOrders e a y ↔ o ∈ y.orders ∧ e.wing = .normal ∧ y.journal.holdOff = false ∧ o.st = .queued
        ∧ (∃ r x, getBin o.bin y = some r ∧ r.st = .stored ∧ r.cell = some x ∧ x.aisle = a) ∧ aisleReady e a y = true
        ∧ (y.stations[o.station].role = .lending ∨ y.stations[o.station].role = .mixed
          ∨ y.stations[o.station].role = .returns ∧ o.cls ≠ .reader)
        ∧ committed o.station y < 2 + e.cfg.stations[o.station].allowance

/-! ## Starts -/

/-- A start with a quiet panel loads every record from flash (R23, R212): the settings section by section, a section
that is not stored or whose check sum fails (`bad`) taking its defaults; the wing Sealed, with its incident, or in
Standby by its marker; carriers Offline with no load; empty queue, lines, inbound places,
station places and trays; wing clock 0. A cell takes its stored
content, but that the Cells section, where loaded, governs what is Disabled, that a bin unknown or Retired leaves
its cell Unverified with none, and that of several Occupied cells of one bin the first in address order has it. A
bin keeps capacity, flag and fill, and is Stored, Retired or else Unverified with the first cell that names it. A
warm restart begins when one is due, after a flush that makes its writes in order until an error: a control write in
flight, the pending ones but markers, a false clean marker before entries, the entries, the marked records, a true
clean marker. It keeps the link rate and the front-end; one that is not due changes nothing. The model's choice or
reading: the flush's order and what survives it (log 32), an entry write in flight made anew in its place (log 103), its order of marks (log 12), a fill capped by its
capacity, a stored Absent loaded as Empty and the order of the load and its corrections (log 37), open shutters and
powered drives in Standby (log 29), the record of an Unused slot (log 2). -/
def Obligations.StartsLoadFromFlash : Prop :=
  ∀ (k : Straps) (error : Option Nat) (bad : List Nat) (s : State),
    let quiet : Panel := ⟨false, false, false⟩
    let loaded := fun (f : Flash) (u : State) =>
      let fs := f.settings
      let geometry := if 1 ∈ bad then none else fs.geometry
      let disabled := if 2 ∈ bad then none else fs.cells
      let profiles := if 3 ∈ bad then none else fs.profiles
      let assign := (if 4 ∈ bad then none else fs.assign).getD Assign.dflt
      let stations := (if 5 ∈ bad then none else fs.stations).getD StationCfg.dflt
      let dispatch := if 6 ∈ bad then none else fs.dispatch
      let trays := if 7 ∈ bad then none else fs.trays
      let sessions := if 8 ∈ bad then none else fs.sessions
      let sweep := if 9 ∈ bad then none else fs.sweep
      let g := geometry.getD ⟨6, 64, 16⟩
      let fire := (if 10 ∈ bad then none else fs.fire).getD ⟨30, 600, g.columns, 300⟩
      let cell := fun x => getCell (envOf u) x u.yard
      let stored := fun (x : CellAddr) (c : StoredCell) => inGeometry g x = true ∧ kget f.cells (cellCode x) = some c
      let first := fun (x : CellAddr) (c : StoredCell) => stored x c ∧ ∀ z, stored z c → cellCode x ≤ cellCode z
      let known := fun b => ∃ t, kget f.attrs b = some t ∧ t.retired = false
      u.flash = f ∧ u.pending = s.pending ∧ u.clock = ⟨0, 0⟩ ∧ WingSafe u.wing
        ∧ u.wing.st = (if f.sealed then .sealed else .standby) ∧ u.wing.cause = .none ∧ u.wing.incidentNo = f.incidentNo
        ∧ u.wing.incident.map (fun r => (r.number, r.isOpen, r.restored)) = (if f.sealed then some (f.incidentNo, true, true) else none)
        ∧ u.cfg = { geometry := g, geomValid := geometry.isSome
                    profA := (profiles.map (·.1)).getD ⟨8, 3, 6, 9, 24, 38⟩
                    profB := (profiles.map (·.2)).getD ⟨10, 4, 8, 12, 28, 44⟩
                    assign := assign, stations := stations
                    aging := (dispatch.map (·.1)).getD 1, pressure := (dispatch.map (·.2)).getD 4
                    th := (trays.map (·.1)).getD 5, waitLimit := (trays.map (·.2)).getD 900
                    idleTimeout := (sessions.map (·.1)).getD 300, autoDelay := (sessions.map (·.2)).getD 5
                    fire := { fire with parkColumn := max 2 (min g.columns fire.parkColumn) } }
        ∧ u.sweep.start = (sweep.map (·.1)).getD 0 ∧ u.sweep.stop = (sweep.map (·.2.1)).getD 15 ∧ u.sweep.passes = 0
        ∧ (∀ i : Slot, u.sweep.slots[i] = .start ((sweep.map (·.2.2[i])).getD .dflt))
        ∧ (∀ z : Zone, u.sweep.zones[z] = ⟨.normal, false⟩)
        ∧ u.yard.orders = [] ∧ u.yard.lines.delivery = [] ∧ u.yard.lines.returns = [] ∧ u.yard.post = .reset
        ∧ (∀ a : Aisle, u.yard.carriers[a].st = .offline ∧ u.yard.carriers[a].seg = none ∧ u.yard.arbs[a] = .reset
            ∧ u.yard.carriers[a].load = none ∧ u.yard.lines.inbound[a] = none
            ∧ u.yard.verif[a].doubt = !f.clean
            ∧ u.yard.est[a] = ⟨assign[a], valueSet u.cfg assign[a], .steady, 0⟩)
        ∧ (∀ st : Station, u.yard.trays[st] = .reset ∧ u.yard.stations[st] = .start stations[st].role)
        ∧ u.yard.disc.left = some 100
        ∧ (disabled = none → u.yard.journal = .reset)
        ∧ (KSorted f.cells → KSorted f.attrs → GeometryFits g →
            (∀ x, inGeometry g x = true →
              let named := (∃ b, stored x (.occupied b)) ∨ ∃ b, stored x (.unverified b)
              (cell x = .disabled ↔ match disabled with
                | some l => x ∈ l ∧ ¬named
                | none => kget f.cells (cellCode x) = some .disabled)
              ∧ (¬named → cell x = .disabled ∨ cell x = .empty)
              ∧ (∀ b, stored x (.occupied b) → known b → first x (.occupied b) → cell x = .occupied b)
              ∧ (∀ b, stored x (.occupied b) → known b → ¬first x (.occupied b) → cell x = .unverified (some b))
              ∧ (∀ b, (stored x (.occupied b) ∨ stored x (.unverified (some b))) → ¬known b → cell x = .unverified none)
              ∧ (∀ b, stored x (.unverified (some b)) → known b → cell x = .unverified (some b))
              ∧ (stored x (.unverified none) → cell x = .unverified none))
            ∧ (∀ b, kget f.attrs b = none → getBin b u.yard = none)
            ∧ ∀ b t, kget f.attrs b = some t → ∃ r, getBin b u.yard = some r
              ∧ r = ⟨t.capacity, min t.capacity ((kget f.fills b).getD 0), r.st, r.cell, r.cell.bind fun x =>
                  if r.st = .stored then some x.aisle else none, none, t.damaged, false, none⟩
              ∧ (t.retired = true → r.st = .retired ∧ r.cell = none)
              ∧ (t.retired = false → (∀ x, first x (.occupied b) → r.st = .stored ∧ r.cell = some x)
                  ∧ ((∀ x, ¬stored x (.occupied b)) → r.st = .unverified
                      ∧ (∀ x, first x (.unverified (some b)) → r.cell = some x)
                      ∧ ((∀ x, ¬stored x (.unverified (some b))) → r.cell = none))))
    (∃ u, Completes (.coldStart k quiet bad) s u ∧ loaded s.flash u ∧ u.link = { Link.reset with rate := k }
        ∧ u.sweep.warmLeft = some 20 ∧ u.sweep.run = .starting)
    ∧ (s.link.restart = .due → ∃ u, Completes (.warmRestart error quiet bad) s u ∧ loaded u.flash u
        ∧ (let j := s.yard.journal
           let keep := fun w : CtlWrite => match w with | .sealed _ | .clean _ => false | _ => true
           let ctl := match j.writing, j.ctl with | some (.ctl w), _ :: l => w :: l.filter keep | _, l => l.filter keep
           let clean := match j.writing with | some (.ctl (.clean v)) => v | _ => s.flash.clean
           let entries := j.entries ++ (orderedKeys j).map fun k => ⟨k, currentVal (envOf s) k s.yard⟩
           let writes := ctl.map Writing.ctl ++ (if clean = true ∧ entries ≠ [] then [.ctl (.clean false)] else [])
             ++ entries.map (fun x => .entry x false) ++ [.ctl (.clean true)]
           u.flash = ((error.map fun n => writes.take n).getD writes).foldl
             (fun f w => match w with | .ctl c => putCtl f c | .entry x _ => putEntry f x) s.flash)
        ∧ (error = none → u.flash.clean = true)
        ∧ u.link = { Link.reset with rate := s.link.rate, nextId := s.link.nextId }
        ∧ u.sweep.warmLeft = s.sweep.warmLeft
        ∧ u.sweep.run = (if s.sweep.warmLeft = none then .running else .starting))
    ∧ (s.link.restart ≠ .due → exec (.warmRestart error quiet bad) s = .next (clearBus s))

/-- Start in Standby with a valid geometry and no cause takes the wing to Normal and the sweep out of Stopped,
Stopping and Single; where no carrier is Held (and, as the invariant says of Standby, no session timer stands at its
end), carriers, map, lines and stations stay as they are, and a tray whose level condition holds, of a role that
takes returns, comes to active demand and may make its Space order (R135, R140). In Normal it is answered OK, and
otherwise refused BUSY, with no record changed. -/
def Obligations.StartEntersNormal : Prop :=
  ∀ (h : ReqHdr) (s : State), SessionsSafe s → Taken h s →
    let busy := Completes (.start h) s { clearBus s with link := answeredLink 0x03 h .busy [] s.link }
    (s.wing.st = .standby → s.cfg.geomValid = true → s.wing.cause = .none →
      ∃ u, Completes (.start h) s u ∧ u.wing.st = .normal ∧ u.wing.cause = .none ∧ u.wing.clearing = []
        ∧ u.wing.holdTimer = none ∧ u.wing.parkTimer = none ∧ u.wing.restartTimer = none
        ∧ u.wing.shutClose = s.wing.shutClose ∧ u.wing.drvPwr = s.wing.drvPwr ∧ u.wing.incident = s.wing.incident
        ∧ (u.sweep.run = .starting ∨ u.sweep.run = .running) ∧ u.sweep.single = false
        ∧ u.cfg = s.cfg ∧ u.flash = s.flash ∧ u.clock = s.clock ∧ u.pending = s.pending
        ∧ ((∀ a : Aisle, s.yard.carriers[a].st ≠ .held) → SpaceOrdersAdded s.yard u.yard ∧ SameMotion s.yard u.yard
            ∧ u.yard.cells = s.yard.cells ∧ u.yard.verif = s.yard.verif
            ∧ u.yard.lines = s.yard.lines ∧ u.yard.stations = s.yard.stations
            ∧ (∀ st : Station, u.yard.trays[st].items = s.yard.trays[st].items
                ∧ u.yard.trays[st].demand = (s.yard.trays[st].demand || (takesReturns s.yard.stations[st].role
                    && levelCondition (envOf s) s.yard.trays[st])))
            ∧ ((∀ st : Station, levelCondition (envOf s) s.yard.trays[st] = false) → SameStock s.yard u.yard
                ∧ u.yard.orders = s.yard.orders ∧ u.yard.trays = s.yard.trays))
        ∧ (s.sweep.run ≠ .stopping → u.link = answeredLink 0x03 h .ok [] s.link)
        ∧ (s.sweep.run = .stopping → ∀ q ∈ s.link.inbox, q.id ∈ s.sweep.stopIds → q.reply = none →
            { q with reply := some ⟨q.kind + 0x40, q.tag, .busy, []⟩ } ∈ u.link.inbox))
    ∧ (s.wing.st = .normal →
        Completes (.start h) s { clearBus s with link := answeredLink 0x03 h .ok [] s.link })
    ∧ (s.wing.st = .standby → (s.cfg.geomValid = false ∨ s.wing.cause ≠ .none) → busy)
    ∧ (s.wing.st ≠ .normal → s.wing.st ≠ .standby → busy)

/-- Resume of the incident's number in Sealed with no cause opens the shutters, powers the drives, opens the
journal with the clearing of the sealed marker first (or, where it is open since a start, last: log 28, the model's reading of R20), closes the incident and takes the wing to Restarting
with its timer; otherwise it is refused FORM, BUSY, STALE or BUSY in that order, with no record changed.
Restart is answered OK and waits for that reply to be sent, and is refused BUSY in Sealing. -/
def Obligations.ResumeAndRestartAct : Prop :=
  ∀ (h : ReqHdr) (n : Nat) (s : State), Taken h s →
    let refused := fun code => Completes (.resume h n) s { clearBus s with link := answeredLink 0x05 h code [] s.link }
    (s.wing.st = .sealed → n ≠ 0 → n = s.wing.incidentNo → s.wing.cause = .none →
      ∃ u, Completes (.resume h n) s u ∧ u.wing.st = .restarting ∧ u.wing.shutClose = false ∧ u.wing.drvPwr = true
        ∧ u.wing.restartTimer = some s.cfg.fire.restartDelay ∧ u.wing.holdTimer = none ∧ u.wing.parkTimer = none
        ∧ u.wing.clearing = [] ∧ u.wing.incidentNo = s.wing.incidentNo
        ∧ (∀ r, s.wing.incident = some r → r.isOpen = true →
            u.wing.incident = some { r with isOpen := false, resume := some s.clock.sec })
        ∧ u.yard.journal = { s.yard.journal with
            closed := false
            ctl := if s.yard.journal.closed then .sealed false :: s.yard.journal.ctl else s.yard.journal.ctl ++ [.sealed false] }
        ∧ (∀ a : Aisle, u.yard.carriers[a] = { s.yard.carriers[a] with reported := false })
        ∧ SameStock s.yard u.yard ∧ SameDesks s.yard u.yard ∧ u.yard.orders = s.yard.orders ∧ u.yard.est = s.yard.est
        ∧ u.yard.bus = askReports s.cfg
        ∧ u.cfg = s.cfg ∧ u.flash = s.flash ∧ u.clock = s.clock ∧ u.pending = s.pending
        ∧ (s.sweep.run ≠ .stopping → u.link = answeredLink 0x05 h .ok [] s.link))
    ∧ (n = 0 → refused .form) ∧ (n ≠ 0 → s.wing.st ≠ .sealed → refused .busy)
    ∧ (n ≠ 0 → s.wing.st = .sealed → n ≠ s.wing.incidentNo → refused .stale)
    ∧ (n ≠ 0 → s.wing.st = .sealed → n = s.wing.incidentNo → s.wing.cause ≠ .none → refused .busy)
    ∧ (s.wing.st ≠ .sealing → Completes (.restart h) s
        { clearBus s with link := { answeredLink 0x04 h .ok [] s.link with restart := .taken s.link.nextId } })
    ∧ (s.wing.st = .sealing → Completes (.restart h) s { clearBus s with link := answeredLink 0x04 h .busy [] s.link })

/-! ## Configure -/

/-- A Configure request applies its sections in the order listed, the first to the records as they stand and each
further one to those the one before it left, the orders evaluated between (R81; log 13), and is answered once with every section's code, outcome, items and
values (a section refused or made FORM as a whole with its code and outcome and nothing more: log 74, the model's
choice), OK when each is OK and BUSY otherwise; one that repeats a section is refused FORM and changes no record.
Profiles takes the values given, clamped, with the deep fork time at least the front one; AisleAssign takes its
items, the last of one aisle standing (log 94), and is OK with none (log 95: the model's choice both). Either tells each aisle whose assignment or value set it alters, once: at
rest the new set takes effect and the aisle settles 20 ds, with a segment in flight it is Pending; where an aisle
leaves Off, the trays may make their Space orders (R140, after the section: log 93, the model's choice), and nothing
else of the yard changes. Sweep is FORM for a slot, zone or kind code it does not admit, as the model's own test
sweepForm says; while the sweep runs it takes threshold values, which wait for the slot's next conversion, and
neither range nor slot configuration; while it is Stopped it takes the range, a start above the stop as equal to it,
the next slot kept (log 88, the model's choice), and a slot's zone or kind, which sends the slot into Settling, a
kind with that kind's constants, the confirm count and one pending kept (log 42: the model's reading). -/
def Obligations.ConfigureTakesSectionsInOrder : Prop :=
  (∀ (c : Instr) (h : ReqHdr) (l : List CfgSection) (s : State), sectionsOf c = some (h, l) → Taken h s →
    ((l.map secCode).Nodup → ∃ (t : Nat → State) (r : Nat → SecResult),
      t 0 = { clearBus s with link := waitingLink 0x02 h s.link }
      ∧ (∀ i x, l[i]? = some x → ∃ v, applySection x (t i) = (v, r i)
          ∧ t (i + 1) = if i + 1 = l.length then v else { v with yard := evalOrders (envOf v) v.yard })
      ∧ Completes c s (answer s.link.nextId (if ∀ i, i < l.length → (r i).outcome = .ok then .ok else .busy)
          ((List.range l.length).flatMap fun i => [.u1 (r i).code, .u1 (replyCode (r i).outcome)]
            ++ (match (r i).items with | some cs => .u1 cs.length :: cs.map fun x => .u1 (replyCode x) | none => [])
            ++ (r i).values) (t l.length)))
    ∧ (¬(l.map secCode).Nodup → Completes c s { clearBus s with link := answeredLink 0x02 h .form [] s.link }))
  ∧ (∀ (h : ReqHdr) (s : State), Taken h s →
    let put := fun (lo hi : Nat) (v : Option Nat) (old : Nat) => (v.map fun n => max lo (min hi n)).getD old
    let told := fun (c : Settings) (u : State) => u.cfg = c ∧ ∀ a : Aisle,
      let change := s.cfg.assign[a] ≠ c.assign[a]
        ∨ (c.assign[a] ≠ .off ∧ valueSet s.cfg s.cfg.assign[a] ≠ valueSet c c.assign[a])
      (change → s.yard.carriers[a].seg = none → u.yard.est[a] = ⟨c.assign[a], valueSet c c.assign[a], .settling, 20⟩)
        ∧ (change → s.yard.carriers[a].seg.isSome →
            u.yard.est[a] = { s.yard.est[a] with st := .pending, settleLeft := 0 })
        ∧ (¬change → u.yard.est[a] = s.yard.est[a])
    let kept := fun (u : State) => SpaceOrdersAdded s.yard u.yard ∧ u.yard.cells = s.yard.cells
      ∧ u.yard.verif = s.yard.verif ∧ u.yard.carriers = s.yard.carriers
      ∧ u.yard.lines = s.yard.lines ∧ u.yard.stations = s.yard.stations
      ∧ (((∀ a : Aisle, s.yard.est[a].inForce ≠ .off) ∨ NoTrayChooses s.yard) →
          u.yard.bins = s.yard.bins ∧ u.yard.orders = s.yard.orders ∧ u.yard.trays = s.yard.trays)
      ∧ u.wing = s.wing ∧ u.sweep = s.sweep ∧ u.flash = s.flash ∧ u.clock = s.clock
    (∀ p : ProfileCfg, (p.profile = 1 ∨ p.profile = 2) →
      let old := if p.profile = 1 then s.cfg.profA else s.cfg.profB
      let front := put 5 60 p.forkFront old.forkFront
      let new : Profile := ⟨put 0 50 p.rampH old.rampH, put 1 20 p.paceH old.paceH, put 0 50 p.rampV old.rampV,
        put 2 40 p.paceV old.paceV, front, max front (put 5 90 p.forkDeep old.forkDeep)⟩
      ∃ u, Completes (.configureProfiles h p []) s u
        ∧ told (if p.profile = 1 then { s.cfg with profA := new } else { s.cfg with profB := new }) u ∧ kept u
        ∧ u.link = answeredLink 0x02 h .ok [.u1 3, .u1 0, .u1 p.profile, .u1 0x3F, .u1 new.rampH, .u1 new.paceH,
            .u1 new.rampV, .u1 new.paceV, .u1 new.forkFront, .u1 new.forkDeep] s.link
        ∧ .settings (.profiles u.cfg.profA u.cfg.profB) ∈ u.yard.journal.ctl)
    ∧ (∀ p : ProfileCfg, p.profile ≠ 1 → p.profile ≠ 2 → Completes (.configureProfiles h p []) s
        { clearBus s with link := answeredLink 0x02 h .busy [.u1 3, .u1 0x16] s.link })
    ∧ ∀ l : List (Aisle × Assign),
      ∃ u, Completes (.configureAisleAssign h (l.map fun p => ⟨aisleNo p.1, assignCode p.2⟩) []) s u
        ∧ told { s.cfg with assign := l.foldl (fun v p => v.set p.1 p.2) s.cfg.assign } u ∧ kept u
        ∧ u.link = answeredLink 0x02 h .ok ([.u1 4, .u1 0, .u1 l.length] ++ l.map (fun _ => .u1 0) ++ [.u1 l.length]
            ++ l.flatMap fun p => [.u1 (aisleNo p.1), .u1 (assignCode p.2)]) s.link
        ∧ .settings (.assign u.cfg.assign) ∈ u.yard.journal.ctl)
  ∧ ∀ (h : ReqHdr) (s : State), Taken h s →
    let taken := fun (c : Instr) (w : Sweep) => ∃ items, Completes c s { s with
      sweep := w
      yard := ctlRequest (.settings (.sweep w.start w.stop (w.slots.map storedSlot))) { s.yard with bus := [] }
      link := answeredLink 0x02 h .ok items s.link }
    let busy := fun (c : Instr) => ∃ items, Completes c s { clearBus s with link := answeredLink 0x02 h .busy items s.link }
    let slot := fun (i : Slot) (x : SlotItem) => Instr.configureSweep h none [{ x with slot := i.val }] []
    (∀ r items, sweepForm r items = true → Completes (.configureSweep h r items []) s
      { clearBus s with link := answeredLink 0x02 h .busy [.u1 9, .u1 0x16] s.link })
    ∧ (∀ a b : Slot, s.sweep.run ≠ .stopped → busy (.configureSweep h (some (a.val, b.val)) [] []))
    ∧ (∀ a b : Slot, s.sweep.run = .stopped → taken (.configureSweep h (some (a.val, b.val)) [] [])
        { s.sweep with start := if b < a then b else a, stop := b })
    ∧ (∀ (i : Slot) (x : SlotItem), s.sweep.run ≠ .stopped → (x.kind.isSome ∨ x.zone.isSome ∨ x.low.isSome ∨ x.span.isSome) →
        (∀ k, x.kind = some k → 1 ≤ k ∧ k ≤ 4) → (∀ z, x.zone = some z → z < 4) → busy (slot i x))
    ∧ ∀ i : Slot,
      let r := s.sweep.slots[i]
      let fit := fun (x : Thresholds) =>
        let within := fun n : Int => max r.cfg.low (min (r.cfg.low + r.cfg.span) n)
        let alarm := max (within x.pre) (within x.alarm)
        (⟨within x.pre, alarm, if r.cfg.kind = .heat then x.trip.map fun n => max alarm (within n) else none,
          min 500 x.hyst, max 1 (min 4 x.confirm)⟩ : Thresholds)
      (∀ x : SlotItem, x.kind = none → x.zone = none → x.low = none → x.span = none →
        (x.pre.isSome ∨ x.alarm.isSome ∨ x.hyst.isSome ∨ x.confirm.isSome ∨ (r.cfg.kind = .heat ∧ x.trip.isSome)) →
        let base := fit (r.pend.getD r.cfg.th)
        let new := fit ⟨x.pre.getD base.pre, x.alarm.getD base.alarm, x.trip.or base.trip, x.hyst.getD base.hyst,
          x.confirm.getD base.confirm⟩
        taken (slot i x) { s.sweep with
          slots := s.sweep.slots.set i { r with cfg := { r.cfg with th := fit r.cfg.th }, pend := some new } })
      ∧ (s.sweep.run = .stopped → s.wing.st = .standby → stageRank r.stage = 0 →
          (∀ z : Zone, s.sweep.zones[z].stage = zoneStage s.sweep z) →
          let settled := fun (x : SlotItem) (c : SlotCfg) (pend : Option Thresholds) => ∃ u items, Completes (slot i x) s u
            ∧ u.sweep.slots = s.sweep.slots.set i
                { r with cfg := c, pend := pend, stage := .settling, settlingLeft := 3, preCount := 0, alarmCount := 0 }
            ∧ u.sweep.run = .stopped ∧ u.wing = s.wing ∧ u.cfg = s.cfg ∧ u.link = answeredLink 0x02 h .ok items s.link
            ∧ SameStock s.yard u.yard ∧ SameMotion s.yard u.yard ∧ SameDesks s.yard u.yard
          (∀ z : Zone, r.cfg.zone ≠ z → settled ⟨0, none, some z.val, none, none, none, none, none, none, none⟩
            { r.cfg with zone := z, th := fit r.cfg.th } (r.pend.map fit))
          ∧ (r.cfg.kind ≠ .heat →
            let th := fun n => (⟨450, 570, some 700, 20, n⟩ : Thresholds)
            settled ⟨0, some 3, none, none, none, none, none, none, none, none⟩
              ⟨.heat, r.cfg.zone, -200, 1200, th (max 1 (min 4 r.cfg.th.confirm))⟩
              (r.pend.bind fun t => if t.confirm = r.cfg.th.confirm then none else some (th t.confirm))))

/-- The Dispatch, Sessions, Trays and Fire sections take each value given, clamped to its range, leave every other
setting, and ask the journal for the section's write. A Waiting item that a new wait limit marks may bring its tray
to demand and a Space order (R130, R136, R140). -/
def Obligations.ConfigureClampsValues : Prop :=
  ∀ (h : ReqHdr) (o p q r : Option Nat) (s : State), Taken h s →
    let put := fun (lo hi : Nat) (v : Option Nat) (old : Nat) => (v.map fun n => max lo (min hi n)).getD old
    let reply := fun (l : List Fld) => answeredLink 0x02 h .ok l s.link
    let aging := put 0 10 o s.cfg.aging
    let pressure := put 1 12 p s.cfg.pressure
    let idle := put 30 1800 o s.cfg.idleTimeout
    let auto := put 0 60 p s.cfg.autoDelay
    let th := put 0 23 o s.cfg.th
    let limit := put 60 7200 p s.cfg.waitLimit
    let fire : FireCfg := ⟨put 10 600 o s.cfg.fire.holdClear, put 100 3000 p s.cfg.fire.parkDeadline,
      put 2 s.cfg.geometry.columns q s.cfg.fire.parkColumn, put 50 1200 r s.cfg.fire.restartDelay⟩
    Completes (.configureDispatch h o p []) s { s with
      cfg := { s.cfg with aging := aging, pressure := pressure }
      yard := ctlRequest (.settings (.dispatch aging pressure)) { s.yard with bus := [] }
      link := reply [.u1 6, .u1 0, .u1 3, .u1 aging, .u1 pressure] }
    ∧ Completes (.configureFire h o p q r []) s { s with
        cfg := { s.cfg with fire := fire }
        yard := ctlRequest (.settings (.fire fire)) { s.yard with bus := [] }
        link := reply [.u1 10, .u1 0, .u1 0xF, .u2 fire.holdClear, .u2 fire.parkDeadline, .u1 fire.parkColumn,
          .u2 fire.restartDelay] }
    ∧ (∃ u, Completes (.configureSessions h o p []) s u ∧ SameStock s.yard u.yard ∧ SameMotion s.yard u.yard
        ∧ u.cfg = { s.cfg with idleTimeout := idle, autoDelay := auto } ∧ u.yard.orders = s.yard.orders
        ∧ u.yard.lines = s.yard.lines ∧ u.yard.trays = s.yard.trays ∧ u.wing = s.wing ∧ u.sweep = s.sweep
        ∧ (auto ≠ 0 → u.yard.stations = s.yard.stations)
        ∧ (auto = 0 → ∀ st : Station, u.yard.stations[st].session
            = s.yard.stations[st].session.map fun x => { x with auto := none })
        ∧ u.link = reply [.u1 8, .u1 0, .u1 3, .u2 idle, .u1 auto]
        ∧ .settings (.sessions idle auto) ∈ u.yard.journal.ctl)
    ∧ ∃ u, Completes (.configureTrays h o p []) s u ∧ SpaceOrdersAdded s.yard u.yard ∧ SameMotion s.yard u.yard
        ∧ u.yard.cells = s.yard.cells ∧ u.yard.verif = s.yard.verif
        ∧ (s.wing.st ≠ .normal → u.yard.bins = s.yard.bins ∧ u.yard.orders = s.yard.orders)
        ∧ u.cfg = { s.cfg with th := th, waitLimit := limit }
        ∧ u.yard.lines = s.yard.lines ∧ u.yard.stations = s.yard.stations ∧ u.wing = s.wing ∧ u.sweep = s.sweep
        ∧ (∀ st : Station, u.yard.trays[st].items.map (·.item) = s.yard.trays[st].items.map (·.item))
        ∧ u.link = reply [.u1 7, .u1 0, .u1 3, .u1 th, .u2 limit]
        ∧ .settings (.trays th limit) ∈ u.yard.journal.ctl


/-- A Geometry section in Standby takes the clamped values when every cell it leaves out is Empty, Disabled or Absent,
no aisle it leaves out has a bin in its inbound place or a load, and no survey runs or is requested; the map keeps
the records within it and no other. It is BUSY otherwise, with no record changed, and the reply then gives the
section's code and outcome and nothing more (log 74, the model's choice). A Cells item disables an Empty cell unless it
is the front cell of a deep one that a fork segment in flight is aimed at (R47), and enables a Disabled one, and changes
no other cell; one that names a cell so held, or one neither Empty nor Disabled, is BUSY and changes nothing. A Stations
item that opens a station with a role takes the allowance that fits in 10 beside the 2 + L of the other stations not
Closed, and is BUSY for a Closed station where they leave no room. A Cells or Stations section with no item is OK,
changes none and asks for its write all the same (R211; log 95, the model's choice), and one whose one item is refused
is BUSY (log 100). After every command a station configured Closed is Closing while its committed count is above zero and
Closed when it is zero; one that changes so ends its tray's demand (R107, R137), and one configured otherwise keeps its
role. -/
def Obligations.ConfigureSetsPlaces : Prop :=
  (∀ (h : ReqHdr) (s : State), Taken h s →
    (∀ (a c l : Nat),
      let g : Geometry := ⟨max 1 (min 6 a), max 8 (min 64 c), max 4 (min 16 l)⟩
      let kept := ∃ x : CellAddr, (g.aisleCount < aisleNo x.aisle ∨ g.columns < x.col ∨ g.levels ≤ x.level)
        ∧ ((∃ b, getCell (envOf s) x s.yard = .occupied b) ∨ (∃ b p, getCell (envOf s) x s.yard = .reserved b p)
          ∨ ∃ b, getCell (envOf s) x s.yard = .unverified b)
      let stands := ∃ n : Aisle, g.aisleCount < aisleNo n ∧ aisleNo n ≤ s.cfg.geometry.aisleCount
        ∧ (s.yard.lines.inbound[n] ≠ none ∨ s.yard.carriers[n].load ≠ none)
      let survey := ∃ n : Aisle, s.yard.arbs[n].surveyReq ≠ none ∨ ∃ r : SurveyRun, r.ended = false
        ∧ (s.yard.carriers[n].task = some (.survey r) ∨ s.yard.carriers[n].suspended = some (.survey r))
      KSorted s.yard.cells → GeometryFits s.cfg.geometry →
      (s.wing.st = .standby → ¬(kept ∨ stands ∨ survey) →
        ∃ u, Completes (.configureGeometry h a c l []) s u ∧ u.cfg = { s.cfg with
            geometry := g, geomValid := true
            fire := { s.cfg.fire with parkColumn := min g.columns s.cfg.fire.parkColumn } }
          ∧ (∀ k, kget u.yard.cells k
              = if ((cellOfCode k).map (inGeometry g)).getD false = true then kget s.yard.cells k else none)
          ∧ u.yard.bins = s.yard.bins ∧ u.yard.orders = s.yard.orders ∧ SameDesks s.yard u.yard ∧ u.wing = s.wing
          ∧ (∀ n : Aisle, aisleNo n ≤ g.aisleCount → u.yard.carriers[n] = s.yard.carriers[n])
          ∧ u.link = answeredLink 0x02 h .ok [.u1 1, .u1 0, .u1 g.aisleCount, .u1 g.columns, .u1 g.levels] s.link
          ∧ .settings (.geometry g) ∈ u.yard.journal.ctl)
      ∧ ((s.wing.st ≠ .standby ∨ kept ∨ stands ∨ survey) →
          Completes (.configureGeometry h a c l []) s
            { clearBus s with link := answeredLink 0x02 h .busy [.u1 1, .u1 0x10] s.link }))
    ∧ (∀ (x : CellAddr) (disable : Bool), KSorted s.yard.cells → 1 ≤ x.col → x.col ≤ 64 → x.level < 16 →
        let held := ∃ g z, s.yard.carriers[x.aisle].seg = some g ∧ (g.kind = .forkIn ∨ g.kind = .forkOut)
          ∧ g.target = .cell z ∧ z.depth = .deep ∧ x = { z with depth := .front }
        ((disable = true → getCell (envOf s) x s.yard = .empty → held) →
          (disable = true ∨ getCell (envOf s) x s.yard ≠ .empty) → getCell (envOf s) x s.yard ≠ .disabled →
          Completes (.configureCells h [⟨cellCode x, if disable then 1 else 2⟩] []) s { clearBus s with
            link := answeredLink 0x02 h .busy [.u1 2, .u1 0x10, .u1 1, .u1 0x10, .u1 0] s.link })
        ∧ (getCell (envOf s) x s.yard = (if disable then .empty else .disabled) → (disable = true → ¬held) →
        ∃ u, Completes (.configureCells h [⟨cellCode x, if disable then 1 else 2⟩] []) s u
          ∧ getCell (envOf s) x u.yard = (if disable then .disabled else .empty)
          ∧ (∀ k, k ≠ cellCode x → kget u.yard.cells k = kget s.yard.cells k)
          ∧ u.yard.bins = s.yard.bins ∧ SameMotion s.yard u.yard ∧ SameDesks s.yard u.yard ∧ u.cfg = s.cfg
          ∧ u.link = answeredLink 0x02 h .ok
              [.u1 2, .u1 0, .u1 1, .u1 0, .u1 1, .u2 (cellCode x), .u1 (if disable then 1 else 2)] s.link))
    ∧ (∀ (st : Station) (r : Role) (n : Nat), (r = .lending ∨ r = .returns ∨ r = .mixed) →
        let others := ((([0, 1, 2, 3] : List Station).filter fun x => x ≠ st ∧ s.yard.stations[x].role ≠ .closed).map
          fun x => 2 + s.cfg.stations[x].allowance).sum
        (s.yard.stations[st].role = .closed → 10 < others →
          Completes (.configureStations h [⟨stationNo st, some (roleCode r), some n⟩] []) s { clearBus s with
            link := answeredLink 0x02 h .busy [.u1 5, .u1 0x10, .u1 1, .u1 0x10, .u1 0] s.link })
        ∧ (others ≤ 10 →
        ∃ u, Completes (.configureStations h [⟨stationNo st, some (roleCode r), some n⟩] []) s u
          ∧ u.cfg = { s.cfg with stations := s.cfg.stations.set st ⟨r, min (min 10 n) (10 - others)⟩ }
          ∧ u.yard.stations[st].role = r ∧ (∀ x : Station, x ≠ st → u.yard.stations[x] = s.yard.stations[x])
          ∧ u.yard.cells = s.yard.cells ∧ SameMotion s.yard u.yard ∧ u.yard.lines = s.yard.lines
          ∧ .settings (.stations u.cfg.stations) ∈ u.yard.journal.ctl))
    ∧ (∃ l, Completes (.configureCells h [] []) s { s with
          yard := ctlRequest (.settings (.cells l)) { s.yard with bus := [] }
          link := answeredLink 0x02 h .ok [.u1 2, .u1 0, .u1 0, .u1 0] s.link }
        ∧ (KSorted s.yard.cells → ∀ x : CellAddr, 1 ≤ x.col → x.col ≤ 64 → x.level < 16 →
            (x ∈ l ↔ kget s.yard.cells (cellCode x) = some .disabled)))
    ∧ Completes (.configureStations h [] []) s { s with
        yard := ctlRequest (.settings (.stations s.cfg.stations)) { s.yard with bus := [] }
        link := answeredLink 0x02 h .ok [.u1 5, .u1 0, .u1 0, .u1 0] s.link })
  ∧ ∀ (e : Env) (y : Yard),
      (∀ st : Station,
        let role : Role := if committed st y = 0 then .closed else .closing
        let z := syncRole e st y
        ((e.cfg.stations[st].role ≠ .closed ∨ y.stations[st].role = role) → z = y)
        ∧ (e.cfg.stations[st].role = .closed → y.stations[st].role ≠ role →
            z.stations = y.stations.set st { y.stations[st] with role := role } ∧ z.trays[st].demand = false
            ∧ z.lines = y.lines ∧ z.cells = y.cells ∧ SameMotion y z))
      ∧ syncRoles e y = syncRole e 3 (syncRole e 2 (syncRole e 1 (syncRole e 0 y)))

/-! ## Trays -/

/-- A ReturnIntake that is taken adds the item, its width clamped to 1 to 120, at the tail of the station's tray;
with no session there it waits, and demand begins when the wing is Normal and the Waiting count passes the
threshold. The tray then makes its choice (after the first-fit pass: log 93, the model's reading of R129), which
changes nothing while no demand is active or its Space order is in the queue. It is answered OK, or HELD while the
wing is held. Its refusals in the order of its checks change no record: FORM, WING_DOWN, BUSY for a role that takes
no returns, FULL at 24 items and DUPLICATE. -/
def Obligations.TrayTakesItem : Prop :=
  (∀ (h : ReqHdr) (st : Station) (width : Nat) (item : ItemCode) (s : State), Taken h s → itemOk item = true →
    (s.wing.st = .normal ∨ s.wing.st = .hold ∨ s.wing.st = .clearing) →
    takesReturns s.yard.stations[st].role = true → s.yard.trays[st].items.length < 24 → itemInUse item s.yard = false →
    ∃ u items, Completes (.returnIntake h width (stationNo st) item) s
        { u with yard := spaceChoice (envOf s) st u.yard } ∧ SameElse s u
      ∧ u.link = answeredLink 0x0C h (if s.wing.st = .normal then .ok else .held) items s.link
      ∧ u.yard.trays[st].items.map (·.item) = s.yard.trays[st].items.map (·.item) ++ [item]
      ∧ (s.yard.stations[st].session = none → u.yard.stations = s.yard.stations
          ∧ u.yard.trays[st].items
            = s.yard.trays[st].items ++ [⟨item, max 1 (min 120 width), s.clock.sec, .waiting, false⟩]
          ∧ u.yard.trays[st].demand
            = (s.yard.trays[st].demand || decide (s.wing.st = .normal ∧ waitingCount s.yard.trays[st] = s.cfg.th)))
      ∧ (∀ x : Station, x ≠ st → u.yard.trays[x] = s.yard.trays[x] ∧ u.yard.stations[x] = s.yard.stations[x])
      ∧ SameStock s.yard u.yard ∧ SameMotion s.yard u.yard ∧ u.yard.orders = s.yard.orders ∧ u.yard.lines = s.yard.lines)
  ∧ ∀ (h : ReqHdr) (width station : Nat) (item : ItemCode) (s : State), Taken h s →
    let form := itemOk item = false ∨ station = 0 ∨ 4 < station
    let down := s.wing.st = .standby ∨ s.wing.st = .parking ∨ s.wing.st = .sealing ∨ s.wing.st = .sealed ∨ s.wing.st = .restarting
    let refused := fun code => Completes (.returnIntake h width station item) s
      { clearBus s with link := answeredLink 0x0C h code [] s.link }
    (form → refused .form)
    ∧ ∀ st : Station, station = stationNo st →
      let closed := takesReturns s.yard.stations[st].role = false
      let full := 24 ≤ s.yard.trays[st].items.length
      (¬form → down → refused .wingDown) ∧ (¬form → ¬down → closed → refused .busy)
      ∧ (¬form → ¬down → ¬closed → full → refused .full)
      ∧ (¬form → ¬down → ¬closed → ¬full → itemInUse item s.yard = true → refused .duplicate)

/-- DrainTray in Normal makes demand active with a fresh count, or ends it when no item waits; ClearTray takes the
Waiting items, or the one named, out of the tray and ends demand; a Waiting item that has waited the limit is marked
and makes demand active in Normal, upon which the tray makes its choice (R140). Nothing outside the tray changes but
a Space order. A station outside 1 to 4 is FORM; DrainTray is WING_DOWN out of Normal and BUSY for a role that takes
no returns, ClearTray of an item UNKNOWN for a code not in the tray and BUSY for one Assigned, with no record
changed. -/
def Obligations.TrayDemandFollowsRequests : Prop :=
  (∀ (h : ReqHdr) (st : Station) (c : ItemCode) (s : State), Taken h s →
    let t := s.yard.trays[st]
    let becomes := fun (z : Tray) => { s.yard with bus := [], trays := s.yard.trays.set st z }
    let left := fun (p : TrayItem → Bool) => { t with items := t.items.filter fun i => !p i, demand := false }
    let cleared := fun (cmd : Instr) (p : TrayItem → Bool) => Completes cmd s { s with
      yard := becomes (left p)
      link := answeredLink 0x0E h .ok [.u2 (t.items.filter p).length, .u2 (waitingCount (left p)),
        .u2 ((left p).items.length - waitingCount (left p))] s.link }
    (s.wing.st = .normal → takesReturns s.yard.stations[st].role = true →
      (waitingCount t = 0 → Completes (.drainTray h (stationNo st)) s { s with
        yard := becomes { t with demand := false }
        link := answeredLink 0x0D h .ok [.u1 0, .u2 0, .u2 (t.spaceOrder.getD 0)] s.link })
      ∧ (∀ no, waitingCount t ≠ 0 → t.spaceOrder = some no → Completes (.drainTray h (stationNo st)) s { s with
          yard := becomes { t with demand := true, placed := 0, noSpace := false }
          link := answeredLink 0x0D h .ok [.u1 1, .u2 (waitingCount t), .u2 no] s.link })
      ∧ (waitingCount t ≠ 0 → t.spaceOrder = none → ∃ u items, Completes (.drainTray h (stationNo st)) s u
          ∧ SameElse s u ∧ u.link = answeredLink 0x0D h .ok items s.link ∧ u.yard.trays[st].demand = true
          ∧ u.yard.trays[st].placed = 0 ∧ u.yard.cells = s.yard.cells ∧ SameMotion s.yard u.yard
          ∧ u.yard.lines = s.yard.lines ∧ u.yard.stations = s.yard.stations
          ∧ u.yard.trays[st].items = t.items ∧ (∀ x : Station, x ≠ st → u.yard.trays[x] = s.yard.trays[x])
          ∧ u.yard.verif = s.yard.verif
          ∧ ((u.yard.orders = s.yard.orders ∧ u.yard.bins = s.yard.bins ∧ u.yard.trays[st].spaceOrder = none)
            ∨ ∃ o r, u.yard.orders = s.yard.orders ++ [o] ∧ o.cls = .space
              ∧ o.station = st ∧ o.picks = [] ∧ u.yard.trays[st].spaceOrder = some o.no
              ∧ (∀ b, b ≠ o.bin → getBin b u.yard = getBin b s.yard) ∧ getBin o.bin u.yard = some { r with live := some o.no }
              ∧ (KSorted s.yard.bins → getBin o.bin s.yard = some r ∧ r.st = .stored ∧ r.live = none))))
    ∧ cleared (.clearTray h (stationNo st) none) (fun i => i.st = .waiting)
    ∧ (∀ i, itemOk c = true → trayItem st c s.yard = some i → i.st = .waiting →
        cleared (.clearTray h (stationNo st) (some c)) (fun i => i.item = c))
    ∧ (∀ i, trayItem st c s.yard = some i → i.st = .waiting → i.mark = false → waitedLimit (envOf s) i = true →
        let edge := s.wing.st = .normal ∧ takesReturns s.yard.stations[st].role = true ∧ t.demand = false
        ∃ u, Completes (.trayWaitLimitReached st c) s
            { u with yard := if edge then spaceChoice (envOf s) st u.yard else u.yard } ∧ SameElse s u ∧ u.link = s.link
          ∧ u.yard.trays[st].items = t.items.map (fun i => if i.item = c then { i with mark := true } else i)
          ∧ u.yard.trays[st].demand
            = (t.demand || decide (s.wing.st = .normal ∧ takesReturns s.yard.stations[st].role = true))
          ∧ u.yard = { s.yard with bus := [], trays := s.yard.trays.set st u.yard.trays[st] })
    ∧ ((∀ i, trayItem st c s.yard = some i → i.st ≠ .waiting ∨ i.mark = true) →
        Completes (.trayWaitLimitReached st c) s (clearBus s)))
  ∧ ∀ (h : ReqHdr) (station : Nat) (s : State), Taken h s →
    let form := station = 0 ∨ 4 < station
    let drain := fun code => Completes (.drainTray h station) s { clearBus s with link := answeredLink 0x0D h code [] s.link }
    let clear := fun (c : Option ItemCode) code =>
      Completes (.clearTray h station c) s { clearBus s with link := answeredLink 0x0E h code [] s.link }
    (form → drain .form ∧ ∀ c, clear c .form) ∧ (¬form → s.wing.st ≠ .normal → drain .wingDown)
    ∧ ∀ st : Station, station = stationNo st →
      (s.wing.st = .normal → takesReturns s.yard.stations[st].role = false → drain .busy)
      ∧ ∀ c, (itemOk c = false → clear (some c) .form)
        ∧ (itemOk c = true → trayItem st c s.yard = none → clear (some c) .unknown)
        ∧ ∀ i, itemOk c = true → trayItem st c s.yard = some i → i.st ≠ .waiting → clear (some c) .busy

/-! ## Survey, AcceptMap, LineClear -/

/-- A Survey that is taken is held by the aisle's arbiter with its columns clamped, in the place of one held
before, and changes nothing else; it is refused WING_DOWN out of Standby, Normal, Hold and Clearing, and BUSY
in Hold or Clearing, for an aisle beyond the geometry and while a survey runs there. -/
def Obligations.SurveyRequestIsHeld : Prop :=
  ∀ (h : ReqHdr) (a : Aisle) (kind start stop : Nat) (s : State), Taken h s → (kind = 1 ∨ kind = 2) →
    let cols := s.cfg.geometry.columns
    let z := max 1 (min cols stop)
    let b := min (max 1 (min cols start)) z
    let cmd := Instr.survey h (aisleNo a) kind start stop
    let refused := fun code => Completes cmd s { clearBus s with link := answeredLink 0x17 h code [] s.link }
    let unfit := aisleIn (envOf s) a = false ∨ surveying a s.yard = true
    ((s.wing.st = .standby ∨ s.wing.st = .normal) → ¬unfit → Completes cmd s { s with
      yard := { s.yard with
        bus := [], arbs := s.yard.arbs.set a { s.yard.arbs[a] with surveyReq := some ⟨decide (kind = 2), b, z⟩ } }
      link := answeredLink 0x17 h .ok [.u1 kind, .u2 b, .u2 z, flag s.yard.arbs[a].surveyReq.isSome,
        flag (surveyAtOnce (envOf s) a s.yard)] s.link })
    ∧ ((s.wing.st = .standby ∨ s.wing.st = .normal) → unfit → refused .busy)
    ∧ (wingHeld s.wing.st = true → refused .busy)
    ∧ ((s.wing.st = .parking ∨ s.wing.st = .sealing ∨ s.wing.st = .sealed ∨ s.wing.st = .restarting) →
        refused .wingDown)

/-- AcceptMap settles every Unverified cell of its aisle and clears the aisle's doubt: a cell becomes Occupied by
the bin it names when that bin is Unverified and no cell before it in address order has taken the bin, which is then
Stored there, and Empty otherwise. An Unverified bin whose last known cell is in the aisle and that no cell takes is
left with none. Every other cell and bin stays as it was, but that at each cell settled the orders are evaluated (R81; log 13),
a tray may withdraw its Space order (R142), and the trays may make theirs when the aisle becomes Verified (R140, R147);
every other order keeps all but its state. An aisle outside 1 to 6 is refused FORM, Parking, Sealing, Sealed and
Restarting WING_DOWN, an aisle beyond the geometry or Surveying BUSY, in this order and with no record changed. -/
def Obligations.AcceptMapSettlesAisle : Prop :=
  (∀ (h : ReqHdr) (a : Aisle) (s : State), Taken h s → KSorted s.yard.cells →
    (s.wing.st = .standby ∨ s.wing.st = .normal ∨ s.wing.st = .hold ∨ s.wing.st = .clearing) →
    aisleIn (envOf s) a = true → surveying a s.yard = false →
    ∃ u items, Completes (.acceptMap h (aisleNo a)) s u ∧ SameElse s u
      ∧ u.link = answeredLink 0x18 h .ok items s.link ∧ u.yard.verif[a].doubt = false
      ∧ (∀ x : Aisle, x ≠ a → u.yard.verif[x] = s.yard.verif[x])
      ∧ (∀ x : CellAddr, 1 ≤ x.col → x.col ≤ 64 → x.level < 16 →
          (x.aisle = a → (∃ b, getCell (envOf s) x s.yard = .unverified b) →
            getCell (envOf s) x u.yard = .empty ∨ ∃ b, getCell (envOf s) x u.yard = .occupied b)
          ∧ ((x.aisle ≠ a ∨ ∀ b, getCell (envOf s) x s.yard ≠ .unverified b) →
              getCell (envOf s) x u.yard = getCell (envOf s) x s.yard))
      ∧ u.yard.verif[a].verified = aisleVerified a u.yard
      ∧ (∀ b r, getBin b s.yard = some r → r.st ≠ .unverified → ∃ q, getBin b u.yard = some { r with live := q })
      ∧ (let names := fun (x : CellAddr) (b : Option Nat) => x.aisle = a ∧ 1 ≤ x.col ∧ x.col ≤ 64 ∧ x.level < 16
            ∧ getCell (envOf s) x s.yard = .unverified b
         (∀ k c, kget s.yard.cells k = some c → ∃ x, cellOfCode k = some x ∧ inGeometry s.cfg.geometry x = true) →
          (∀ x, names x none → getCell (envOf s) x u.yard = .empty)
          ∧ (∀ x b, names x (some b) →
              let takes := (getBin b s.yard).map (·.st) = some .unverified ∧ ∀ z, names z (some b) → cellCode x ≤ cellCode z
              (takes → getCell (envOf s) x u.yard = .occupied b) ∧ (¬takes → getCell (envOf s) x u.yard = .empty))
          ∧ (∀ x b r, names x (some b) → getBin b s.yard = some r → getCell (envOf s) x u.yard = .occupied b →
              ∃ q, getBin b u.yard = some { r with
                st := .stored, cell := some x, aisle := some a, station := none, live := q })
          ∧ ∀ b r, getBin b s.yard = some r → r.st = .unverified → (∀ x, ¬names x (some b)) →
              ∃ q, getBin b u.yard = some { r with
                cell := if r.cell.map (·.aisle) = some a then none else r.cell, live := q })
      ∧ (∀ o ∈ u.yard.orders, (∃ p ∈ s.yard.orders, o = { p with st := o.st }) ∨ (o.cls = .space ∧ o.picks = []))
      ∧ ((s.yard.orders.map (·.no)).Nodup → ∀ p ∈ s.yard.orders, (p.cls ≠ .space ∨ p.picks ≠ []) →
          ∃ o ∈ u.yard.orders, o = { p with st := o.st })
      ∧ ((∀ st : Station, s.yard.trays[st].demand = false) → SameDesks s.yard u.yard
          ∧ u.yard.orders.map (fun o => { o with st := .queued }) = s.yard.orders.map (fun o => { o with st := .queued })
          ∧ ∀ b, (getBin b u.yard).map (·.live) = (getBin b s.yard).map (·.live))
      ∧ SameMotion s.yard u.yard ∧ u.yard.lines = s.yard.lines ∧ u.yard.stations = s.yard.stations)
  ∧ ∀ (h : ReqHdr) (n : Nat) (s : State), Taken h s →
    let form := n = 0 ∨ 6 < n
    let down := s.wing.st = .parking ∨ s.wing.st = .sealing ∨ s.wing.st = .sealed ∨ s.wing.st = .restarting
    let refused := fun code => Completes (.acceptMap h n) s { clearBus s with link := answeredLink 0x18 h code [] s.link }
    (form → refused .form) ∧ (¬form → down → refused .wingDown)
      ∧ ∀ a : Aisle, n = aisleNo a → ¬down → (aisleIn (envOf s) a = false ∨ surveying a s.yard = true) → refused .busy

/-- LineClear of a line that does not run, in Normal or Standby, asks its drive, and for the delivery line the
terminals, for their contents and waits for them; a code of neither line is FORM, and of a line that runs or that a
LineClear waits on, or out of Normal and Standby, it is BUSY. While it waits, a contents report that no start and no
Restarting has asked for, and for the delivery line a terminal's full report, is held for it and changes no record but
the wait, the terminal's answered with a display update (R113; log 72). When the last report has come, and at 50 ds
with those that came, all that are held are applied in the order they came, the orders evaluated after each (log 13), if
the wing is then Normal or Standby, and the reply is OK with the line's list, or BUSY when the drive's is not among
them (R106; OK where only a terminal's is missing: log 24); otherwise nothing is applied and the reply is BUSY. The
drive's own report, when it is the last, leaves the line Running, or Faulted where it reports a fault. That reports are
held and applied so is log 72, the items of the reply log 18, a number no bin has log 26: the model's. -/
def Obligations.LineClearAsksReports : Prop :=
  ∀ (h : ReqHdr) (l : LineId) (s : State),
    let no := match l with | .delivery => 1 | .ret => 2
    let asked : List Station := match l with | .delivery => [0, 1, 2, 3] | .ret => []
    let acts := s.wing.st = .normal ∨ s.wing.st = .standby
    let busy := Completes (.lineClear h no) s { clearBus s with link := answeredLink 0x1A h .busy [] s.link }
    let waits := fun v : Option LineClearWait => modLine l (fun r => { r with clear := v }) { s.yard with bus := [] }
    let listed := fun y : Yard => match l with
      | .delivery => listFlds y.lines.delivery fun p => [.u2 p.bin, .u1 (stationNo p.station)]
      | .ret => listFlds y.lines.returns (fun p => [.u2 p.bin, .u1 (aisleNo p.aisle)])
          ++ ([0, 1, 2, 3, 4, 5] : List Aisle).map fun a => .u2 (y.lines.inbound[a].getD 0)
    let ends := fun (cmd : Instr) (w : LineClearWait) (driveCame : Bool) (held : List HeldReport) (y : Yard) (u : State) =>
      Completes cmd s u ∧ SameElse s u
      ∧ (let answered := fun (code : ReplyCode) (items : List Fld) => u.link = { s.link with
           inbox := s.link.inbox.map fun q =>
             if q.id = w.id ∧ q.reply = none then { q with reply := some ⟨q.kind + 0x40, q.tag, code, items⟩ } else q }
         (acts → u.yard = held.foldl (applyHeld l (envOf s)) y
           ∧ if driveCame then answered .ok (listed u.yard) else answered .busy [])
         ∧ (¬acts → u.yard = y ∧ answered .busy []))
    (Taken h s → (lineRec l s.yard).st ≠ .running → (lineRec l s.yard).clear = none → acts →
      Completes (.lineClear h no) s { s with
        link := waitingLink 0x1A h s.link
        yard := { waits (some ⟨s.link.nextId, 50, false, asked, []⟩) with
          bus := .lineContents l :: asked.map .terminalFull } })
    ∧ (Taken h s → ((lineRec l s.yard).st = .running ∨ (lineRec l s.yard).clear.isSome ∨ ¬acts) → busy)
    ∧ (∀ n, Taken h s → n ≠ 1 → n ≠ 2 →
        Completes (.lineClear h n) s { clearBus s with link := answeredLink 0x1A h .form [] s.link })
    ∧ (∀ w, (lineRec l s.yard).clear = some w → ∃ u, ends (.lineClearTimeout l) w w.driveDone w.held (waits none) u)
    ∧ ((lineRec l s.yard).clear = none → Completes (.lineClearTimeout l) s (clearBus s))
    ∧ (∀ (w : LineClearWait) (bins : List Nat) (inbound : List (Option Nat)) (fault : Bool),
        (lineRec l s.yard).clear = some w → s.wing.st ≠ .restarting → .line l ∉ s.yard.disc.expected →
        l ∉ s.yard.disc.asked →
        let cmd := Instr.lineContentsReport l bins inbound fault
        let held := w.held ++ [.contents bins inbound fault]
        (w.terminals ≠ [] → Completes cmd s { s with yard := waits (some { w with driveDone := true, held := held }) })
        ∧ (w.terminals = [] → ∃ u, ends cmd w true held (waits none) u
            ∧ (acts → (lineRec l u.yard).st = (if fault then .faulted else .running)
                ∧ (lineRec l u.yard).fault = (if fault then some .driveFault else none)
                ∧ (lineRec l u.yard).clear = none ∧ (lineRec l u.yard).transfers = [])))
    ∧ ∀ (w : LineClearWait) (st : Station) (next present : Option Nat), l = .delivery →
      (lineRec l s.yard).clear = some w → s.wing.st ≠ .restarting → .terminal st ∉ s.yard.disc.silent →
      (st ∈ w.terminals ∨ ∃ n p, .full st n p ∈ w.held) →
      let cmd := Instr.terminalFullReport st next present
      let bin := fun v : Option Nat => v.filter fun b => decide (1 ≤ b ∧ b ≤ 20480)
      let left := w.terminals.filter fun x => x ≠ st
      let held := w.held ++ [.full st (bin next) (bin present)]
      let shown := fun y : Yard => { y with
        bus := [.display st (displayOf st s.yard)]
        stations := s.yard.stations.set st { s.yard.stations[st] with shown := displayOf st s.yard } }
      ((w.driveDone = false ∨ left ≠ []) →
          Completes cmd s { s with yard := shown (waits (some { w with terminals := left, held := held })) })
      ∧ (w.driveDone = true → left = [] → ∃ u, ends cmd w true held (shown (waits none)) u)

/-! ## Lines and stations -/

/-- A line drive's contents report that is owed since a start or in Restarting (log 72) makes the line's list the
reported bins in the reported order, ends its transfers (a transfer in flight is cut: log 79, the model's choice,
since neither R94 nor R102 says it), and leaves the line Running, or Faulted when a drive fault is reported. A bin
that was on the line keeps its address or aisle. One new on the delivery line is addressed to its Assigned or
Delivering order's station, or else to the first that is configured not Closed, with the aisle of the cell it was
Stored in as source; that cell becomes Unverified. One on the return line is OnReturn with its place's aisle. The
inbound places hold the bins reported in them. A bin that is no longer reported becomes Unverified with no cell. -/
def Obligations.ContentsReportSetsLine : Prop :=
  ∀ (l : LineId) (bins : List Nat) (inbound : List (Option Nat)) (fault : Bool) (s : State),
    (lineRec l s.yard).clear = none →
    (.line l ∈ s.yard.disc.expected ∨ l ∈ s.yard.disc.asked ∨ s.wing.st = .restarting) →
    bins.Nodup → (∀ b ∈ bins, 1 ≤ b ∧ b ≤ 20480) →
    (∀ b ∈ bins, reportConflict b (match l with | .delivery => .delivery | .ret => .ret) s.yard = false) →
    let becomes := fun (u : State) (b : Nat) (st : BinSt) (aisle : Option Aisle) (station : Option Station) =>
      ∀ r, getBin b s.yard = some r → ∃ q, getBin b u.yard = some q
        ∧ q = { r with
          st := st, cell := none, aisle := aisle, station := station, live := q.live
          retirePending := if r.st = .retired then q.retirePending else r.retirePending }
    ∃ u, Completes (.lineContentsReport l bins inbound fault) s u ∧ SameElse s u ∧ u.link = s.link
      ∧ (match l with | .delivery => u.yard.lines.delivery.map (·.bin) | .ret => u.yard.lines.returns.map (·.bin)) = bins
      ∧ (lineRec l u.yard).st = (if fault then .faulted else .running)
      ∧ (lineRec l u.yard).fault = (if fault then some .driveFault else none)
      ∧ (lineRec l u.yard).transfers = [] ∧ u.yard.disc.expected = s.yard.disc.expected.filter (fun d => d ≠ .line l)
      ∧ u.yard.disc.asked = s.yard.disc.asked.filter (fun x => x ≠ l)
      ∧ (l = .delivery →
        (∀ b ∈ bins, ∀ p, s.yard.lines.delivery.find? (fun q => q.bin = b) = some p → p ∈ u.yard.lines.delivery)
        ∧ (∀ p ∈ s.yard.lines.delivery, p.bin ∉ bins → becomes u p.bin .unverified none none)
        ∧ (∀ b ∈ bins, (∀ p ∈ s.yard.lines.delivery, p.bin ≠ b) → ∃ p ∈ u.yard.lines.delivery, p.bin = b
            ∧ becomes u b .onDelivery none (some p.station)
            ∧ p.source = (getBin b s.yard).bind fun r => if r.st = .stored then r.cell.map (·.aisle) else none)
        ∧ ∀ b, bins = [b] → (∀ p ∈ s.yard.lines.delivery, p.bin ≠ b) →
            (∃ p ∈ u.yard.lines.delivery, p.bin = b ∧ p.station =
              ((s.yard.orders.find? fun o => o.bin = b ∧ (o.st = .assigned ∨ o.st = .delivering)).map (·.station)).getD
                ((([0, 1, 2, 3] : List Station).find? fun st => s.cfg.stations[st].role ≠ .closed).getD 0))
            ∧ ∀ r x, getBin b s.yard = some r → r.st = .stored → r.cell = some x → KSorted s.yard.cells →
              getCell (envOf s) x s.yard = .occupied b → getCell (envOf s) x u.yard = .unverified (some b))
      ∧ (l = .ret →
        (∀ b ∈ bins, ∀ p, s.yard.lines.returns.find? (fun q => q.bin = b) = some p → p ∈ u.yard.lines.returns)
        ∧ (∀ p ∈ u.yard.lines.returns, becomes u p.bin .onReturn (some p.aisle) none)
        ∧ (∀ b, b ∉ bins → (∀ a : Aisle, u.yard.lines.inbound[a] ≠ some b) →
            ((∃ p ∈ s.yard.lines.returns, p.bin = b) ∨ ∃ a : Aisle, s.yard.lines.inbound[a] = some b) →
            (∀ r, getBin b s.yard = some r → r.st = .onReturn ∨ r.st = .inbound) → becomes u b .unverified none none)
        ∧ ∀ a : Aisle, (inbound.getD a.val none = none → u.yard.lines.inbound[a] = none)
          ∧ ∀ b, inbound.getD a.val none = some b → 1 ≤ b → b ≤ 20480 → b ∉ bins →
            (∀ d : Aisle, d < a → inbound.getD d.val none ≠ some b) → reportConflict b (.inbound a) s.yard = false →
            u.yard.lines.inbound[a] = some b ∧ becomes u b .inbound (some a) none)

/-- A transfer's completion moves its bin: a diversion from the delivery line to the station's Next place, an
advance from Next to Present, where a session opens, a release from Present to the return line's tail, the session
that stands there closed, be it one that reports have opened anew (log 111, the model's choice), and the station's display
then blank, and an inbound diversion from the return line to the aisle's inbound place. One for no transfer
in flight changes nothing. What follows every command (in this order, and six passes of it: log 13, the model's choice)
begins each transfer, with the next number of its drive and 100 ds, where the wing is Normal, its line Running and its
rule holds: the delivery line's head is diverted when no diversion is in flight and its station's Next place is free
(R96); a Next bin advances when no advance is in flight there and the Present place is free (R97); the head of the
release list is released when no release is in flight and the return line's committed length is below 12 (R99); and the
return line's head is diverted when no inbound diversion is in flight, its aisle is ready with a placement candidate and
the inbound place free (R100). A head whose aisle does not qualify is given the qualifying one with most candidates, the
lowest of equals; with none it waits, and WingFull is raised once (its bytes: log 15; in every wing state, and with the
line empty: log 46). The aisle at the head of the merge list is granted when no grant is in force, the delivery line is
open and its committed length below 12 (R95): its carrier begins the merge stroke, and one that waits no longer gives the
grant back. -/
def Obligations.TransfersMoveTheirBin : Prop :=
  (∀ (no : Nat) (t : Transfer) (s : State),
    let upToLive := fun r : Bin => { r with live := none }
    let settled := fun (l : LineId) (u : State) => SameElse s u ∧ u.link = s.link ∧ SameMotion s.yard u.yard
      ∧ u.yard.cells = s.yard.cells
      ∧ (lineRec l u.yard).transfers = (lineRec l s.yard).transfers.filter (fun x => x.no ≠ t.no)
    (∀ (st : Station) (p : DeliveryPlace) (r : Bin), transferOf .delivery no s.yard = some t → t.kind = .diversion st →
      s.yard.lines.delivery.find? (fun q => q.bin = t.bin) = some p → s.yard.stations[st].next = none →
      getBin t.bin s.yard = some r →
      ∃ u, Completes (.diversionComplete no) s u ∧ settled .delivery u
        ∧ u.yard.stations = s.yard.stations.set st { s.yard.stations[st] with next := some ⟨t.bin, p.source⟩ }
        ∧ u.yard.lines.delivery = s.yard.lines.delivery.filter (fun q => q.bin ≠ t.bin)
        ∧ getBin t.bin u.yard = some { r with st := .atStation, cell := none, aisle := none, station := some st }
        ∧ (∀ b, b ≠ t.bin → getBin b u.yard = getBin b s.yard)
        ∧ u.yard.orders = s.yard.orders ∧ u.yard.trays = s.yard.trays)
    ∧ (∀ (st : Station) (p : PlaceBin) (r : Bin), transferOf .delivery no s.yard = some t → t.kind = .advance st →
        s.yard.stations[st].next = some p → p.bin = t.bin → s.yard.stations[st].present = none →
        s.yard.stations[st].session = none → getBin p.bin s.yard = some r → r.retirePending = false →
        ∃ u x, Completes (.advanceComplete no) s u ∧ settled .delivery u ∧ u.yard.stations[st].next = none
          ∧ u.yard.stations[st].present = some p ∧ u.yard.stations[st].session = some x ∧ x.bin = p.bin
          ∧ x.order = (deliveringOrder p.bin s.yard).map (·.no) ∧ x.opened = s.clock.sec
          ∧ (∀ b, (getBin b u.yard).map upToLive = (getBin b s.yard).map upToLive)
          ∧ (∀ d : Station, d ≠ st → u.yard.stations[d] = s.yard.stations[d])
          ∧ (∀ o, deliveringOrder p.bin s.yard = some o → ∃ q ∈ u.yard.orders, q.no = o.no ∧ q.st = .atStation))
    ∧ (∀ (st : Station) (p : PlaceBin) (r : Bin), transferOf .ret no s.yard = some t → t.kind = .release st →
        s.yard.stations[st].present = some p → p.bin = t.bin → getBin p.bin s.yard = some r →
        ∃ u q a, Completes (.releaseComplete no) s u ∧ settled .ret u
          ∧ u.yard.stations = s.yard.stations.set st { s.yard.stations[st] with
              present := none, session := none, shown := .blank }
          ∧ u.yard.lines.returns = s.yard.lines.returns ++ [⟨p.bin, a⟩]
          ∧ getBin p.bin u.yard = some q
          ∧ q = { r with st := .onReturn, cell := none, aisle := some a, station := none, live := q.live }
          ∧ (∀ b, b ≠ p.bin → (getBin b u.yard).map upToLive = (getBin b s.yard).map upToLive)
          ∧ (let fit := fun x : Aisle => aisleIn (envOf s) x = true ∧ s.yard.est[x].inForce ≠ .off
               ∧ hasCandidate (envOf s) x s.yard = true
             let count := fun x : Aisle => candidateCount (envOf s) x s.yard
             (∀ x, p.source = some x → fit x → a = x)
             ∧ ((∀ x, p.source = some x → ¬fit x) → ∀ x, fit x → fit a
                 ∧ (count x < count a ∨ (count x = count a ∧ a ≤ x)))))
    ∧ (∀ (a : Aisle) (r : Bin), transferOf .ret no s.yard = some t → t.kind = .inbound a →
        (∃ p ∈ s.yard.lines.returns, p.bin = t.bin) → s.yard.lines.inbound[a] = none → getBin t.bin s.yard = some r →
        ∃ u, Completes (.inboundDiversionComplete no) s u ∧ settled .ret u
          ∧ u.yard.lines.inbound = s.yard.lines.inbound.set a (some t.bin)
          ∧ u.yard.lines.returns = s.yard.lines.returns.filter (fun p => p.bin ≠ t.bin)
          ∧ getBin t.bin u.yard = some { r with st := .inbound, cell := none, aisle := some a, station := none }
          ∧ (∀ b, b ≠ t.bin → getBin b u.yard = getBin b s.yard)
          ∧ u.yard.orders = s.yard.orders ∧ u.yard.stations = s.yard.stations ∧ u.yard.trays = s.yard.trays)
    ∧ (transferOf .delivery no s.yard = none → Completes (.diversionComplete no) s (clearBus s)
        ∧ Completes (.advanceComplete no) s (clearBus s))
    ∧ (transferOf .ret no s.yard = none → Completes (.releaseComplete no) s (clearBus s)
        ∧ Completes (.inboundDiversionComplete no) s (clearBus s)))
  ∧ (∀ (e : Env) (y : Yard),
      let runs := fun l : LineId => e.wing = .normal ∧ (lineRec l y).st = .running
      let idle := fun (l : LineId) (k : TransferKind → Prop) => ∀ x ∈ (lineRec l y).transfers, ¬k x.kind
      let begun := fun (l : LineId) (k : TransferKind) (b : Nat) (z : Yard) =>
        let t : Transfer := ⟨(lineRec l z).lastNo + 1, k, b, 100⟩
        let r : LineRec := { lineRec l z with lastNo := t.no, transfers := (lineRec l z).transfers ++ [t] }
        { z with bus := z.bus ++ [.transfer l t], lines := match l with
          | .delivery => { z.lines with del := r }
          | .ret => { z.lines with ret := r } }
      let test := fun (may : Prop) (z begins : Yard) => (may → z = begins) ∧ (¬may → z = y)
      let fit := fun a : Aisle => aisleReady e a y = true ∧ hasCandidate e a y = true
      let count := fun a : Aisle => candidateCount e a y
      (y.lines.delivery = [] → diversionTest e y = y)
      ∧ (∀ p l, y.lines.delivery = p :: l → test
          (runs .delivery ∧ idle .delivery (fun k => ∃ d, k = .diversion d) ∧ y.stations[p.station].next = none)
          (diversionTest e y) (begun .delivery (.diversion p.station) p.bin y))
      ∧ (∀ st : Station, (y.stations[st].next = none → advanceTest e st y = y)
        ∧ ∀ p, y.stations[st].next = some p → test
          (runs .delivery ∧ idle .delivery (fun k => k = .advance st) ∧ y.stations[st].present = none)
          (advanceTest e st y) (begun .delivery (.advance st) p.bin y))
      ∧ (y.lines.releaseList = [] → releaseTest e y = y)
      ∧ (∀ st l, y.lines.releaseList = st :: l → (y.stations[st].present = none → releaseTest e y = y)
        ∧ ∀ p, y.stations[st].present = some p → test
          (runs .ret ∧ idle .ret (fun k => ∃ d, k = .release d) ∧ y.lines.returns.length < 12) (releaseTest e y)
          (begun .ret (.release st) p.bin { y with
            lines := { y.lines with releaseList := y.lines.releaseList.filter fun d => d ≠ st } }))
      ∧ (y.lines.returns = [] → inboundTest e y = y
          ∧ ((∃ a, fit a) → headTest e y = { y with lines := { y.lines with headFull := none } })
          ∧ ((∀ a, ¬fit a) → headTest e y = y))
      ∧ (∀ h l, y.lines.returns = h :: l →
        let diverting := ∃ x ∈ y.lines.ret.transfers, ∃ a, x.kind = .inbound a
        let z := headTest e y
        test (runs .ret ∧ ¬diverting ∧ fit h.aisle ∧ y.lines.inbound[h.aisle] = none) (inboundTest e y)
          (begun .ret (.inbound h.aisle) h.bin y)
        ∧ (diverting → z = y)
        ∧ (¬diverting → fit h.aisle → z = { y with lines := { y.lines with headFull := none } })
        ∧ (¬diverting → ¬fit h.aisle →
          (∀ a, fit a → (∀ x, fit x → count x < count a ∨ count x = count a ∧ a ≤ x) →
            z = { y with bins := z.bins, lines := { y.lines with returns := ⟨h.bin, a⟩ :: l, headFull := none } }
            ∧ getBin h.bin z = (getBin h.bin y).map (fun r => { r with aisle := some a })
            ∧ ∀ b, b ≠ h.bin → getBin b z = getBin b y)
          ∧ ((∀ a, ¬fit a) → (y.lines.headFull = some h.bin → z = y)
            ∧ (y.lines.headFull ≠ some h.bin → z = notify e .wingFull [.u1 0, .u2 h.bin, .u1 0]
                { y with lines := { y.lines with headFull := some h.bin } }))))
      ∧ (y.lines.mergeList = [] → mergeTest e y = y)
      ∧ (∀ a l, y.lines.mergeList = a :: l →
        let c := y.carriers[a]
        let may := runs .delivery ∧ y.lines.mergeGrant = none ∧ y.lines.delivery.length < 12
        let granted := fun g : Option Aisle => { y with lines := { y.lines with mergeList := l, mergeGrant := g } }
        let est := (if y.est[a].inForce = .off then e.cfg.profA else y.est[a].vset).forkFront
        let g : Segment := ⟨.forkOut, c.segNo + 1, .mouth, none, est, some (2 * est + 50), 2 * est + 50, none⟩
        (¬may → mergeTest e y = y)
        ∧ (may → ∀ (no b : Nat) (x : CellAddr) (k : RStep) (sh : Option (Nat × CellAddr)), c.st = .waitMerge →
            c.task = some (.retrieve no b x k sh) → mergeTest e y = { granted (some a) with
              bus := y.bus ++ [.segment a g]
              carriers := y.carriers.set a { c with
                st := .forking, task := some (.retrieve no b x .handoff sh), seg := some g, segNo := g.no, freed := false } })
        ∧ (may → (c.st ≠ .waitMerge ∨ ∀ (no b : Nat) (x : CellAddr) (k : RStep) (sh : Option (Nat × CellAddr)),
              c.task ≠ some (.retrieve no b x k sh)) → mergeTest e y = granted none))
      ∧ lineTests e y = inboundTest e (headTest e (releaseTest e (diversionTest e
          (advanceTest e 3 (advanceTest e 2 (advanceTest e 1 (advanceTest e 0 y)))))))
      ∧ settlePass e y = lineTests e (mergeTest e (chooseAll e (syncAutos e (retireCourse e (evalOrders e
          (([0, 1, 2, 3, 4, 5] : List Aisle).foldl (fun z a => readyEdge e a (verifyEdge e a z)) (syncRoles e y)))))))
      ∧ chooseAll e y = ([0, 1, 2, 3, 4, 5] : List Aisle).foldl (fun z a => choose e a (clearFull e a z)) y
      ∧ settle e y = settlePass e (settlePass e (settlePass e (settlePass e (settlePass e (settlePass e y))))))
  ∧ ∀ s : State,
      let w := parkingSync (clearingSync s)
      finish s = transmit (outputsSync (journalGo { w with
        yard := syncDisplays (settle (envOf w) (takeMarks (envOf w) w.yard)) }))

/-- A fault report for a transfer in flight, or the end of its deadline, makes its line Faulted and halts its
drive; every transfer of the line is cut, and every bin stays where it was. One for no transfer in flight
changes nothing. -/
def Obligations.LineFaultCutsTransfers : Prop :=
  ∀ (l : LineId) (no : Nat) (s : State),
    (∀ (c : Instr) (why : LineFault), (transferOf l no s.yard).isSome →
      (c = .lineFaultReport l (some no) ∧ why = .driveFault ∨ c = .lineTransferDeadline l no ∧ why = .deadline) →
      ∃ u, Completes c s u ∧ SameElse s u ∧ u.link = s.link ∧ (lineRec l u.yard).st = .faulted
        ∧ (lineRec l u.yard).fault = some why ∧ (lineRec l u.yard).transfers = []
        ∧ u.yard.lines.delivery = s.yard.lines.delivery ∧ u.yard.lines.returns = s.yard.lines.returns
        ∧ u.yard.lines.inbound = s.yard.lines.inbound ∧ SameStock s.yard u.yard ∧ SameMotion s.yard u.yard
        ∧ u.yard.stations = s.yard.stations ∧ u.yard.trays = s.yard.trays ∧ u.yard.orders = s.yard.orders
        ∧ u.yard.bus = [.lineHalt l])
    ∧ (transferOf l no s.yard = none → Completes (.lineFaultReport l (some no)) s (clearBus s)
        ∧ Completes (.lineTransferDeadline l no) s (clearBus s))

/-- A terminal's change report that agrees with the records changes none of them, and neither does one of a place
that is the source or the target of a transfer in flight (R103); a number that no bin has, outside 1 to 20,480,
counts in it as no bin (log 26: the model's choice). A full report that agrees leaves the bins in their places, each with the aisle of the cell it is Stored in or none as source, and is answered with a
display update. A change report that a bin stands in the Next place recorded empty records it there, AtStation, its
cell Unverified; one that the Present place of a session is empty ends the session, with the bin Unverified; and one
that a leaving bin is gone makes it Retired, the station's display blank. -/
def Obligations.TerminalReportsSetPlaces : Prop :=
  ∀ (st : Station) (s : State), s.yard.disc.left = none →
    (∀ (p : StPlace) (v : Option Nat), (placeBusy st p s.yard = true ∨ (placeOf st p s.yard).map (·.bin) = v.filter binOk) →
      Completes (.terminalChangeReport st p v) s (clearBus s))
    ∧ ((lineRec .delivery s.yard).clear = none →
        (s.yard.stations[st].present.isSome → s.yard.stations[st].session.isSome) →
        (∀ q, s.yard.stations[st].next = some q → binOk q.bin = true) →
        (∀ q, s.yard.stations[st].present = some q → binOk q.bin = true) →
        (∀ p q, s.yard.stations[st].next = some p → s.yard.stations[st].present = some q → p.bin ≠ q.bin) →
        ∃ u, Completes (.terminalFullReport st (s.yard.stations[st].next.map (·.bin))
            (s.yard.stations[st].present.map (·.bin))) s u
          ∧ SameElse s u ∧ u.link = s.link ∧ SameStock s.yard u.yard ∧ SameMotion s.yard u.yard
          ∧ u.yard.orders = s.yard.orders ∧ u.yard.lines = s.yard.lines ∧ u.yard.trays = s.yard.trays
          ∧ (let stands := fun q : PlaceBin => (⟨q.bin, (getBin q.bin s.yard).bind fun r =>
               if r.st = .stored then r.cell.map (·.aisle) else none⟩ : PlaceBin)
             u.yard.stations = s.yard.stations.set st { s.yard.stations[st] with
               next := s.yard.stations[st].next.map stands, present := s.yard.stations[st].present.map stands
               shown := displayOf st s.yard })
          ∧ u.yard.bus = [.display st (displayOf st s.yard)])
    ∧ (∀ (b : Nat) (r : Bin) (x : CellAddr), binOk b = true → getBin b s.yard = some r → r.st = .stored → r.cell = some x →
        KSorted s.yard.cells → getCell (envOf s) x s.yard = .occupied b →
        s.yard.stations[st].next = none → placeBusy st .next s.yard = false → reportConflict b (.next st) s.yard = false →
        ∃ u q, Completes (.terminalChangeReport st .next (some b)) s u ∧ SameElse s u ∧ u.link = s.link
          ∧ u.yard.stations[st].next = some ⟨b, some x.aisle⟩ ∧ getBin b u.yard = some q
          ∧ q = { r with st := .atStation, cell := none, aisle := none, station := some st, live := q.live }
          ∧ getCell (envOf s) x u.yard = .unverified (some b))
    ∧ ∀ (p : PlaceBin) (r : Bin), s.yard.stations[st].present = some p → getBin p.bin s.yard = some r →
        placeBusy st .present s.yard = false →
        (∀ x, s.yard.stations[st].session = some x →
          ∃ u q, Completes (.terminalChangeReport st .present none) s u ∧ SameElse s u ∧ u.link = s.link
            ∧ u.yard.stations[st].present = none ∧ u.yard.stations[st].session = none ∧ getBin p.bin u.yard = some q
            ∧ q = { r with st := .unverified, cell := none, aisle := none, station := none, live := q.live })
        ∧ (s.yard.stations[st].session = none → r.retirePending = true →
            ∃ u q, Completes (.terminalChangeReport st .present none) s u ∧ SameElse s u ∧ u.link = s.link
              ∧ u.yard.stations = s.yard.stations.set st { s.yard.stations[st] with present := none, shown := .blank }
              ∧ getBin p.bin u.yard = some q
              ∧ q = { r with st := .retired, cell := none, aisle := none, station := none, live := none })

/-- At an Open session a scan of an Open pick's item makes the first such pick Done and lowers the bin's fill
by the width, not below 0; a scan of a placement's item takes the item out of tray and session and raises the
fill, not above the capacity; the Absent button makes the first Open pick Absent. Each resets the idle timer.
A scan with no session raises StrayScan and changes no record. -/
def Obligations.ScansSettlePicks : Prop :=
  ∀ (st : Station) (c : ItemCode) (s : State),
    (∀ (x : Session) (o : Order) (p : Pick) (r : Bin) (no : Nat), s.yard.stations[st].session = some x → x.releasing = false →
      x.order = some no → orderOf no s.yard = some o → getBin x.bin s.yard = some r →
      let kept := fun (u : State) => SameElse s u ∧ u.link = s.link ∧ u.yard.cells = s.yard.cells
        ∧ SameMotion s.yard u.yard ∧ u.yard.lines = s.yard.lines ∧ u.yard.trays = s.yard.trays
        ∧ u.yard.stations
          = s.yard.stations.set st { s.yard.stations[st] with session := some { x with idle := some s.cfg.idleTimeout } }
      (o.picks.find? (fun p => p.st = .opened ∧ p.item = c) = some p →
        ∃ u, Completes (.itemScan st c) s u ∧ kept u
          ∧ u.yard.orders = s.yard.orders.map (fun q =>
              if q.no = no then { q with picks := settlePick (fun z => z.slip = p.slip) .done q.picks } else q)
          ∧ getBin x.bin u.yard = some { r with fill := if p.width ≤ r.fill then r.fill - p.width else 0 }
          ∧ (∀ b, b ≠ x.bin → getBin b u.yard = getBin b s.yard)
          ∧ (s.yard.post.outbox.length < 32 → ∃ n, u.yard.post.outbox = s.yard.post.outbox ++ [n] ∧ n.kind = .pickDone))
      ∧ (o.picks.find? (fun p => p.st = .opened) = some p →
          ∃ u, Completes (.absentButton st) s u ∧ kept u ∧ u.yard.bins = s.yard.bins
            ∧ u.yard.orders = s.yard.orders.map (fun q =>
                if q.no = no then { q with picks := settlePick (fun _ => true) .absent q.picks } else q)
            ∧ (s.yard.post.outbox.length < 32 →
                ∃ n, u.yard.post.outbox = s.yard.post.outbox ++ [n] ∧ n.kind = .pickAbsent)))
    ∧ (∀ (x : Session) (p : Placement) (r : Bin), s.yard.stations[st].session = some x → x.releasing = false →
        scannedPick x c s.yard = none → x.placements.find? (fun p => p.item = c) = some p → getBin x.bin s.yard = some r →
        ∃ u, Completes (.itemScan st c) s u ∧ SameElse s u ∧ u.link = s.link ∧ u.yard.cells = s.yard.cells
          ∧ SameMotion s.yard u.yard ∧ u.yard.lines = s.yard.lines ∧ u.yard.orders = s.yard.orders
          ∧ u.yard.trays[st].items = s.yard.trays[st].items.filter (fun i => i.item ≠ c)
          ∧ (∀ d : Station, d ≠ st → u.yard.trays[d] = s.yard.trays[d])
          ∧ (let z := { x with idle := some s.cfg.idleTimeout, placements := x.placements.filter fun q => q.item ≠ c }
             u.yard.stations = s.yard.stations.set st { s.yard.stations[st] with session := some z })
          ∧ getBin x.bin u.yard = some { r with fill := if r.fill + p.width ≤ r.capacity then r.fill + p.width else r.capacity }
          ∧ ∀ b, b ≠ x.bin → getBin b u.yard = getBin b s.yard)
    ∧ (s.yard.stations[st].session = none → ∃ u, Completes (.itemScan st c) s u ∧ SameElse s u ∧ u.link = s.link
        ∧ u.yard = { s.yard with bus := [], post := u.yard.post }
        ∧ (s.yard.post.outbox.length < 32 → ∃ n, u.yard.post.outbox = s.yard.post.outbox ++ [n] ∧ n.kind = .strayScan))

/-- The Release and Damaged buttons, and in Normal the end of the auto-release or idle timer, release an Open
session whose bin is not to be retired: its timers are unset, its placements handed back, its order's Open picks
Unserved and its order closing, and its station waits for release. The Damaged button also flags the bin. Where the
bin is to be retired, the Release button sends the update with status Releasing, closes the session in the same step
with its order out of the queue, and then sends the one with status Remove (R113, R117, R124); no line changes. At a
station with no session none of them does anything, nor does the end of a timer that has been set again or unset
since, or that comes out of Normal. After every command the auto-release timer follows the session: one that has come to
be Open, armed, without an Open pick and without a placement has it set to the delay (unset for a delay of 0), one for
which this goes on holding keeps it as it stands, and one for which it does not hold has it unset (R119). -/
def Obligations.SessionIsReleased : Prop :=
  (∀ (st : Station) (c : Instr) (s : State),
    (∀ (x : Session) (r : Bin), s.yard.stations[st].session = some x → x.releasing = false →
      getBin x.bin s.yard = some r → r.retirePending = false →
      (c = .releaseButton st ∨ c = .damagedButton st
        ∨ (c = .autoReleaseExpiry st ∧ x.auto = some 0 ∧ s.wing.st = .normal)
        ∨ (c = .idleTimerExpiry st ∧ x.idle = some 0 ∧ s.wing.st = .normal)) →
      ∃ u q, Completes c s u ∧ SameElse s u ∧ u.link = s.link
        ∧ (let z := { x with releasing := true, placements := [], idle := none, auto := none, met := false }
           u.yard.stations = s.yard.stations.set st { s.yard.stations[st] with session := some z, shown := displayOf st u.yard })
        ∧ st ∈ u.yard.lines.releaseList
        ∧ getBin x.bin u.yard = some q ∧ q = { r with
            damaged := if c = .damagedButton st then true else r.damaged, live := q.live }
        ∧ (∀ no o, x.order = some no → orderOf no s.yard = some o →
            ∃ z ∈ u.yard.orders, z.no = no ∧ z.closing = true ∧ ∀ p ∈ z.picks, p.st ≠ .opened)
        ∧ (∀ p ∈ x.placements, ∀ i ∈ u.yard.trays[st].items, i.item = p.item → i.st = .waiting)
        ∧ u.yard.cells = s.yard.cells ∧ SameMotion s.yard u.yard ∧ u.yard.lines.delivery = s.yard.lines.delivery
        ∧ u.yard.lines.returns = s.yard.lines.returns)
    ∧ (∀ (x : Session) (p : PlaceBin) (r : Bin), s.yard.stations[st].session = some x → x.releasing = false →
        s.yard.stations[st].present = some p → p.bin = x.bin → getBin x.bin s.yard = some r → r.retirePending = true →
        s.yard.stations[st].shown.status = some .opened → c = .releaseButton st →
        ∃ u l d, Completes c s u ∧ SameElse s u ∧ u.link = s.link
          ∧ u.yard.stations = s.yard.stations.set st { s.yard.stations[st] with session := none, shown := displayOf st u.yard }
          ∧ u.yard.bus = l ++ [.display st d, .display st (displayOf st u.yard)]
          ∧ d.status = some .releasing ∧ (displayOf st u.yard).status = some .remove
          ∧ (∀ no, x.order = some no → ∀ o ∈ u.yard.orders, o.no = no → o.cls = .space ∧ o.picks = [])
          ∧ u.yard.cells = s.yard.cells ∧ SameMotion s.yard u.yard ∧ u.yard.lines = s.yard.lines)
    ∧ (∀ x, s.yard.stations[st].session = some x →
        (c = .autoReleaseExpiry st ∧ (x.auto ≠ some 0 ∨ s.wing.st ≠ .normal)
          ∨ c = .idleTimerExpiry st ∧ (x.idle ≠ some 0 ∨ s.wing.st ≠ .normal)) → Completes c s (clearBus s))
    ∧ (s.yard.stations[st].session = none →
        (c = .releaseButton st ∨ c = .damagedButton st ∨ c = .autoReleaseExpiry st ∨ c = .idleTimerExpiry st
          ∨ c = .absentButton st) →
        Completes c s (clearBus s)))
  ∧ ∀ (e : Env) (y : Yard),
      (∀ st : Station,
        let z := syncAuto e st y
        (y.stations[st].session = none → z = y)
        ∧ ∀ x, y.stations[st].session = some x →
          let meets := x.releasing = false ∧ x.armed = true ∧ x.placements = []
            ∧ ∀ no o, x.order = some no → orderOf no y = some o → ∀ p ∈ o.picks, p.st ≠ .opened
          let becomes := fun w : Session =>
            { y with stations := y.stations.set st { y.stations[st] with session := some w } }
          (¬meets → z = becomes { x with met := false, auto := none })
          ∧ (meets → x.met = true → z = y)
          ∧ (meets → x.met = false → z = becomes { x with
              met := true, auto := if e.cfg.autoDelay = 0 then none else some e.cfg.autoDelay }))
      ∧ syncAutos e y = syncAuto e 3 (syncAuto e 2 (syncAuto e 1 (syncAuto e 0 y)))

/-! ## Sweep and wing -/

/-- Continuous and Single start a Stopped sweep at the start slot with no pass counted, at once when the front-end
is ready: the slot's pending thresholds come into force with its conversion, and the slot after it is the next. A
Starting sweep takes Single too, and Continuous makes a sweep that starts or runs Continuous. Stop ends a sweep that
waits (its next slot kept: log 88, the model's choice), and lets a conversion in flight end first. Single and Stop
are refused BUSY out of Standby. The end of the warm-up begins a sweep that waits for it. -/
def Obligations.SweepControlSetsRun : Prop :=
  ∀ (h : ReqHdr) (s : State),
    let w := s.sweep
    let forced := fun r : SlotRec => match r.pend with
      | some t => { r with cfg := { r.cfg with th := t }, pend := none, preCount := 0, alarmCount := 0 }
      | none => r
    let runs := fun v : Sweep => { v with
      run := .running, conv := some w.start, next := if w.start = w.stop then w.start else w.start + 1
      slots := w.slots.set w.start (forced w.slots[w.start]) }
    let begun := fun (single : Bool) (v : Sweep) =>
      let z := { w with run := .starting, single := single, next := w.start, passes := 0 }
      v = if w.warmLeft = none then runs z else z
    let done := fun (c : Instr) (ok : Sweep → Prop) => ∃ v, ok v ∧
      Completes c s { clearBus s with sweep := v, link := answeredLink 0x1B h .ok [] s.link }
    let busy := fun (c : Instr) => Completes c s { clearBus s with link := answeredLink 0x1B h .busy [] s.link }
    (Taken h s →
      (w.run = .stopped → done (.sweepControlContinuous h) (begun false))
      ∧ ((w.run = .starting ∨ w.run = .running) → done (.sweepControlContinuous h) fun v => v = { w with single := false })
      ∧ (w.run = .stopping → busy (.sweepControlContinuous h))
      ∧ (s.wing.st = .standby → (w.run = .stopped ∨ w.run = .starting) → done (.sweepControlSingle h) (begun true))
      ∧ ((s.wing.st ≠ .standby ∨ w.run = .running ∨ w.run = .stopping) → busy (.sweepControlSingle h))
      ∧ (s.wing.st ≠ .standby → busy (.sweepControlStop h))
      ∧ (s.wing.st = .standby → (w.run = .stopped ∨ w.run = .starting) →
          done (.sweepControlStop h) fun v => v = { w with run := .stopped })
      ∧ (s.wing.st = .standby → (w.run = .running ∨ w.run = .stopping) → Completes (.sweepControlStop h) s { clearBus s with
          sweep := { w with run := .stopping, stopIds := w.stopIds ++ [s.link.nextId] }
          link := waitingLink 0x1B h s.link }))
    ∧ (w.warmLeft.isSome → ∃ v, Completes .warmupExpiry s { clearBus s with sweep := v } ∧ v.warmLeft = none
        ∧ (w.run = .starting → v = runs { w with warmLeft := none })
        ∧ (w.run ≠ .starting → v = { w with warmLeft := none }))
    ∧ (w.warmLeft = none → Completes .warmupExpiry s (clearBus s))

/-- A completed conversion judges its slot. A Settling slot counts one down and is Normal, or in Fault when out of
bounds, after the last; a judged slot out of bounds is in Fault with no count, and one in Fault that comes back in
bounds is judged as Normal with no count. In bounds, each count goes up by one to the confirm count, or to 0 below
its threshold; a Heat slot at its trip threshold is in Trip, and else a full alarm count gives Alarm and a full pre
count PreAlarm; a stage not below that falls to the highest, up to its own, whose threshold less the hysteresis the
value reaches. Each zone's stage and Degraded flag follow its Smoke and Heat slots. In Normal with no cause before,
a zone's PreAlarm holds the wing, its Alarm parks it and its Trip seals it, with the zone and the slot as the
incident's cause. A running sweep then begins the next slot, and after the stop slot counts a pass and begins the
start slot; in Standby a Single pass ends there and the sweep is Stopped and Continuous; a Stopping sweep is Stopped
and its Stop requests are answered OK; where a zone's arrival has sealed the wing meanwhile, the sweep runs on,
Continuous, and the Stop requests are answered BUSY (R165). With no conversion in flight nothing changes. -/
def Obligations.ConversionJudgesSlot : Prop :=
  ∀ (raw : Nat) (s : State), raw ≤ 4095 →
    (∀ i : Slot, s.sweep.conv = some i →
      let r := s.sweep.slots[i]
      let v : Int := r.cfg.low + ((raw * r.cfg.span / 4095 : Nat) : Int)
      let out := raw ≤ 8 ∨ 4087 ≤ raw
      let count := fun (th : Int) (n : Nat) => if th ≤ v then min r.cfg.th.confirm (n + 1) else 0
      let was := if r.stage = .fault then (⟨.normal, 0, 0⟩ : Stage × Nat × Nat) else ⟨r.stage, r.preCount, r.alarmCount⟩
      let trips := fun h : Int => r.cfg.kind = .heat ∧ r.cfg.th.trip.any (fun t => t - h ≤ v) = true
      let judged := fun z : SlotRec => z.cfg = r.cfg ∧ z.pend = r.pend
        ∧ (r.cfg.kind ≠ .unused → z.last = some (raw, if out then none else some v))
        ∧ (r.cfg.kind = .unused → z.stage = (if r.stage = .settling ∧ r.settlingLeft ≤ 1 then .normal else r.stage))
        ∧ (r.stage = .settling → 1 < r.settlingLeft → z.stage = .settling ∧ z.settlingLeft = r.settlingLeft - 1)
        ∧ (r.stage = .settling → r.settlingLeft ≤ 1 → z.settlingLeft = 0 ∧ z.preCount = 0 ∧ z.alarmCount = 0
            ∧ z.stage = if out ∧ r.cfg.kind ≠ .unused then .fault else .normal)
        ∧ (r.cfg.kind ≠ .unused → r.stage ≠ .settling → out → z.stage = .fault ∧ z.preCount = 0 ∧ z.alarmCount = 0)
        ∧ (r.cfg.kind ≠ .unused → r.stage ≠ .settling → ¬out →
            z.preCount = count r.cfg.th.pre was.2.1 ∧ z.alarmCount = count r.cfg.th.alarm was.2.2
            ∧ (let up : Stage := if trips 0 then .trip else if z.alarmCount = r.cfg.th.confirm then .alarm
                 else if z.preCount = r.cfg.th.confirm then .preAlarm else .normal
               let rank := stageRank was.1
               let h : Int := r.cfg.th.hyst
               z.stage = if rank < stageRank up then up else if 3 ≤ rank ∧ trips h then .trip
                 else if 2 ≤ rank ∧ r.cfg.th.alarm - h ≤ v then .alarm
                 else if 1 ≤ rank ∧ r.cfg.th.pre - h ≤ v then .preAlarm else .normal))
      let followed := fun u : State =>
        (∀ k : Zone,
          let counts := fun j : Slot => u.sweep.slots[j].cfg.zone = k
            ∧ (u.sweep.slots[j].cfg.kind = .smoke ∨ u.sweep.slots[j].cfg.kind = .heat)
          let stage := fun j : Slot => u.sweep.slots[j].stage
          u.sweep.zones[k].stage = (if ∃ j, counts j ∧ stage j = .trip then .trip
            else if (∃ j, counts j ∧ stage j = .alarm)
              ∨ (∃ j m, j ≠ m ∧ counts j ∧ counts m ∧ stage j = .preAlarm ∧ stage m = .preAlarm) then .alarm
            else if ∃ j, counts j ∧ stage j = .preAlarm then .preAlarm else .normal)
          ∧ (u.sweep.zones[k].degraded = true ↔ ∃ j, counts j ∧ stage j = .fault))
        ∧ (s.wing.st = .normal → CausesTrue s → s.wing.cause = .none →
            (∀ k : Zone, s.sweep.zones[k].stage = zoneStage s.sweep k) →
            ((∀ k : Zone, u.sweep.zones[k].stage = .normal) → u.wing.st = .normal)
            ∧ ∀ k : Zone, u.sweep.zones[k].stage ≠ .normal →
              (∃ n, u.wing.incident = some n ∧ n.isOpen = true ∧ n.cause = some (.zone k i))
              ∧ (u.sweep.zones[k].stage = .preAlarm → u.wing.st = .hold ∨ u.wing.st = .clearing)
              ∧ (u.sweep.zones[k].stage = .alarm → u.wing.st = .parking)
              ∧ (u.sweep.zones[k].stage = .trip → u.wing.st = .sealing ∧ u.wing.halt = true))
      let forced := fun z : SlotRec => match z.pend with
        | some t => { z with cfg := { z.cfg with th := t }, pend := none, preCount := 0, alarmCount := 0 }
        | none => z
      let done := fun (u : State) (z : SlotRec) => Completes (.conversionComplete raw) s u ∧ judged z ∧ followed u
        ∧ u.sweep.start = s.sweep.start ∧ u.sweep.stop = s.sweep.stop ∧ u.sweep.warmLeft = s.sweep.warmLeft
      let begins := fun (u : State) (z : SlotRec) (j : Slot) => u.sweep.run = .running ∧ u.sweep.conv = some j
        ∧ u.sweep.next = (if j = s.sweep.stop then s.sweep.start else j + 1)
        ∧ u.sweep.slots = (s.sweep.slots.set i z).set j (forced (s.sweep.slots.set i z)[j])
      let ends := fun (u : State) (z : SlotRec) => u.sweep.run = .stopped ∧ u.sweep.conv = none
        ∧ u.sweep.slots = s.sweep.slots.set i z
      let passes := if s.sweep.passes < 4294967295 then s.sweep.passes + 1 else s.sweep.passes
      let after := if i = s.sweep.stop then s.sweep.start else i + 1
      let answered := fun (u : State) (code : ReplyCode) => u.sweep.stopIds = []
        ∧ ∀ q ∈ s.link.inbox, q.id ∈ s.sweep.stopIds → q.reply = none →
          { q with reply := some ⟨q.kind + 0x40, q.tag, code, []⟩ } ∈ u.link.inbox
      (s.sweep.run = .running → i ≠ s.sweep.stop → ∃ u z, done u z ∧ begins u z after ∧ u.sweep.passes = s.sweep.passes)
      ∧ (s.sweep.run = .running → i = s.sweep.stop → s.sweep.single = false →
          ∃ u z, done u z ∧ begins u z after ∧ u.sweep.passes = passes)
      ∧ (s.wing.st = .standby → s.sweep.run = .running → i = s.sweep.stop → s.sweep.single = true →
          ∃ u z, done u z ∧ u.sweep.passes = passes ∧ u.sweep.single = false
            ∧ if u.wing.st = .standby then ends u z else begins u z after)
      ∧ (s.wing.st = .standby → s.sweep.run = .stopping → ∃ u z, done u z
          ∧ if u.wing.st = .standby then ends u z ∧ u.sweep.passes = s.sweep.passes ∧ answered u .ok
            else begins u z after ∧ u.sweep.single = false ∧ answered u .busy))
    ∧ (s.sweep.conv = none → Completes (.conversionComplete raw) s (clearBus s))

/-- A panel input that goes high with no cause present raises its level. In Normal an incident opens, and the
wing goes to Hold or Clearing for Hold, to Parking with its timer for Park, and to Sealing, shutters closed
and power off, for Trip; in Standby Hold is noticed only, and Park and Trip seal the wing. A level that an
input has already is no change. A rise while an incident is open joins its triggers, eight of them, and is counted
after that (held at 65,535: log 53, the model's choice), and raises its highest level. Where it raises the cause
level, it takes Hold and Clearing to Parking for Park, with the park timer (R187), and Hold, Clearing and Parking to
Sealing with halt for Trip, in the same incident (R187, R190); Restarting opens an incident of its own, its carriers
that have not reported Offline, and goes to Hold or Clearing, to Sealing without halt, or to Sealing with halt
(R197). In Sealing and Sealed (R193), and for a lesser rise in Parking, nothing else happens. A Hold cause that comes
in Hold or Clearing unsets the hold clear timer and a return that waits; the last one that goes starts it (R186). A
fall changes neither the wing state nor the incident (in Parking and after it: log 54, the model's reading). -/
def Obligations.PanelInputRaisesCause : Prop :=
  ∀ (i : PanelInput) (high : Bool) (s : State),
    (panelHigh s.wing.panel i = high → Completes (.panelInputChange i high) s (clearBus s))
    ∧ (CausesTrue s → s.wing.cause = .none → high = true → (s.wing.st = .normal ∨ s.wing.st = .standby) →
        ∃ u, Completes (.panelInputChange i high) s u ∧ u.wing.panel = setPanel s.wing.panel i true
          ∧ u.wing.cause = panelLevel i ∧ CausesTrue u ∧ u.sweep.zones = s.sweep.zones
          ∧ u.cfg = s.cfg ∧ u.flash = s.flash ∧ u.clock = s.clock ∧ u.pending = s.pending
          ∧ (s.wing.st = .standby → i = .stage1 → u.wing.st = .standby ∧ u.wing.incident = s.wing.incident
              ∧ SameStock s.yard u.yard ∧ SameMotion s.yard u.yard ∧ SameDesks s.yard u.yard)
          ∧ (s.wing.st = .normal → i = .stage1 → u.wing.st = .hold ∨ u.wing.st = .clearing)
          ∧ (s.wing.st = .normal → i = .stage2 →
              u.wing.st = .parking ∧ u.wing.parkTimer = some s.cfg.fire.parkDeadline)
          ∧ (i = .discharge ∨ (s.wing.st = .standby ∧ i = .stage2) → u.wing.st = .sealing ∧ u.wing.shutClose = true
              ∧ u.wing.drvPwr = false ∧ u.wing.halt = decide (i = .discharge) ∧ u.yard.journal.sealing.isSome)
          ∧ ((s.wing.st = .normal ∨ i ≠ .stage1) → ∃ r, u.wing.incident = some r ∧ r.isOpen = true
              ∧ r.cause = some (.panel i) ∧ r.start = some s.clock.sec ∧ r.highest = panelLevel i
              ∧ r.number = u.wing.incidentNo
              ∧ u.wing.incidentNo = (if s.wing.incidentNo < 4294967295 then s.wing.incidentNo + 1 else s.wing.incidentNo)))
    ∧ (CausesTrue s → panelHigh s.wing.panel i ≠ high →
        let up := levelCode s.wing.cause < levelCode (panelLevel i)
        let kept := fun u : State => Completes (.panelInputChange i high) s u ∧ u.wing.panel = setPanel s.wing.panel i high
          ∧ CausesTrue u ∧ u.sweep.zones = s.sweep.zones ∧ u.cfg = s.cfg ∧ u.flash = s.flash ∧ u.clock = s.clock
          ∧ u.pending = s.pending
        let still := fun u : State => u.wing.st = s.wing.st ∧ SameStock s.yard u.yard ∧ SameMotion s.yard u.yard
          ∧ SameDesks s.yard u.yard ∧ u.yard.orders = s.yard.orders ∧ u.wing.halt = s.wing.halt
          ∧ u.wing.parkTimer = s.wing.parkTimer ∧ u.wing.restartTimer = s.wing.restartTimer ∧ u.wing.clearing = s.wing.clearing
        let traced := fun u : State => ∀ r, s.wing.incident = some r → r.isOpen = true → ∃ q, u.wing.incident = some q
          ∧ q.number = r.number ∧ q.isOpen = true ∧ q.cause = r.cause ∧ q.start = r.start
          ∧ q.highest = (if levelCode r.highest < levelCode (panelLevel i) then panelLevel i else r.highest)
          ∧ (r.triggers.length < 8 → q.triggers = r.triggers ++ [⟨s.clock.sec, .panel i, panelLevel i⟩] ∧ q.later = r.later)
          ∧ (8 ≤ r.triggers.length → q.triggers = r.triggers ∧ q.later = if r.later < 65535 then r.later + 1 else r.later)
        let sealed := fun (u : State) (halt : Bool) => u.wing.st = .sealing ∧ u.wing.halt = halt ∧ u.wing.shutClose = true
          ∧ u.wing.drvPwr = false ∧ u.wing.holdTimer = none ∧ u.wing.parkTimer = none ∧ u.wing.restartTimer = none
          ∧ u.wing.clearing = [] ∧ u.yard.journal.sealing.isSome
        (high = true → wingHeld s.wing.st = true → ∃ u, kept u ∧ traced u
          ∧ (i = .stage2 → up → u.wing.st = .parking ∧ u.wing.parkTimer = some s.cfg.fire.parkDeadline
              ∧ u.wing.holdTimer = none ∧ u.wing.clearing = [])
          ∧ (i = .discharge → up → sealed u true)
          ∧ ((i = .stage1 ∨ ¬up) → still u)
          ∧ (i = .stage1 → s.wing.holdCause = false → u.wing.holdTimer = none ∧ u.wing.returning = false)
          ∧ ((i = .stage1 ∧ s.wing.holdCause = true ∨ i ≠ .stage1 ∧ ¬up) →
              u.wing.holdTimer = s.wing.holdTimer ∧ u.wing.returning = s.wing.returning))
        ∧ (high = true → s.wing.st = .parking → ∃ u, kept u ∧ traced u ∧ (i = .discharge → up → sealed u true)
            ∧ ((i ≠ .discharge ∨ ¬up) → still u))
        ∧ (high = true → (s.wing.st = .sealing ∨ s.wing.st = .sealed) → ∃ u, kept u ∧ traced u ∧ still u)
        ∧ (high = true → s.wing.st = .restarting → up → ∃ u, kept u
            ∧ (∃ r, u.wing.incident = some r ∧ r.isOpen = true ∧ r.cause = some (.panel i) ∧ r.start = some s.clock.sec
                ∧ r.highest = panelLevel i ∧ r.number = u.wing.incidentNo)
            ∧ u.wing.incidentNo = (if s.wing.incidentNo < 4294967295 then s.wing.incidentNo + 1 else s.wing.incidentNo)
            ∧ u.wing.restartTimer = none
            ∧ (∀ a : Aisle, s.yard.carriers[a].reported = false →
                (s.yard.carriers[a].st = .offline → s.yard.carriers[a].seg = none) → u.yard.carriers[a].st = .offline)
            ∧ (i = .stage1 → u.wing.st = .hold ∨ u.wing.st = .clearing)
            ∧ (i = .stage2 → sealed u false) ∧ (i = .discharge → sealed u true))
        ∧ (high = false → ∃ u, kept u ∧ still u ∧ u.wing.incident = s.wing.incident
            ∧ (wingHeld s.wing.st = true → s.wing.holdCause = true → (∀ z : Zone, s.sweep.zones[z].stage = .normal) →
                i = .stage1 → u.wing.holdTimer = some s.cfg.fire.holdClear)
            ∧ ((i ≠ .stage1 ∨ ∃ z : Zone, 1 ≤ stageRank s.sweep.zones[z].stage) → u.wing.holdTimer = s.wing.holdTimer)))

/-- The end of the hold clear timer takes a wing in Hold back to Normal and closes its incident; in Clearing
it waits for the ClearMoves asked for and drops the rest of the list, and where none has been asked for, the wing
returns to Normal at once. The end of the park timer seals the
wing. The end of the restart timer takes it to Normal, with every carrier that has not reported Offline. A
timer that does not run has no end. After every command a wing in Parking whose carriers, within the geometry, are all
Parked, Faulted, Offline or Halted enters Sealing without halt, its park timer unset and no carrier Halted that has no
segment in flight (R189, R191); any other is left. -/
def Obligations.WingTimersEnd : Prop :=
  (∀ s : State,
    (s.wing.holdTimer.isSome → s.wing.st = .hold → ∃ u, Completes .holdClearExpiry s u ∧ u.wing.st = .normal
      ∧ u.wing.holdTimer = none ∧ u.wing.cause = s.wing.cause ∧ u.cfg = s.cfg ∧ u.flash = s.flash ∧ u.clock = s.clock
      ∧ ∀ r, s.wing.incident = some r → r.isOpen = true →
          u.wing.incident = some { r with isOpen := false, resume := some s.clock.sec })
    ∧ (s.wing.holdTimer.isSome → s.wing.st = .clearing → (∃ p ∈ s.wing.clearing, p.2 = .requested) →
        Completes .holdClearExpiry s { clearBus s with wing := { s.wing with
          holdTimer := none, returning := true, clearing := s.wing.clearing.filter fun p => p.2 = .requested } })
    ∧ (s.wing.holdTimer.isSome → s.wing.st = .clearing → (∀ p ∈ s.wing.clearing, p.2 ≠ .requested) →
        ∃ u, Completes .holdClearExpiry s u ∧ u.wing.st = .normal ∧ u.wing.holdTimer = none ∧ u.wing.clearing = []
          ∧ u.wing.returning = false ∧ u.wing.cause = s.wing.cause ∧ u.cfg = s.cfg ∧ u.flash = s.flash ∧ u.clock = s.clock
          ∧ ∀ r, s.wing.incident = some r → r.isOpen = true →
              u.wing.incident = some { r with isOpen := false, resume := some s.clock.sec })
    ∧ (s.wing.parkTimer.isSome → s.wing.st = .parking → ∃ u, Completes .parkTimerExpiry s u ∧ u.wing.st = .sealing
        ∧ u.wing.shutClose = true ∧ u.wing.drvPwr = false ∧ u.wing.halt = true ∧ u.wing.parkTimer = none
        ∧ u.yard.journal.sealing.isSome ∧ u.wing.cause = s.wing.cause ∧ u.cfg = s.cfg ∧ u.flash = s.flash ∧ u.clock = s.clock
        ∧ (∀ a : Aisle, u.yard.carriers[a].load = s.yard.carriers[a].load ∨ u.yard.carriers[a].load = none))
    ∧ (s.wing.restartTimer.isSome → s.wing.st = .restarting → ∃ u, Completes .restartTimerExpiry s u
        ∧ u.wing.st = .normal ∧ u.wing.restartTimer = none ∧ u.wing.cause = s.wing.cause ∧ u.cfg = s.cfg
        ∧ u.flash = s.flash ∧ u.clock = s.clock
        ∧ ∀ a : Aisle, s.yard.carriers[a].reported = false → u.yard.carriers[a].st = .offline)
    ∧ (s.wing.holdTimer = none → Completes .holdClearExpiry s (clearBus s))
    ∧ (s.wing.parkTimer = none → Completes .parkTimerExpiry s (clearBus s))
    ∧ (s.wing.restartTimer = none → Completes .restartTimerExpiry s (clearBus s)))
  ∧ ∀ s : State,
      let ended := s.wing.st = .parking ∧ ∀ a : Aisle, aisleNo a ≤ s.cfg.geometry.aisleCount →
        s.yard.carriers[a].st = .parked ∨ s.yard.carriers[a].st = .faulted ∨ s.yard.carriers[a].st = .offline
          ∨ s.yard.carriers[a].st = .halted
      let u := parkingSync s
      (¬ended → u = s)
      ∧ (ended → u.wing.st = .sealing ∧ u.wing.halt = false ∧ u.wing.shutClose = true ∧ u.wing.drvPwr = false
          ∧ u.wing.parkTimer = none ∧ u.wing.cause = s.wing.cause ∧ u.cfg = s.cfg ∧ u.flash = s.flash ∧ u.clock = s.clock
          ∧ u.yard.journal.sealing.isSome
          ∧ ∀ a : Aisle, (∀ g, s.yard.carriers[a].seg = some g → g.kind = .halt) → u.yard.carriers[a] = s.yard.carriers[a])
end

