-- ==== Sys2Proof/Laws/State.lean ====
section
/-! SUPPORT. What each update leaves as it was and what it sets: one lemma for each field and update, so that
no proof unfolds an update. -/

namespace Sys2Proof.Machine

open Sys2Proof

/-! ## Updates of the whole state -/

@[simp] theorem onYard_yard (f : Env → Yard → Yard) (s : State) : (onYard f s).yard = f (envOf s) s.yard := rfl
@[simp] theorem onYard_cfg (f : Env → Yard → Yard) (s : State) : (onYard f s).cfg = s.cfg := rfl
@[simp] theorem onYard_sweep (f : Env → Yard → Yard) (s : State) : (onYard f s).sweep = s.sweep := rfl
@[simp] theorem onYard_wing (f : Env → Yard → Yard) (s : State) : (onYard f s).wing = s.wing := rfl
@[simp] theorem onYard_link (f : Env → Yard → Yard) (s : State) : (onYard f s).link = s.link := rfl
@[simp] theorem onYard_flash (f : Env → Yard → Yard) (s : State) : (onYard f s).flash = s.flash := rfl
@[simp] theorem onYard_clock (f : Env → Yard → Yard) (s : State) : (onYard f s).clock = s.clock := rfl
@[simp] theorem onYard_pending (f : Env → Yard → Yard) (s : State) : (onYard f s).pending = s.pending := rfl

@[simp] theorem modWing_yard (f : Wing → Wing) (s : State) : (modWing f s).yard = s.yard := rfl
@[simp] theorem modWing_cfg (f : Wing → Wing) (s : State) : (modWing f s).cfg = s.cfg := rfl
@[simp] theorem modWing_sweep (f : Wing → Wing) (s : State) : (modWing f s).sweep = s.sweep := rfl
@[simp] theorem modWing_wing (f : Wing → Wing) (s : State) : (modWing f s).wing = f s.wing := rfl
@[simp] theorem modWing_link (f : Wing → Wing) (s : State) : (modWing f s).link = s.link := rfl
@[simp] theorem modWing_flash (f : Wing → Wing) (s : State) : (modWing f s).flash = s.flash := rfl
@[simp] theorem modWing_clock (f : Wing → Wing) (s : State) : (modWing f s).clock = s.clock := rfl
@[simp] theorem modWing_pending (f : Wing → Wing) (s : State) : (modWing f s).pending = s.pending := rfl

@[simp] theorem modSweep_yard (f : Sweep → Sweep) (s : State) : (modSweep f s).yard = s.yard := rfl
@[simp] theorem modSweep_cfg (f : Sweep → Sweep) (s : State) : (modSweep f s).cfg = s.cfg := rfl
@[simp] theorem modSweep_sweep (f : Sweep → Sweep) (s : State) : (modSweep f s).sweep = f s.sweep := rfl
@[simp] theorem modSweep_wing (f : Sweep → Sweep) (s : State) : (modSweep f s).wing = s.wing := rfl
@[simp] theorem modSweep_link (f : Sweep → Sweep) (s : State) : (modSweep f s).link = s.link := rfl
@[simp] theorem modSweep_flash (f : Sweep → Sweep) (s : State) : (modSweep f s).flash = s.flash := rfl
@[simp] theorem modSweep_clock (f : Sweep → Sweep) (s : State) : (modSweep f s).clock = s.clock := rfl
@[simp] theorem modSweep_pending (f : Sweep → Sweep) (s : State) : (modSweep f s).pending = s.pending := rfl

@[simp] theorem clearBus_yard (s : State) : (clearBus s).yard = { s.yard with bus := [] } := rfl
@[simp] theorem clearBus_cfg (s : State) : (clearBus s).cfg = s.cfg := rfl
@[simp] theorem clearBus_sweep (s : State) : (clearBus s).sweep = s.sweep := rfl
@[simp] theorem clearBus_wing (s : State) : (clearBus s).wing = s.wing := rfl
@[simp] theorem clearBus_link (s : State) : (clearBus s).link = s.link := rfl
@[simp] theorem clearBus_flash (s : State) : (clearBus s).flash = s.flash := rfl
@[simp] theorem clearBus_clock (s : State) : (clearBus s).clock = s.clock := rfl
@[simp] theorem clearBus_pending (s : State) : (clearBus s).pending = s.pending := rfl

@[simp] theorem notifyS_yard (k : NoticeKind) (items : List Fld) (s : State) : (notifyS k items s).yard = notify (envOf s) k items s.yard := rfl
@[simp] theorem notifyS_cfg (k : NoticeKind) (items : List Fld) (s : State) : (notifyS k items s).cfg = s.cfg := rfl
@[simp] theorem notifyS_sweep (k : NoticeKind) (items : List Fld) (s : State) : (notifyS k items s).sweep = s.sweep := rfl
@[simp] theorem notifyS_wing (k : NoticeKind) (items : List Fld) (s : State) : (notifyS k items s).wing = s.wing := rfl
@[simp] theorem notifyS_link (k : NoticeKind) (items : List Fld) (s : State) : (notifyS k items s).link = s.link := rfl
@[simp] theorem notifyS_flash (k : NoticeKind) (items : List Fld) (s : State) : (notifyS k items s).flash = s.flash := rfl
@[simp] theorem notifyS_clock (k : NoticeKind) (items : List Fld) (s : State) : (notifyS k items s).clock = s.clock := rfl
@[simp] theorem notifyS_pending (k : NoticeKind) (items : List Fld) (s : State) : (notifyS k items s).pending = s.pending := rfl

@[simp] theorem answer_yard (id : Nat) (c : ReplyCode) (items : List Fld) (s : State) : (answer id c items s).yard = s.yard := rfl
@[simp] theorem answer_cfg (id : Nat) (c : ReplyCode) (items : List Fld) (s : State) : (answer id c items s).cfg = s.cfg := rfl
@[simp] theorem answer_sweep (id : Nat) (c : ReplyCode) (items : List Fld) (s : State) : (answer id c items s).sweep = s.sweep := rfl
@[simp] theorem answer_wing (id : Nat) (c : ReplyCode) (items : List Fld) (s : State) : (answer id c items s).wing = s.wing := rfl
@[simp] theorem answer_flash (id : Nat) (c : ReplyCode) (items : List Fld) (s : State) : (answer id c items s).flash = s.flash := rfl
@[simp] theorem answer_clock (id : Nat) (c : ReplyCode) (items : List Fld) (s : State) : (answer id c items s).clock = s.clock := rfl
@[simp] theorem answer_pending (id : Nat) (c : ReplyCode) (items : List Fld) (s : State) : (answer id c items s).pending = s.pending := rfl

@[simp] theorem outputsSync_yard (s : State) : (outputsSync s).yard = s.yard := rfl
@[simp] theorem outputsSync_cfg (s : State) : (outputsSync s).cfg = s.cfg := rfl
@[simp] theorem outputsSync_sweep (s : State) : (outputsSync s).sweep = s.sweep := rfl
@[simp] theorem outputsSync_link (s : State) : (outputsSync s).link = s.link := rfl
@[simp] theorem outputsSync_flash (s : State) : (outputsSync s).flash = s.flash := rfl
@[simp] theorem outputsSync_clock (s : State) : (outputsSync s).clock = s.clock := rfl
@[simp] theorem outputsSync_pending (s : State) : (outputsSync s).pending = s.pending := rfl

@[simp] theorem journalGo_yard (s : State) : (journalGo s).yard = modJournal (beginWrite s.flash.clean) (takeMarks (envOf s) s.yard) := rfl
@[simp] theorem journalGo_cfg (s : State) : (journalGo s).cfg = s.cfg := rfl
@[simp] theorem journalGo_sweep (s : State) : (journalGo s).sweep = s.sweep := rfl
@[simp] theorem journalGo_wing (s : State) : (journalGo s).wing = s.wing := rfl
@[simp] theorem journalGo_link (s : State) : (journalGo s).link = s.link := rfl
@[simp] theorem journalGo_flash (s : State) : (journalGo s).flash = s.flash := rfl
@[simp] theorem journalGo_clock (s : State) : (journalGo s).clock = s.clock := rfl
@[simp] theorem journalGo_pending (s : State) : (journalGo s).pending = s.pending := rfl

/-! ## Updates of the yard -/

@[simp] theorem modCarrier_cells (a : Aisle) (f : Carrier → Carrier) (y : Yard) : (modCarrier a f y).cells = y.cells := rfl
@[simp] theorem modCarrier_verif (a : Aisle) (f : Carrier → Carrier) (y : Yard) : (modCarrier a f y).verif = y.verif := rfl
@[simp] theorem modCarrier_bins (a : Aisle) (f : Carrier → Carrier) (y : Yard) : (modCarrier a f y).bins = y.bins := rfl
@[simp] theorem modCarrier_journal (a : Aisle) (f : Carrier → Carrier) (y : Yard) : (modCarrier a f y).journal = y.journal := rfl
@[simp] theorem modCarrier_est (a : Aisle) (f : Carrier → Carrier) (y : Yard) : (modCarrier a f y).est = y.est := rfl
@[simp] theorem modCarrier_orders (a : Aisle) (f : Carrier → Carrier) (y : Yard) : (modCarrier a f y).orders = y.orders := rfl
@[simp] theorem modCarrier_nextOrder (a : Aisle) (f : Carrier → Carrier) (y : Yard) : (modCarrier a f y).nextOrder = y.nextOrder := rfl
@[simp] theorem modCarrier_carriers (a : Aisle) (f : Carrier → Carrier) (y : Yard) : (modCarrier a f y).carriers = y.carriers.set a (f y.carriers[a]) := rfl
@[simp] theorem modCarrier_arbs (a : Aisle) (f : Carrier → Carrier) (y : Yard) : (modCarrier a f y).arbs = y.arbs := rfl
@[simp] theorem modCarrier_lines (a : Aisle) (f : Carrier → Carrier) (y : Yard) : (modCarrier a f y).lines = y.lines := rfl
@[simp] theorem modCarrier_stations (a : Aisle) (f : Carrier → Carrier) (y : Yard) : (modCarrier a f y).stations = y.stations := rfl
@[simp] theorem modCarrier_trays (a : Aisle) (f : Carrier → Carrier) (y : Yard) : (modCarrier a f y).trays = y.trays := rfl
@[simp] theorem modCarrier_post (a : Aisle) (f : Carrier → Carrier) (y : Yard) : (modCarrier a f y).post = y.post := rfl
@[simp] theorem modCarrier_disc (a : Aisle) (f : Carrier → Carrier) (y : Yard) : (modCarrier a f y).disc = y.disc := rfl
@[simp] theorem modCarrier_bus (a : Aisle) (f : Carrier → Carrier) (y : Yard) : (modCarrier a f y).bus = y.bus := rfl

@[simp] theorem modArb_cells (a : Aisle) (f : Arbiter → Arbiter) (y : Yard) : (modArb a f y).cells = y.cells := rfl
@[simp] theorem modArb_verif (a : Aisle) (f : Arbiter → Arbiter) (y : Yard) : (modArb a f y).verif = y.verif := rfl
@[simp] theorem modArb_bins (a : Aisle) (f : Arbiter → Arbiter) (y : Yard) : (modArb a f y).bins = y.bins := rfl
@[simp] theorem modArb_journal (a : Aisle) (f : Arbiter → Arbiter) (y : Yard) : (modArb a f y).journal = y.journal := rfl
@[simp] theorem modArb_est (a : Aisle) (f : Arbiter → Arbiter) (y : Yard) : (modArb a f y).est = y.est := rfl
@[simp] theorem modArb_orders (a : Aisle) (f : Arbiter → Arbiter) (y : Yard) : (modArb a f y).orders = y.orders := rfl
@[simp] theorem modArb_nextOrder (a : Aisle) (f : Arbiter → Arbiter) (y : Yard) : (modArb a f y).nextOrder = y.nextOrder := rfl
@[simp] theorem modArb_carriers (a : Aisle) (f : Arbiter → Arbiter) (y : Yard) : (modArb a f y).carriers = y.carriers := rfl
@[simp] theorem modArb_arbs (a : Aisle) (f : Arbiter → Arbiter) (y : Yard) : (modArb a f y).arbs = y.arbs.set a (f y.arbs[a]) := rfl
@[simp] theorem modArb_lines (a : Aisle) (f : Arbiter → Arbiter) (y : Yard) : (modArb a f y).lines = y.lines := rfl
@[simp] theorem modArb_stations (a : Aisle) (f : Arbiter → Arbiter) (y : Yard) : (modArb a f y).stations = y.stations := rfl
@[simp] theorem modArb_trays (a : Aisle) (f : Arbiter → Arbiter) (y : Yard) : (modArb a f y).trays = y.trays := rfl
@[simp] theorem modArb_post (a : Aisle) (f : Arbiter → Arbiter) (y : Yard) : (modArb a f y).post = y.post := rfl
@[simp] theorem modArb_disc (a : Aisle) (f : Arbiter → Arbiter) (y : Yard) : (modArb a f y).disc = y.disc := rfl
@[simp] theorem modArb_bus (a : Aisle) (f : Arbiter → Arbiter) (y : Yard) : (modArb a f y).bus = y.bus := rfl

@[simp] theorem modEst_cells (a : Aisle) (f : AisleSpeed → AisleSpeed) (y : Yard) : (modEst a f y).cells = y.cells := rfl
@[simp] theorem modEst_verif (a : Aisle) (f : AisleSpeed → AisleSpeed) (y : Yard) : (modEst a f y).verif = y.verif := rfl
@[simp] theorem modEst_bins (a : Aisle) (f : AisleSpeed → AisleSpeed) (y : Yard) : (modEst a f y).bins = y.bins := rfl
@[simp] theorem modEst_journal (a : Aisle) (f : AisleSpeed → AisleSpeed) (y : Yard) : (modEst a f y).journal = y.journal := rfl
@[simp] theorem modEst_est (a : Aisle) (f : AisleSpeed → AisleSpeed) (y : Yard) : (modEst a f y).est = y.est.set a (f y.est[a]) := rfl
@[simp] theorem modEst_orders (a : Aisle) (f : AisleSpeed → AisleSpeed) (y : Yard) : (modEst a f y).orders = y.orders := rfl
@[simp] theorem modEst_nextOrder (a : Aisle) (f : AisleSpeed → AisleSpeed) (y : Yard) : (modEst a f y).nextOrder = y.nextOrder := rfl
@[simp] theorem modEst_carriers (a : Aisle) (f : AisleSpeed → AisleSpeed) (y : Yard) : (modEst a f y).carriers = y.carriers := rfl
@[simp] theorem modEst_arbs (a : Aisle) (f : AisleSpeed → AisleSpeed) (y : Yard) : (modEst a f y).arbs = y.arbs := rfl
@[simp] theorem modEst_lines (a : Aisle) (f : AisleSpeed → AisleSpeed) (y : Yard) : (modEst a f y).lines = y.lines := rfl
@[simp] theorem modEst_stations (a : Aisle) (f : AisleSpeed → AisleSpeed) (y : Yard) : (modEst a f y).stations = y.stations := rfl
@[simp] theorem modEst_trays (a : Aisle) (f : AisleSpeed → AisleSpeed) (y : Yard) : (modEst a f y).trays = y.trays := rfl
@[simp] theorem modEst_post (a : Aisle) (f : AisleSpeed → AisleSpeed) (y : Yard) : (modEst a f y).post = y.post := rfl
@[simp] theorem modEst_disc (a : Aisle) (f : AisleSpeed → AisleSpeed) (y : Yard) : (modEst a f y).disc = y.disc := rfl
@[simp] theorem modEst_bus (a : Aisle) (f : AisleSpeed → AisleSpeed) (y : Yard) : (modEst a f y).bus = y.bus := rfl

@[simp] theorem modVerif_cells (a : Aisle) (f : Verif → Verif) (y : Yard) : (modVerif a f y).cells = y.cells := rfl
@[simp] theorem modVerif_verif (a : Aisle) (f : Verif → Verif) (y : Yard) : (modVerif a f y).verif = y.verif.set a (f y.verif[a]) := rfl
@[simp] theorem modVerif_bins (a : Aisle) (f : Verif → Verif) (y : Yard) : (modVerif a f y).bins = y.bins := rfl
@[simp] theorem modVerif_journal (a : Aisle) (f : Verif → Verif) (y : Yard) : (modVerif a f y).journal = y.journal := rfl
@[simp] theorem modVerif_est (a : Aisle) (f : Verif → Verif) (y : Yard) : (modVerif a f y).est = y.est := rfl
@[simp] theorem modVerif_orders (a : Aisle) (f : Verif → Verif) (y : Yard) : (modVerif a f y).orders = y.orders := rfl
@[simp] theorem modVerif_nextOrder (a : Aisle) (f : Verif → Verif) (y : Yard) : (modVerif a f y).nextOrder = y.nextOrder := rfl
@[simp] theorem modVerif_carriers (a : Aisle) (f : Verif → Verif) (y : Yard) : (modVerif a f y).carriers = y.carriers := rfl
@[simp] theorem modVerif_arbs (a : Aisle) (f : Verif → Verif) (y : Yard) : (modVerif a f y).arbs = y.arbs := rfl
@[simp] theorem modVerif_lines (a : Aisle) (f : Verif → Verif) (y : Yard) : (modVerif a f y).lines = y.lines := rfl
@[simp] theorem modVerif_stations (a : Aisle) (f : Verif → Verif) (y : Yard) : (modVerif a f y).stations = y.stations := rfl
@[simp] theorem modVerif_trays (a : Aisle) (f : Verif → Verif) (y : Yard) : (modVerif a f y).trays = y.trays := rfl
@[simp] theorem modVerif_post (a : Aisle) (f : Verif → Verif) (y : Yard) : (modVerif a f y).post = y.post := rfl
@[simp] theorem modVerif_disc (a : Aisle) (f : Verif → Verif) (y : Yard) : (modVerif a f y).disc = y.disc := rfl
@[simp] theorem modVerif_bus (a : Aisle) (f : Verif → Verif) (y : Yard) : (modVerif a f y).bus = y.bus := rfl

@[simp] theorem modStation_cells (st : Station) (f : StationRec → StationRec) (y : Yard) : (modStation st f y).cells = y.cells := rfl
@[simp] theorem modStation_verif (st : Station) (f : StationRec → StationRec) (y : Yard) : (modStation st f y).verif = y.verif := rfl
@[simp] theorem modStation_bins (st : Station) (f : StationRec → StationRec) (y : Yard) : (modStation st f y).bins = y.bins := rfl
@[simp] theorem modStation_journal (st : Station) (f : StationRec → StationRec) (y : Yard) : (modStation st f y).journal = y.journal := rfl
@[simp] theorem modStation_est (st : Station) (f : StationRec → StationRec) (y : Yard) : (modStation st f y).est = y.est := rfl
@[simp] theorem modStation_orders (st : Station) (f : StationRec → StationRec) (y : Yard) : (modStation st f y).orders = y.orders := rfl
@[simp] theorem modStation_nextOrder (st : Station) (f : StationRec → StationRec) (y : Yard) : (modStation st f y).nextOrder = y.nextOrder := rfl
@[simp] theorem modStation_carriers (st : Station) (f : StationRec → StationRec) (y : Yard) : (modStation st f y).carriers = y.carriers := rfl
@[simp] theorem modStation_arbs (st : Station) (f : StationRec → StationRec) (y : Yard) : (modStation st f y).arbs = y.arbs := rfl
@[simp] theorem modStation_lines (st : Station) (f : StationRec → StationRec) (y : Yard) : (modStation st f y).lines = y.lines := rfl
@[simp] theorem modStation_stations (st : Station) (f : StationRec → StationRec) (y : Yard) : (modStation st f y).stations = y.stations.set st (f y.stations[st]) := rfl
@[simp] theorem modStation_trays (st : Station) (f : StationRec → StationRec) (y : Yard) : (modStation st f y).trays = y.trays := rfl
@[simp] theorem modStation_post (st : Station) (f : StationRec → StationRec) (y : Yard) : (modStation st f y).post = y.post := rfl
@[simp] theorem modStation_disc (st : Station) (f : StationRec → StationRec) (y : Yard) : (modStation st f y).disc = y.disc := rfl
@[simp] theorem modStation_bus (st : Station) (f : StationRec → StationRec) (y : Yard) : (modStation st f y).bus = y.bus := rfl

@[simp] theorem modTray_cells (st : Station) (f : Tray → Tray) (y : Yard) : (modTray st f y).cells = y.cells := rfl
@[simp] theorem modTray_verif (st : Station) (f : Tray → Tray) (y : Yard) : (modTray st f y).verif = y.verif := rfl
@[simp] theorem modTray_bins (st : Station) (f : Tray → Tray) (y : Yard) : (modTray st f y).bins = y.bins := rfl
@[simp] theorem modTray_journal (st : Station) (f : Tray → Tray) (y : Yard) : (modTray st f y).journal = y.journal := rfl
@[simp] theorem modTray_est (st : Station) (f : Tray → Tray) (y : Yard) : (modTray st f y).est = y.est := rfl
@[simp] theorem modTray_orders (st : Station) (f : Tray → Tray) (y : Yard) : (modTray st f y).orders = y.orders := rfl
@[simp] theorem modTray_nextOrder (st : Station) (f : Tray → Tray) (y : Yard) : (modTray st f y).nextOrder = y.nextOrder := rfl
@[simp] theorem modTray_carriers (st : Station) (f : Tray → Tray) (y : Yard) : (modTray st f y).carriers = y.carriers := rfl
@[simp] theorem modTray_arbs (st : Station) (f : Tray → Tray) (y : Yard) : (modTray st f y).arbs = y.arbs := rfl
@[simp] theorem modTray_lines (st : Station) (f : Tray → Tray) (y : Yard) : (modTray st f y).lines = y.lines := rfl
@[simp] theorem modTray_stations (st : Station) (f : Tray → Tray) (y : Yard) : (modTray st f y).stations = y.stations := rfl
@[simp] theorem modTray_trays (st : Station) (f : Tray → Tray) (y : Yard) : (modTray st f y).trays = y.trays.set st (f y.trays[st]) := rfl
@[simp] theorem modTray_post (st : Station) (f : Tray → Tray) (y : Yard) : (modTray st f y).post = y.post := rfl
@[simp] theorem modTray_disc (st : Station) (f : Tray → Tray) (y : Yard) : (modTray st f y).disc = y.disc := rfl
@[simp] theorem modTray_bus (st : Station) (f : Tray → Tray) (y : Yard) : (modTray st f y).bus = y.bus := rfl

@[simp] theorem modSession_cells (st : Station) (f : Session → Session) (y : Yard) : (modSession st f y).cells = y.cells := rfl
@[simp] theorem modSession_verif (st : Station) (f : Session → Session) (y : Yard) : (modSession st f y).verif = y.verif := rfl
@[simp] theorem modSession_bins (st : Station) (f : Session → Session) (y : Yard) : (modSession st f y).bins = y.bins := rfl
@[simp] theorem modSession_journal (st : Station) (f : Session → Session) (y : Yard) : (modSession st f y).journal = y.journal := rfl
@[simp] theorem modSession_est (st : Station) (f : Session → Session) (y : Yard) : (modSession st f y).est = y.est := rfl
@[simp] theorem modSession_orders (st : Station) (f : Session → Session) (y : Yard) : (modSession st f y).orders = y.orders := rfl
@[simp] theorem modSession_nextOrder (st : Station) (f : Session → Session) (y : Yard) : (modSession st f y).nextOrder = y.nextOrder := rfl
@[simp] theorem modSession_carriers (st : Station) (f : Session → Session) (y : Yard) : (modSession st f y).carriers = y.carriers := rfl
@[simp] theorem modSession_arbs (st : Station) (f : Session → Session) (y : Yard) : (modSession st f y).arbs = y.arbs := rfl
@[simp] theorem modSession_lines (st : Station) (f : Session → Session) (y : Yard) : (modSession st f y).lines = y.lines := rfl
@[simp] theorem modSession_trays (st : Station) (f : Session → Session) (y : Yard) : (modSession st f y).trays = y.trays := rfl
@[simp] theorem modSession_post (st : Station) (f : Session → Session) (y : Yard) : (modSession st f y).post = y.post := rfl
@[simp] theorem modSession_disc (st : Station) (f : Session → Session) (y : Yard) : (modSession st f y).disc = y.disc := rfl
@[simp] theorem modSession_bus (st : Station) (f : Session → Session) (y : Yard) : (modSession st f y).bus = y.bus := rfl

@[simp] theorem modLines_cells (f : Lines → Lines) (y : Yard) : (modLines f y).cells = y.cells := rfl
@[simp] theorem modLines_verif (f : Lines → Lines) (y : Yard) : (modLines f y).verif = y.verif := rfl
@[simp] theorem modLines_bins (f : Lines → Lines) (y : Yard) : (modLines f y).bins = y.bins := rfl
@[simp] theorem modLines_journal (f : Lines → Lines) (y : Yard) : (modLines f y).journal = y.journal := rfl
@[simp] theorem modLines_est (f : Lines → Lines) (y : Yard) : (modLines f y).est = y.est := rfl
@[simp] theorem modLines_orders (f : Lines → Lines) (y : Yard) : (modLines f y).orders = y.orders := rfl
@[simp] theorem modLines_nextOrder (f : Lines → Lines) (y : Yard) : (modLines f y).nextOrder = y.nextOrder := rfl
@[simp] theorem modLines_carriers (f : Lines → Lines) (y : Yard) : (modLines f y).carriers = y.carriers := rfl
@[simp] theorem modLines_arbs (f : Lines → Lines) (y : Yard) : (modLines f y).arbs = y.arbs := rfl
@[simp] theorem modLines_lines (f : Lines → Lines) (y : Yard) : (modLines f y).lines = f y.lines := rfl
@[simp] theorem modLines_stations (f : Lines → Lines) (y : Yard) : (modLines f y).stations = y.stations := rfl
@[simp] theorem modLines_trays (f : Lines → Lines) (y : Yard) : (modLines f y).trays = y.trays := rfl
@[simp] theorem modLines_post (f : Lines → Lines) (y : Yard) : (modLines f y).post = y.post := rfl
@[simp] theorem modLines_disc (f : Lines → Lines) (y : Yard) : (modLines f y).disc = y.disc := rfl
@[simp] theorem modLines_bus (f : Lines → Lines) (y : Yard) : (modLines f y).bus = y.bus := rfl

@[simp] theorem modLine_cells (l : LineId) (f : LineRec → LineRec) (y : Yard) : (modLine l f y).cells = y.cells := by cases l <;> rfl
@[simp] theorem modLine_verif (l : LineId) (f : LineRec → LineRec) (y : Yard) : (modLine l f y).verif = y.verif := by cases l <;> rfl
@[simp] theorem modLine_bins (l : LineId) (f : LineRec → LineRec) (y : Yard) : (modLine l f y).bins = y.bins := by cases l <;> rfl
@[simp] theorem modLine_journal (l : LineId) (f : LineRec → LineRec) (y : Yard) : (modLine l f y).journal = y.journal := by cases l <;> rfl
@[simp] theorem modLine_est (l : LineId) (f : LineRec → LineRec) (y : Yard) : (modLine l f y).est = y.est := by cases l <;> rfl
@[simp] theorem modLine_orders (l : LineId) (f : LineRec → LineRec) (y : Yard) : (modLine l f y).orders = y.orders := by cases l <;> rfl
@[simp] theorem modLine_nextOrder (l : LineId) (f : LineRec → LineRec) (y : Yard) : (modLine l f y).nextOrder = y.nextOrder := by cases l <;> rfl
@[simp] theorem modLine_carriers (l : LineId) (f : LineRec → LineRec) (y : Yard) : (modLine l f y).carriers = y.carriers := by cases l <;> rfl
@[simp] theorem modLine_arbs (l : LineId) (f : LineRec → LineRec) (y : Yard) : (modLine l f y).arbs = y.arbs := by cases l <;> rfl
@[simp] theorem modLine_stations (l : LineId) (f : LineRec → LineRec) (y : Yard) : (modLine l f y).stations = y.stations := by cases l <;> rfl
@[simp] theorem modLine_trays (l : LineId) (f : LineRec → LineRec) (y : Yard) : (modLine l f y).trays = y.trays := by cases l <;> rfl
@[simp] theorem modLine_post (l : LineId) (f : LineRec → LineRec) (y : Yard) : (modLine l f y).post = y.post := by cases l <;> rfl
@[simp] theorem modLine_disc (l : LineId) (f : LineRec → LineRec) (y : Yard) : (modLine l f y).disc = y.disc := by cases l <;> rfl
@[simp] theorem modLine_bus (l : LineId) (f : LineRec → LineRec) (y : Yard) : (modLine l f y).bus = y.bus := by cases l <;> rfl

@[simp] theorem modJournal_cells (f : Journal → Journal) (y : Yard) : (modJournal f y).cells = y.cells := rfl
@[simp] theorem modJournal_verif (f : Journal → Journal) (y : Yard) : (modJournal f y).verif = y.verif := rfl
@[simp] theorem modJournal_bins (f : Journal → Journal) (y : Yard) : (modJournal f y).bins = y.bins := rfl
@[simp] theorem modJournal_journal (f : Journal → Journal) (y : Yard) : (modJournal f y).journal = f y.journal := rfl
@[simp] theorem modJournal_est (f : Journal → Journal) (y : Yard) : (modJournal f y).est = y.est := rfl
@[simp] theorem modJournal_orders (f : Journal → Journal) (y : Yard) : (modJournal f y).orders = y.orders := rfl
@[simp] theorem modJournal_nextOrder (f : Journal → Journal) (y : Yard) : (modJournal f y).nextOrder = y.nextOrder := rfl
@[simp] theorem modJournal_carriers (f : Journal → Journal) (y : Yard) : (modJournal f y).carriers = y.carriers := rfl
@[simp] theorem modJournal_arbs (f : Journal → Journal) (y : Yard) : (modJournal f y).arbs = y.arbs := rfl
@[simp] theorem modJournal_lines (f : Journal → Journal) (y : Yard) : (modJournal f y).lines = y.lines := rfl
@[simp] theorem modJournal_stations (f : Journal → Journal) (y : Yard) : (modJournal f y).stations = y.stations := rfl
@[simp] theorem modJournal_trays (f : Journal → Journal) (y : Yard) : (modJournal f y).trays = y.trays := rfl
@[simp] theorem modJournal_post (f : Journal → Journal) (y : Yard) : (modJournal f y).post = y.post := rfl
@[simp] theorem modJournal_disc (f : Journal → Journal) (y : Yard) : (modJournal f y).disc = y.disc := rfl
@[simp] theorem modJournal_bus (f : Journal → Journal) (y : Yard) : (modJournal f y).bus = y.bus := rfl

@[simp] theorem modOrder_cells (no : Nat) (f : Order → Order) (y : Yard) : (modOrder no f y).cells = y.cells := rfl
@[simp] theorem modOrder_verif (no : Nat) (f : Order → Order) (y : Yard) : (modOrder no f y).verif = y.verif := rfl
@[simp] theorem modOrder_bins (no : Nat) (f : Order → Order) (y : Yard) : (modOrder no f y).bins = y.bins := rfl
@[simp] theorem modOrder_journal (no : Nat) (f : Order → Order) (y : Yard) : (modOrder no f y).journal = y.journal := rfl
@[simp] theorem modOrder_est (no : Nat) (f : Order → Order) (y : Yard) : (modOrder no f y).est = y.est := rfl
@[simp] theorem modOrder_orders (no : Nat) (f : Order → Order) (y : Yard) : (modOrder no f y).orders = y.orders.map fun o => if o.no = no then f o else o := rfl
@[simp] theorem modOrder_nextOrder (no : Nat) (f : Order → Order) (y : Yard) : (modOrder no f y).nextOrder = y.nextOrder := rfl
@[simp] theorem modOrder_carriers (no : Nat) (f : Order → Order) (y : Yard) : (modOrder no f y).carriers = y.carriers := rfl
@[simp] theorem modOrder_arbs (no : Nat) (f : Order → Order) (y : Yard) : (modOrder no f y).arbs = y.arbs := rfl
@[simp] theorem modOrder_lines (no : Nat) (f : Order → Order) (y : Yard) : (modOrder no f y).lines = y.lines := rfl
@[simp] theorem modOrder_stations (no : Nat) (f : Order → Order) (y : Yard) : (modOrder no f y).stations = y.stations := rfl
@[simp] theorem modOrder_trays (no : Nat) (f : Order → Order) (y : Yard) : (modOrder no f y).trays = y.trays := rfl
@[simp] theorem modOrder_post (no : Nat) (f : Order → Order) (y : Yard) : (modOrder no f y).post = y.post := rfl
@[simp] theorem modOrder_disc (no : Nat) (f : Order → Order) (y : Yard) : (modOrder no f y).disc = y.disc := rfl
@[simp] theorem modOrder_bus (no : Nat) (f : Order → Order) (y : Yard) : (modOrder no f y).bus = y.bus := rfl

@[simp] theorem send_cells (m : BusMsg) (y : Yard) : (send m y).cells = y.cells := rfl
@[simp] theorem send_verif (m : BusMsg) (y : Yard) : (send m y).verif = y.verif := rfl
@[simp] theorem send_bins (m : BusMsg) (y : Yard) : (send m y).bins = y.bins := rfl
@[simp] theorem send_journal (m : BusMsg) (y : Yard) : (send m y).journal = y.journal := rfl
@[simp] theorem send_est (m : BusMsg) (y : Yard) : (send m y).est = y.est := rfl
@[simp] theorem send_orders (m : BusMsg) (y : Yard) : (send m y).orders = y.orders := rfl
@[simp] theorem send_nextOrder (m : BusMsg) (y : Yard) : (send m y).nextOrder = y.nextOrder := rfl
@[simp] theorem send_carriers (m : BusMsg) (y : Yard) : (send m y).carriers = y.carriers := rfl
@[simp] theorem send_arbs (m : BusMsg) (y : Yard) : (send m y).arbs = y.arbs := rfl
@[simp] theorem send_lines (m : BusMsg) (y : Yard) : (send m y).lines = y.lines := rfl
@[simp] theorem send_stations (m : BusMsg) (y : Yard) : (send m y).stations = y.stations := rfl
@[simp] theorem send_trays (m : BusMsg) (y : Yard) : (send m y).trays = y.trays := rfl
@[simp] theorem send_post (m : BusMsg) (y : Yard) : (send m y).post = y.post := rfl
@[simp] theorem send_disc (m : BusMsg) (y : Yard) : (send m y).disc = y.disc := rfl
@[simp] theorem send_bus (m : BusMsg) (y : Yard) : (send m y).bus = y.bus ++ [m] := rfl

@[simp] theorem notify_cells (e : Env) (k : NoticeKind) (items : List Fld) (y : Yard) : (notify e k items y).cells = y.cells := rfl
@[simp] theorem notify_verif (e : Env) (k : NoticeKind) (items : List Fld) (y : Yard) : (notify e k items y).verif = y.verif := rfl
@[simp] theorem notify_bins (e : Env) (k : NoticeKind) (items : List Fld) (y : Yard) : (notify e k items y).bins = y.bins := rfl
@[simp] theorem notify_journal (e : Env) (k : NoticeKind) (items : List Fld) (y : Yard) : (notify e k items y).journal = y.journal := rfl
@[simp] theorem notify_est (e : Env) (k : NoticeKind) (items : List Fld) (y : Yard) : (notify e k items y).est = y.est := rfl
@[simp] theorem notify_orders (e : Env) (k : NoticeKind) (items : List Fld) (y : Yard) : (notify e k items y).orders = y.orders := rfl
@[simp] theorem notify_nextOrder (e : Env) (k : NoticeKind) (items : List Fld) (y : Yard) : (notify e k items y).nextOrder = y.nextOrder := rfl
@[simp] theorem notify_carriers (e : Env) (k : NoticeKind) (items : List Fld) (y : Yard) : (notify e k items y).carriers = y.carriers := rfl
@[simp] theorem notify_arbs (e : Env) (k : NoticeKind) (items : List Fld) (y : Yard) : (notify e k items y).arbs = y.arbs := rfl
@[simp] theorem notify_lines (e : Env) (k : NoticeKind) (items : List Fld) (y : Yard) : (notify e k items y).lines = y.lines := rfl
@[simp] theorem notify_stations (e : Env) (k : NoticeKind) (items : List Fld) (y : Yard) : (notify e k items y).stations = y.stations := rfl
@[simp] theorem notify_trays (e : Env) (k : NoticeKind) (items : List Fld) (y : Yard) : (notify e k items y).trays = y.trays := rfl
@[simp] theorem notify_disc (e : Env) (k : NoticeKind) (items : List Fld) (y : Yard) : (notify e k items y).disc = y.disc := rfl
@[simp] theorem notify_bus (e : Env) (k : NoticeKind) (items : List Fld) (y : Yard) : (notify e k items y).bus = y.bus := rfl

@[simp] theorem putCell_verif (a : CellAddr) (c : Cell) (y : Yard) : (putCell a c y).verif = y.verif := rfl
@[simp] theorem putCell_bins (a : CellAddr) (c : Cell) (y : Yard) : (putCell a c y).bins = y.bins := rfl
@[simp] theorem putCell_journal (a : CellAddr) (c : Cell) (y : Yard) : (putCell a c y).journal = y.journal := rfl
@[simp] theorem putCell_est (a : CellAddr) (c : Cell) (y : Yard) : (putCell a c y).est = y.est := rfl
@[simp] theorem putCell_orders (a : CellAddr) (c : Cell) (y : Yard) : (putCell a c y).orders = y.orders := rfl
@[simp] theorem putCell_nextOrder (a : CellAddr) (c : Cell) (y : Yard) : (putCell a c y).nextOrder = y.nextOrder := rfl
@[simp] theorem putCell_carriers (a : CellAddr) (c : Cell) (y : Yard) : (putCell a c y).carriers = y.carriers := rfl
@[simp] theorem putCell_arbs (a : CellAddr) (c : Cell) (y : Yard) : (putCell a c y).arbs = y.arbs := rfl
@[simp] theorem putCell_lines (a : CellAddr) (c : Cell) (y : Yard) : (putCell a c y).lines = y.lines := rfl
@[simp] theorem putCell_stations (a : CellAddr) (c : Cell) (y : Yard) : (putCell a c y).stations = y.stations := rfl
@[simp] theorem putCell_trays (a : CellAddr) (c : Cell) (y : Yard) : (putCell a c y).trays = y.trays := rfl
@[simp] theorem putCell_post (a : CellAddr) (c : Cell) (y : Yard) : (putCell a c y).post = y.post := rfl
@[simp] theorem putCell_disc (a : CellAddr) (c : Cell) (y : Yard) : (putCell a c y).disc = y.disc := rfl
@[simp] theorem putCell_bus (a : CellAddr) (c : Cell) (y : Yard) : (putCell a c y).bus = y.bus := rfl

@[simp] theorem putBin_cells (b : Nat) (r : Bin) (y : Yard) : (putBin b r y).cells = y.cells := rfl
@[simp] theorem putBin_verif (b : Nat) (r : Bin) (y : Yard) : (putBin b r y).verif = y.verif := rfl
@[simp] theorem putBin_bins (b : Nat) (r : Bin) (y : Yard) : (putBin b r y).bins = kput y.bins b r := rfl
@[simp] theorem putBin_journal (b : Nat) (r : Bin) (y : Yard) : (putBin b r y).journal = y.journal := rfl
@[simp] theorem putBin_est (b : Nat) (r : Bin) (y : Yard) : (putBin b r y).est = y.est := rfl
@[simp] theorem putBin_orders (b : Nat) (r : Bin) (y : Yard) : (putBin b r y).orders = y.orders := rfl
@[simp] theorem putBin_nextOrder (b : Nat) (r : Bin) (y : Yard) : (putBin b r y).nextOrder = y.nextOrder := rfl
@[simp] theorem putBin_carriers (b : Nat) (r : Bin) (y : Yard) : (putBin b r y).carriers = y.carriers := rfl
@[simp] theorem putBin_arbs (b : Nat) (r : Bin) (y : Yard) : (putBin b r y).arbs = y.arbs := rfl
@[simp] theorem putBin_lines (b : Nat) (r : Bin) (y : Yard) : (putBin b r y).lines = y.lines := rfl
@[simp] theorem putBin_stations (b : Nat) (r : Bin) (y : Yard) : (putBin b r y).stations = y.stations := rfl
@[simp] theorem putBin_trays (b : Nat) (r : Bin) (y : Yard) : (putBin b r y).trays = y.trays := rfl
@[simp] theorem putBin_post (b : Nat) (r : Bin) (y : Yard) : (putBin b r y).post = y.post := rfl
@[simp] theorem putBin_disc (b : Nat) (r : Bin) (y : Yard) : (putBin b r y).disc = y.disc := rfl
@[simp] theorem putBin_bus (b : Nat) (r : Bin) (y : Yard) : (putBin b r y).bus = y.bus := rfl

@[simp] theorem ctlRequest_cells (w : CtlWrite) (y : Yard) : (ctlRequest w y).cells = y.cells := rfl
@[simp] theorem ctlRequest_verif (w : CtlWrite) (y : Yard) : (ctlRequest w y).verif = y.verif := rfl
@[simp] theorem ctlRequest_bins (w : CtlWrite) (y : Yard) : (ctlRequest w y).bins = y.bins := rfl
@[simp] theorem ctlRequest_est (w : CtlWrite) (y : Yard) : (ctlRequest w y).est = y.est := rfl
@[simp] theorem ctlRequest_orders (w : CtlWrite) (y : Yard) : (ctlRequest w y).orders = y.orders := rfl
@[simp] theorem ctlRequest_nextOrder (w : CtlWrite) (y : Yard) : (ctlRequest w y).nextOrder = y.nextOrder := rfl
@[simp] theorem ctlRequest_carriers (w : CtlWrite) (y : Yard) : (ctlRequest w y).carriers = y.carriers := rfl
@[simp] theorem ctlRequest_arbs (w : CtlWrite) (y : Yard) : (ctlRequest w y).arbs = y.arbs := rfl
@[simp] theorem ctlRequest_lines (w : CtlWrite) (y : Yard) : (ctlRequest w y).lines = y.lines := rfl
@[simp] theorem ctlRequest_stations (w : CtlWrite) (y : Yard) : (ctlRequest w y).stations = y.stations := rfl
@[simp] theorem ctlRequest_trays (w : CtlWrite) (y : Yard) : (ctlRequest w y).trays = y.trays := rfl
@[simp] theorem ctlRequest_post (w : CtlWrite) (y : Yard) : (ctlRequest w y).post = y.post := rfl
@[simp] theorem ctlRequest_disc (w : CtlWrite) (y : Yard) : (ctlRequest w y).disc = y.disc := rfl
@[simp] theorem ctlRequest_bus (w : CtlWrite) (y : Yard) : (ctlRequest w y).bus = y.bus := rfl

@[simp] theorem beginSealing_cells (y : Yard) : (beginSealing y).cells = y.cells := rfl
@[simp] theorem beginSealing_verif (y : Yard) : (beginSealing y).verif = y.verif := rfl
@[simp] theorem beginSealing_bins (y : Yard) : (beginSealing y).bins = y.bins := rfl
@[simp] theorem beginSealing_est (y : Yard) : (beginSealing y).est = y.est := rfl
@[simp] theorem beginSealing_orders (y : Yard) : (beginSealing y).orders = y.orders := rfl
@[simp] theorem beginSealing_nextOrder (y : Yard) : (beginSealing y).nextOrder = y.nextOrder := rfl
@[simp] theorem beginSealing_carriers (y : Yard) : (beginSealing y).carriers = y.carriers := rfl
@[simp] theorem beginSealing_arbs (y : Yard) : (beginSealing y).arbs = y.arbs := rfl
@[simp] theorem beginSealing_lines (y : Yard) : (beginSealing y).lines = y.lines := rfl
@[simp] theorem beginSealing_stations (y : Yard) : (beginSealing y).stations = y.stations := rfl
@[simp] theorem beginSealing_trays (y : Yard) : (beginSealing y).trays = y.trays := rfl
@[simp] theorem beginSealing_post (y : Yard) : (beginSealing y).post = y.post := rfl
@[simp] theorem beginSealing_disc (y : Yard) : (beginSealing y).disc = y.disc := rfl
@[simp] theorem beginSealing_bus (y : Yard) : (beginSealing y).bus = y.bus := rfl

@[simp] theorem openJournal_cells (y : Yard) : (openJournal y).cells = y.cells := rfl
@[simp] theorem openJournal_verif (y : Yard) : (openJournal y).verif = y.verif := rfl
@[simp] theorem openJournal_bins (y : Yard) : (openJournal y).bins = y.bins := rfl
@[simp] theorem openJournal_est (y : Yard) : (openJournal y).est = y.est := rfl
@[simp] theorem openJournal_orders (y : Yard) : (openJournal y).orders = y.orders := rfl
@[simp] theorem openJournal_nextOrder (y : Yard) : (openJournal y).nextOrder = y.nextOrder := rfl
@[simp] theorem openJournal_carriers (y : Yard) : (openJournal y).carriers = y.carriers := rfl
@[simp] theorem openJournal_arbs (y : Yard) : (openJournal y).arbs = y.arbs := rfl
@[simp] theorem openJournal_lines (y : Yard) : (openJournal y).lines = y.lines := rfl
@[simp] theorem openJournal_stations (y : Yard) : (openJournal y).stations = y.stations := rfl
@[simp] theorem openJournal_trays (y : Yard) : (openJournal y).trays = y.trays := rfl
@[simp] theorem openJournal_post (y : Yard) : (openJournal y).post = y.post := rfl
@[simp] theorem openJournal_disc (y : Yard) : (openJournal y).disc = y.disc := rfl
@[simp] theorem openJournal_bus (y : Yard) : (openJournal y).bus = y.bus := rfl

end Sys2Proof.Machine
end

