-- ==== Sys2Proof/Laws/Keep.lean ====
section
/-! SUPPORT. What the operations of the wing and everything that follows a command leave as they were: the
settings, flash, the wing clock and the commands that wait. One lemma for each shared operation. -/

namespace Sys2Proof.Machine

open Sys2Proof

/-- The settings, flash, the wing clock and the commands that wait are as they were. -/
structure Keeps (s u : State) : Prop where
  cfg : u.cfg = s.cfg
  flash : u.flash = s.flash
  clock : u.clock = s.clock
  pending : u.pending = s.pending

theorem Keeps.refl (s : State) : Keeps s s := ⟨rfl, rfl, rfl, rfl⟩

theorem Keeps.trans {s t u : State} (h : Keeps s t) (g : Keeps t u) : Keeps s u :=
  ⟨g.cfg.trans h.cfg, g.flash.trans h.flash, g.clock.trans h.clock, g.pending.trans h.pending⟩

/-- A fold of steps that keep the four keeps them. -/
theorem Keeps.foldl {α : Type} (f : State → α → State) (hf : ∀ s x, Keeps s (f s x)) (l : List α) (s : State) :
    Keeps s (l.foldl f s) := by
  induction l generalizing s with
  | nil => exact .refl s
  | cons x t ih => exact (hf s x).trans (ih (f s x))

theorem keeps_onYard (f : Env → Yard → Yard) (s : State) : Keeps s (onYard f s) := ⟨rfl, rfl, rfl, rfl⟩
theorem keeps_yard (y : Yard) (s : State) : Keeps s { s with yard := y } := ⟨rfl, rfl, rfl, rfl⟩
theorem keeps_link (k : Link) (s : State) : Keeps s { s with link := k } := ⟨rfl, rfl, rfl, rfl⟩
theorem keeps_modWing (f : Wing → Wing) (s : State) : Keeps s (modWing f s) := ⟨rfl, rfl, rfl, rfl⟩
theorem keeps_modSweep (f : Sweep → Sweep) (s : State) : Keeps s (modSweep f s) := ⟨rfl, rfl, rfl, rfl⟩
theorem keeps_answer (id : Nat) (c : ReplyCode) (l : List Fld) (s : State) : Keeps s (answer id c l s) :=
  ⟨rfl, rfl, rfl, rfl⟩
theorem keeps_notifyS (k : NoticeKind) (l : List Fld) (s : State) : Keeps s (notifyS k l s) := ⟨rfl, rfl, rfl, rfl⟩
theorem keeps_clearBus (s : State) : Keeps s (clearBus s) := ⟨rfl, rfl, rfl, rfl⟩

theorem keeps_answers (c : ReplyCode) (l : List Fld) (ids : List Nat) (s : State) :
    Keeps s (ids.foldl (fun s id => answer id c l s) s) := Keeps.foldl _ (fun s id => keeps_answer id c l s) ids s

theorem keeps_setWing (st : WingSt) (s : State) : Keeps s (setWing st s) := by
  unfold setWing
  extract_lets before ids withdrawn t
  have h : Keeps s t := ⟨rfl, rfl, rfl, rfl⟩
  split
  · exact h.trans (keeps_answers _ _ _ _)
  · exact h

theorem keeps_incident (s : State) (l : List Fld) (f : Incident → Incident) :
    Keeps s (incidentUpdate l (modIncident f s)) := ⟨rfl, rfl, rfl, rfl⟩

theorem keeps_closeIncident (s : State) : Keeps s (closeIncident s) := by
  unfold closeIncident
  split
  · exact .refl s
  · split
    · exact keeps_incident s _ _
    · exact .refl s

theorem keeps_obstruct (s : State) : Keeps s (obstruct s) := by
  unfold obstruct
  split
  · exact .refl s
  · exact keeps_incident s _ _

theorem keeps_openIncident (src : Source) (l : Level) (s : State) : Keeps s (openIncident src l s) := ⟨rfl, rfl, rfl, rfl⟩

theorem keeps_recordTrigger (src : Source) (l : Level) (s : State) : Keeps s (recordTrigger src l s) := by
  unfold recordTrigger
  split
  · exact .refl s
  · split
    · dsimp only
      split
      · exact keeps_incident s _ _
      · exact keeps_incident s _ _
    · exact .refl s

theorem keeps_enterNormal (s : State) : Keeps s (enterNormal s) := by
  unfold enterNormal
  exact ((keeps_modWing _ s).trans (keeps_setWing _ _)).trans ((keeps_onYard _ _).trans
    ((keeps_onYard _ _).trans (keeps_onYard _ _)))

theorem keeps_returnNormal (s : State) : Keeps s (returnNormal s) := (keeps_closeIncident s).trans (keeps_enterNormal _)

theorem keeps_followClearing (s : State) : Keeps s (followClearing s) := by
  unfold followClearing
  split
  · split
    · exact .refl s
    · exact keeps_setWing _ s
  · split
    · split
      · exact keeps_returnNormal s
      · exact keeps_setWing _ s
    · exact .refl s
  · exact .refl s

theorem keeps_ite (c : Prop) [Decidable c] {s t u : State} (h : Keeps s t) (g : Keeps s u) :
    Keeps s (if c then t else u) := by split; exact h; exact g

theorem keeps_eachStation (f : Env → Station → Yard → Yard) (s : State) : Keeps s (eachStation f s) := keeps_onYard _ s

theorem keeps_enterHold (s : State) : Keeps s (enterHold s) := by
  unfold enterHold
  extract_lets a b c d e f g
  have hb : Keeps s b := ((keeps_modWing _ s).trans (keeps_setWing _ _)).trans (keeps_onYard _ a)
  have he : Keeps s e := keeps_ite _ (hb.trans (keeps_obstruct _)) hb
  have hf : Keeps s f := keeps_ite _ he (he.trans (keeps_modWing _ _))
  exact (hf.trans ((keeps_modWing _ _).trans (keeps_followClearing _))).trans (keeps_onYard _ _)

theorem keeps_enterParking (s : State) : Keeps s (enterParking s) := by
  unfold enterParking
  exact ((keeps_modWing _ s).trans (keeps_setWing _ _)).trans
    ((keeps_eachStation _ _).trans ((keeps_onYard _ _).trans (keeps_onYard _ _)))

theorem keeps_completeIncident (y : Yard) (s : State) : Keeps s (completeIncident y s) := keeps_incident s _ _

/-- The summary write asked for when an incident is held (R191). -/
theorem keeps_summary (s : State) : Keeps s (match s.wing.incident with
    | some r => { s with yard := ctlRequest (.summary ⟨r.number, r.cause, r.highest⟩) s.yard }
    | none => s) := by
  split
  · exact keeps_yard _ s
  · exact .refl s

theorem keeps_enterSealing (halt : Bool) (s : State) : Keeps s (enterSealing halt s) := by
  unfold enterSealing
  extract_lets before a' a b c d e f g
  have ha : Keeps s a := ((keeps_modWing _ s).trans (keeps_setWing _ _)).trans (keeps_eachStation _ a')
  have hb : Keeps s b := keeps_ite _ (ha.trans (keeps_onYard _ _)) ha
  have he : Keeps s e := hb.trans (((keeps_onYard _ b).trans (keeps_onYard _ c)).trans (keeps_yard _ d))
  exact (he.trans (keeps_summary e)).trans ((keeps_completeIncident _ f).trans (keeps_yard _ g))

theorem keeps_enterSealed (r : FlushResult) (s : State) : Keeps s (enterSealed r s) := by
  unfold enterSealed
  exact (keeps_incident s _ _).trans (keeps_setWing _ _)

theorem keeps_dropUnreported (s : State) : Keeps s (dropUnreported s) := keeps_onYard _ s

theorem keeps_parkingSync (s : State) : Keeps s (parkingSync s) := by
  unfold parkingSync
  split
  · exact keeps_enterSealing _ s
  · exact .refl s

theorem keeps_syncClearing (s : State) (p : Aisle × ClearCond) : Keeps s (syncClearing s p) := by
  unfold syncClearing
  dsimp only
  split
  · exact .refl s
  · split
    · exact (keeps_modWing _ s).trans (keeps_obstruct _)
    · exact keeps_modWing _ s
  · exact (keeps_modWing _ s).trans (keeps_onYard _ _)

theorem keeps_clearingSync (s : State) : Keeps s (clearingSync s) := by
  unfold clearingSync
  split
  · exact (Keeps.foldl _ keeps_syncClearing _ s).trans (keeps_followClearing _)
  · exact (Keeps.foldl _ keeps_syncClearing _ s).trans (keeps_followClearing _)
  · exact .refl s

theorem keeps_journalGo (s : State) : Keeps s (journalGo s) := ⟨rfl, rfl, rfl, rfl⟩
theorem keeps_outputsSync (s : State) : Keeps s (outputsSync s) := ⟨rfl, rfl, rfl, rfl⟩

/-- The transmitter changes the link and whether a notice is being sent. -/
theorem keeps_transmit (s : State) : Keeps s (transmit s) := by
  unfold transmit
  split
  · exact .refl s
  · split
    · exact keeps_link _ s
    · split
      · exact keeps_link _ s
      · split
        · exact ⟨rfl, rfl, rfl, rfl⟩
        · exact .refl s

/-- Nothing that follows a command changes a setting, flash, the clock or the commands that wait. -/
theorem keeps_finish (s : State) : Keeps s (finish s) := by
  unfold finish
  refine Keeps.trans (Keeps.trans (keeps_clearingSync s) (keeps_parkingSync _)) ?_
  exact (keeps_onYard _ _).trans ((keeps_journalGo _).trans ((keeps_outputsSync _).trans (keeps_transmit _)))

theorem keeps_holdTimerSync (a b : Bool) (s : State) : Keeps s (holdTimerSync a b s) := by
  unfold holdTimerSync
  split
  · exact keeps_modWing _ s
  · split
    · exact keeps_modWing _ s
    · exact .refl s

theorem keeps_riseNormal (l : Level) (s : State) : Keeps s (riseNormal l s) := by
  cases l
  · exact .refl s
  · exact keeps_enterHold s
  · exact keeps_enterParking s
  · exact keeps_enterSealing _ s

theorem keeps_riseRestarting (l : Level) (s : State) : Keeps s (riseRestarting l s) := by
  refine Keeps.trans (keeps_dropUnreported s) ?_
  cases l
  · exact .refl _
  · exact keeps_enterHold _
  · exact keeps_enterSealing _ _
  · exact keeps_enterSealing _ _

theorem keeps_arrivalActs (src : Source) (rise : Option Level) (o n : Level) (was now : Bool) (s : State) :
    Keeps s (arrivalActs src rise o n was now s) := by
  have ht : Keeps s (match rise with | some l => recordTrigger src l s | none => s) := by
    split
    · exact keeps_recordTrigger _ _ s
    · exact .refl s
  unfold arrivalActs
  dsimp only
  split
  · split
    · exact (keeps_openIncident _ _ s).trans (keeps_enterSealing _ _)
    · split
      · exact keeps_notifyS _ _ s
      · exact .refl s
  · split
    · exact (keeps_openIncident _ _ s).trans (keeps_riseNormal _ _)
    · exact .refl s
  · split
    · exact ht.trans (keeps_enterParking _)
    · split
      · exact ht.trans (keeps_enterSealing _ _)
      · exact ht.trans (keeps_holdTimerSync _ _ _)
  · split
    · exact ht.trans (keeps_enterParking _)
    · split
      · exact ht.trans (keeps_enterSealing _ _)
      · exact ht.trans (keeps_holdTimerSync _ _ _)
  · split
    · exact ht.trans (keeps_enterSealing _ _)
    · exact ht
  · exact ht
  · exact ht
  · split
    · exact (keeps_openIncident _ _ s).trans (keeps_riseRestarting _ _)
    · exact .refl s

/-- An arrival at the wing controller. -/
theorem keeps_arrival (src : Source) (rise : Option Level) (s : State) : Keeps s (arrival src rise s) :=
  (keeps_modWing _ s).trans (keeps_arrivalActs _ _ _ _ _ _ _)

theorem keeps_panelArrives (i : PanelInput) (high : Bool) (s : State) : Keeps s (panelArrives i high s) := by
  unfold panelArrives
  split
  · exact .refl s
  · exact (keeps_modWing _ s).trans (keeps_arrival _ _ _)

end Sys2Proof.Machine
end

