-- ==== Sys2Proof/Laws/Link.lean ====
section
/-! SUPPORT. The host link's operations: what the taking of a request does, and what a reply made ready
changes. -/

namespace Sys2Proof.Machine

open Sys2Proof

/-! ## Replies -/

/-- A reply made ready changes the inbox and nothing else. -/
theorem answer_frame (id : Nat) (c : ReplyCode) (l : List Fld) (s : State) :
    answer id c l s = { s with link := { s.link with inbox := (answer id c l s).link.inbox } } := rfl

/-- A waiting request of the number named has its reply ready. -/
theorem answer_mem (id : Nat) (c : ReplyCode) (l : List Fld) (s : State) (q : InboxEntry) (hq : q ∈ s.link.inbox)
    (hid : q.id = id) (hr : q.reply = none) :
    { q with reply := some ⟨q.kind + 0x40, q.tag, c, l⟩ } ∈ (answer id c l s).link.inbox :=
  List.mem_map.mpr ⟨q, hq, by simp [hid, hr, mkReply]⟩

/-- A request that is not waiting, or has another number, stays as it is. -/
theorem answer_mem_other (id : Nat) (c : ReplyCode) (l : List Fld) (s : State) (q : InboxEntry) (hq : q ∈ s.link.inbox)
    (h : q.id ≠ id ∨ q.reply ≠ none) : q ∈ (answer id c l s).link.inbox :=
  List.mem_map.mpr ⟨q, hq, by rcases h with h | h <;> simp [h]⟩

@[simp] theorem answer_inbox_length (id : Nat) (c : ReplyCode) (l : List Fld) (s : State) :
    (answer id c l s).link.inbox.length = s.link.inbox.length := by simp [answer]

/-- The reply of a request just taken, whose number no other request has. -/
theorem answer_entered (kind : Nat) (h : ReqHdr) (c : ReplyCode) (l : List Fld) (k : Link) (t : State)
    (hids : ∀ q ∈ k.inbox, q.id < k.nextId) (ht : t.link = waitingLink kind h k) :
    answer k.nextId c l t = { t with link := answeredLink kind h c l k } := by
  have hold : k.inbox.map (fun r => if r.id = k.nextId ∧ r.reply = none then
      { r with reply := some (mkReply r.kind r.tag c l) } else r) = k.inbox := by
    conv => rhs; rw [← List.map_id k.inbox]
    refine List.map_congr_left fun q hq => ?_
    have := hids q hq
    simp [show q.id ≠ k.nextId by omega]
  simp only [answer, ht, waitingLink, List.map_append, hold]
  simp [answeredLink, mkReply]

/-! ## The taking of a request (R204) -/

/-- A frame that arrives while a Restart waits to begin. -/
theorem takeFrame_restart (kind : Nat) (h : ReqHdr) (act : Nat → State → State × Option (ReplyCode × List Fld))
    (s : State) (hr : s.link.restart ≠ .none) :
    takeFrame kind h act s = { s with link := overrunPut (mkReply kind h.tag .busy []) s.link } := by
  simp [takeFrame, hr]

/-- A frame that arrives while the inbox is full. -/
theorem takeFrame_full (kind : Nat) (h : ReqHdr) (act : Nat → State → State × Option (ReplyCode × List Fld))
    (s : State) (hr : s.link.restart = .none) (hi : 4 ≤ s.link.inbox.length) :
    takeFrame kind h act s = { s with link := overrunPut (mkReply kind h.tag .overrun []) s.link } := by
  simp [takeFrame, hr, hi]

/-- A frame with tag 0 or a malformed body is refused FORM. -/
theorem takeFrame_malformed (kind : Nat) (h : ReqHdr) (act : Nat → State → State × Option (ReplyCode × List Fld))
    (s : State) (hl : LinkSafe s) (hr : s.link.restart = .none) (hi : s.link.inbox.length < 4)
    (hb : h.tag = 0 ∨ h.bodyOk = false) :
    takeFrame kind h act s = { s with link := answeredLink kind h .form [] s.link } := by
  have : takeFrame kind h act s = answer s.link.nextId .form [] { s with link := waitingLink kind h s.link } := by
    simp [takeFrame, hr, waitingLink, hb, Nat.not_le.mpr hi]
  rw [this, answer_entered kind h _ _ s.link _ hl.ids rfl]

/-- A request that is taken and answered at once. -/
theorem takeFrame_answered {kind : Nat} {h : ReqHdr} {act : Nat → State → State × Option (ReplyCode × List Fld)}
    {s t : State} {c : ReplyCode} {l : List Fld} (hT : Taken h s)
    (ha : act s.link.nextId { s with link := waitingLink kind h s.link } = (t, some (c, l))) :
    takeFrame kind h act s = answer s.link.nextId c l t := by
  simp only [waitingLink, hT.noRestart] at ha
  simp [takeFrame, hT.noRestart, Nat.not_le.mpr hT.room, hT.tag, hT.body, ha]

/-- A request that is taken and waits. -/
theorem takeFrame_waits {kind : Nat} {h : ReqHdr} {act : Nat → State → State × Option (ReplyCode × List Fld)}
    {s t : State} (hT : Taken h s)
    (ha : act s.link.nextId { s with link := waitingLink kind h s.link } = (t, none)) : takeFrame kind h act s = t := by
  simp only [waitingLink, hT.noRestart] at ha
  simp [takeFrame, hT.noRestart, Nat.not_le.mpr hT.room, hT.tag, hT.body, ha]

/-- The bus record is no part of what takes a request. -/
theorem Taken.clearBus {h : ReqHdr} {s : State} (hT : Taken h s) : Taken h (clearBus s) :=
  ⟨⟨hT.safe.inbox, hT.safe.overrun, hT.safe.ids, hT.safe.stops⟩, hT.noRestart, hT.room, hT.tag, hT.body⟩

/-! ## The outcome of a request -/

/-- The state in which a request's own rule acts: the bus record is dropped and the request has entered. -/
def entered (kind : Nat) (h : ReqHdr) (s : State) : State := { clearBus s with link := waitingLink kind h s.link }

@[simp] theorem entered_yard (kind : Nat) (h : ReqHdr) (s : State) : (entered kind h s).yard = { s.yard with bus := [] } := rfl
@[simp] theorem entered_cfg (kind : Nat) (h : ReqHdr) (s : State) : (entered kind h s).cfg = s.cfg := rfl
@[simp] theorem entered_sweep (kind : Nat) (h : ReqHdr) (s : State) : (entered kind h s).sweep = s.sweep := rfl
@[simp] theorem entered_wing (kind : Nat) (h : ReqHdr) (s : State) : (entered kind h s).wing = s.wing := rfl
@[simp] theorem entered_flash (kind : Nat) (h : ReqHdr) (s : State) : (entered kind h s).flash = s.flash := rfl
@[simp] theorem entered_clock (kind : Nat) (h : ReqHdr) (s : State) : (entered kind h s).clock = s.clock := rfl
@[simp] theorem entered_link (kind : Nat) (h : ReqHdr) (s : State) : (entered kind h s).link = waitingLink kind h s.link := rfl
@[simp] theorem entered_pending (kind : Nat) (h : ReqHdr) (s : State) : (entered kind h s).pending = s.pending := rfl
@[simp] theorem envOf_entered (kind : Nat) (h : ReqHdr) (s : State) : envOf (entered kind h s) = envOf s := rfl

/-- A request whose rule answers at once and touches no other request. -/
theorem request_answered {k : ReqKind} {h : ReqHdr} {act : Nat → State → State × Option (ReplyCode × List Fld)}
    {s t : State} {c : ReplyCode} {l : List Fld} (hT : Taken h s)
    (ha : act s.link.nextId (entered (reqCode k) h s) = (t, some (c, l))) (ht : t.link = waitingLink (reqCode k) h s.link) :
    request k h act s = .next (finish { t with link := answeredLink (reqCode k) h c l s.link }) := by
  have := takeFrame_answered (kind := reqCode k) hT.clearBus (act := act) ha
  simp only [request, effect, this]
  rw [show (clearBus s).link.nextId = s.link.nextId from rfl, answer_entered (reqCode k) h c l s.link t hT.safe.ids ht]

/-- A request whose rule answers at once, whatever else it does. -/
theorem request_answers {k : ReqKind} {h : ReqHdr} {act : Nat → State → State × Option (ReplyCode × List Fld)}
    {s t : State} {c : ReplyCode} {l : List Fld} (hT : Taken h s)
    (ha : act s.link.nextId (entered (reqCode k) h s) = (t, some (c, l))) :
    request k h act s = .next (finish (answer s.link.nextId c l t)) := by
  simp only [request, effect, takeFrame_answered (kind := reqCode k) hT.clearBus (act := act) ha]
  rfl

/-- A request whose rule leaves its reply to come. -/
theorem request_waits {k : ReqKind} {h : ReqHdr} {act : Nat → State → State × Option (ReplyCode × List Fld)}
    {s t : State} (hT : Taken h s) (ha : act s.link.nextId (entered (reqCode k) h s) = (t, none)) :
    request k h act s = .next (finish t) := by
  simp only [request, effect, takeFrame_waits (kind := reqCode k) hT.clearBus (act := act) ha]

/-- A request that its rule refuses. -/
theorem request_refused {k : ReqKind} {h : ReqHdr} {act : Nat → State → State × Option (ReplyCode × List Fld)}
    {s : State} {c : ReplyCode} (hT : Taken h s)
    (ha : act s.link.nextId (entered (reqCode k) h s) = refuse c (entered (reqCode k) h s)) :
    request k h act s = .next (finish { clearBus s with link := answeredLink (reqCode k) h c [] s.link }) :=
  request_answered (t := entered (reqCode k) h s) hT ha rfl

/-- A request that only reads. -/
theorem query_answered {k : ReqKind} {h : ReqHdr} {items : State → ReplyCode × List Fld} {s : State} (hT : Taken h s) :
    query k h items s = .next (transmit { clearBus s with
      link := answeredLink (reqCode k) h (items (entered (reqCode k) h s)).1 (items (entered (reqCode k) h s)).2 s.link }) := by
  have := takeFrame_answered (kind := reqCode k) hT.clearBus
    (act := fun _ s => (s, some (items s))) (t := entered (reqCode k) h s)
    (c := (items (entered (reqCode k) h s)).1) (l := (items (entered (reqCode k) h s)).2) rfl
  simp only [query, quiet, this]
  rw [show (clearBus s).link.nextId = s.link.nextId from rfl,
    answer_entered (reqCode k) h _ _ s.link (entered (reqCode k) h s) hT.safe.ids rfl]
  rfl

/-- An event with an effect of its own. -/
theorem effect_next (f : State → State) (s : State) : effect f s = .next (finish (f (clearBus s))) := rfl

/-- An event whose effect changes nothing. -/
theorem effect_same (f : State → State) (s : State) (h : f (clearBus s) = clearBus s) :
    effect f s = .next (finish (clearBus s)) := by rw [effect_next, h]

end Sys2Proof.Machine
end

