-- ==== Sys2Proof/Laws/Tables.lean ====
section
/-! SUPPORT. Laws of the sparse tables and of the records kept in them: a read after a write, and that
every operation keeps the canonical form (KSorted). -/

namespace Sys2Proof.Machine

open Sys2Proof

/-! ## Reads after writes -/

@[simp] theorem kget_nil (k : Nat) : kget ([] : List (Nat × α)) k = none := rfl

@[simp] theorem kget_kput_same (l : List (Nat × α)) (k : Nat) (x : α) : kget (kput l k x) k = some x := by
  induction l with
  | nil => simp [kput, kget]
  | cons p t ih => grind [kput, kget]

theorem kget_kput_other (l : List (Nat × α)) (k j : Nat) (x : α) (h : j ≠ k) : kget (kput l k x) j = kget l j := by
  induction l with
  | nil => grind [kput, kget]
  | cons p t ih => grind [kput, kget]

theorem kget_kdel_other (l : List (Nat × α)) (k j : Nat) (h : j ≠ k) : kget (kdel l k) j = kget l j := by
  induction l with
  | nil => rfl
  | cons p t ih => grind [kdel, kget]

/-- A key below every key of a table is not in it. -/
theorem kget_none_of_lt (l : List (Nat × α)) (k : Nat) (h : ∀ p ∈ l, k < p.1) : kget l k = none := by
  induction l with
  | nil => rfl
  | cons p t ih => grind [kget]

theorem kget_kdel_same (l : List (Nat × α)) (k : Nat) (h : KSorted l) : kget (kdel l k) k = none := by
  induction l with
  | nil => rfl
  | cons p t ih =>
    simp only [KSorted, List.map_cons, List.pairwise_cons] at h
    have hn := kget_none_of_lt t p.1 (fun q hq => h.1 q.1 (List.mem_map_of_mem hq))
    grind [kdel, kget]

/-- A value read from a table is listed in it. -/
theorem mem_of_kget (l : List (Nat × α)) (k : Nat) (x : α) (h : kget l k = some x) : (k, x) ∈ l := by
  induction l with
  | nil => simp [kget] at h
  | cons p t ih => grind [kget]

/-- A value listed in a table in canonical form is read from it. -/
theorem kget_of_mem (l : List (Nat × α)) (k : Nat) (x : α) (hs : KSorted l) (h : (k, x) ∈ l) : kget l k = some x := by
  induction l with
  | nil => simp at h
  | cons p t ih =>
    simp only [KSorted, List.map_cons, List.pairwise_cons] at hs
    rcases List.mem_cons.mp h with rfl | h
    · simp [kget]
    · have := hs.1 k (List.mem_map_of_mem h)
      grind [kget]

/-- Changing every value by its key and itself changes every read so. -/
theorem kget_map (l : List (Nat × α)) (f : Nat → α → β) (k : Nat) :
    kget (l.map fun p => (p.1, f p.1 p.2)) k = (kget l k).map (f k) := by
  induction l with
  | nil => rfl
  | cons p t ih => grind [kget]

/-- Keeping the entries whose keys satisfy a condition keeps those reads and no other. -/
theorem kget_filter_keys (l : List (Nat × α)) (q : Nat → Bool) (k : Nat) :
    kget (l.filter fun p => q p.1) k = if q k then kget l k else none := by
  induction l with
  | nil => simp
  | cons p t ih => grind [kget]

/-! ## The canonical form is kept -/

theorem mem_keys_kput (l : List (Nat × α)) (k : Nat) (x : α) (j : Nat) (h : j ∈ (kput l k x).map Prod.fst) :
    j = k ∨ j ∈ l.map Prod.fst := by
  induction l with
  | nil => simpa [kput] using h
  | cons p t ih => grind [kput]

theorem KSorted_kput (l : List (Nat × α)) (k : Nat) (x : α) (h : KSorted l) : KSorted (kput l k x) := by
  induction l with
  | nil => simp [kput, KSorted]
  | cons p t ih =>
    obtain ⟨i, y⟩ := p
    simp only [KSorted, List.map_cons, List.pairwise_cons] at h ih ⊢
    unfold kput
    split
    · simp only [List.map_cons, List.pairwise_cons, List.mem_cons]
      exact ⟨fun j hj => by rcases hj with rfl | hj; · assumption
                            · have := h.1 j hj; omega, h⟩
    · split
      · subst_vars; simpa using h
      · simp only [List.map_cons, List.pairwise_cons]
        refine ⟨fun j hj => ?_, ih h.2⟩
        rcases mem_keys_kput t k x j hj with rfl | hj
        · omega
        · exact h.1 j hj

theorem mem_keys_kdel (l : List (Nat × α)) (k j : Nat) (h : j ∈ (kdel l k).map Prod.fst) : j ∈ l.map Prod.fst := by
  induction l with
  | nil => simp [kdel] at h
  | cons p t ih => grind [kdel]

theorem KSorted_kdel (l : List (Nat × α)) (k : Nat) (h : KSorted l) : KSorted (kdel l k) := by
  induction l with
  | nil => simp [kdel, KSorted]
  | cons p t ih =>
    obtain ⟨i, y⟩ := p
    simp only [KSorted, List.map_cons, List.pairwise_cons] at h ih ⊢
    unfold kdel
    split
    · exact h.2
    · simp only [List.map_cons, List.pairwise_cons]
      exact ⟨fun j hj => h.1 j (mem_keys_kdel t k j hj), ih h.2⟩

theorem KSorted_filter (l : List (Nat × α)) (q : Nat × α → Bool) (h : KSorted l) : KSorted (l.filter q) :=
  List.Pairwise.sublist ((List.filter_sublist).map Prod.fst) h

theorem KSorted_map (l : List (Nat × α)) (f : Nat × α → Nat × β) (hf : ∀ p, (f p).1 = p.1) (h : KSorted l) :
    KSorted (l.map f) := by
  have : (l.map f).map Prod.fst = l.map Prod.fst := by simp [List.map_map, Function.comp_def, hf]
  simpa [KSorted, this] using h

/-! ## The list of marks -/

theorem mem_ninsert (l : List Nat) (k j : Nat) : j ∈ ninsert l k ↔ j = k ∨ j ∈ l := by
  induction l with
  | nil => simp [ninsert]
  | cons i t ih => grind [ninsert]

/-! ## Cell codes -/

/-- A cell code names its own cell (spec 11.8). -/
theorem cellOfCode_cellCode (a : CellAddr) (h1 : 1 ≤ a.col) (h2 : a.col ≤ 64) (h3 : a.level < 16) :
    cellOfCode (cellCode a) = some a := by
  obtain ⟨⟨i, hi⟩, side, col, level, depth⟩ := a
  simp only at h1 h2 h3
  obtain ⟨c, rfl⟩ : ∃ c, col = c + 1 := ⟨col - 1, by omega⟩
  have key : ∀ s d : Nat, s ≤ 1 → d ≤ 1 → ∀ n, n = d + 2 * level + 32 * c + 2048 * s + 4096 * (i + 1) →
      n < 32768 ∧ n / 4096 = i + 1 ∧ n / 2048 % 2 = s ∧ n / 32 % 64 = c ∧ n / 2 % 16 = level ∧ n % 2 = d := by
    intro s d hs hd n hn; omega
  cases side <;> cases depth <;> simp only [cellCode, cellOfCode, aisleNo, Nat.add_sub_cancel]
  · obtain ⟨k1, k2, k3, k4, k5, k6⟩ := key 0 0 (by omega) (by omega) _ rfl
    simp_all [aisleOf]
  · obtain ⟨k1, k2, k3, k4, k5, k6⟩ := key 0 1 (by omega) (by omega) _ rfl
    simp_all [aisleOf]
  · obtain ⟨k1, k2, k3, k4, k5, k6⟩ := key 1 0 (by omega) (by omega) _ rfl
    simp_all [aisleOf]
  · obtain ⟨k1, k2, k3, k4, k5, k6⟩ := key 1 1 (by omega) (by omega) _ rfl
    simp_all [aisleOf]

/-- Two cells with valid columns and levels have one code only if they are one cell. -/
theorem cellCode_inj (a b : CellAddr) (ha : 1 ≤ a.col ∧ a.col ≤ 64 ∧ a.level < 16)
    (hb : 1 ≤ b.col ∧ b.col ≤ 64 ∧ b.level < 16) (h : cellCode a = cellCode b) : a = b := by
  have := cellOfCode_cellCode a ha.1 ha.2.1 ha.2.2
  rw [h, cellOfCode_cellCode b hb.1 hb.2.1 hb.2.2] at this
  exact (Option.some.inj this).symm

/-! ## Bins -/

@[simp] theorem getBin_putBin_same (b : Nat) (r : Bin) (y : Yard) : getBin b (putBin b r y) = some r := by
  simp [getBin, putBin]

theorem getBin_putBin_other (b d : Nat) (r : Bin) (y : Yard) (h : d ≠ b) : getBin d (putBin b r y) = getBin d y := by
  simp [getBin, putBin, kget_kput_other _ _ _ _ h]

/-- An update of a bin's record, read back. -/
theorem getBin_modBin_same (b : Nat) (f : Bin → Bin) (y : Yard) : getBin b (modBin b f y) = (getBin b y).map f := by
  unfold modBin
  split <;> simp_all

theorem getBin_modBin_other (b d : Nat) (f : Bin → Bin) (y : Yard) (h : d ≠ b) :
    getBin d (modBin b f y) = getBin d y := by
  unfold modBin
  split
  · exact getBin_putBin_other _ _ _ _ h
  · rfl

/-- An update of a bin's record changes the bin table and nothing else. -/
theorem modBin_frame (b : Nat) (f : Bin → Bin) (y : Yard) : modBin b f y = { y with bins := (modBin b f y).bins } := by
  unfold modBin putBin
  split <;> rfl

/-! ## Cells -/

theorem KSorted_putCell (a : CellAddr) (c : Cell) (y : Yard) (h : KSorted y.cells) : KSorted (putCell a c y).cells := by
  unfold putCell
  cases c <;> first | exact KSorted_kdel _ _ h | exact KSorted_kput _ _ _ h

/-- A cell's change keeps the map in its canonical form. -/
theorem KSorted_setCell (e : Env) (a : CellAddr) (c : Cell) (y : Yard) (h : KSorted y.cells) :
    KSorted (setCell e a c y).cells := by
  unfold setCell
  simp only
  split
  · exact h
  · split
    · exact KSorted_putCell a c y h
    · exact KSorted_putCell a c y h

/-- A cell's change touches the map and the journal and nothing else. -/
theorem setCell_frame (e : Env) (a : CellAddr) (c : Cell) (y : Yard) :
    setCell e a c y = { y with cells := (setCell e a c y).cells, journal := (setCell e a c y).journal } := by
  unfold setCell
  simp only
  split
  · rfl
  · split <;> rfl

/-- A cell's change leaves what the table lists at every other code. -/
theorem kget_setCell_other (e : Env) (a : CellAddr) (c : Cell) (y : Yard) (k : Nat) (h : k ≠ cellCode a) :
    kget (setCell e a c y).cells k = kget y.cells k := by
  unfold setCell
  simp only
  have key : kget (putCell a c y).cells k = kget y.cells k := by
    unfold putCell
    cases c <;> first | exact kget_kdel_other _ _ _ h | exact kget_kput_other _ _ _ _ h
  split
  · rfl
  · split <;> exact key

/-- A cell within the geometry that is changed reads as what it is changed to. -/
theorem getCell_setCell_same (e : Env) (a : CellAddr) (c : Cell) (y : Yard) (hs : KSorted y.cells)
    (hg : getCell e a y ≠ .absent) (hc : c ≠ .absent) : getCell e a (setCell e a c y) = c := by
  have hin : inGeometry e.cfg.geometry a = true := by
    by_contra h; simp [getCell, h] at hg
  by_cases h : getCell e a y = c
  · simp [setCell, h]
  · have key : getCell e a (putCell a c y) = c := by
      unfold getCell putCell
      rw [if_pos hin]
      cases c <;> first | exact absurd rfl hc | simp [kget_kdel_same _ _ hs]
    unfold setCell
    simp only [hg, h, or_self, if_false]
    split
    · exact key
    · exact key

end Sys2Proof.Machine
end

