-- ==== Sys2Proof/Laws/Ops.lean ====
section
/-! SUPPORT. What each shared operation over the records can do, said once: the part it touches, and what it
leaves there. -/

namespace Sys2Proof.Machine

open Sys2Proof

/-! ## Notices and the overrun list -/

/-- A notice touches the outbox, its counter, flags and loss count, and nothing else. -/
theorem notify_frame (e : Env) (k : NoticeKind) (l : List Fld) (y : Yard) :
    notify e k l y = { y with post := (notify e k l y).post } := rfl

/-- A notice that finds room stands at the tail with the stamp and number of its raising. -/
theorem notify_room (e : Env) (k : NoticeKind) (l : List Fld) (y : Yard) (h : y.post.outbox.length < 32) :
    (notify e k l y).post.outbox = y.post.outbox ++ [⟨k, e.now, y.post.seq, l⟩] := by
  simp [notify, postPut, h]

theorem overrunPut_room (r : Reply) (k : Link) (h : k.overrun.length < 4) :
    overrunPut r k = { k with overrun := k.overrun ++ [r] } := by simp [overrunPut, h]

theorem overrunPut_full (r : Reply) (k : Link) (h : 4 ≤ k.overrun.length) :
    overrunPut r k = { k with overrunDrops := bump k.overrunDrops } := by simp [overrunPut, Nat.not_lt.mpr h]

/-! ## The journal -/

/-- A change that an entry holds already is put in its place. -/
theorem journalChange_listed (k : JKey) (v : JVal) (j : Journal) (h : k ∈ j.entries.map (·.key)) :
    journalChange k v j = coalesce j k v := by
  have : (j.entries.any fun e => decide (e.key = k)) = true := by
    obtain ⟨e, he, rfl⟩ := List.mem_map.mp h
    exact List.any_eq_true.mpr ⟨e, he, by simp⟩
  simp [journalChange, this]

/-- The keys of the list do not change when an entry's content does. -/
theorem coalesce_keys (j : Journal) (k : JKey) (v : JVal) :
    (coalesce j k v).entries.map (·.key) = j.entries.map (·.key) := by
  simp only [coalesce, List.map_map]
  refine List.map_congr_left fun e _ => ?_
  simp only [Function.comp]; split <;> rfl

/-- A record that is marked is marked. -/
theorem marked_mark (j : Journal) (k : JKey) : marked (mark j k) k = true := by
  cases k <;> simp [marked, mark, mem_ninsert]

/-- A control write that is asked for stands in the list. -/
theorem mem_ctlPut (b : Bool) (l : List CtlWrite) (w : CtlWrite) : w ∈ ctlPut b l w := by
  induction l generalizing b with
  | nil => cases b <;> simp [ctlPut]
  | cons h t ih =>
    cases b
    · unfold ctlPut; split
      · exact List.mem_cons_self
      · exact List.mem_cons_of_mem _ (ih false)
    · exact List.mem_cons_of_mem _ (ih false)

/-- A control write that is asked for touches the control writes and nothing else. -/
theorem ctlRequest_frame (w : CtlWrite) (y : Yard) :
    ctlRequest w y = { y with journal := { y.journal with ctl := (ctlRequest w y).journal.ctl } } := rfl

/-- A fill that is recorded touches the bin and the journal and nothing else. -/
theorem setFill_frame (b n : Nat) (y : Yard) :
    setFill b n y = { y with bins := (setFill b n y).bins, journal := (setFill b n y).journal } := by
  unfold setFill
  rw [modBin_frame]; rfl

theorem getBin_setFill_same (b n : Nat) (y : Yard) :
    getBin b (setFill b n y) = (getBin b y).map fun r => { r with fill := n } := getBin_modBin_same b _ y

theorem getBin_setFill_other (b d n : Nat) (y : Yard) (h : d ≠ b) : getBin d (setFill b n y) = getBin d y :=
  getBin_modBin_other b d _ y h

/-! ## Orders -/

theorem orderOf_mem {no : Nat} {y : Yard} {o : Order} (h : orderOf no y = some o) : o ∈ y.orders ∧ o.no = no :=
  ⟨List.mem_of_find?_eq_some h, by simpa using List.find?_some h⟩

/-- An order's update is found under its number. -/
theorem mem_modOrder {no : Nat} {y : Yard} {o : Order} (f : Order → Order) (h : orderOf no y = some o) :
    f o ∈ (modOrder no f y).orders :=
  List.mem_map.mpr ⟨o, (orderOf_mem h).1, by simp [(orderOf_mem h).2]⟩

/-! ## Space-bin choices and displays -/

/-- A new order touches the queue, the counter and its bin's record, and nothing else. -/
theorem createOrder_frame (e : Env) (c : OrderClass) (b : Nat) (st : Station) (l : List Pick) (r : Bool)
    (o : Option OrderSt) (y : Yard) :
    (createOrder e c b st l r o y).1 = { y with
      bins := (createOrder e c b st l r o y).1.bins, orders := (createOrder e c b st l r o y).1.orders
      nextOrder := (createOrder e c b st l r o y).1.nextOrder } := by
  unfold createOrder
  dsimp only
  rw [modBin_frame]

/-- What a tray's choice can touch: the queue, its counter and the bins by a Space order, the tray, and the notices. -/
theorem spaceChoice_frame (e : Env) (st : Station) (y : Yard) :
    spaceChoice e st y = { y with
      bins := (spaceChoice e st y).bins, orders := (spaceChoice e st y).orders, nextOrder := (spaceChoice e st y).nextOrder
      trays := (spaceChoice e st y).trays, post := (spaceChoice e st y).post } := by
  unfold spaceChoice
  dsimp only
  split
  · split
    · split
      · rfl
      · rw [createOrder_frame]; rfl
    · split <;> rfl
  · rfl

/-- A tray with no active demand, or with its Space order in the queue, chooses nothing. -/
theorem spaceChoice_idle (e : Env) (st : Station) (y : Yard)
    (h : y.trays[st].demand = true → y.trays[st].spaceOrder.isSome) : spaceChoice e st y = y := by
  unfold spaceChoice
  exact if_neg fun ⟨hd, hn⟩ => by rw [hn] at h; exact absurd (h hd) (by decide)

/-- What the trays' choices can touch. -/
theorem trayChoices_frame (e : Env) (y : Yard) :
    trayChoices e y = { y with
      bins := (trayChoices e y).bins, orders := (trayChoices e y).orders, nextOrder := (trayChoices e y).nextOrder
      trays := (trayChoices e y).trays, post := (trayChoices e y).post } := by
  simp only [trayChoices, stationList, List.foldl]
  rw [spaceChoice_frame, spaceChoice_frame, spaceChoice_frame, spaceChoice_frame]

/-- An order's leaving touches the queue and its bin's record, and nothing else. -/
theorem dropOrder_frame (no : Nat) (y : Yard) :
    dropOrder no y = { y with bins := (dropOrder no y).bins, orders := (dropOrder no y).orders } := by
  unfold dropOrder
  dsimp only
  split
  · rw [modBin_frame]
  · rfl

/-- A tray that hears of an order's leaving touches what its choice can touch. -/
theorem trayOrderLeft_frame (e : Env) (no : Nat) (st : Station) (y : Yard) :
    trayOrderLeft e no st y = { y with
      bins := (trayOrderLeft e no st y).bins, orders := (trayOrderLeft e no st y).orders
      nextOrder := (trayOrderLeft e no st y).nextOrder, trays := (trayOrderLeft e no st y).trays
      post := (trayOrderLeft e no st y).post } := by
  unfold trayOrderLeft
  split
  · rw [spaceChoice_frame]; rfl
  · split
    · exact spaceChoice_frame e st y
    · rfl

/-- An order's leaving, with what the trays then choose, touches what a choice can touch. -/
theorem removeOrder_frame (e : Env) (no : Nat) (y : Yard) :
    removeOrder e no y = { y with
      bins := (removeOrder e no y).bins, orders := (removeOrder e no y).orders, nextOrder := (removeOrder e no y).nextOrder
      trays := (removeOrder e no y).trays, post := (removeOrder e no y).post } := by
  simp only [removeOrder, traysOrderLeft, stationList, List.foldl]
  rw [trayOrderLeft_frame, trayOrderLeft_frame, trayOrderLeft_frame, trayOrderLeft_frame, dropOrder_frame]

/-! ## Evaluation (R81) -/

/-- What an evaluation can touch: the orders, and by a tray's withdrawal and choice the bins, the order counter, the
trays and the notices. No cell, carrier, line, station or journal entry changes. -/
theorem evalOrder_frame (e : Env) (no : Nat) (y : Yard) :
    evalOrder e no y = { y with
      bins := (evalOrder e no y).bins, orders := (evalOrder e no y).orders, nextOrder := (evalOrder e no y).nextOrder
      trays := (evalOrder e no y).trays, post := (evalOrder e no y).post } := by
  unfold evalOrder
  split
  · rfl
  · split
    · dsimp only
      split
      · rfl
      · split
        · rw [removeOrder_frame]; rfl
        · rfl
    · rfl

/-- A fold of evaluations touches what one of them can touch. -/
theorem evalFold_frame (e : Env) (l : List Nat) (y : Yard) :
    let z := l.foldl (fun y no => evalOrder e no y) y
    z = { y with bins := z.bins, orders := z.orders, nextOrder := z.nextOrder, trays := z.trays, post := z.post } := by
  induction l generalizing y with
  | nil => rfl
  | cons no t ih =>
    dsimp only at ih ⊢
    rw [List.foldl_cons, ih, evalOrder_frame]

/-- What the evaluation of every order can touch. -/
theorem evalOrders_frame (e : Env) (y : Yard) :
    evalOrders e y = { y with
      bins := (evalOrders e y).bins, orders := (evalOrders e y).orders, nextOrder := (evalOrders e y).nextOrder
      trays := (evalOrders e y).trays, post := (evalOrders e y).post } := evalFold_frame e _ y

/-- An order whose task has ended without delivery: one Assigned is Queued again, every other stands as it is. -/
theorem untaskOrder_eq (no : Nat) (y : Yard) :
    untaskOrder no y = { y with orders := y.orders.map fun o =>
      if o.no = no then { o with st := if o.st = .assigned then .queued else o.st } else o } := by
  have h : ∀ o : Order, (if o.st = .assigned then { o with st := OrderSt.queued } else o)
      = { o with st := if o.st = .assigned then .queued else o.st } := fun o => by split <;> rfl
  simp only [untaskOrder, modOrder, h]

/-! ## The Retire course, roles and transfers -/

/-- An order's outcome goes by its bin, and not by what it holds itself (R80). -/
theorem orderOutcome_bin (e : Env) (o q : Order) (y : Yard) (h : o.bin = q.bin) : orderOutcome e o y = orderOutcome e q y := by
  unfold orderOutcome
  rw [h]

/-- What the Retire course can touch: the queue, its counter and the bins. -/
theorem retireCourse_frame (e : Env) (y : Yard) :
    retireCourse e y = { y with
      bins := (retireCourse e y).bins, orders := (retireCourse e y).orders, nextOrder := (retireCourse e y).nextOrder } := by
  unfold retireCourse
  generalize y.bins.filter (fun p => wantsRetire p.2) = l
  induction l generalizing y with
  | nil => rfl
  | cons p t ih =>
    simp only [List.foldl_cons]
    rw [ih]
    split
    · split
      · rfl
      · rw [createOrder_frame]
    · rfl

/-- An order that a change of role concerns moves or leaves the queue, with what the trays then choose. -/
theorem readdress_frame (e : Env) (st : Station) (role : Role) (o : Order) (y : Yard) :
    readdress e st role o y = { y with
      bins := (readdress e st role o y).bins, orders := (readdress e st role o y).orders
      nextOrder := (readdress e st role o y).nextOrder, trays := (readdress e st role o y).trays
      post := (readdress e st role o y).post } := by
  unfold readdress
  split
  · split
    · rw [removeOrder_frame]
    · split
      · rfl
      · split <;> rfl
  · rfl

/-- What the change of every order that a change of role concerns can touch. -/
theorem readdressFold_frame (e : Env) (st : Station) (role : Role) (l : List Order) (y : Yard) :
    let z := l.foldl (fun y o => readdress e st role o y) y
    z = { y with bins := z.bins, orders := z.orders, nextOrder := z.nextOrder, trays := z.trays, post := z.post } := by
  induction l generalizing y with
  | nil => rfl
  | cons o t ih =>
    dsimp only at ih ⊢
    rw [List.foldl_cons, ih, readdress_frame]

/-- Closing and Closed follow the committed count without another record of a station changed (R107). -/
theorem syncRole_stations (e : Env) (st : Station) (y : Yard) (h : e.cfg.stations[st].role = .closed) :
    (syncRole e st y).stations = y.stations.set st { y.stations[st] with
      role := if committed st y = 0 then .closed else .closing } := by
  unfold syncRole setRole
  rw [if_pos h]
  generalize hr : (if committed st y = 0 then Role.closed else Role.closing) = role
  have hn : takesReturns role = false := by rw [← hr]; split <;> rfl
  split
  · rename_i hs
    have : { y.stations[st] with role := role } = y.stations[st] := by rw [← hs]
    rw [this]
    simp
  · simp only [hn, Bool.false_eq_true, if_false]
    rw [readdressFold_frame]
    simp [demandEnd]

/-- A transfer begun: the next number of the line's drive, 100 ds, and the command on the bus (R93). -/
theorem beginTransfer_line (l : LineId) (k : TransferKind) (b : Nat) (y : Yard) :
    lineRec l (beginTransfer l k b y) = { lineRec l y with
      lastNo := (lineRec l y).lastNo + 1
      transfers := (lineRec l y).transfers ++ [⟨(lineRec l y).lastNo + 1, k, b, 100⟩] } := by
  cases l <;> rfl

/-- An update of a display touches what the station shows and the bus, and nothing else. -/
theorem showStation_frame (st : Station) (y : Yard) :
    showStation st y = { y with stations := (showStation st y).stations, bus := (showStation st y).bus } := by
  unfold showStation
  split <;> rfl

/-- A station shows what it is to show once a change there has been shown (R113). -/
theorem showStation_shown (st : Station) (y : Yard) : (showStation st y).stations[st].shown = displayOf st y := by
  unfold showStation
  split
  · exact Eq.symm ‹_›
  · simp [sendDisplay, modStation, send]

/-! ## Wing -/

/-- The wing takes a state: of its record nothing else changes. -/
theorem setWing_wing (st : WingSt) (s : State) : (setWing st s).wing = { s.wing with st := st } := by
  have h : ∀ (ids : List Nat) (t : State), (ids.foldl (fun s id => answer id .busy [] s) t).wing = t.wing := by
    intro ids
    induction ids with
    | nil => intro t; rfl
    | cons i l ih => intro t; exact ih _
  unfold setWing
  extract_lets before ids withdrawn t
  split
  · exact h _ _
  · rfl

/-- The sweep is kept running when the wing takes a state. -/
theorem setWing_sweep (st : WingSt) (s : State) : (setWing st s).sweep = keepRunning s.sweep := by
  have h : ∀ (ids : List Nat) (t : State), (ids.foldl (fun s id => answer id .busy [] s) t).sweep = t.sweep := by
    intro ids
    induction ids with
    | nil => intro t; rfl
    | cons i l ih => intro t; exact ih _
  unfold setWing
  extract_lets before ids withdrawn t
  split
  · exact h _ _
  · rfl

/-- Of the yard only the notices change when the wing takes a state. -/
theorem setWing_yard (st : WingSt) (s : State) :
    (setWing st s).yard = { s.yard with post := (setWing st s).yard.post } := by
  have h : ∀ (ids : List Nat) (t : State), (ids.foldl (fun s id => answer id .busy [] s) t).yard = t.yard := by
    intro ids
    induction ids with
    | nil => intro t; rfl
    | cons i l ih => intro t; exact ih _
  unfold setWing
  extract_lets before ids withdrawn t
  split
  · rw [h]; rfl
  · rfl

/-- No request is answered when the wing takes a state while no Stop waits. -/
theorem setWing_link (st : WingSt) (s : State) (h : s.sweep.run ≠ .stopping) : (setWing st s).link = s.link := by
  unfold setWing
  simp [h, modSweep, noticeState, notifyS, modWing]

end Sys2Proof.Machine
end

