-- ==== Sys2Proof/Laws/Travel.lean ====
section
/-! SUPPORT. What the choice behind the four rankings can answer (R38 to R41), said once. -/

namespace Sys2Proof.Machine

open Sys2Proof

/-- A ranking names none only where there is no cell to name. -/
theorem cheapest_eq_none (cost : CellAddr → Nat) (l : List CellAddr) : cheapest cost l = none ↔ l = [] := by
  cases l with
  | nil => simp [cheapest]
  | cons x t => simp only [cheapest]; split <;> (try split) <;> simp

/-- A ranking names, with its cost, a cell that is cheaper than each before it in tie order and no dearer than
each behind it. -/
theorem cheapest_eq_some {cost : CellAddr → Nat} {l : List CellAddr} {x : CellAddr} {n : Nat}
    (h : cheapest cost l = some (x, n)) : n = cost x ∧ ∃ before after, l = before ++ x :: after
      ∧ (∀ z ∈ before, n < cost z) ∧ ∀ z ∈ after, n ≤ cost z := by
  induction l generalizing x n with
  | nil => simp [cheapest] at h
  | cons w t ih =>
    simp only [cheapest] at h
    split at h
    · rename_i z m hm
      obtain ⟨hz, b, a, rfl, hb, ha⟩ := ih hm
      split at h <;> (simp only [Option.some.injEq, Prod.mk.injEq] at h; obtain ⟨rfl, rfl⟩ := h)
      · refine ⟨rfl, [], _, rfl, by simp, fun y hy => ?_⟩
        rcases List.mem_append.1 hy with hy | hy
        · exact Nat.le_of_lt (Nat.lt_of_le_of_lt ‹_› (hb y hy))
        · rcases List.mem_cons.1 hy with rfl | hy
          · omega
          · have := ha y hy; omega
      · exact ⟨hz, w :: b, a, rfl, by simpa using ⟨by omega, hb⟩, ha⟩
    · simp only [Option.some.injEq, Prod.mk.injEq] at h
      obtain ⟨rfl, rfl⟩ := h
      have ht := (cheapest_eq_none cost t).1 ‹_›
      subst ht
      exact ⟨rfl, [], [], rfl, by simp, by simp⟩

end Sys2Proof.Machine
end

