-- ==== Sys2Proof/WellFormed.lean ====
section
/-! DEFINITION. Which commands fit what carries them: a request's fields fit their encodings in a frame
(spec 11.8), and an event's values are those the device named can report. The machine acts on every
command; these checks say which can come over the wires. -/

namespace Sys2Proof

/-- A field of one byte. -/
def fits1 (n : Nat) : Bool := decide (n < 256)

/-- A field of two bytes. -/
def fits2 (n : Nat) : Bool := decide (n < 65536)

/-- A field of four bytes. -/
def fits4 (n : Nat) : Bool := decide (n < 4294967296)

/-- A signed field of two bytes. -/
def fitsS (i : Int) : Bool := decide (-32768 ≤ i ∧ i < 32768)

/-- A field that a mask may leave out. -/
def optFits (f : α → Bool) (o : Option α) : Bool := o.all f

/-- An item code's length is one byte (spec 11.8). -/
def itemFits (c : ItemCode) : Bool := fits1 c.length

/-- A request's TAG is one byte (R203). -/
def ReqHdr.wf (h : ReqHdr) : Bool := fits1 h.tag

/-- A bin tag is two bytes. -/
def TagRead.wf : TagRead → Bool
  | .bin b => fits2 b
  | .empty | .unreadable => true

/-- Columns are 0 to 64 and levels 0 to 15 (spec 2.3). -/
def positionFits (col level : Nat) : Bool := decide (col ≤ 64 ∧ level ≤ 15)

/-- What a segment report carries. -/
def SegReport.wf : SegReport → Bool
  | .done => true
  | .tag t => t.wf
  | .read n s => n.front.wf && n.deep.wf && s.front.wf && s.deep.wf
  | .stopped c l => positionFits c l

/-- Cells section item: code of two bytes, action of one. -/
def CellItem.wf (i : CellItem) : Bool := fits2 i.code && fits1 i.action

/-- Profiles section: profile and values of one byte each. -/
def ProfileCfg.wf (p : ProfileCfg) : Bool :=
  fits1 p.profile && optFits fits1 p.rampH && optFits fits1 p.paceH && optFits fits1 p.rampV && optFits fits1 p.paceV
    && optFits fits1 p.forkFront && optFits fits1 p.forkDeep

/-- AisleAssign section item. -/
def AssignItem.wf (i : AssignItem) : Bool := fits1 i.aisle && fits1 i.assign

/-- Stations section item. -/
def StationItem.wf (i : StationItem) : Bool := fits1 i.station && optFits fits1 i.role && optFits fits1 i.allowance

/-- Sweep section item. -/
def SlotItem.wf (i : SlotItem) : Bool :=
  fits1 i.slot && optFits fits1 i.kind && optFits fits1 i.zone && optFits fitsS i.low && optFits fits2 i.span
    && optFits fitsS i.pre && optFits fitsS i.alarm && optFits fitsS i.trip && optFits fits2 i.hyst && optFits fits1 i.confirm

/-- A Configure section's fields (spec 11.8). -/
def CfgSection.wf : CfgSection → Bool
  | .geometry a c l => fits1 a && fits1 c && fits1 l
  | .cells l => l.all CellItem.wf
  | .profiles p => p.wf
  | .aisleAssign l => l.all AssignItem.wf
  | .stations l => l.all StationItem.wf
  | .dispatch a p => optFits fits1 a && optFits fits1 p
  | .trays t l => optFits fits1 t && optFits fits2 l
  | .sessions i a => optFits fits2 i && optFits fits1 a
  | .sweep r l => optFits (fun p => fits1 p.1 && fits1 p.2) r && l.all SlotItem.wf
  | .fire h p c d => optFits fits2 h && optFits fits2 p && optFits fits1 c && optFits fits2 d

/-- The sections of one Configure request. -/
def sectionsWf (h : ReqHdr) (l : List CfgSection) : Bool := h.wf && l.all CfgSection.wf

/-- Sections 0x01 to 0x0A (R210). -/
def sectionCodes (l : List Nat) : Bool := l.all fun n => decide (1 ≤ n ∧ n ≤ 10)

/-- Whether a command fits what carries it. -/
def Instr.wf : Instr → Bool
  | .coldStart _ _ bad => sectionCodes bad
  | .warmRestart _ _ bad => sectionCodes bad
  | .linkReset _ | .frameDiscarded _ | .frameByteTimeout _ | .transmitComplete => true
  | .unknownRequestKind h k => h.wf && decide (k = 0 ∨ (0x1B < k ∧ k < 256))
  | .identify h | .start h | .restart h | .flush h | .querySweep h | .queryIncident h
  | .sweepControlContinuous h | .sweepControlSingle h | .sweepControlStop h => h.wf
  | .configureGeometry h a c l more => sectionsWf h (.geometry a c l :: more)
  | .configureCells h items more => sectionsWf h (.cells items :: more)
  | .configureProfiles h p more => sectionsWf h (.profiles p :: more)
  | .configureAisleAssign h items more => sectionsWf h (.aisleAssign items :: more)
  | .configureStations h items more => sectionsWf h (.stations items :: more)
  | .configureDispatch h a p more => sectionsWf h (.dispatch a p :: more)
  | .configureTrays h t l more => sectionsWf h (.trays t l :: more)
  | .configureSessions h i a more => sectionsWf h (.sessions i a :: more)
  | .configureSweep h r items more => sectionsWf h (.sweep r items :: more)
  | .configureFire h c p k d more => sectionsWf h (.fire c p k d :: more)
  | .resume h n => h.wf && fits4 n
  | .lend h b slip w st c => h.wf && fits2 b && fits4 slip && fits1 w && fits1 st && itemFits c
  | .cancelLend h slip => h.wf && fits4 slip
  | .fetch h b st => h.wf && fits2 b && fits1 st
  | .retire h b | .locate h b => h.wf && fits2 b
  | .induct h b c f => h.wf && fits2 b && fits2 c && optFits fits2 f
  | .returnIntake h w st c => h.wf && fits1 w && fits1 st && itemFits c
  | .drainTray h st | .queryStation h st | .queryTray h st => h.wf && fits1 st
  | .clearTray h st c => h.wf && fits1 st && optFits itemFits c
  | .queryOrder h sel v => h.wf && fits1 sel && fits4 v
  | .queryCarrier h a | .acceptMap h a | .carrierClear h a => h.wf && fits1 a
  | .queryWing h m => h.wf && fits1 m
  | .survey h a k c d => h.wf && fits1 a && fits1 k && fits2 c && fits2 d
  | .lineClear h l => h.wf && fits1 l
  | .conversionComplete raw => decide (raw ≤ 4095)
  | .segmentComplete _ _ r => r.wf
  | .driveStatusReport _ c l f _ => positionFits c l && optFits fits2 f
  | .lineContentsReport _ bins inbound _ => bins.all fits2 && inbound.all (optFits fits2) && decide (inbound.length ≤ 6)
  | .terminalFullReport _ n p => optFits fits2 n && optFits fits2 p
  | .terminalChangeReport _ _ b => optFits fits2 b
  | .itemScan _ c => itemFits c
  | .trayWaitLimitReached _ c => itemFits c
  | .warmupExpiry | .panelInputChange _ _ | .holdClearExpiry | .parkTimerExpiry | .restartTimerExpiry
  | .segmentFault _ _ _ | .segmentDeadline _ _ | .settleTimerExpiry _ | .carrierClearTimeout _ | .discoveryTimeout
  | .diversionComplete _ | .advanceComplete _ | .releaseComplete _ | .inboundDiversionComplete _
  | .lineFaultReport _ _ | .lineTransferDeadline _ _ | .lineClearTimeout _ | .absentButton _ | .releaseButton _
  | .damagedButton _ | .autoReleaseExpiry _ | .idleTimerExpiry _ | .flashWriteComplete | .flashWriteError
  | .journalRetryExpiry => true

end Sys2Proof
end

