-- ==== Sys2Proof/Tests/Slice0.lean ====
section
/-! SUPPORT. Tests: the checks of WellFormed, a state for the premises of every statement, and small tests of
one command each, whose expected results are the manual's worked examples and rules. -/

namespace Sys2Proof.Tests

-- The tests are checked one after another: each evaluates a step, and a thread for every test that waits
-- for the kernel would take more memory than the evaluation itself.
set_option Elab.async false

open Sys2Proof Sys2Proof.Machine

/-! ## Small states -/

/-- A request header that is taken. -/
def hdr : ReqHdr := ⟨7, true⟩

/-- A wing in Normal with one aisle of 8 columns and 4 levels, an Idle carrier at the mouth, both lines
running and nothing in it. -/
def base : State :=
  let yard : Yard := { Yard.reset with
    verif := Vector.replicate 6 ⟨false, true⟩
    carriers := Yard.reset.carriers.set 0 { Carrier.reset with st := .idle, pos := some (0, 0) }
    arbs := Yard.reset.arbs.set 0 { Arbiter.reset with wasReady := true }
    lines := { Lines.reset with del := { LineRec.reset with st := .running }, ret := { LineRec.reset with st := .running } }
    disc := { Discovery.reset with left := none, expected := [], asked := [] }
    bus := [] }
  { State.reset with
    cfg := { Settings.dflt with geometry := ⟨1, 8, 4⟩, geomValid := true, fire := { FireCfg.dflt with parkColumn := 8 } }
    wing := { Wing.reset with st := .normal }
    sweep := { Sweep.reset with warmLeft := none, run := .running, conv := some 0, next := 1 }
    yard := yard }

/-- The same with another wing state. -/
def inWing (st : WingSt) (s : State) : State := { s with wing := { s.wing with st := st } }

/-- The same with another yard. -/
def withYard (f : Yard → Yard) (s : State) : State := { s with yard := f s.yard }

/-- A front cell, and the deep cell behind it. -/
def cellA : CellAddr := ⟨0, .north, 3, 1, .front⟩
def cellD : CellAddr := { cellA with depth := .deep }

/-- Bin 5 Stored in the front cell. -/
def binA : Bin := ⟨300, 40, .stored, some cellA, some 0, none, false, false, none⟩
def stockY (y : Yard) : Yard := { y with cells := [(cellCode cellA, .occupied 5)], bins := [(5, binA)] }
def stocked : State := withYard stockY base

/-- Item codes "A" and "B". -/
def itemA : ItemCode := [0x41#8]
def itemB : ItemCode := [0x42#8]

/-- Reader order 1 for bin 5 with one Open pick of slip 9. -/
def orderA : Order := ⟨1, 5, 0, .reader, 0, .queued, false, [⟨9, itemA, 10, .opened⟩], false, none⟩
def ordered : State := withYard (fun y => { stockY y with
  orders := [orderA], nextOrder := 2, bins := [(5, { binA with live := some 1 })] }) base

/-- A carrier with a segment in flight. -/
def flying (g : Segment) (load : Option Nat) (y : Yard) : Yard :=
  modCarrier 0 (fun c => { c with st := .moving, seg := some g, load := load }) y
def travelSeg : Segment := ⟨.travel, 4, .pos 3 1, none, 17, some 84, 84, none⟩
def forkInSeg : Segment := ⟨.forkIn, 4, .cell cellA, some 5, 24, some 98, 98, none⟩
def forkOutSeg : Segment := ⟨.forkOut, 4, .cell cellA, none, 24, some 98, 98, none⟩

/-- A session at station 1 on bin 6 with a Reader order of one Open pick. -/
def orderB : Order := ⟨2, 6, 0, .reader, 0, .atStation, false, [⟨8, itemA, 10, .opened⟩], false, none⟩
def sessionB : Session := ⟨6, some 2, false, true, [], some 300, none, 0, false⟩
def binB : Bin := ⟨300, 4, .atStation, none, none, some 0, false, false, some 2⟩
def atDesk : State := withYard (fun y => modStation 0 (fun r => { r with present := some ⟨6, some 0⟩, session := some sessionB })
  { y with bins := [(6, binB)], orders := [orderB], nextOrder := 3 }) base

/-- A session at station 2 with one placement. -/
def placing : State := withYard (fun y =>
  modTray 1 (fun t => { t with items := [⟨itemB, 20, 0, .assigned 6, false⟩] })
    (modStation 1 (fun r => { r with
        present := some ⟨6, some 0⟩, session := some { sessionB with order := none, placements := [⟨itemB, 20⟩] } })
      { y with bins := [(6, { binB with fill := 290, station := some 1, live := none })] })) base

/-- A Waiting item in station 2's tray. -/
def trayed (mark : Bool) : State := withYard (modTray 1 (fun t => { t with items := [⟨itemB, 20, 0, .waiting, mark⟩] })) base

/-- A request waiting in the inbox with number 0. -/
def asking (s : State) : State := { s with link := { s.link with inbox := [⟨0, 6, 7, none⟩], nextId := 1 } }

/-- The inbox with four requests, and an overrun list of a length. -/
def fullLink (n : Nat) (s : State) : State := { s with link := { s.link with
  inbox := List.replicate 4 ⟨0, 6, 7, none⟩, nextId := 1, overrun := List.replicate n ⟨0x47, 7, .overrun, []⟩ } }

/-- The state an outcome goes on to. -/
def after (o : Host.Outcome State Fault Refusal) : State :=
  match o with
  | .next t => t
  | _ => State.reset

/-- What Taken asks, as one decidable condition. -/
theorem takenIf (s : State) (h : s.link.inbox = [] ∧ s.sweep.stopIds = [] ∧ s.link.overrun = [] ∧ s.link.restart = .none) :
    Taken hdr s :=
  ⟨⟨by simp [h.1], by simp [h.2.2.1], by simp [h.1], by simp [h.2.1]⟩, h.2.2.2, by simp [h.1], by decide, rfl⟩

/-- A bin with no record is no bin but a Retired one. -/
theorem noBin {b : Nat} {y : Yard} (h : getBin b y = none) : ∀ r, getBin b y = some r → r.st = .retired :=
  fun r g => by rw [h] at g; cases g

/-! ## WellFormed: an ill-formed command for each check -/

theorem test_wf_tag : (Instr.identify ⟨256, true⟩).wf = false := by decide +kernel
theorem test_wf_startup : (Instr.coldStart ⟨false, false⟩ ⟨false, false, false⟩ [11]).wf = false
    ∧ (Instr.warmRestart none ⟨false, false, false⟩ [0]).wf = false := by decide +kernel
theorem test_wf_unknown_kind : (Instr.unknownRequestKind hdr 0x1B).wf = false
    ∧ (Instr.unknownRequestKind hdr 256).wf = false := by decide +kernel
theorem test_wf_sections : (Instr.configureGeometry hdr 256 0 0 []).wf = false
    ∧ (Instr.configureCells hdr [⟨65536, 1⟩] []).wf = false
    ∧ (Instr.configureProfiles hdr ⟨1, some 256, none, none, none, none, none⟩ []).wf = false
    ∧ (Instr.configureAisleAssign hdr [⟨1, 256⟩] []).wf = false
    ∧ (Instr.configureStations hdr [⟨1, some 256, none⟩] []).wf = false
    ∧ (Instr.configureDispatch hdr (some 256) none []).wf = false
    ∧ (Instr.configureTrays hdr none (some 65536) []).wf = false
    ∧ (Instr.configureSessions hdr (some 65536) none []).wf = false
    ∧ (Instr.configureSweep hdr none [⟨0, none, none, some 32768, none, none, none, none, none, none⟩] []).wf = false
    ∧ (Instr.configureSweep hdr (some (256, 0)) [] []).wf = false
    ∧ (Instr.configureFire hdr none none (some 256) none []).wf = false
    ∧ (Instr.configureDispatch hdr none none [.trays (some 256) none]).wf = false := by decide +kernel
theorem test_wf_orders : (Instr.resume hdr 4294967296).wf = false
    ∧ (Instr.lend hdr 65536 1 1 0 itemA).wf = false ∧ (Instr.cancelLend hdr 4294967296).wf = false
    ∧ (Instr.fetch hdr 1 256).wf = false ∧ (Instr.retire hdr 65536).wf = false ∧ (Instr.locate hdr 65536).wf = false
    ∧ (Instr.induct hdr 1 65536 none).wf = false ∧ (Instr.lend hdr 1 1 1 0 (List.replicate 256 0#8)).wf = false := by decide +kernel
theorem test_wf_desks : (Instr.returnIntake hdr 256 1 itemA).wf = false ∧ (Instr.drainTray hdr 256).wf = false
    ∧ (Instr.clearTray hdr 1 (some (List.replicate 256 0#8))).wf = false ∧ (Instr.queryOrder hdr 256 0).wf = false
    ∧ (Instr.queryStation hdr 256).wf = false ∧ (Instr.queryCarrier hdr 256).wf = false
    ∧ (Instr.queryTray hdr 256).wf = false ∧ (Instr.queryWing hdr 256).wf = false
    ∧ (Instr.survey hdr 1 1 65536 1).wf = false ∧ (Instr.acceptMap hdr 256).wf = false
    ∧ (Instr.carrierClear hdr 256).wf = false ∧ (Instr.lineClear hdr 256).wf = false := by decide +kernel
theorem test_wf_events : (Instr.conversionComplete 4096).wf = false
    ∧ (Instr.segmentComplete 0 1 (.tag (.bin 65536))).wf = false
    ∧ (Instr.segmentComplete 0 1 (.stopped 65 0)).wf = false
    ∧ (Instr.driveStatusReport 0 0 16 none false).wf = false
    ∧ (Instr.lineContentsReport .ret [] (List.replicate 7 none) false).wf = false
    ∧ (Instr.terminalFullReport 0 (some 65536) none).wf = false
    ∧ (Instr.terminalChangeReport 0 .next (some 65536)).wf = false
    ∧ (Instr.itemScan 0 (List.replicate 256 0#8)).wf = false
    ∧ (Instr.trayWaitLimitReached 0 (List.replicate 256 0#8)).wf = false := by decide +kernel
theorem test_wf_read : (Instr.segmentComplete 0 1 (.read ⟨.bin 65536, .empty⟩ ⟨.empty, .empty⟩)).wf = false := by decide +kernel
theorem test_wf_accepts : (Instr.lend hdr 5 9 10 1 itemA).wf = true ∧ (Instr.unknownRequestKind hdr 0).wf = true := by decide +kernel

/-! ## Start -/

/-- The state after reset is what a cold start leaves over blank flash (R212). -/
theorem test_reset_is_cold_start : coldStart ⟨false, false⟩ ⟨false, false, false⟩ [] State.reset = State.reset := by
  decide +kernel

/-- No row of the table gives bits. -/
theorem test_no_word_spells_a_command : decodeTableWord 8 0 = none := rfl

/-! ## States that meet the premises of the statements

Each theorem is named for the statement it serves; where a statement has several clauses, each has its state, at
a boundary of its range. -/

theorem taken_base : Taken hdr base := takenIf base ⟨rfl, rfl, rfl, rfl⟩

theorem witness_StepRunsFrontCommand : ({ base with pending := [.flush hdr] } : State).pending = .flush hdr :: [] := rfl

theorem witness_IdleStepPassesTime : base.pending = [] ∧ base.clock.ds < 9
    ∧ (let s : State := { base with clock := ⟨4294967294, 9⟩ }
       s.pending = [] ∧ s.clock.ds = 9 ∧ s.clock.sec < 4294967295) := by decide

theorem witness_CommandsChangeOnlyTheirOwn : isConfigure (.flush hdr) = false ∧ isStart (.flush hdr) = false
    ∧ Instr.flush hdr ≠ .flashWriteComplete ∧ ∀ e p b, Instr.flush hdr ≠ .warmRestart e p b :=
  ⟨by decide, by decide, by decide, fun _ _ _ h => nomatch h⟩

theorem witness_WingStaysSafe : WingSafe base.wing ∧ ∃ t, step base = .next t :=
  ⟨⟨rfl, rfl, by decide, by decide, by decide, by decide⟩, _, rfl⟩

theorem witness_CausesStayTrue : CausesTrue base ∧ ∃ t, step base = .next t := ⟨⟨rfl, rfl⟩, _, rfl⟩

theorem witness_LinkStaysSafe : LinkSafe (fullLink 4 base) ∧ ∃ t, step (fullLink 4 base) = .next t :=
  ⟨⟨by decide, by decide, by decide, by decide⟩, _, rfl⟩

/-- The small state with bin 5 in its cell is sorted, within its bounds, and has each bin in one place. -/
theorem sorted_stocked : TablesSorted stocked := ⟨by decide, by decide, by decide, by decide, by decide⟩
theorem geometry_stocked : GeometrySafe stocked :=
  ⟨⟨by decide, by decide⟩, fun _ h => (nomatch h), fun _ h => (nomatch h), fun _ h => (nomatch h)⟩
theorem bin_stocked {b : Nat} {r : Bin} (h : getBin b stocked.yard = some r) : b = 5 ∧ r = binA := by
  simp only [stocked, withYard, stockY, getBin, kget] at h
  split at h
  · exact ⟨by omega, by simpa using h.symm⟩
  · simp at h
theorem cell_stocked {k : Nat} {c : Cell} (h : kget stocked.yard.cells k = some c) : k = cellCode cellA ∧ c = .occupied 5 := by
  simp only [stocked, withYard, stockY, kget] at h
  split at h
  · exact ⟨by omega, by simpa using h.symm⟩
  · simp at h
theorem lists_stocked : ListsSafe stocked.yard :=
  ⟨⟨by decide, by decide, by decide, fun _ h => (nomatch h)⟩, by decide,
    ⟨by decide, by decide, by decide, fun _ h => (nomatch h), fun _ _ h _ => by rw [(bin_stocked h).2]; rfl⟩, by decide,
    fun st x h => by
      have none : ∀ st : Station, stocked.yard.stations[st].session = none := by decide
      rw [none st] at h; cases h⟩
theorem placed_stocked : BinsPlaced stocked :=
  have empty : placedBins stocked.yard = [] := by decide
  ⟨by rw [empty]; simp, fun b h => by rw [empty] at h; simp at h,
    fun _ _ h p => by rw [(bin_stocked h).2] at p; simp [inPlace, binA] at p,
    fun _ _ h => ⟨binA, cellA, by rw [(cell_stocked h).1]; cases (cell_stocked h).2; decide +kernel⟩,
    fun _ _ h => ⟨cellA, by rw [(cell_stocked h).1]; decide +kernel⟩⟩

/-- What SessionsSafe asks of a state without sessions and without Sessions settings on their way. -/
theorem sessionsIf (s : State) (h : 30 ≤ s.cfg.idleTimeout ∧ s.flash.settings.sessions = none ∧ s.yard.journal.ctl = []
    ∧ s.yard.journal.writing = none ∧ ∀ st : Station, s.yard.stations[st].session = none) : SessionsSafe s :=
  ⟨h.1, by simp [h.2.1], by simp [h.2.2.1], by simp [h.2.2.2.1], fun _ st _ g => by rw [h.2.2.2.2 st] at g; cases g⟩

/-- What BinsNumbered asks of a state with blank attributes and nothing of them on its way. -/
theorem numberedIf (s : State) (h : (∀ p ∈ s.yard.bins, binOk p.1 = true) ∧ s.flash.attrs = [] ∧ s.yard.journal.entries = []
    ∧ s.yard.journal.attrMarks = [] ∧ s.yard.journal.writing = none) : BinsNumbered s :=
  ⟨fun _ _ g => h.1 _ (mem_of_kget _ _ _ g), by simp [h.2.1], by simp [h.2.2.1], by simp [h.2.2.2.1],
    by simp [h.2.2.2.2]⟩

theorem witness_TablesAndListsStaySafe : TablesSorted stocked ∧ GeometrySafe stocked ∧ ListsSafe stocked.yard
    ∧ SessionsSafe stocked ∧ BinsNumbered stocked ∧ ∃ t, step stocked = .next t :=
  ⟨sorted_stocked, geometry_stocked, lists_stocked, sessionsIf _ (by decide +kernel), numberedIf _ (by decide +kernel), _, rfl⟩

theorem witness_BinsStandInOnePlace : BinsPlaced stocked ∧ TablesSorted stocked ∧ GeometrySafe stocked
    ∧ ListsSafe stocked.yard ∧ ∃ t, step stocked = .next t :=
  ⟨placed_stocked, sorted_stocked, geometry_stocked, lists_stocked, _, rfl⟩

/-- The wing is Normal, with no fault in it: WING_OK is high. -/
theorem witness_OutputsFollowRecords :
    (let s : State := { base with wing := { base.wing with wingOk := true } }
     OutputsTrue s ∧ ∃ t, step s = .next t) :=
  ⟨⟨⟨(nomatch ·), fun h => absurd rfl h.1.2⟩, ⟨fun _ => ⟨rfl, by decide, by decide⟩, fun _ => rfl⟩⟩, _, rfl⟩

theorem witness_UntakenRequestsAreAnswered : requestOf (.flush hdr) = some (6, hdr)
    ∧ 4 ≤ (fullLink 3 base).link.inbox.length ∧ (fullLink 3 base).link.overrun.length < 4
    ∧ 4 ≤ (fullLink 4 base).link.overrun.length
    ∧ ({ base with link := { base.link with restart := .due } } : State).link.restart ≠ .none := by decide

theorem witness_MalformedRequestRefusedForm : requestOf (.flush ⟨0, true⟩) = some (6, ⟨0, true⟩) ∧ LinkSafe base
    ∧ base.link.restart = .none ∧ base.link.inbox.length < 4 ∧ (⟨7, false⟩ : ReqHdr).bodyOk = false ∧ Taken hdr base :=
  ⟨rfl, taken_base.safe, rfl, by decide, rfl, taken_base⟩

/-- Whether the receiver finds the body of a frame of a kind well formed. -/
def formed (kind : Nat) (body : List Byte) : Option Bool := (requestOf (frameCmd kind 7 body)).map (·.2.bodyOk)

/-- R209, spec 11.8: the shortest body of each kind with fields of its own, the same with a byte missing, and one with a
code that the kind does not have. -/
theorem test_bodies :
    let lend : List Byte := List.replicate 8 0#8
    ([formed 0x07 (lend ++ [1#8, 0x20#8]), formed 0x0B (List.replicate 6 0#8), formed 0x0C [1#8, 1#8, 1#8, 0x7E#8],
      formed 0x0E [1#8], formed 0x0E [1#8, 1#8, 0x41#8], formed 0x10 [1#8, 0#8, 0#8, 0#8, 0#8],
      formed 0x17 [1#8, 2#8, 1#8, 0#8, 8#8, 0#8], formed 0x1A [2#8], formed 0x1B [3#8],
      formed 0x02 [6#8, 3#8, 3#8, 1#8, 4#8]].all (· = some true))
    ∧ ([formed 0x07 (lend ++ [1#8, 0x1F#8]), formed 0x07 (lend ++ [0#8]), formed 0x0B (List.replicate 5 0#8),
      formed 0x0C [1#8, 1#8, 2#8, 0x41#8], formed 0x0E [1#8, 1#8], formed 0x10 [2#8, 0#8, 0#8, 0#8, 0#8],
      formed 0x17 [1#8, 3#8, 1#8, 0#8, 8#8, 0#8], formed 0x1A [3#8], formed 0x1B [0#8], formed 0x02 [],
      formed 0x02 [6#8, 2#8, 3#8, 1#8]].all (· = some false)) := by decide +kernel

/-- The layout that the statement gives a Dispatch section with both values. -/
theorem witness_sectionFits : sectionFits 6 [3#8, 1#8, 4#8] := ⟨3#8, [1#8, 4#8], rfl, by decide⟩

theorem witness_BadFrameIsDiscarded :
    (let s : State := { base with link := { base.link with discards := 65534 } }
     s.link.rx = .hunting ∧ s.link.discards < 65535 ∧ 240 < (241#8).toNat
       ∧ (0#8).toNat ≤ 240 ∧ ([] : List Byte).length = (0#8).toNat
       ∧ [0#8, 0#8] ≠ leBytes 2 (crc16 [0#8, 6#8, 7#8]).toNat)
    ∧ ({ base with link := { base.link with rx := .frame [0#8] 10 } } : State).link.rx = .frame [0#8] 10
    ∧ ({ base with link := { base.link with discards := 65535 } } : State).link.discards ≤ 65535 := by decide +kernel

/-- A notice of no urgent area, and one of an urgent area. -/
def plainNotice : Notice := ⟨.pickDone, 0, 1, []⟩
def urgentNotice : Notice := ⟨.wingState, 0, 1, []⟩

theorem witness_TransmitterServesInOrder :
    (let r : Reply := ⟨0x44, 7, .ok, []⟩
     let s : State := { base with link := { base.link with
       tx := some (.reply 0 r), inbox := [⟨0, 4, 7, some r⟩], restart := .taken 0 } }
     let w : State := { base with
       link := { base.link with tx := some (.notice plainNotice) }
       yard := { base.yard with post := { base.yard.post with outbox := [plainNotice], sending := true } } }
     s.link.tx = some (.reply 0 r) ∧ s.link.restart = .taken 0
       ∧ w.link.tx = some (.notice plainNotice) ∧ w.yard.post.sending = true
       ∧ (transmit { w with link := { w.link with tx := none } }).link.tx = some (.notice plainNotice)
       ∧ (transmit { s with link := { s.link with tx := none } }).link.tx = some (.reply 0 r))
    ∧ ({ base with link := { base.link with tx := some (.overrun ⟨0x46, 7, .busy, []⟩) } } : State).link.tx.isSome
    ∧ ({ base with link := { base.link with tx := some (.reply 0 ⟨0x44, 7, .ok, []⟩), restart := .taken 1 } } : State).link.restart
        ≠ .taken 0
    ∧ (transmit { base with link := { base.link with overrun := [⟨0x46, 7, .busy, []⟩] } }).link.tx = some (.overrun ⟨0x46, 7, .busy, []⟩) := by
  decide +kernel

theorem witness_FullOutboxKeepsUrgentNotices :
    (let y : Yard := { base.yard with post := { base.yard.post with
       outbox := urgentNotice :: plainNotice :: List.replicate 30 urgentNotice, sending := true } }
     y.post.outbox.length = 32 ∧ y.post.sending = true ∧ urgent (noticeArea .sweepEvent) = true
       ∧ urgent (noticeArea .pickDone) = false ∧ ∃ m ∈ y.post.outbox.drop 1, urgent (noticeArea m.kind) = false) := by
  decide +kernel

theorem witness_QueriesAreAnswered : Taken hdr ordered ∧ (1 : Nat) ≠ 0 ∧ orderOf 1 ordered.yard = some orderA
    ∧ (ordered.yard.orders.find? fun o => o.picks.any fun p => p.slip = 9) = some orderA
    ∧ orderOf 2 ordered.yard = none ∧ (∀ o ∈ ordered.yard.orders, ∀ p ∈ o.picks, p.slip ≠ 10)
    ∧ (∀ o ∈ ordered.yard.orders, o.no ≠ ordered.yard.nextOrder) :=
  ⟨takenIf ordered ⟨rfl, rfl, rfl, rfl⟩, by decide +kernel⟩

theorem witness_LocateReportsBinRecord : Taken hdr stocked ∧ getBin 5 stocked.yard = some binA
    ∧ getBin 6 stocked.yard = none := ⟨takenIf stocked ⟨rfl, rfl, rfl, rfl⟩, by decide, by decide⟩

/-- A journal with as many entries as the list holds. -/
def fullJournal : Journal := { Journal.reset with
  entries := (List.range 64).map fun n => ⟨.fill (n + 1), .fill 0⟩ }

/-- The journal with a write in flight. -/
def writing (w : Writing) (s : State) : State := withYard (modJournal fun j => { j with
  writing := some w, entries := [⟨.fill 5, .fill 40⟩] }) s

theorem witness_JournalTakesChange : (fullJournal.entries.length ≤ 64
    ∧ JKey.fill 64 ∈ fullJournal.entries.map (·.key) ∧ JKey.fill 65 ∉ fullJournal.entries.map (·.key)
    ∧ fullJournal.closed = false ∧ marked fullJournal (.fill 65) = false ∧ marked (mark fullJournal (.fill 65)) (.fill 65) = true
    ∧ (let j := { fullJournal with entries := fullJournal.entries.take 63 }
       JKey.fill 64 ∉ j.entries.map (·.key) ∧ marked j (.fill 64) = false ∧ j.sealing = none ∧ j.entries.length < 64))
    ∧ (writing (.entry ⟨.fill 5, .fill 40⟩ true) base).yard.journal.writing = some (.entry ⟨.fill 5, .fill 40⟩ true)
    ∧ (writing (.entry ⟨.fill 5, .fill 40⟩ false) base).yard.journal.writing = some (.entry ⟨.fill 5, .fill 40⟩ false)
    ∧ (let s := withYard (modJournal fun j => { j with sealing := some ([], true) })
         (writing (.ctl (.clean true)) (inWing .sealing base))
       s.wing.st = .sealing ∧ s.yard.journal.writing = some (.ctl (.clean true))
         ∧ ∃ keys ∈ [([] : List JKey)], s.yard.journal.sealing = some (keys, true))
    ∧ base.yard.journal.writing = none ∧ base.wing.st ≠ .sealing
    ∧ (let s := withYard beginSealing (writing (.ctl (.sealed true)) (inWing .sealing base))
       s.wing.st = .sealing ∧ s.yard.journal.sealing.isSome ∧ s.yard.journal.writing.isSome)
    ∧ (let j := { base.yard.journal with ctl := [.clean true] }
       j.writing = none ∧ j.retryLeft = none ∧ j.closed = false ∧ j.ctl = .clean true :: [])
    ∧ (let j := { base.yard.journal with entries := [⟨.fill 5, .fill 40⟩] }
       j.writing = none ∧ j.retryLeft = none ∧ j.ctl = [] ∧ j.entries = ⟨.fill 5, .fill 40⟩ :: []) := by
  decide +kernel

/-- The same with a Flush that waits for the write of bin 5's fill. -/
def flushing (w : Writing) (s : State) : State :=
  withYard (modJournal fun j => { j with flushes := [⟨0, [.fill 5]⟩] }) (asking (writing w s))

theorem witness_FlushWaitsForItsWrites : Taken hdr base ∧ coveredKeys base.yard.journal = []
    ∧ (let s := withYard (modJournal fun j => { j with entries := [⟨.fill 5, .fill 40⟩] }) base
       coveredKeys s.yard.journal ≠ [] ∧ s.yard.journal.closed = false)
    ∧ (let s := withYard (modJournal fun j => { j with entries := [⟨.fill 5, .fill 40⟩], closed := true }) base
       coveredKeys s.yard.journal ≠ [] ∧ s.yard.journal.closed = true)
    ∧ (let j := (flushing (.entry ⟨.fill 5, .fill 40⟩ false) base).yard.journal
       j.writing = some (.entry ⟨.fill 5, .fill 40⟩ false) ∧ (∃ w ∈ j.flushes, (∀ k ∈ w.keys, k = .fill 5)
         ∧ ∃ q ∈ (flushing (.entry ⟨.fill 5, .fill 40⟩ false) base).link.inbox, q.id = w.id ∧ q.reply = none)
         ∧ j.entries.drop 1 = [] ∧ j.errors = 0)
    ∧ (flushing (.entry ⟨.fill 5, .fill 40⟩ true) base).yard.journal.writing = some (.entry ⟨.fill 5, .fill 40⟩ true)
    ∧ (let s := withYard (modJournal fun j => { j with sealing := some ([], true) })
         (flushing (.ctl (.clean true)) (inWing .sealing base))
       s.wing.st = .sealing ∧ s.yard.journal.writing = some (.ctl (.clean true)) ∧ s.sweep.run ≠ .stopping
         ∧ (∃ keys ∈ [([] : List JKey)], s.yard.journal.sealing = some (keys, true))
         ∧ s.yard.journal.errors = 0 ∧ s.yard.post.outbox.length < 30)
    ∧ (withYard (modJournal fun j => { j with errors := 1 }) (flushing (.ctl (.clean false)) base)).yard.journal.errors ≠ 0 :=
  ⟨taken_base, by decide +kernel⟩

theorem witness_InductPutsBinOnReturnLine : Taken hdr base ∧ ¬((1 : Nat) = 0 ∨ 20480 < 1) ∧ ¬((20480 : Nat) = 0 ∨ 20480 < 20480)
    ∧ ((0 : Nat) = 0 ∨ 20480 < 0) ∧ ((20481 : Nat) = 0 ∨ 20480 < 20481)
    ∧ getBin 20480 base.yard = none ∧ returnCommitted base.yard < 12 ∧ base.wing.st = .normal
    ∧ getBin 5 stocked.yard = some binA ∧ binA.st ≠ .retired
    ∧ ¬returnCommitted (withYard (modLines fun l => { l with returns := (List.range 12).map fun n => ⟨n + 1, 0⟩ }) base).yard < 12
    ∧ (inWing .parking base).wing.st = .parking := ⟨taken_base, by decide +kernel⟩

theorem witness_RetireSetsPending : Taken hdr stocked ∧ getBin 5 stocked.yard = some binA ∧ binA.st ≠ .retired
    ∧ binA.retirePending = false ∧ sessionOfBin 5 stocked.yard = none
    ∧ getBin 5 (withYard (putBin 5 { binA with retirePending := true }) stocked).yard
        = some { binA with retirePending := true }
    ∧ getBin 6 stocked.yard = none
    ∧ (sessionOfBin 6 atDesk.yard = some 0 ∧ atDesk.yard.stations[(0 : Station)].session = some sessionB
        ∧ sessionB.releasing = false ∧ getBin 6 atDesk.yard = some binB ∧ binB.retirePending = false)
    ∧ (let x : Session := { sessionB with releasing := true }
       let s := withYard (modStation 0 fun r => { r with session := some x }) atDesk
       let z := withYard (modLines fun l => { l with releaseList := [0] }) s
       s.yard.stations[(0 : Station)].session = some x ∧ x.releasing = true ∧ (0 : Station) ∉ s.yard.lines.releaseList
         ∧ sessionB.placements = [] ∧ (∀ d : Station, z.yard.trays[d].demand = false)
         ∧ (0 : Station) ∈ z.yard.lines.releaseList ∧ x.order = some 2 ∧ orderOf 2 z.yard = some orderB
         ∧ z.yard.post.outbox.length < 32)
    ∧ (let y := { stocked.yard with bins := [(5, { binA with retirePending := true }), (7, { binA with retirePending := true })] }
       KSorted y.bins ∧ (∃ st : Station, y.stations[st].role ≠ .closed ∧ y.stations[st].role ≠ .closing)
         ∧ (retireCourse (envOf stocked) y).orders.map (fun o => (o.bin, o.station, o.retire)) = [(5, 0, true), (7, 0, true)]
         ∧ ∀ st : Station, ({ y with stations := y.stations.map fun r => { r with role := .closed } } : Yard).stations[st].role = .closed) :=
  ⟨takenIf stocked ⟨rfl, rfl, rfl, rfl⟩, by decide +kernel⟩

/-- A map with the front cell in each state that a retrieval from the deep cell behind it meets. -/
theorem witness_EstimatesFollowProfile :
    (let front := fun (c : Cell) => (withYard (setCell (envOf base) cellA c) base).yard
     cellA.depth = .front ∧ cellD.depth = .deep ∧ getCell (envOf base) cellA base.yard = .empty
     ∧ getCell (envOf base) cellA (front (.reserved 5 .putAway)) = .reserved 5 .putAway
     ∧ getCell (envOf base) cellA (front .disabled) = .disabled
     ∧ getCell (envOf base) cellA (front (.unverified none)) = .unverified none
     ∧ getCell (envOf base) cellA (front (.occupied 5)) = .occupied 5
     ∧ (shuffleTarget (envOf base) cellD (front (.occupied 5))).isSome
     ∧ shuffleTarget (envOf base) cellD (modEst 0 (fun r => { r with inForce := .off }) (front (.occupied 5))) = none
     ∧ (putAwayCell (envOf base) 0 base.yard).isSome) := by decide +kernel

theorem witness_TravelCompletesUnderHold :
    (let s := inWing .clearing (withYard (flying travelSeg none) base)
     wingHeld s.wing.st = true ∧ s.yard.carriers[(0 : Aisle)].seg = some travelSeg ∧ travelSeg.kind = .travel
       ∧ travelSeg.target = .pos 3 1 ∧ s.yard.est[(0 : Aisle)].st ≠ .pending
       ∧ s.yard.carriers[(0 : Aisle)].task ≠ some .clearMove) := by decide +kernel

theorem witness_ForkInTakesExpectedBin :
    (let s := inWing .hold (withYard (flying forkInSeg none) stocked)
     BinsNumbered s ∧ wingHeld s.wing.st = true ∧ s.yard.carriers[(0 : Aisle)].seg = some forkInSeg ∧ forkInSeg.kind = .forkIn
       ∧ forkInSeg.target = .cell cellA ∧ forkInSeg.expect = some 5 ∧ s.yard.est[(0 : Aisle)].st ≠ .pending
       ∧ KSorted s.yard.cells ∧ getCell (envOf s) cellA s.yard = .occupied 5 ∧ getBin 5 s.yard = some binA
       ∧ binA.st = .stored ∧ binA.cell = some cellA) := ⟨numberedIf _ (by decide +kernel), by decide +kernel⟩

theorem witness_ForkOutStoresCarriedBin :
    (let r : Bin := { binA with st := .onCarrier, cell := none, aisle := none }
     let s := inWing .hold (withYard (fun y => flying forkOutSeg (some 5) { y with bins := [(5, r)] }) base)
     wingHeld s.wing.st = true ∧ s.yard.carriers[(0 : Aisle)].seg = some forkOutSeg ∧ forkOutSeg.kind = .forkOut
       ∧ forkOutSeg.target = .cell cellA ∧ s.yard.carriers[(0 : Aisle)].load = some 5
       ∧ s.yard.est[(0 : Aisle)].st ≠ .pending ∧ inGeometry s.cfg.geometry cellA = true
       ∧ getCell (envOf s) cellA s.yard ≠ .absent ∧ getBin 5 s.yard = some r) := by decide +kernel

theorem witness_TravelFaultFaultsCarrier :
    (let s := withYard (flying travelSeg none) base
     s.yard.carriers[(0 : Aisle)].seg = some travelSeg ∧ travelSeg.kind = .travel ∧ travelSeg.deadline.isSome ∧ travelSeg.no ≠ 5
       ∧ s.yard.carriers[(0 : Aisle)].task = none
       ∧ (withYard (modEst 0 fun r => { r with st := .pending }) s).yard.est[(0 : Aisle)].st = .pending)
    ∧ (let s := inWing .clearing (withYard (fun y => modCarrier 0 (fun c => { c with task := some .clearMove })
         (flying travelSeg none y)) base)
       let z : State := { s with wing := { s.wing with clearing := [(0, .requested)] } }
       wingHeld z.wing.st = true ∧ z.yard.carriers[(0 : Aisle)].seg = some travelSeg
         ∧ (0, .requested) ∈ z.wing.clearing ∧ ∃ t, exec (.segmentDeadline 0 4) z = .next t)
    ∧ base.yard.carriers[(0 : Aisle)].seg = none :=
  ⟨by decide +kernel, ⟨rfl, rfl, List.mem_cons_self, _, rfl⟩, rfl⟩

theorem witness_SettleAndDiscoveryEnd :
    (let s := withYard (modEst 0 fun r => { r with st := .settling, settleLeft := 0 }) base
     s.yard.est[(0 : Aisle)].st = .settling ∧ s.yard.est[(0 : Aisle)].settleLeft = 0)
    ∧ (withYard (modEst 0 fun r => { r with st := .settling, settleLeft := 1 }) base).yard.est[(0 : Aisle)].settleLeft ≠ 0
    ∧ base.yard.est[(0 : Aisle)].st ≠ .settling ∧ base.yard.disc.left = none
    ∧ State.reset.yard.disc.left.isSome ∧ State.reset.yard.post.outbox.length < 32
    ∧ (aisleReady (envOf base) 0 base.yard = true ∧ base.yard.arbs[(0 : Aisle)].wasReady = true
        ∧ (modArb 0 (fun r => { r with wasReady := false }) base.yard).arbs[(0 : Aisle)].wasReady = false
        ∧ aisleReady (envOf base) 1 base.yard = false) := by decide +kernel

/-- A carrier with a segment in flight and a task. -/
def doing (g : Segment) (load : Option Nat) (t : Option Task) (y : Yard) : Yard :=
  modCarrier 0 (fun c => { c with task := t }) (flying g load y)

/-- A Retrieve of bin 5 from its cell, at a step. -/
def fetching (st : RStep) : Task := .retrieve 1 5 cellA st none
def mouthSeg : Segment := { forkOutSeg with target := .mouth }

/-- A carrier with bin 5 on its fork. -/
def carrying : Bin := { binA with st := .onCarrier, cell := none, aisle := none }

theorem witness_SegmentsEndByWingState :
    (let s := withYard (doing travelSeg none (some (fetching .toBin))) ordered
     s.yard.carriers[(0 : Aisle)].seg = some travelSeg ∧ s.yard.est[(0 : Aisle)].st ≠ .pending ∧ s.wing.st = .normal
       ∧ travelSeg.kind = .travel ∧ travelSeg.target = .pos cellA.col cellA.level
       ∧ s.yard.carriers[(0 : Aisle)].task = some (.retrieve 1 5 cellA .toBin none)
       ∧ getCell (envOf s) cellA s.yard = .occupied 5 ∧ (cellA.depth = .deep → False)
       ∧ getCell (envOf s) cellD s.yard ≠ .occupied 5)
    ∧ (let g := { travelSeg with target := .pos 0 0 }
       let s := withYard (doing g (some 5) (some (fetching .toMouth))) ordered
       g.kind = .travel ∧ g.target = .pos 0 0 ∧ s.yard.carriers[(0 : Aisle)].task = some (.retrieve 1 5 cellA .toMouth none))
    ∧ (let s := withYard (fun y => doing mouthSeg (some 5) (some (fetching .handoff)) { y with bins := [(5, carrying)] }) ordered
       mouthSeg.kind = .forkOut ∧ mouthSeg.target = .mouth ∧ s.yard.carriers[(0 : Aisle)].load = some 5
         ∧ orderOf 1 s.yard = some orderA ∧ getBin 5 s.yard = some carrying ∧ s.wing.st = .normal)
    ∧ (let s := withYard (fun y => doing forkOutSeg (some 5) (some (.putaway 5 .putCell (some cellA)))
         { y with bins := [(5, carrying)] }) base
       forkOutSeg.kind = .forkOut ∧ forkOutSeg.target = .cell cellA ∧ s.yard.carriers[(0 : Aisle)].load = some 5
         ∧ s.yard.carriers[(0 : Aisle)].task = some (.putaway 5 .putCell (some cellA))
         ∧ inGeometry s.cfg.geometry cellA = true ∧ getCell (envOf s) cellA s.yard ≠ .absent ∧ getBin 5 s.yard = some carrying)
    ∧ (let s := inWing .standby (withYard (flying travelSeg none) base)
       s.wing.st = .standby ∧ s.yard.carriers[(0 : Aisle)].task = none)
    ∧ (let g := { travelSeg with target := .pos 8 0 }
       let s := inWing .parking (withYard (doing g none (some (.parkMove 8))) base)
       s.wing.st = .parking ∧ g.target = .pos 8 0 ∧ s.yard.carriers[(0 : Aisle)].task = some (.parkMove 8))
    ∧ (let s := inWing .parking (withYard (flying travelSeg none) base)
       s.yard.carriers[(0 : Aisle)].task = none ∧ s.yard.carriers[(0 : Aisle)].suspended = none
         ∧ s.yard.carriers[(0 : Aisle)].load = none ∧ (3, 1) ≠ (s.cfg.fire.parkColumn, 0))
    ∧ (let s := { inWing .parking (withYard (flying travelSeg (some 5)) base) with
         wing := { (inWing .parking base).wing with parkTimer := some 300 } }
       s.yard.carriers[(0 : Aisle)].load = some 5
         ∧ ∃ x ∈ parkCell (envOf s) 0 (0, 0) s.yard, (0, 0) ≠ (x.col, x.level))
    ∧ (let s := inWing .clearing (withYard (doing travelSeg none (some .clearMove)) base)
       wingHeld s.wing.st = true ∧ s.yard.carriers[(0 : Aisle)].task = some .clearMove)
    ∧ base.wing.st = .normal ∧ base.wing.cause = .none ∧ (0 : Aisle).val + 1 ≤ base.cfg.geometry.aisleCount
    ∧ base.yard.carriers[(0 : Aisle)].st = .idle ∧ base.yard.carriers[(0 : Aisle)].seg = none
    ∧ base.yard.carriers[(0 : Aisle)].pos = some (0, 0) ∧ CausesTrue base := by
  repeat' apply And.intro
  all_goals decide +kernel

/-- A carrier taking the bin of its inbound place. -/
def inboundSeg : Segment := { forkInSeg with target := .inboundPlace }
def atInbound : Yard → Yard := fun y =>
  doing inboundSeg none (some (.putaway 5 .takeInbound none))
    (modLines (fun l => { l with inbound := l.inbound.set 0 (some 5) })
      { y with bins := [(5, { binA with st := .inbound, cell := none })] })

theorem witness_StrokesEndAsFound :
    (let s := withYard (doing forkInSeg none none) stocked
     s.yard.carriers[(0 : Aisle)].seg = some forkInSeg ∧ s.yard.est[(0 : Aisle)].st ≠ .pending ∧ KSorted s.yard.cells
       ∧ getBin 5 s.yard = some binA ∧ forkInSeg.deadline.isSome ∧ forkInSeg.kind = .forkIn ∧ forkInSeg.target = .cell cellA
       ∧ forkInSeg.expect = some 5 ∧ getCell (envOf s) cellA s.yard = .occupied 5 ∧ binA.st = .stored
       ∧ binA.cell = some cellA ∧ wingHeld (inWing .hold s).wing.st = true ∧ getBin 6 s.yard = none
       ∧ s.yard.post.outbox.length < 32)
    ∧ (let s := withYard (fun y => doing forkOutSeg (some 5) none { y with bins := [(5, carrying)] }) base
       forkOutSeg.kind = .forkOut ∧ forkOutSeg.target = .cell cellA ∧ s.yard.carriers[(0 : Aisle)].load = some 5
         ∧ inGeometry s.cfg.geometry cellA = true ∧ getCell (envOf s) cellA s.yard ≠ .absent ∧ getBin 5 s.yard = some carrying)
    ∧ (let s := withYard (fun y => doing mouthSeg (some 5) none
         (modLines (fun l => { l with mergeGrant := some 0 }) { y with bins := [(5, carrying)] })) base
       mouthSeg.kind = .forkOut ∧ mouthSeg.target = .mouth ∧ s.yard.lines.mergeGrant = some 0)
    ∧ (let s := inWing .parking (withYard (fun y => modCarrier 0 (fun c => { c with st := .forking })
         (doing forkInSeg none none y)) stocked)
       let z : State := { s with wing := { s.wing with parkTimer := some 0 } }
       z.wing.st = .parking ∧ z.wing.parkTimer.isSome ∧ z.yard.carriers[(0 : Aisle)].st = .forking
         ∧ ∀ d : Aisle, d ≠ 0 → z.yard.carriers[d].seg = none)
    ∧ (let s := inWing .hold (withYard (fun y => doing forkInSeg none none
         { y with bins := [(5, binA), (6, carrying), (7, { binA with cell := some cellD })] }) stocked)
       inPlace carrying = true ∧ getBin 6 s.yard = some carrying ∧ (getBin 7 s.yard).map (·.cell) = some (some cellD)
         ∧ cellD ≠ cellA)
    ∧ (let s := inWing .hold (withYard atInbound base)
       wingHeld s.wing.st = true ∧ inboundSeg.kind = .forkIn ∧ inboundSeg.target = .inboundPlace ∧ inboundSeg.expect = some 5
         ∧ s.yard.carriers[(0 : Aisle)].task = some (.putaway 5 .takeInbound none)
         ∧ s.yard.carriers[(0 : Aisle)].suspended = none ∧ s.yard.lines.inbound[(0 : Aisle)] = some 5
         ∧ (getBin 5 s.yard).map (·.st) = some .inbound) := by
  decide +kernel

/-- A survey of the aisle that has one position left. -/
def surveyA : SurveyRun := ⟨true, 1, 8, [cellA], [(3, 1)], true, [], [], 0, 0, 0, 0, 0, false⟩
def readSeg : Segment := { travelSeg with kind := .read, target := .pos 3 1 }

theorem witness_ReadingsCorrectTheMap :
    GeometryFits (envOf stocked).cfg.geometry ∧ (KSorted stocked.yard.cells
      ∧ getCell (envOf stocked) cellA stocked.yard = .occupied 5 ∧ getBin 5 stocked.yard = some binA ∧ inPlace carrying = true
      ∧ getCell (envOf stocked) cellD stocked.yard = .empty ∧ getBin 6 stocked.yard = none ∧ cellA ≠ cellD
      ∧ getCell (envOf base) cellD (setCell (envOf base) cellD .disabled base.yard) = .disabled)
    ∧ ((⟨.empty, .unreadable⟩ : SideRead).front = .empty ∧ (⟨.unreadable, .empty⟩ : SideRead).front ≠ .empty)
    ∧ (let s := withYard (doing readSeg none (some (.survey surveyA))) stocked
       s.yard.carriers[(0 : Aisle)].seg = some readSeg ∧ readSeg.kind = .read ∧ s.yard.est[(0 : Aisle)].st ≠ .pending
         ∧ s.yard.carriers[(0 : Aisle)].task = some (.survey surveyA) ∧ surveyA.ended = false ∧ surveyA.todo = [(3, 1)]
         ∧ s.wing.st = .normal ∧ (inWing .standby s).wing.st = .standby
         ∧ (let rest := { s.yard with bus := [], carriers := s.yard.carriers.set 0 { s.yard.carriers[(0 : Aisle)] with seg := none } }
            let read : SideRead := ⟨.empty, .empty⟩
            let north := readSide (envOf s) ⟨0, .north, 3, 1, .front⟩ read rest { surveyA with todo := [], reading := false }
            let south := (readSide (envOf s) ⟨0, .south, 3, 1, .front⟩ read north.1 north.2).1
            NoTrayChooses south ∧ south.post.outbox.length < 32))
    ∧ (let y := fun (x : CellAddr) (c : Cell) => setCell (envOf base) cellA c { base.yard with
         orders := [orderA], bins := [(5, { binA with live := some 1, cell := some x })], cells := [(cellCode cellD, .occupied 5)] }
       let out := fun z => orderOutcome (envOf base) orderA z
       let gone := { base.yard with orders := [orderA] }
       let front := y cellD
       let full := (aisleCells base.cfg.geometry 0).foldl
         (fun z x => if x = cellA ∨ x = cellD then z else setCell (envOf base) x .disabled z) (front (.occupied 6))
       orderA.st = .queued ∧ orderOf 1 gone = some orderA ∧ getBin 5 gone = none ∧ out gone = .blocked .unverified
         ∧ cellA.depth = .front ∧ out (y cellA (.occupied 5)) = .queued
         ∧ out (modEst 0 (fun r => { r with inForce := .off }) (y cellA (.occupied 5))) = .blocked .aisleDown
         ∧ cellD.depth = .deep ∧ out (front .empty) = .queued
         ∧ out (front (.reserved 6 .putAway)) = .blocked .frontReserved ∧ out (front .disabled) = .blocked .frontReserved
         ∧ out (front (.unverified none)) = .blocked .unverified
         ∧ (shuffleTarget (envOf base) cellD (front (.occupied 6))).isSome ∧ out (front (.occupied 6)) = .queued
         ∧ shuffleTarget (envOf base) cellD full = none ∧ out full = .blocked .noRoom
         ∧ (let o : Order := { orderA with cls := .space, picks := [] }
            let z := modTray 0 (fun t => { t with spaceOrder := some 1, demand := true }) { base.yard with orders := [o] }
            orderOf 1 z = some o ∧ orderOutcome (envOf base) o z = .blocked .unverified ∧ o.cls = .space ∧ o.picks = []
              ∧ o.retire = false ∧ z.trays[(0 : Station)].spaceOrder = some o.no ∧ z.trays[(0 : Station)].demand = true)) :=
  ⟨⟨by decide, by decide⟩, by decide +kernel⟩

theorem witness_ArbitersAndTraysChoose :
    (let y := stocked.yard
     y.carriers[(0 : Aisle)].st = .idle ∧ aisleReady (envOf stocked) 0 y = true ∧ y.journal.holdOff = false
       ∧ (envOf stocked).wing = .normal ∧ y.carriers[(0 : Aisle)].load = none ∧ y.lines.inbound[(0 : Aisle)] = none
       ∧ eligibleOrders (envOf stocked) 0 y = [])
    ∧ (let y := modCarrier 0 (fun c => { c with load := some 5 }) base.yard
       y.carriers[(0 : Aisle)].load = some 5 ∧ (putAwayCell (envOf base) 0 y).isSome)
    ∧ (let y := modArb 0 (fun r => { r with surveyReq := some ⟨true, 1, 8⟩ }) base.yard
       y.arbs[(0 : Aisle)].surveyReq = some ⟨true, 1, 8⟩ ∧ (surveyRun (envOf base) 0 ⟨true, 1, 8⟩ y).todo ≠ []
         ∧ KSorted y.bins)
    ∧ (let y := modArb 0 (fun r => { r with surveyReq := some ⟨false, 1, 8⟩ }) base.yard
       (surveyRun (envOf base) 0 ⟨false, 1, 8⟩ y).todo = [] ∧ 1 ≤ base.cfg.geometry.columns ∧ 1 ≤ base.cfg.geometry.levels)
    ∧ (let y := modLines (fun l => { l with inbound := l.inbound.set 0 (some 6) })
         (modCarrier 0 (fun c => { c with pos := some (2, 0) }) base.yard)
       y.lines.inbound[(0 : Aisle)] = some 6 ∧ hasCandidate (envOf base) 0 y = true ∧ eligibleOrders (envOf base) 0 y = []
         ∧ carrierPos y.carriers[(0 : Aisle)] ≠ mouthPos)
    ∧ (let y := ordered.yard
       rankFirst (envOf ordered) y (eligibleOrders (envOf ordered) 0 y) = some orderA ∧ storedCell 5 y = some cellA
         ∧ (orderRetrieval (envOf ordered) orderA y).isSome ∧ carrierPos y.carriers[(0 : Aisle)] ≠ cellPos cellA)
    ∧ (let y := modTray 1 (fun t => { t with items := [⟨itemB, 20, 0, .waiting, false⟩], demand := true }) stocked.yard
       KSorted y.bins ∧ (chooseBin (envOf stocked) 1 y).map (·.bin) = some 5 ∧ y.trays[(1 : Station)].demand = true
         ∧ y.trays[(1 : Station)].spaceOrder = none ∧ y.orders.length < 96
         ∧ 96 ≤ ({ y with orders := (List.range 96).map fun n => { orderA with no := n + 1, bin := n + 6 } } : Yard).orders.length)
    ∧ base.yard.trays[(1 : Station)].demand = false
    ∧ (let y := modTray 1 (fun t => { t with items := [⟨itemB, 20, 0, .waiting, false⟩], demand := true }) base.yard
       chooseBin (envOf base) 1 y = none ∧ y.trays[(1 : Station)].demand = true
         ∧ y.trays[(1 : Station)].spaceOrder = none ∧ y.trays[(1 : Station)].noSpace = false ∧ y.post.outbox.length < 32
         ∧ (modTray 1 (fun t => { t with refusedFull := true }) y).trays[(1 : Station)].refusedFull = true
         ∧ (modTray 1 (fun t => { t with spaceOrder := some 1 }) y).trays[(1 : Station)].spaceOrder = some 1) := by
  decide +kernel

theorem witness_DriveReportEndsOffline :
    (let s := withYard (modCarrier 0 fun c => { c with st := .offline }) base
     s.wing.st = .normal ∧ (0 : Aisle).val + 1 ≤ s.cfg.geometry.aisleCount ∧ s.yard.carriers[(0 : Aisle)].st = .offline
       ∧ s.yard.carriers[(0 : Aisle)].clear = none ∧ s.yard.carriers[(0 : Aisle)].load = none
       ∧ s.yard.carriers[(0 : Aisle)].task = none ∧ s.yard.carriers[(0 : Aisle)].suspended = none)
    ∧ (let s := inWing .restarting (withYard (fun y => modCarrier 0 (fun c => { c with st := .halted, load := some 5 })
         { y with bins := [(5, { binA with st := .onCarrier, cell := none })] }) base)
       s.wing.st = .restarting ∧ s.yard.carriers[(0 : Aisle)].st = .halted ∧ s.yard.carriers[(0 : Aisle)].load = some 5
         ∧ s.yard.est[(0 : Aisle)].st ≠ .pending ∧ (getBin 5 s.yard).isSome) := by decide +kernel

theorem witness_CarrierClearAsksDrive :
    (let s := withYard (modCarrier 0 fun c => { c with st := .faulted, fault := some .forkJam }) base
     s.yard.carriers[(0 : Aisle)].st = .faulted ∧ s.yard.carriers[(0 : Aisle)].clear = none ∧ s.wing.st = .normal)
    ∧ base.yard.carriers[(0 : Aisle)].st ≠ .faulted
    ∧ (let s := asking (withYard (modCarrier 0 fun c => { c with st := .faulted, clear := some ⟨0, 1⟩ }) stocked)
       s.yard.carriers[(0 : Aisle)].clear = some ⟨0, 1⟩ ∧ s.yard.carriers[(0 : Aisle)].st = .faulted
         ∧ (0 : Aisle).val + 1 ≤ s.cfg.geometry.aisleCount ∧ s.yard.carriers[(0 : Aisle)].task = none
         ∧ s.yard.carriers[(0 : Aisle)].load = none ∧ getBin 5 s.yard = some binA ∧ KSorted s.yard.cells
         ∧ getCell (envOf s) cellA s.yard = .occupied 5 ∧ s.wing.st = .normal
         ∧ (inWing .hold s).wing.st ≠ .normal ∧ (inWing .hold s).wing.st ≠ .standby)
    ∧ (let t : Task := .putaway 6 .toCell (some cellD)
       let s := withYard (fun y => modCarrier 0 (fun c => { c with st := .faulted, clear := some ⟨0, 1⟩, load := some 6, task := some t })
         (reserve (envOf stocked) cellD 6 .putAway y)) stocked
       s.yard.carriers[(0 : Aisle)].task = some t ∧ s.yard.carriers[(0 : Aisle)].seg = none ∧ KSorted s.yard.cells
         ∧ s.yard.carriers[(0 : Aisle)].load = some 6 ∧ getCell (envOf s) cellD s.yard = .reserved 6 .putAway)
    ∧ ((0 : Nat) = 0 ∧ (6 : Nat) < 7 ∧ aisleNo 5 = 6) := by decide +kernel

/-- An orphan's session at station 1, and the same bin in a station's Next place, on its way there. -/
def orphanDesk : State := withYard (fun y => modStation 0 (fun r => { r with session := some { sessionB with order := none } })
  { y with orders := [], bins := [(6, { binB with live := none })] }) atDesk
def orphanComing : State := withYard (fun y => modStation 0 (fun r => { r with next := some ⟨6, none⟩ })
  { y with bins := [(6, { binB with live := none })] }) base

/-- The station places of a bin without a live order, and its other places, that a Lend or a Fetch meets. -/
theorem witness_circumstances :
    (sessionOfBin 6 orphanDesk.yard = some 0
      ∧ orphanDesk.yard.stations[(0 : Station)].session = some { sessionB with order := none } ∧ sessionB.releasing = false
      ∧ getBin 6 orphanDesk.yard = some { binB with live := none } ∧ binB.st ≠ .retired
      ∧ orphanDesk.yard.orders.length < 96 ∧ serves orphanDesk.yard.stations[(0 : Station)].role .reader = true)
    ∧ (sessionOfBin 6 orphanComing.yard = none ∧ comingTo 6 orphanComing.yard = some 0
      ∧ serves orphanComing.yard.stations[(0 : Station)].role .reader = true)
    ∧ (let s := withYard (modSession 0 fun x => { x with releasing := true }) orphanDesk
       sessionOfBin 6 s.yard = some 0 ∧ ∃ x ∈ s.yard.stations[(0 : Station)].session, x.releasing = true)
    ∧ (AddressedTo (envOf stocked) .reader 0 stocked.yard 0 ∧ AddressedTo (envOf stocked) .staff 2 stocked.yard 1
      ∧ AddressedTo (envOf stocked) .staff 0 stocked.yard 0)
    ∧ sessionOfBin 5 stocked.yard = none ∧ comingTo 5 stocked.yard = none
    ∧ (let s := withYard (fun y => { y with stations := y.stations.map fun r => { r with role := .closed } }) stocked
       ∀ st : Station, ¬serves s.yard.stations[st].role .reader = true) := by decide +kernel

theorem witness_LendMakesReaderOrder : Taken hdr stocked ∧ (9 : Nat) ≠ 0 ∧ itemOk itemA = true ∧ stocked.wing.st = .normal
    ∧ getBin 5 stocked.yard = some binA ∧ binA.st = .stored ∧ binA.live = none ∧ sessionOfBin 5 stocked.yard = none
    ∧ comingTo 5 stocked.yard = none ∧ slipInQueue 9 stocked.yard = false ∧ itemInUse itemA stocked.yard = false
    ∧ serves stocked.yard.stations[(0 : Station)].role .reader = true ∧ stocked.yard.orders.length < 96
    ∧ getBin 5 ordered.yard = some { binA with live := some 1 } ∧ orderOf 1 ordered.yard = some orderA
    ∧ slipInQueue 10 ordered.yard = false ∧ itemInUse itemB ordered.yard = false ∧ orderA.picks.length < 8
    ∧ (Taken hdr orphanDesk ∧ Taken hdr orphanComing ∧ slipInQueue 9 orphanDesk.yard = false
        ∧ itemInUse itemA orphanDesk.yard = false ∧ ∀ st : Station, (0 : Nat) ≠ stationNo st) :=
  ⟨takenIf stocked ⟨rfl, rfl, rfl, rfl⟩, by decide +kernel, by decide +kernel, by decide +kernel, by decide +kernel,
    by decide +kernel, by decide +kernel, by decide +kernel, by decide +kernel, by decide +kernel, by decide +kernel,
    by decide +kernel, by decide +kernel, by decide +kernel, by decide +kernel, by decide +kernel, by decide +kernel,
    by decide +kernel, takenIf _ ⟨rfl, rfl, rfl, rfl⟩, takenIf _ ⟨rfl, rfl, rfl, rfl⟩, by decide +kernel⟩

theorem witness_LendChecksInOrder : Taken hdr ordered
    ∧ (inWing .standby ordered).wing.st = .standby ∧ (∀ r, getBin 6 ordered.yard = some r → r.st = .retired)
    ∧ slipInQueue 9 ordered.yard = true ∧ slipInQueue 10 ordered.yard = false ∧ itemInUse itemB ordered.yard = false
    ∧ serves ordered.yard.stations[(1 : Station)].role .reader = false ∧ (2 : Nat) = stationNo 1
    ∧ ¬(itemOk itemB = false ∨ (5 : Nat) = 0 ∨ 20480 < 5) :=
  ⟨takenIf ordered ⟨rfl, rfl, rfl, rfl⟩, rfl, noBin (by decide +kernel), by decide +kernel⟩

theorem witness_FetchMakesStaffOrder : Taken hdr stocked ∧ stocked.wing.st = .normal ∧ getBin 5 stocked.yard = some binA
    ∧ serves stocked.yard.stations[(0 : Station)].role .staff = true ∧ comingTo 5 stocked.yard = none
    ∧ sessionOfBin 5 stocked.yard = none ∧ getBin 5 ordered.yard = some { binA with live := some 1 }
    ∧ orderOf 1 ordered.yard = some orderA ∧ ¬((20480 : Nat) = 0 ∨ 20480 < 20480 ∨ 4 < 4) ∧ ((20481 : Nat) = 0 ∨ 20480 < 20481 ∨ 4 < 0)
    ∧ (inWing .restarting base).wing.st = .restarting ∧ getBin 6 stocked.yard = none
    ∧ serves (withYard (modStation 3 fun r => { r with role := .closed }) stocked).yard.stations[(3 : Station)].role .staff = false
    ∧ (let s := withYard (fun y => { y with stations := y.stations.map fun r => { r with role := .closed } }) stocked
       (0 : Nat) = 0 ∧ ∀ st : Station, serves s.yard.stations[st].role .staff = false)
    ∧ 96 ≤ (withYard (fun y => { y with orders := (List.range 96).map fun n => { orderA with no := n + 1, bin := n + 6 } })
        stocked).yard.orders.length
    ∧ (inWing .clearing stocked).wing.st = .clearing ∧ (∀ st : Station, (0 : Nat) ≠ stationNo st) :=
  ⟨takenIf stocked ⟨rfl, rfl, rfl, rfl⟩, by decide +kernel⟩

theorem witness_CancelLendSettlesPick : Taken hdr atDesk
    ∧ slipPick 8 atDesk.yard = some (orderB, ⟨8, itemA, 10, .opened⟩) ∧ orderB.st = .atStation
    ∧ slipPick 9 atDesk.yard = none
    ∧ slipPick 8 (withYard (modOrder 2 fun o => { o with picks := [⟨8, itemA, 10, .done⟩] }) atDesk).yard
        = some ({ orderB with picks := [⟨8, itemA, 10, .done⟩] }, ⟨8, itemA, 10, .done⟩)
    ∧ (slipPick 9 ordered.yard = some (orderA, ⟨9, itemA, 10, .opened⟩) ∧ orderA.st = .queued
        ∧ (orderA.picks.filter fun q => q.slip ≠ 9) = [] ∧ orderA.cls = .reader ∧ orderA.retire = false
        ∧ orderOf 1 ordered.yard = some orderA ∧ ordered.yard.trays[(0 : Station)].demand = false)
    ∧ (let o : Order := { orderA with st := .blocked .noRoom, retire := true }
       slipPick 9 (withYard (modOrder 1 fun _ => o) ordered).yard = some (o, ⟨9, itemA, 10, .opened⟩) ∧ o.retire ≠ false) :=
  ⟨takenIf atDesk ⟨rfl, rfl, rfl, rfl⟩, by decide +kernel⟩

theorem witness_RankingIsByClassScorePlace :
    rankFirst (envOf ordered) ordered.yard [orderA, { orderA with no := 3 }] = some orderA
    ∧ orderEstimate (envOf ordered) orderA ordered.yard = some 82
    ∧ orderA ∈ eligibleOrders (envOf ordered) 0 ordered.yard := by decide +kernel

theorem witness_StartsLoadFromFlash : ({ base with link := { base.link with restart := .due } } : State).link.restart = .due
    ∧ base.link.restart ≠ .due := by decide

theorem witness_StartEntersNormal : SessionsSafe (inWing .standby base) ∧ Taken hdr (inWing .standby base)
    ∧ (inWing .standby base).wing.st = .standby
    ∧ (inWing .standby base).cfg.geomValid = true ∧ (inWing .standby base).wing.cause = .none
    ∧ (∀ st : Station, levelCondition (envOf (inWing .standby base)) (inWing .standby base).yard.trays[st] = false)
    ∧ (∀ a : Aisle, base.yard.carriers[a].st ≠ .held) ∧ base.sweep.run ≠ .stopping ∧ base.wing.st = .normal
    ∧ State.reset.cfg.geomValid = false ∧ State.reset.wing.st = .standby
    ∧ (inWing .hold base).wing.st ≠ .normal ∧ (inWing .hold base).wing.st ≠ .standby :=
  ⟨sessionsIf _ (by decide +kernel), takenIf _ ⟨rfl, rfl, rfl, rfl⟩, by decide +kernel⟩

/-- The wing Sealed with the open incident 4. -/
def sealed4 : State := { base with wing := { base.wing with
  st := .sealed, incidentNo := 4, shutClose := true, drvPwr := false
  incident := some ⟨4, some (.panel .discharge), some 0, .trip, [], 0, [], [], false, some .done, none, true, false⟩ } }

theorem witness_ResumeAndRestartAct : Taken hdr sealed4 ∧ sealed4.wing.st = .sealed ∧ (4 : Nat) ≠ 0
    ∧ 4 = sealed4.wing.incidentNo ∧ sealed4.wing.cause = .none ∧ base.wing.st ≠ .sealed ∧ 5 ≠ sealed4.wing.incidentNo
    ∧ ({ sealed4 with wing := { sealed4.wing with cause := .hold } } : State).wing.cause ≠ .none
    ∧ (inWing .sealing base).wing.st = .sealing ∧ base.wing.st ≠ .sealing :=
  ⟨takenIf _ ⟨rfl, rfl, rfl, rfl⟩, by decide +kernel⟩

theorem witness_ConfigureTakesSectionsInOrder : Taken hdr base
    ∧ sectionsOf (.configureTrays hdr none none [.dispatch none none]) = some (hdr, [.trays none none, .dispatch none none])
    ∧ (([.trays none none, .dispatch none none] : List CfgSection).map secCode).Nodup
    ∧ ¬(([.trays none none, .trays none none] : List CfgSection).map secCode).Nodup
    ∧ (∀ a : Aisle, base.yard.est[a].inForce ≠ .off) ∧ NoTrayChooses base.yard
    ∧ base.cfg.assign[(0 : Aisle)] ≠ .off ∧ base.yard.carriers[(0 : Aisle)].seg = none
    ∧ (withYard (flying travelSeg none) base).yard.carriers[(0 : Aisle)].seg.isSome ∧ (0 : Nat) ≠ 1 ∧ (0 : Nat) ≠ 2
    ∧ sweepForm (some (16, 0)) [] = true ∧ base.sweep.run ≠ .stopped
    ∧ (let s := inWing .standby { base with sweep := { base.sweep with run := .stopped } }
       s.sweep.run = .stopped ∧ s.wing.st = .standby ∧ stageRank s.sweep.slots[(0 : Slot)].stage = 0
         ∧ (∀ z : Zone, s.sweep.zones[z].stage = zoneStage s.sweep z) ∧ s.sweep.slots[(0 : Slot)].cfg.kind ≠ .heat
         ∧ s.sweep.slots[(0 : Slot)].cfg.zone ≠ 1) := ⟨taken_base, by decide +kernel⟩

theorem witness_ConfigureClampsValues : Taken hdr base ∧ max 0 (min 60 0) = 0 ∧ max 0 (min 60 1) ≠ 0
    ∧ Taken hdr (inWing .hold base) ∧ (inWing .hold base).wing.st ≠ .normal :=
  ⟨taken_base, by decide, by decide, takenIf _ ⟨rfl, rfl, rfl, rfl⟩, by decide⟩

theorem witness_ConfigureSetsPlaces : Taken hdr (inWing .standby stocked) ∧ (inWing .standby stocked).wing.st = .standby
    ∧ KSorted stocked.yard.cells ∧ GeometryFits stocked.cfg.geometry
    ∧ (∀ x : CellAddr, getCell (envOf (inWing .standby base)) x base.yard = .empty
        ∨ getCell (envOf (inWing .standby base)) x base.yard = .absent)
    ∧ (∀ n : Aisle, base.yard.lines.inbound[n] = none ∧ base.yard.carriers[n].load = none
        ∧ base.yard.arbs[n].surveyReq = none ∧ base.yard.carriers[n].task = none ∧ base.yard.carriers[n].suspended = none)
    ∧ (let s : State := { stocked with cfg := { stocked.cfg with geometry := ⟨1, 16, 8⟩ } }
       let x : CellAddr := { cellA with level := 7 }
       (4 : Nat) ≤ x.level ∧ getCell (envOf s) x (setCell (envOf s) x (.unverified none) s.yard) = .unverified none)
    ∧ (let s := withYard (modLines fun l => { l with inbound := l.inbound.set 1 (some 6) })
         { stocked with cfg := { stocked.cfg with geometry := ⟨2, 8, 4⟩ } }
       (1 : Nat) < aisleNo 1 ∧ aisleNo 1 ≤ s.cfg.geometry.aisleCount ∧ s.yard.lines.inbound[(1 : Aisle)] ≠ none)
    ∧ (withYard (modArb 0 fun r => { r with surveyReq := some ⟨false, 1, 8⟩ }) stocked).yard.arbs[(0 : Aisle)].surveyReq ≠ none
    ∧ getCell (envOf stocked) cellD stocked.yard = .empty ∧ stocked.yard.carriers[(0 : Aisle)].seg = none
    ∧ getCell (envOf stocked) cellA stocked.yard = .occupied 5
    ∧ (let g := { forkInSeg with target := .cell cellD }
       let s := withYard (flying g none) base
       s.yard.carriers[(0 : Aisle)].seg = some g ∧ g.kind = .forkIn ∧ g.target = .cell cellD ∧ cellD.depth = .deep
         ∧ cellA = { cellD with depth := .front } ∧ getCell (envOf s) cellA s.yard = .empty)
    ∧ getCell (envOf base) cellD (setCell (envOf base) cellD .disabled base.yard) = .disabled
    ∧ (let others := fun (s : State) (st : Station) => ((([0, 1, 2, 3] : List Station).filter fun x =>
         x ≠ st ∧ s.yard.stations[x].role ≠ .closed).map fun x => 2 + s.cfg.stations[x].allowance).sum
       others base 0 ≤ 10 ∧ base.yard.stations[(3 : Station)].role = .closed
         ∧ 10 < others { base with cfg := { base.cfg with stations := base.cfg.stations.set 0 ⟨.lending, 6⟩ } } 3)
    ∧ (let y := modStation 3 (fun r => { r with next := some ⟨6, none⟩ }) base.yard
       base.cfg.stations[(3 : Station)].role = .closed ∧ y.stations[(3 : Station)].role = .closed ∧ committed 3 y = 1
         ∧ committed 3 base.yard = 0 ∧ base.cfg.stations[(0 : Station)].role ≠ .closed) :=
  ⟨takenIf _ ⟨rfl, rfl, rfl, rfl⟩, rfl, by decide +kernel, ⟨by decide, by decide⟩,
    fun x => by unfold getCell; split <;> simp [base, Yard.reset], by decide +kernel⟩

theorem witness_TrayTakesItem : Taken hdr base ∧ itemOk itemB = true ∧ base.wing.st = .normal
    ∧ takesReturns base.yard.stations[(1 : Station)].role = true ∧ base.yard.trays[(1 : Station)].items.length < 24
    ∧ itemInUse itemB base.yard = false ∧ base.yard.stations[(1 : Station)].session = none
    ∧ itemOk [] = false ∧ stationNo 3 = 4 ∧ (inWing .standby base).wing.st = .standby
    ∧ takesReturns (withYard (modStation 1 fun r => { r with role := .closed }) base).yard.stations[(1 : Station)].role = false
    ∧ 24 ≤ (withYard (modTray 1 fun t => { t with items := List.replicate 24 ⟨itemA, 20, 0, .waiting, false⟩ })
        base).yard.trays[(1 : Station)].items.length
    ∧ itemInUse itemB (trayed false).yard = true := ⟨taken_base, by decide +kernel⟩

theorem witness_TrayDemandFollowsRequests : Taken hdr (trayed false) ∧ (trayed false).wing.st = .normal
    ∧ takesReturns (trayed false).yard.stations[(1 : Station)].role = true
    ∧ waitingCount (trayed false).yard.trays[(1 : Station)] ≠ 0 ∧ waitingCount base.yard.trays[(1 : Station)] = 0
    ∧ (trayed false).yard.trays[(1 : Station)].spaceOrder = none
    ∧ (withYard (modTray 1 fun t => { t with spaceOrder := some 3 }) (trayed false)).yard.trays[(1 : Station)].spaceOrder = some 3
    ∧ itemOk itemB = true ∧ trayItem 1 itemB (trayed false).yard = some ⟨itemB, 20, 0, .waiting, false⟩
    ∧ waitedLimit (envOf { trayed false with clock := ⟨900, 0⟩ }) ⟨itemB, 20, 0, .waiting, false⟩ = true
    ∧ trayItem 1 itemB (trayed true).yard = some ⟨itemB, 20, 0, .waiting, true⟩
    ∧ (inWing .hold base).wing.st ≠ .normal ∧ itemOk [] = false ∧ trayItem 1 itemA (trayed false).yard = none
    ∧ trayItem 1 itemB placing.yard = some ⟨itemB, 20, 0, .assigned 6, false⟩
    ∧ takesReturns (withYard (modStation 1 fun r => { r with role := .closed }) base).yard.stations[(1 : Station)].role = false :=
  ⟨takenIf _ ⟨rfl, rfl, rfl, rfl⟩, by decide +kernel⟩

theorem witness_SurveyRequestIsHeld : Taken hdr base ∧ base.wing.st = .normal ∧ aisleIn (envOf base) 0 = true
    ∧ surveying 0 base.yard = false ∧ aisleIn (envOf base) 1 = false ∧ wingHeld (inWing .hold base).wing.st = true
    ∧ (inWing .parking base).wing.st = .parking := ⟨taken_base, by decide +kernel⟩

theorem witness_AcceptMapSettlesAisle :
    (let s := withYard (fun y => { y with cells := [(cellCode cellA, .unverified (some 5))] }) ordered
     Taken hdr s ∧ (s.yard.orders.map (·.no)).Nodup ∧ (∃ p ∈ s.yard.orders, p.cls ≠ .space)
       ∧ (∀ st : Station, s.yard.trays[st].demand = false) ∧ KSorted s.yard.cells ∧ s.wing.st = .normal ∧ NoTrayChooses s.yard ∧ aisleIn (envOf s) 0 = true
       ∧ surveying 0 s.yard = false ∧ getCell (envOf s) cellA s.yard = .unverified (some 5)
       ∧ (inWing .sealed s).wing.st = .sealed ∧ aisleIn (envOf s) 1 = false ∧ (6 : Nat) = aisleNo 5) :=
  ⟨takenIf _ ⟨rfl, rfl, rfl, rfl⟩, by decide +kernel⟩

/-- Both lines Halted. -/
def halted : State := withYard (fun y => modLine .ret (fun r => { r with st := .halted })
  (modLine .delivery (fun r => { r with st := .halted }) y)) base

/-- A LineClear of a line that waits, its request in the inbox. -/
def clearingLine (l : LineId) (w : LineClearWait) : State :=
  asking (withYard (fun y => modLine l (fun r => { r with clear := some w }) { y with disc := { y.disc with silent := [] } }) halted)

theorem witness_LineClearAsksReports : Taken hdr halted ∧ (lineRec .delivery halted.yard).st ≠ .running
    ∧ (lineRec .delivery halted.yard).clear = none ∧ halted.wing.st = .normal
    ∧ (lineRec .ret base.yard).st = .running ∧ halted.wing.st ≠ .restarting
    ∧ Device.line .ret ∉ halted.yard.disc.expected ∧ LineId.ret ∉ halted.yard.disc.asked
    ∧ (Device.line .delivery ∉ halted.yard.disc.expected ∧ LineId.delivery ∉ halted.yard.disc.asked)
    ∧ (∀ w : LineClearWait, (lineRec .ret (clearingLine .ret w).yard).clear = some w
        ∧ (lineRec .delivery (clearingLine .delivery w).yard).clear = some w
        ∧ (clearingLine .delivery w).wing.st = .normal ∧ (clearingLine .delivery w).yard.disc.silent = []
        ∧ (inWing .hold (clearingLine .delivery w)).wing.st ≠ .normal
        ∧ (inWing .hold (clearingLine .delivery w)).wing.st ≠ .standby)
    ∧ (let w : LineClearWait := ⟨0, 1, true, [3], [.contents [6] [] false, .full 0 none none]⟩
       w.terminals ≠ [] ∧ (3 : Station) ∈ w.terminals ∧ (w.terminals.filter fun x => x ≠ 3) = [] ∧ w.driveDone = true
         ∧ (w.terminals.filter fun x => x ≠ 0) ≠ [] ∧ (0 : Station) ∉ w.terminals ∧ HeldReport.full 0 none none ∈ w.held
         ∧ ({ w with driveDone := false } : LineClearWait).driveDone = false ∧ ({ w with terminals := [] } : LineClearWait).terminals = []) :=
  ⟨takenIf _ ⟨rfl, rfl, rfl, rfl⟩, by decide +kernel, by decide +kernel, rfl, by decide +kernel, by decide +kernel, by decide +kernel,
    by decide +kernel, by decide +kernel, fun _ => ⟨rfl, rfl, rfl, rfl, by simp [inWing], by simp [inWing]⟩, by decide +kernel⟩

theorem witness_ContentsReportSetsLine : (lineRec .ret halted.yard).clear = none
    ∧ (inWing .restarting base).wing.st = .restarting ∧ [1, 20480].Nodup ∧ (∀ b ∈ [1, 20480], 1 ≤ b ∧ b ≤ 20480)
    ∧ (∀ b ∈ [1, 20480], reportConflict b .ret halted.yard = false)
    ∧ (let s := inWing .restarting (withYard (modLines fun l => { l with delivery := [⟨7, 0, some 0⟩] }) stocked)
       reportConflict 5 .delivery s.yard = false ∧ getBin 5 s.yard = some binA ∧ KSorted s.yard.cells
         ∧ getCell (envOf s) cellA s.yard = .occupied 5) := by
  decide +kernel

/-- A transfer of bin 6 in flight on a line. -/
def moving (l : LineId) (k : TransferKind) (y : Yard) : Yard := modLine l (fun r => { r with transfers := [⟨3, k, 6, 50⟩] }) y

theorem witness_TransfersMoveTheirBin :
    (let s := withYard (fun y => moving .delivery (.diversion 0)
       (modLines (fun l => { l with delivery := [⟨6, 0, some 0⟩] }) { y with bins := [(6, binB)] })) base
     transferOf .delivery 3 s.yard = some ⟨3, .diversion 0, 6, 50⟩
       ∧ s.yard.lines.delivery.find? (fun q => q.bin = 6) = some ⟨6, 0, some 0⟩
       ∧ s.yard.stations[(0 : Station)].next = none ∧ getBin 6 s.yard = some binB)
    ∧ (let s := withYard (fun y => moving .delivery (.advance 0)
         (modStation 0 (fun r => { r with next := some ⟨6, some 0⟩ }) { y with bins := [(6, binB)] })) base
       transferOf .delivery 3 s.yard = some ⟨3, .advance 0, 6, 50⟩ ∧ s.yard.stations[(0 : Station)].next = some ⟨6, some 0⟩
         ∧ s.yard.stations[(0 : Station)].present = none ∧ s.yard.stations[(0 : Station)].session = none
         ∧ getBin 6 s.yard = some binB ∧ binB.retirePending = false)
    ∧ (let s := withYard (moving .ret (.release 0)) atDesk
       transferOf .ret 3 s.yard = some ⟨3, .release 0, 6, 50⟩
         ∧ s.yard.stations[(0 : Station)].present = some ⟨6, some 0⟩ ∧ getBin 6 s.yard = some binB)
    ∧ (let s := withYard (fun y => moving .ret (.inbound 0)
         (modLines (fun l => { l with returns := [⟨6, 0⟩] }) { y with bins := [(6, binB)] })) base
       transferOf .ret 3 s.yard = some ⟨3, .inbound 0, 6, 50⟩ ∧ (∃ p ∈ s.yard.lines.returns, p.bin = 6)
         ∧ s.yard.lines.inbound[(0 : Aisle)] = none ∧ getBin 6 s.yard = some binB)
    ∧ transferOf .delivery 3 base.yard = none ∧ transferOf .ret 3 base.yard = none := by decide +kernel

/-- The states in which the tests after every command begin a transfer or a merge, or give the head another aisle. -/
theorem witness_transfers_begin :
    ((envOf base).wing = .normal ∧ (∀ l ∈ [LineId.delivery, .ret], (lineRec l base.yard).st = .running ∧ (lineRec l base.yard).transfers = [])
        ∧ (∀ st : Station, base.yard.stations[st].next = none ∧ base.yard.stations[st].present = none)
        ∧ base.yard.lines.mergeGrant = none ∧ base.yard.lines.releaseList = [] ∧ base.yard.lines.mergeList = []
        ∧ base.yard.lines.delivery = [] ∧ base.yard.lines.returns = [])
    ∧ (let y := modLines (fun l => { l with delivery := [⟨6, 0, some 0⟩] }) base.yard
       y.lines.delivery = [⟨6, 0, some 0⟩] ∧ (diversionTest (envOf base) y).lines.del.transfers = [⟨1, .diversion 0, 6, 100⟩])
    ∧ (let y := modStation 0 (fun r => { r with next := some ⟨6, some 0⟩ }) base.yard
       y.stations[(0 : Station)].next = some ⟨6, some 0⟩
         ∧ (advanceTest (envOf base) 0 y).lines.del.transfers = [⟨1, .advance 0, 6, 100⟩])
    ∧ (let y := modLines (fun l => { l with releaseList := [0] }) atDesk.yard
       y.lines.releaseList = [0] ∧ y.stations[(0 : Station)].present = some ⟨6, some 0⟩ ∧ y.lines.returns.length < 12
         ∧ (releaseTest (envOf atDesk) y).lines.ret.transfers = [⟨1, .release 0, 6, 100⟩])
    ∧ (let y := modLines (fun l => { l with returns := [⟨6, 0⟩] }) base.yard
       let z := modLines (fun l => { l with returns := [⟨6, 1⟩] }) base.yard
       let fit := fun a : Aisle => aisleReady (envOf base) a y && hasCandidate (envOf base) a y
       fit 0 = true ∧ fit 1 = false ∧ y.lines.inbound[(0 : Aisle)] = none
         ∧ (inboundTest (envOf base) y).lines.ret.transfers = [⟨1, .inbound 0, 6, 100⟩]
         ∧ (headTest (envOf base) z).lines.returns = [⟨6, 0⟩] ∧ (∀ x : Aisle, fit x = true → x = 0)
         ∧ (∃ x ∈ (moving .ret (.inbound 0) y).lines.ret.transfers, ∃ a, x.kind = .inbound a)
         ∧ ∀ a : Aisle, ¬aisleReady (envOf base) a (modEst 0 (fun r => { r with st := .settling }) y) = true)
    ∧ (let y := modLines (fun l => { l with mergeList := [0] })
         (modCarrier 0 (fun c => { c with st := .waitMerge, task := some (fetching .waitMerge), load := some 5 }) base.yard)
       y.lines.mergeList = [0] ∧ y.carriers[(0 : Aisle)].st = .waitMerge ∧ y.carriers[(0 : Aisle)].task = some (fetching .waitMerge)
         ∧ y.lines.delivery.length < 12 ∧ (mergeTest (envOf base) y).lines.mergeGrant = some 0
         ∧ base.yard.carriers[(0 : Aisle)].st ≠ .waitMerge) := by decide +kernel

theorem witness_LineFaultCutsTransfers :
    (transferOf .ret 3 (withYard (moving .ret (.release 0)) atDesk).yard).isSome
    ∧ transferOf .ret 3 base.yard = none := by decide +kernel

theorem witness_TerminalReportsSetPlaces : atDesk.yard.disc.left = none
    ∧ placeBusy 0 .present (withYard (moving .ret (.release 0)) atDesk).yard = true
    ∧ (placeOf 0 .present atDesk.yard).map (·.bin) = (some 6).filter binOk ∧ (lineRec .delivery atDesk.yard).clear = none
    ∧ atDesk.yard.stations[(0 : Station)].session.isSome ∧ atDesk.yard.stations[(0 : Station)].next = none ∧ binOk 6 = true
    ∧ getBin 5 stocked.yard = some binA ∧ getCell (envOf stocked) cellA stocked.yard = .occupied 5
    ∧ KSorted stocked.yard.cells ∧ stocked.yard.stations[(0 : Station)].next = none ∧ placeBusy 0 .next stocked.yard = false
    ∧ reportConflict 5 (.next 0) stocked.yard = false ∧ binOk 5 = true
    ∧ atDesk.yard.stations[(0 : Station)].present = some ⟨6, some 0⟩ ∧ placeBusy 0 .present atDesk.yard = false
    ∧ (let s := withYard (fun y => putBin 6 { binB with retirePending := true }
         (modStation 0 (fun r => { r with session := none }) y)) atDesk
       s.yard.stations[(0 : Station)].session = none ∧ getBin 6 s.yard = some { binB with retirePending := true }) := by
  decide +kernel

theorem witness_ScansSettlePicks : atDesk.yard.stations[(0 : Station)].session = some sessionB ∧ sessionB.releasing = false
    ∧ sessionB.order = some 2 ∧ orderOf 2 atDesk.yard = some orderB ∧ getBin 6 atDesk.yard = some binB
    ∧ orderB.picks.find? (fun p => p.st = .opened ∧ p.item = itemA) = some ⟨8, itemA, 10, .opened⟩
    ∧ (let x : Session := { sessionB with order := none, placements := [⟨itemB, 20⟩] }
       placing.yard.stations[(1 : Station)].session = some x ∧ scannedPick x itemB placing.yard = none
         ∧ x.placements.find? (fun p => p.item = itemB) = some ⟨itemB, 20⟩ ∧ (getBin 6 placing.yard).isSome)
    ∧ base.yard.stations[(0 : Station)].session = none := by decide +kernel

/-- The session at station 1 with its bin RetirePending, on display. -/
def leavingDesk : State := withYard (fun y =>
  let y := putBin 6 { binB with retirePending := true } y
  modStation 0 (fun r => { r with shown := displayOf 0 y }) y) atDesk

theorem witness_SessionIsReleased : atDesk.yard.stations[(0 : Station)].session = some sessionB ∧ sessionB.releasing = false
    ∧ getBin 6 atDesk.yard = some binB ∧ binB.retirePending = false ∧ atDesk.wing.st = .normal
    ∧ (let x := { sessionB with auto := some 0, idle := some 0 }
       let s := withYard (modStation 0 fun r => { r with session := some x }) atDesk
       s.yard.stations[(0 : Station)].session = some x ∧ x.auto = some 0 ∧ x.idle = some 0)
    ∧ (let r : Bin := { binB with retirePending := true }
       leavingDesk.yard.stations[(0 : Station)].session = some sessionB
         ∧ leavingDesk.yard.stations[(0 : Station)].present = some ⟨6, some 0⟩ ∧ getBin 6 leavingDesk.yard = some r
         ∧ leavingDesk.yard.stations[(0 : Station)].shown.status = some .opened)
    ∧ sessionB.idle ≠ some 0 ∧ base.yard.stations[(0 : Station)].session = none
    ∧ (sessionB.order = some 2 ∧ orderOf 2 atDesk.yard = some orderB ∧ (∃ p ∈ orderB.picks, p.st = .opened))
    ∧ (let x := { sessionB with order := none }
       x.releasing = false ∧ x.armed = true ∧ x.placements = [] ∧ x.met = false ∧ ({ x with met := true } : Session).met = true) := by
  decide +kernel

/-- The sweep in another run state. -/
def running (r : SweepRun) (s : State) : State := { s with sweep := { s.sweep with run := r } }

theorem witness_SweepControlSetsRun : Taken hdr (inWing .standby (running .stopped base))
    ∧ (running .stopped base).sweep.run = .stopped ∧ (running .starting base).sweep.run = .starting
    ∧ base.sweep.run = .running ∧ (running .stopping base).sweep.run = .stopping ∧ (inWing .standby base).wing.st = .standby
    ∧ base.wing.st ≠ .standby ∧ State.reset.sweep.warmLeft.isSome ∧ base.sweep.warmLeft = none :=
  ⟨takenIf _ ⟨rfl, rfl, rfl, rfl⟩, by decide +kernel⟩

/-- Slot 0 a Heat slot in Normal with its defaults. -/
def heated : State := { base with sweep := setSlot 0 { SlotRec.start (kindDefaults .heat 0 1) with
  stage := .normal, settlingLeft := 0 } base.sweep }

theorem witness_ConversionJudgesSlot : heated.sweep.conv = some 0 ∧ heated.sweep.run = .running ∧ (0 : Slot) ≠ heated.sweep.stop
    ∧ heated.sweep.slots[(0 : Slot)].cfg.kind ≠ .unused ∧ heated.sweep.slots[(0 : Slot)].stage = .normal
    ∧ base.sweep.slots[(0 : Slot)].stage = .settling ∧ 1 < base.sweep.slots[(0 : Slot)].settlingLeft
    ∧ ¬((4086 : Nat) ≤ 8 ∨ 4087 ≤ 4086) ∧ (8 : Nat) ≤ 8
    ∧ ({ base with sweep := { base.sweep with conv := none } } : State).sweep.conv = none
    ∧ (let v := { heated.sweep with stop := 0 }
       v.run = .running ∧ (0 : Slot) = v.stop ∧ v.single = false ∧ ({ v with single := true } : Sweep).single = true)
    ∧ (let s := asking (running .stopping (inWing .standby heated))
       s.wing.st = .standby ∧ s.sweep.run = .stopping ∧ ∃ q ∈ s.link.inbox, q.id ∈ [0] ∧ q.reply = none)
    ∧ heated.wing.st = .normal ∧ heated.wing.cause = .none
    ∧ ∀ k : Zone, heated.sweep.zones[k].stage = zoneStage heated.sweep k := by decide +kernel

/-- Stage 1 high, with the open incident that it began. -/
def alarmed : State := { base with wing := { base.wing with
  panel := ⟨true, false, false⟩, cause := .hold, holdCause := true, incidentNo := 4
  incident := some ⟨4, some (.panel .stage1), some 0, .hold, [], 0, [], [], false, none, none, true, false⟩ } }

theorem witness_PanelInputRaisesCause : CausesTrue base ∧ base.wing.cause = .none ∧ base.wing.st = .normal
    ∧ (inWing .standby base).wing.st = .standby ∧ panelHigh base.wing.panel .stage1 = false
    ∧ (∀ w : WingSt, (inWing w alarmed).wing.st = w ∧ CausesTrue (inWing w alarmed) ∧ CausesTrue (inWing w base))
    ∧ (let s := inWing .clearing alarmed
       wingHeld s.wing.st = true ∧ s.wing.holdCause = true ∧ (∀ z : Zone, s.sweep.zones[z].stage = .normal)
         ∧ panelHigh s.wing.panel .stage1 = true ∧ panelHigh s.wing.panel .stage2 = false
         ∧ levelCode s.wing.cause < levelCode (panelLevel .stage2) ∧ levelCode s.wing.cause < levelCode (panelLevel .discharge)
         ∧ ¬levelCode s.wing.cause < levelCode (panelLevel .stage1) ∧ base.wing.holdCause = false
         ∧ wingHeld (inWing .hold base).wing.st = true
         ∧ ∃ r ∈ s.wing.incident, r.isOpen = true ∧ r.triggers.length < 8
             ∧ 8 ≤ ({ r with triggers := List.replicate 8 ⟨0, .panel .stage1, .hold⟩ } : Incident).triggers.length)
    ∧ (let s := inWing .restarting base
       levelCode s.wing.cause < levelCode (panelLevel .stage1) ∧ ∃ a : Aisle, s.yard.carriers[a].reported = false
         ∧ (s.yard.carriers[a].st = .offline → s.yard.carriers[a].seg = none)) :=
  ⟨⟨rfl, rfl⟩, rfl, rfl, rfl, by decide +kernel, fun _ => ⟨rfl, ⟨rfl, rfl⟩, ⟨rfl, rfl⟩⟩, by decide +kernel, by decide +kernel⟩

theorem witness_WingTimersEnd :
    (let s : State := { inWing .hold base with wing := { (inWing .hold base).wing with holdTimer := some 1 } }
     s.wing.holdTimer.isSome ∧ s.wing.st = .hold)
    ∧ (let s : State := { base with wing := { base.wing with
         st := .clearing, holdTimer := some 1, clearing := [(0, .requested)] } }
       s.wing.holdTimer.isSome ∧ s.wing.st = .clearing ∧ ∃ p ∈ s.wing.clearing, p.2 = .requested)
    ∧ (let s : State := { alarmed with wing := { alarmed.wing with
         st := .clearing, holdTimer := some 1, clearing := [(0, .awaiting)] } }
       s.wing.holdTimer.isSome ∧ s.wing.st = .clearing ∧ (∀ p ∈ s.wing.clearing, p.2 ≠ .requested)
         ∧ ∃ r ∈ s.wing.incident, r.isOpen = true)
    ∧ (let s : State := { base with wing := { base.wing with st := .parking, parkTimer := some 1 } }
       s.wing.parkTimer.isSome ∧ s.wing.st = .parking)
    ∧ (let s : State := { base with wing := { base.wing with st := .restarting, restartTimer := some 1 } }
       s.wing.restartTimer.isSome ∧ s.wing.st = .restarting ∧ s.yard.carriers[(0 : Aisle)].reported = false)
    ∧ base.wing.holdTimer = none ∧ base.wing.parkTimer = none ∧ base.wing.restartTimer = none
    ∧ (let s := withYard (modCarrier 0 fun c => { c with st := .parked }) (inWing .parking base)
       s.wing.st = .parking ∧ (∀ a : Aisle, aisleNo a ≤ s.cfg.geometry.aisleCount → s.yard.carriers[a].st = .parked)
         ∧ (∀ a : Aisle, s.yard.carriers[a].seg = none) ∧ (parkingSync s).wing.st = .sealing ∧ (parkingSync s).wing.halt = false)
    ∧ (inWing .parking base).yard.carriers[(0 : Aisle)].st = .idle := by decide +kernel

/-! ## One step of one command -/

/-- What a command leaves. -/
def run (c : Instr) (s : State) : State := after (exec c s)

/-- The replies that are ready or being sent. -/
def replies (s : State) : List (Nat × ReplyCode) :=
  (s.link.inbox.filterMap fun q => q.reply.map fun r => (r.kind, r.code))

/-- R203: the CRC begins at 0xFFFF with polynomial 0x1021, most significant bit first, and no final
inversion; one byte 0 gives 0xE1F0. -/
theorem test_crc : crc16 [0#8] = 0xE1F0#16 := by decide +kernel

/-- R204: a fifth request is answered OVERRUN. -/
theorem test_overrun : (run (.flush hdr) (fullLink 0 base)).link.tx = some (.overrun ⟨0x46, 7, .overrun, []⟩) := by
  decide +kernel

/-- R215: a reset of 20 bit times empties the inbox; 19 do not. -/
theorem test_link_reset : (run (.linkReset 20) (asking base)).link.inbox = []
    ∧ (run (.linkReset 19) (asking base)).link.inbox.length = 1 := by decide +kernel

/-- R215, R213: a reset drops a Restart not yet begun, and not one whose reply has ended. -/
theorem test_link_reset_restart : (run (.linkReset 20) { base with link := { base.link with restart := .taken 3 } }).link.restart = .none
    ∧ (run (.linkReset 20) { base with link := { base.link with restart := .due } }).link.restart = .due := by decide +kernel

/-- R212, R198: discharge high at a start seals the wing. -/
theorem test_cold_start_discharge : (run (.coldStart ⟨false, false⟩ ⟨false, false, true⟩ []) base).wing.st = .sealing := by
  decide +kernel

/-- R213: a warm restart that is not due does not begin. -/
theorem test_warm_restart_waits : (run (.warmRestart none ⟨false, false, false⟩ []) base).wing.st = .normal := by decide +kernel

/-- R180: Start needs a valid geometry. -/
theorem test_start : (run (.start hdr) (inWing .standby base)).wing.st = .normal
    ∧ replies (run (.start hdr) State.reset) = [(0x43, .busy)] := by decide +kernel

/-- R195: Resume of another incident is STALE, and of the right one opens the shutters. -/
theorem test_resume : replies (run (.resume hdr 3) sealed4) = [(0x45, .stale)]
    ∧ (run (.resume hdr 4) sealed4).wing.shutClose = false := by decide +kernel

/-- R24: Restart is BUSY in Sealing. -/
theorem test_restart : replies (run (.restart hdr) (inWing .sealing base)) = [(0x44, .busy)]
    ∧ (run (.restart hdr) base).link.restart = .taken 0 := by decide +kernel

/-- R213, R215: a Restart reply that a link reset has left in transmission does not begin the Restart taken since; the
end of that Restart's own reply does. -/
theorem test_restart_reply :
    let s := fun n : Nat => ({ base with link := { base.link with tx := some (.reply n ⟨0x44, 7, .ok, []⟩), restart := .taken 3 } } : State)
    (run .transmitComplete (s 1)).link.restart = .taken 3 ∧ (run .transmitComplete (s 3)).link.restart = .due := by decide +kernel

/-- R1: columns are clamped to 8 to 64. -/
theorem test_geometry : (run (.configureGeometry hdr 6 7 17 []) (inWing .standby base)).cfg.geometry = ⟨6, 8, 16⟩ := by
  decide +kernel

/-- R3: an Occupied cell is not disabled. -/
theorem test_cells : replies (run (.configureCells hdr [⟨cellCode cellA, 1⟩] []) stocked) = [(0x42, .busy)]
    ∧ getCell (envOf base) cellD (run (.configureCells hdr [⟨cellCode cellD, 1⟩] []) base).yard = .disabled := by
  decide +kernel

/-- R211: a section applied with nothing in it asks for its write all the same. -/
theorem test_empty_section : (run (.configureCells hdr [] []) base).yard.journal.ctl = [.settings (.cells [])] := by
  decide +kernel

/-- R26: the deep fork time is at least the front one. -/
theorem test_profiles :
    (run (.configureProfiles hdr ⟨1, none, none, none, none, some 50, some 20⟩ []) base).cfg.profA.forkDeep = 50 := by
  decide +kernel

/-- R27, R28: an aisle set Off settles. -/
theorem test_assign : (run (.configureAisleAssign hdr [⟨1, 4⟩] []) base).yard.est[(0 : Aisle)].st = .settling := by decide +kernel

/-- R108: the allowances fit in 10 with 2 for each station that is open. -/
theorem test_stations : (run (.configureStations hdr [⟨3, some 3, some 10⟩] []) base).cfg.stations[(2 : Station)].allowance = 2 := by
  decide +kernel

/-- R37, R130, R127, R210: values are clamped. -/
theorem test_values : (run (.configureDispatch hdr (some 11) (some 0) []) base).cfg.pressure = 1
    ∧ (run (.configureTrays hdr (some 24) none []) base).cfg.th = 23
    ∧ (run (.configureSessions hdr (some 29) none []) base).cfg.idleTimeout = 30
    ∧ (run (.configureFire hdr none none (some 1) none []) base).cfg.fire.parkColumn = 2 := by decide +kernel

/-- R167: a slot's configuration is BUSY while the sweep runs. -/
theorem test_sweep_section :
    replies (run (.configureSweep hdr none [⟨0, some 3, none, none, none, none, none, none, none, none⟩] []) base)
      = [(0x42, .busy)] := by decide +kernel

/-- R22: nothing to write is answered at once. -/
theorem test_flush : replies (run (.flush hdr) base) = [(0x46, .ok)] := by decide +kernel

/-- R74 to R76: a Lend claims its bin, and the Idle carrier of its aisle begins the Retrieve. -/
theorem test_lend : (run (.lend hdr 5 9 10 1 itemA) stocked).yard.orders.map (·.st) = [.assigned]
    ∧ (run (.lend hdr 5 9 10 1 itemA) stocked).yard.carriers[(0 : Aisle)].st = .moving := by decide +kernel

/-- R79: the pick of a cancelled slip is Cancelled, and the session is released for want of another. -/
theorem test_cancel : ((run (.cancelLend hdr 8) atDesk).yard.orders.flatMap (·.picks)).map (·.st) = [.cancelled] := by
  decide +kernel

/-- R77, R11, R10: Fetch, Retire and Induct. -/
theorem test_fetch : (run (.fetch hdr 5 0) stocked).yard.orders.map (·.cls) = [.staff] := by decide +kernel
theorem test_retire : (run (.retire hdr 5) stocked).yard.orders.map (·.retire) = [true] := by decide +kernel
theorem test_induct : (getBin 8 (run (.induct hdr 8 50 (some 200)) base).yard).map (fun r => (r.capacity, r.fill)) = some (100, 100) := by
  decide +kernel

/-- R129, R138, R139: ReturnIntake, DrainTray and ClearTray. -/
theorem test_intake : (run (.returnIntake hdr 0 2 itemB) base).yard.trays[(1 : Station)].items.map (·.width) = [1] := by
  decide +kernel
theorem test_drain : (run (.drainTray hdr 2) (trayed false)).yard.trays[(1 : Station)].demand = true := by decide +kernel
theorem test_clear : (run (.clearTray hdr 2 none) (trayed false)).yard.trays[(1 : Station)].items = [] := by decide +kernel

/-- R136: an item that has waited 900 s is marked; one that has waited 899 s is not. -/
theorem test_wait_limit :
    ((run (.trayWaitLimitReached 1 itemB) { trayed false with clock := ⟨900, 0⟩ }).yard.trays[(1 : Station)].items.map (·.mark)) = [true]
    ∧ ((run (.trayWaitLimitReached 1 itemB) { trayed false with clock := ⟨899, 0⟩ }).yard.trays[(1 : Station)].items.map (·.mark))
      = [false] := by decide +kernel

/-- R209: a query of an unknown order is UNKNOWN. -/
theorem test_query : replies (run (.queryOrder hdr 0 3) base) = [(0x50, .unknown)]
    ∧ replies (run (.queryWing hdr 0) base) = [(0x56, .ok)] := by decide +kernel

/-- R149: a survey of a ready aisle begins at once. -/
theorem test_survey : surveying 0 (run (.survey hdr 1 2 1 8) base).yard = true := by decide +kernel

/-- R159: an Unverified cell whose bin is not Unverified is accepted Empty. -/
theorem test_accept : getCell (envOf base) cellD
    (run (.acceptMap hdr 1) (withYard (setCell (envOf base) cellD (.unverified (some 5))) stocked)).yard = .empty := by
  decide +kernel

/-- R66, R106: clears ask for reports. -/
theorem test_clears : (run (.lineClear hdr 2) halted).yard.bus = [.lineContents .ret]
    ∧ replies (run (.carrierClear hdr 1) base) = [(0x59, .busy)] := by decide +kernel

/-- R164: Stop out of Standby is BUSY. -/
theorem test_sweep_control : replies (run (.sweepControlStop hdr) base) = [(0x5B, .busy)]
    ∧ (run (.sweepControlSingle hdr) (inWing .standby (running .stopped base))).sweep.single = true := by decide +kernel

/-- R169, R170: a Heat slot with 1200 tenths of a degree over 4095 counts from -200: 3072 is 700, its trip. -/
theorem test_conversion : (run (.conversionComplete 3072) heated).sweep.slots[(0 : Slot)].stage = .trip
    ∧ (run (.conversionComplete 3072) heated).wing.st = .sealing := by decide +kernel

/-- R183: stage 1 holds the wing, and a carrier in the shutter plane is asked for a ClearMove. -/
theorem test_panel : (run (.panelInputChange .stage1 true) base).wing.st = .clearing := by decide +kernel

/-- R46, R59: a travel that ends under Hold leaves its carrier Held at the target. R54: a late stroke into a cell leaves
the bin Unverified. -/
theorem test_segment_ends :
    (run (.segmentComplete 0 4 .done) (inWing .hold (withYard (flying travelSeg none) base))).yard.carriers[(0 : Aisle)].pos = some (3, 1)
    ∧ (getBin 5 (run (.segmentDeadline 0 4) (withYard (flying forkInSeg none) stocked)).yard).map (·.st) = some .unverified := by
  decide +kernel

/-- R96: a diverted bin stands in the Next place and advances at once when the Present place is free. -/
theorem test_diversion :
    ((run (.diversionComplete 3) (withYard (fun y => moving .delivery (.diversion 0)
      (modLines (fun l => { l with delivery := [⟨6, 0, some 0⟩] }) { y with bins := [(6, binB)] })) base)).yard.lines.del.transfers.map
        (·.kind)) = [.advance 0] := by decide +kernel

/-- R99, R124: a released bin leaves its station for the return line, and its order leaves the queue. -/
theorem test_release : (run (.releaseComplete 3) (withYard (moving .ret (.release 0)) atDesk)).yard.orders = []
    ∧ (getBin 6 (run (.releaseComplete 3) (withYard (moving .ret (.release 0)) atDesk)).yard).map (·.live) = some none := by
  decide +kernel

/-- R94: a line fault cuts the transfer and halts the drive. -/
theorem test_line_fault : (run (.lineFaultReport .ret (some 3)) (withYard (moving .ret (.release 0)) atDesk)).yard.lines.ret.transfers = [] := by
  decide +kernel

/-- R114, R133: a scan lowers the fill and saturates at 0; a placement raises it to the capacity at most. -/
theorem test_scan : (getBin 6 (run (.itemScan 0 itemA) atDesk).yard).map (·.fill) = some 0
    ∧ (getBin 6 (run (.itemScan 1 itemB) placing).yard).map (·.fill) = some 300 := by decide +kernel

/-- R115, R117: Absent settles a pick; Release leaves it Unserved. -/
theorem test_buttons : ((run (.absentButton 0) atDesk).yard.orders.flatMap (·.picks)).map (·.st) = [.absent]
    ∧ ((run (.releaseButton 0) atDesk).yard.orders.flatMap (·.picks)).map (·.st) = [.unserved] := by decide +kernel

/-- R113, R117, R124: the display of a session on a RetirePending bin shows the pick gone, then Releasing, then Remove. -/
theorem test_releasing_then_remove :
    ((run (.releaseButton 0) leavingDesk).yard.bus.filterMap fun m => match m with | .display _ d => d.status | _ => none)
      = [.opened, .releasing, .remove] := by decide +kernel

/-- R134, R140: with a threshold of 0 the first item handed back makes the tray choose, for its 20 mm alone: the nearer
bin 5 with 30 mm of room, which the two items together would not fit. -/
theorem test_handback_chooses :
    let far : CellAddr := { cellA with col := 6 }
    let s := withYard (fun y => { y with
      cells := [(cellCode cellA, .occupied 5), (cellCode far, .occupied 7)]
      bins := [(5, { binA with fill := 270 }), (6, { binB with fill := 0, station := some 1, live := none }),
        (7, { binA with cell := some far })] }) placing
    let s := withYard (fun y => modSession 1 (fun x => { x with placements := [⟨itemB, 20⟩, ⟨itemA, 100⟩] })
      (modTray 1 (fun t => { t with items := [⟨itemB, 20, 0, .assigned 6, false⟩, ⟨itemA, 100, 0, .assigned 6, false⟩] }) y)) s
    ((run (.releaseButton 1) { s with cfg := { s.cfg with th := 0 } }).yard.orders.map fun o => (o.cls, o.bin)) = [(.space, 5)] := by
  decide +kernel

/-- R80, R81, R155: a Read that finds the order's bin gone from the north cell and then Stored in the south one raises
OrderBlocked at each change: UNVERIFIED (1), AISLE_DOWN (3) while the survey lasts, and none (0) at its end. -/
theorem test_read_evaluates_between :
    let s := withYard (fun y => doing readSeg none (some (.survey surveyA)) (modOrder 1 (fun o => { o with st := .blocked .aisleDown }) y)) ordered
    ((run (.segmentComplete 0 4 (.read ⟨.empty, .empty⟩ ⟨.bin 5, .empty⟩)) s).yard.post.outbox.filterMap fun n =>
      if n.kind = .orderBlocked then n.items[2]? else none) = [.u1 1, .u1 3, .u1 0] := by decide +kernel

/-- R140, R141: an order that leaves finds no candidate for the tray whose request a full queue refused, which stays its
last request. -/
theorem test_refused_request_stays :
    let s := withYard (fun y => modTray 1 (fun t => { t with demand := true, refusedFull := true, items := [⟨itemB, 20, 0, .waiting, false⟩] })
      { y with bins := [(5, { binA with live := some 1, damaged := true })] }) ordered
    let t := (run (.cancelLend hdr 9) s).yard
    t.orders = [] ∧ t.trays[(1 : Station)].refusedFull = true := by decide +kernel

/-- R85: the order of a carrier's stale Retrieve that another aisle has put on the line stays Delivering when the Faulted
carrier goes Offline. -/
theorem test_stale_retrieve_keeps_order :
    let s := withYard (fun y => modOrder 1 (fun o => { o with st := .delivering })
      (modCarrier 0 (fun c => { c with st := .faulted, fault := some .driveFault, task := some (fetching .toBin) }) y)) ordered
    let t := run .restartTimerExpiry { inWing .restarting s with wing := { (inWing .restarting s).wing with restartTimer := some 0 } }
    t.yard.carriers[(0 : Aisle)].st = .offline ∧ t.yard.orders.map (·.st) = [.delivering] := by decide +kernel

/-- R214, 00_scope: a bin found that has an order is no orphan. -/
theorem test_orphan_has_no_order :
    (orphans { ordered.yard with disc := { ordered.yard.disc with found := [(5, .fork 0), (6, .delivery)] } }).map (·.1) = [6] := by
  decide +kernel

/-- R106: the last terminal's report ends the LineClear with the line's list, and out of Normal and Standby BUSY. -/
theorem test_line_clear_end :
    let w : LineClearWait := ⟨0, 20, true, [3], [.contents [6] [] false]⟩
    let t := run (.terminalFullReport 3 none none) (clearingLine .delivery w)
    (replies t = [(0x46, .ok)] ∧ t.yard.lines.delivery.map (·.bin) = [6])
    ∧ replies (run (.terminalFullReport 3 none none) (inWing .hold (clearingLine .delivery w))) = [(0x46, .busy)] := by
  decide +kernel

/-- R67, R81: a carrier that a report of a drive fault takes from Offline to Faulted, with a bin on its fork, leaves the
aisle's orders Blocked(AISLE_DOWN) with no notice between. -/
theorem test_fault_report_keeps_down :
    let s := withYard (fun y => modOrder 1 (fun o => { o with st := .blocked .aisleDown })
      (modCarrier 0 (fun c => { c with st := .offline }) y)) ordered
    let t := run (.driveStatusReport 0 3 1 (some 7) true) s
    t.yard.carriers[(0 : Aisle)].st = .faulted ∧ t.yard.carriers[(0 : Aisle)].load = some 7
      ∧ t.yard.orders.map (·.st) = [.blocked .aisleDown] ∧ t.yard.post.outbox.all (fun n => n.kind ≠ .orderBlocked) := by
  decide +kernel

/-- R100: an aisle that qualifies while the return line is empty ends the mark of the head that waited last; with none
that does, the mark stays. -/
theorem test_empty_line_ends_mark :
    let s := withYard (modLines fun l => { l with headFull := some 6 }) base
    (run (.flush hdr) s).yard.lines.headFull = none
    ∧ (run (.flush hdr) (withYard (modCarrier 0 fun c => { c with st := .faulted }) s)).yard.lines.headFull = some 6 := by
  decide +kernel

/-- R192: the bin of a cut stroke is listed Unverified with its cell, unless a report has recorded it elsewhere. -/
theorem test_incident_bins :
    let bins := fun (s : State) => (run (.panelInputChange .discharge true) s).wing.incident.map (·.bins)
    bins (withYard (flying forkInSeg none) stocked) = some [⟨5, 0, some cellA, true⟩]
    ∧ bins (withYard (fun y => flying forkInSeg none { y with bins := [(5, { binA with st := .atStation, cell := none, station := some 1 })] })
        stocked) = some [] := by decide +kernel

/-- R192: a Halt's stop report in the shutter plane, taken in Restarting, sets the obstructed flag. -/
theorem test_stop_obstructs :
    let s := inWing .restarting (withYard (modCarrier 0 fun c => { c with
      st := .halted, seg := some ⟨.halt, 4, .nothing, none, 0, none, 0, some .travel⟩ }) sealed4)
    (run (.segmentComplete 0 4 (.stopped 1 0)) s).wing.incident.map (·.obstructed) = some true := by decide +kernel

/-- R16, R19: a completed write leaves the list; a failed one stays and the journal waits. -/
theorem test_flash : (run .flashWriteComplete (writing (.entry ⟨.fill 5, .fill 40⟩ false) base)).flash.fills = [(5, 40)]
    ∧ (run .flashWriteError (writing (.entry ⟨.fill 5, .fill 40⟩ false) base)).yard.journal.retryLeft = some 50 := by
  decide +kernel

/-- One decisecond passes on an empty queue, and the timer that ends puts its expiry in the queue. -/
theorem test_tick : (after (step { base with wing := { base.wing with st := .parking, parkTimer := some 1 } })).pending
    = [.parkTimerExpiry] := by decide +kernel

end Sys2Proof.Tests
end

