-- ==== Sys2Proof/Proofs/SlotMap.lean ====
section
/-! PROOF. The slot map's access rules, and the records at reset. -/

namespace Sys2Proof.Machine

open Sys2Proof

/-! ## Access and candidates (R4, R5) -/

/-- A cell beyond the geometry reads Absent (R1). -/
theorem getCell_absent_of_outside {e : Env} {a : CellAddr} {y : Yard} (h : inGeometry e.cfg.geometry a = false) :
    getCell e a y = .absent := by simp [getCell, h]

theorem inGeometry_of_getCell_ne_absent {e : Env} {a : CellAddr} {y : Yard} (h : getCell e a y ≠ .absent) :
    inGeometry e.cfg.geometry a = true := by
  by_contra hg
  exact h (getCell_absent_of_outside (by simpa using hg))

theorem mem_aisleCells {g : Geometry} {n : Aisle} {x : CellAddr} :
    x ∈ aisleCells g n ↔ x.aisle = n ∧ 1 ≤ x.col ∧ x.col ≤ g.columns ∧ x.level < g.levels := by
  obtain ⟨i, side, col, level, depth⟩ := x
  simp only [aisleCells, List.mem_flatMap, List.mem_range, List.mem_cons, List.not_mem_nil, or_false, CellAddr.mk.injEq]
  constructor
  · rintro ⟨c, hc, l, hl, h⟩
    rcases h with ⟨hi, -, rfl, rfl, -⟩ | ⟨hi, -, rfl, rfl, -⟩ | ⟨hi, -, rfl, rfl, -⟩ | ⟨hi, -, rfl, rfl, -⟩ <;>
      exact ⟨hi, by omega, by omega, hl⟩
  · rintro ⟨rfl, h1, h2, h3⟩
    refine ⟨col - 1, by omega, level, h3, ?_⟩
    cases side <;> cases depth <;> simp <;> omega

theorem canPick_iff {e : Env} {a : CellAddr} {y : Yard} :
    canPick e a y = true ↔ (∃ f, getCell e a y = .occupied f)
      ∧ (a.depth = .deep → getCell e { a with depth := .front } y = .empty) := by
  unfold canPick atDepth
  cases a.depth <;> cases getCell e a y <;> simp

theorem canPlace_iff {e : Env} {a : CellAddr} {b : Nat} {y : Yard} :
    canPlace e a b y = true ↔ (getCell e a y = .empty ∨ ∃ p, getCell e a y = .reserved b p)
      ∧ (a.depth = .deep → getCell e { a with depth := .front } y = .empty) := by
  unfold canPlace atDepth
  cases a.depth <;> cases getCell e a y <;> simp

theorem candidate_front_iff {e : Env} {a : CellAddr} {y : Yard} (h : a.depth = .front) :
    candidate e a y = true ↔ getCell e a y = .empty ∧ (∀ b p, getCell e { a with depth := .deep } y ≠ .reserved b p)
      ∧ ∀ b, getCell e { a with depth := .deep } y ≠ .unverified b := by
  unfold candidate atDepth
  rw [h]
  cases getCell e { a with depth := .deep } y <;> simp

theorem candidate_deep_iff {e : Env} {a : CellAddr} {y : Yard} (h : a.depth = .deep) :
    candidate e a y = true ↔ getCell e a y = .empty ∧ getCell e { a with depth := .front } y = .empty := by
  unfold candidate atDepth
  rw [h]
  simp

/-- A candidate reads Empty, so it lies within the geometry. -/
theorem inGeometry_of_candidate {e : Env} {a : CellAddr} {y : Yard} (h : candidate e a y = true) :
    inGeometry e.cfg.geometry a = true := by
  have hempty : getCell e a y = .empty := by
    simp only [candidate, Bool.and_eq_true, decide_eq_true_eq] at h
    exact h.1
  exact inGeometry_of_getCell_ne_absent (y := y) (by simp [hempty])

theorem hasCandidate_iff {e : Env} {n : Aisle} {y : Yard} :
    hasCandidate e n y = true ↔ ∃ x : CellAddr, x.aisle = n ∧ candidate e x y = true := by
  simp only [hasCandidate, Bool.and_eq_true, List.any_eq_true, mem_aisleCells]
  constructor
  · rintro ⟨-, x, hx, hc⟩
    exact ⟨x, hx.1, hc⟩
  · rintro ⟨x, rfl, hc⟩
    have hin := inGeometry_of_candidate hc
    simp only [inGeometry, decide_eq_true_eq] at hin
    exact ⟨by simpa [aisleIn] using hin.1, x, ⟨rfl, hin.2⟩, hc⟩

/-- Settles O18. -/
theorem cellAccess : Obligations.CellAccess := fun _ _ _ _ =>
  ⟨⟨canPick_iff, canPlace_iff⟩, candidate_front_iff, candidate_deep_iff, fun _ => hasCandidate_iff⟩

/-! ## Locate (R14) -/

/-- The bus and the link are no part of what Locate reports. -/
theorem locateReply_entered (b kind : Nat) (h : ReqHdr) (s : State) :
    locateReply b (entered kind h s) = locateReply b s := rfl

/-- Settles O17: Locate is a query, and what it reads is no part of what taking it changes. -/
theorem locateReportsBinRecord : Obligations.LocateReportsBinRecord := by
  intro h b s hT
  have hq : exec (.locate h b) s = _ := query_answered (items := locateReply b) (k := .locate) hT
  rw [locateReply_entered] at hq
  refine ⟨fun r hr => ?_, fun hn => ?_⟩
  · simp only [locateReply, hr] at hq
    exact hq
  · simp only [locateReply, hn] at hq
    exact hq

/-! ## Reset -/

theorem wingSafe_reset : WingSafe State.reset.wing := by constructor <;> decide

theorem linkSafe_reset : LinkSafe State.reset := by constructor <;> simp [State.reset, Link.reset, Sweep.reset]

theorem geometrySafe_reset : GeometrySafe State.reset := by
  constructor <;> simp [State.reset, Flash.blank, FlashSettings.none, Yard.reset, Journal.reset, GeometryFits,
    Settings.dflt, Geometry.dflt]

theorem noSession_reset : ∀ st : Station, State.reset.yard.stations[st].session = none := by decide

/-- No bin, no order and no entry: the lists at reset. -/
theorem listsSafe_reset : ListsSafe State.reset.yard where
  journal := by constructor <;> simp [State.reset, Yard.reset, Journal.reset]
  outbox := by decide
  orders := by constructor <;> simp [State.reset, Yard.reset, getBin]
  trays := by decide
  placements st x h := by cases (noSession_reset st).symm.trans h

theorem binsPlaced_reset : BinsPlaced State.reset where
  once := by decide
  there := by
    have hnil : placedBins State.reset.yard = [] := by decide
    simp [hnil]
  noCell := by simp [State.reset, Yard.reset, getBin]
  stored := by simp [State.reset, Yard.reset]
  within := by simp [State.reset, Yard.reset]

theorem sessionsSafe_reset : SessionsSafe State.reset where
  records := by decide
  flash := by simp [State.reset, Flash.blank, FlashSettings.none]
  waiting := by simp [State.reset, Yard.reset, Journal.reset]
  writing := by simp [State.reset, Yard.reset, Journal.reset]
  rest _ st x h := by cases (noSession_reset st).symm.trans h

theorem binsNumbered_reset : BinsNumbered State.reset := by
  constructor <;> simp [State.reset, Yard.reset, Journal.reset, Flash.blank, getBin]

theorem outputsTrue_reset : OutputsTrue State.reset where
  workHeld := by simp [State.reset, Wing.reset]
  wingOk := by simp [State.reset, Wing.reset]

/-- Settles O9: every record at reset is a constant. -/
theorem invariantsHoldAtReset : Obligations.InvariantsHoldAtReset :=
  ⟨⟨wingSafe_reset, ⟨by decide, by decide⟩, linkSafe_reset⟩, by constructor <;> exact List.Pairwise.nil,
    geometrySafe_reset, listsSafe_reset, binsPlaced_reset, sessionsSafe_reset, binsNumbered_reset, outputsTrue_reset⟩

end Sys2Proof.Machine
end

