-- ==== Sys2Proof/Proofs/Dispatch.lean ====
section
/-! PROOF. The dispatch, for any relation between states that what surrounds a command's own effect keeps: a
command keeps it when its own effect does. One field for each effect, so that each relation is shown effect by effect. -/

namespace Sys2Proof.Machine

open Sys2Proof

/-- A relation between the states before and after, which everything around a command's own effect keeps: the host
link, the bus record, and what follows every command. -/
structure Steady (R : State → State → Prop) : Prop where
  refl : ∀ s, R s s
  trans : ∀ {s t u}, R s t → R t u → R s u
  link : ∀ k s, R s { s with link := k }
  bus : ∀ l s, R s { s with yard := { s.yard with bus := l } }
  transmit : ∀ s, R s (transmit s)
  finish : ∀ s, R s (finish s)

/-- Every request but Configure and the queries keeps a relation by its own effect. -/
structure RequestsKeep (R : State → State → Prop) : Prop where
  start : ∀ s, R s (startAct s).1
  restart : ∀ id s, R s (restartAct id s).1
  resume : ∀ n s, R s (resumeAct n s).1
  flush : ∀ id s, R s (flushAct id s).1
  lend : ∀ b slip w st item s, R s (lendAct b slip w st item s).1
  cancelLend : ∀ slip s, R s (cancelAct slip s).1
  fetch : ∀ b st s, R s (fetchAct b st s).1
  retire : ∀ b s, R s (retireAct b s).1
  induct : ∀ b c f s, R s (inductAct b c f s).1
  returnIntake : ∀ w st item s, R s (intakeAct w st item s).1
  drainTray : ∀ st s, R s (drainAct st s).1
  clearTray : ∀ st item s, R s (clearTrayAct st item s).1
  survey : ∀ a k x z s, R s (surveyAct a k x z s).1
  acceptMap : ∀ a s, R s (acceptAct a s).1
  carrierClear : ∀ a id s, R s (carrierClearAct a id s).1
  lineClear : ∀ l id s, R s (lineClearAct l id s).1
  continuous : ∀ s, R s (continuousAct s).1
  single : ∀ s, R s (singleAct s).1
  stop : ∀ id s, R s (stopAct id s).1
  queryWing : ∀ mask s, R s (queryWingAct mask s).1

/-- Every event but a completed flash write and a start keeps a relation by its own effect. -/
structure EventsKeep (R : State → State → Prop) : Prop where
  frameSent : ∀ s, R s (frameSent s)
  warmup : ∀ s, R s (modSweep warmupEnds s)
  conversion : ∀ raw s, R s (conversionDone raw s)
  panel : ∀ i high s, R s (panelArrives i high s)
  holdClear : ∀ s, R s (holdClearEnds s)
  parkTimer : ∀ s, R s (parkTimerEnds s)
  restartTimer : ∀ s, R s (restartTimerEnds s)
  segmentComplete : ∀ a no r s, R s (segmentReported a no r s)
  segmentFault : ∀ a no f s, R s (segmentFaults a no f s)
  segmentDeadline : ∀ a no s, R s (segmentExpires a no s)
  settleTimer : ∀ a s, R s (onYard (fun _ => settleEnds a) s)
  driveStatus : ∀ a r s, R s (statusReported a r s)
  carrierClearTimeout : ∀ a s, R s (carrierClearExpires a s)
  discoveryTimeout : ∀ s, R s (onYard endDiscovery s)
  diversion : ∀ no s, R s (transferDone .delivery no diversionCompletes s)
  advance : ∀ no s, R s (transferDone .delivery no advanceCompletes s)
  release : ∀ no s, R s (transferDone .ret no releaseCompletes s)
  inboundDiversion : ∀ no s, R s (transferDone .ret no inboundCompletes s)
  lineFault : ∀ l no s, R s (onYard (fun _ => lineFaults l no) s)
  lineDeadline : ∀ l no s, R s (onYard (fun _ => lineExpires l no) s)
  lineContents : ∀ l bins inbound f s, R s (contentsReported l bins inbound f s)
  lineClearTimeout : ∀ l s, R s (lineClearEnds l s)
  terminalFull : ∀ st n p s, R s (fullReported st n p s)
  terminalChange : ∀ st p b s, R s (onYard (fun e => terminalChange e st p b) s)
  itemScan : ∀ st c s, R s (onYard (fun e => scanned e st c) s)
  absent : ∀ st s, R s (onYard (fun e => absentPressed e st) s)
  releaseButton : ∀ st s, R s (onYard (fun e => enterReleasing e st) s)
  damaged : ∀ st s, R s (onYard (fun e => damagedPressed e st) s)
  autoRelease : ∀ st s, R s (onYard (fun e => autoExpires e st) s)
  idleTimer : ∀ st s, R s (onYard (fun e => idleExpires e st) s)
  waitLimit : ∀ st c s, R s (waitLimitReached st c s)
  flashError : ∀ s, R s (flashFailed s)
  journalRetry : ∀ s, R s (onYard (fun _ => retryEnds) s)

variable {R : State → State → Prop}

namespace Steady

theorem effect (hR : Steady R) {f : State → State} (hf : ∀ s, R s (f s)) (s : State) :
    ∃ t, Machine.effect f s = .next t ∧ R s t :=
  ⟨_, rfl, hR.trans (hR.trans (hR.bus [] s) (hf _)) (hR.finish _)⟩

theorem quiet (hR : Steady R) {f : State → State} (hf : ∀ s, R s (f s)) (s : State) :
    ∃ t, Machine.quiet f s = .next t ∧ R s t :=
  ⟨_, rfl, hR.trans (hR.trans (hR.bus [] s) (hf _)) (hR.transmit _)⟩

/-- A request frame does to the link what R204 says, and then acts. -/
theorem takeFrame (hR : Steady R) {act : Nat → State → State × Option (ReplyCode × List Fld)}
    (hact : ∀ id s, R s (act id s).1) (kind : Nat) (h : ReqHdr) (s : State) : R s (takeFrame kind h act s) := by
  have hanswer : ∀ id c l t, R t (answer id c l t) := fun id c l t => hR.link _ t
  unfold Machine.takeFrame
  split
  · exact hR.link _ s
  · split
    · exact hR.link _ s
    · extract_lets id k t
      have ht : R s t := hR.link _ s
      split
      · exact hR.trans ht (hanswer ..)
      · have h1 := hact id t
        split
        · next heq => exact hR.trans ht (hR.trans (by simpa [heq] using h1) (hanswer ..))
        · next heq => exact hR.trans ht (by simpa [heq] using h1)

theorem request (hR : Steady R) {act : Nat → State → State × Option (ReplyCode × List Fld)}
    (hact : ∀ id s, R s (act id s).1) (k : ReqKind) (h : ReqHdr) (s : State) :
    ∃ t, Machine.request k h act s = .next t ∧ R s t :=
  hR.effect (hR.takeFrame hact _ h) s

/-- A query changes no record. -/
theorem query (hR : Steady R) (k : ReqKind) (h : ReqHdr) (items : State → ReplyCode × List Fld) (s : State) :
    ∃ t, Machine.query k h items s = .next t ∧ R s t :=
  hR.quiet (hR.takeFrame (fun _ s => hR.refl s) _ h) s

/-- Every request keeps what its own effect keeps; a Configure only where that is known of its sections. -/
theorem exec_request (hR : Steady R) (hq : RequestsKeep R) (c : Instr) (hc : (requestOf c).isSome)
    (hcfg : isConfigure c = true → ∀ l s, R s (configureAct l s).1) (s : State) : ∃ t, Machine.exec c s = .next t ∧ R s t := by
  have configure : isConfigure c = true → ∀ h l s, ∃ t, Machine.configure h l s = .next t ∧ R s t :=
    fun hi h l s => hR.request (fun _ s => hcfg hi l s) .configure h s
  cases c with
  | unknownRequestKind h k => exact hR.quiet (hR.takeFrame (fun _ s => hR.refl s) 0 h) s
  | identify h => exact hR.query .identify h _ s
  | configureGeometry h a c l more => exact configure rfl h _ s
  | configureCells h items more => exact configure rfl h _ s
  | configureProfiles h p more => exact configure rfl h _ s
  | configureAisleAssign h items more => exact configure rfl h _ s
  | configureStations h items more => exact configure rfl h _ s
  | configureDispatch h a p more => exact configure rfl h _ s
  | configureTrays h t l more => exact configure rfl h _ s
  | configureSessions h i a more => exact configure rfl h _ s
  | configureSweep h r items more => exact configure rfl h _ s
  | configureFire h c p k d more => exact configure rfl h _ s
  | start h => exact hR.request (fun _ => hq.start) .start h s
  | restart h => exact hR.request hq.restart .restart h s
  | resume h n => exact hR.request (fun _ => hq.resume n) .resume h s
  | flush h => exact hR.request hq.flush .flush h s
  | lend h b slip w st item => exact hR.request (fun _ => hq.lend b slip w st item) .lend h s
  | cancelLend h slip => exact hR.request (fun _ => hq.cancelLend slip) .cancelLend h s
  | fetch h b st => exact hR.request (fun _ => hq.fetch b st) .fetch h s
  | retire h b => exact hR.request (fun _ => hq.retire b) .retire h s
  | induct h b c f => exact hR.request (fun _ => hq.induct b c f) .induct h s
  | returnIntake h w st item => exact hR.request (fun _ => hq.returnIntake w st item) .returnIntake h s
  | drainTray h st => exact hR.request (fun _ => hq.drainTray st) .drainTray h s
  | clearTray h st item => exact hR.request (fun _ => hq.clearTray st item) .clearTray h s
  | locate h b => exact hR.query .locate h _ s
  | queryOrder h sel v => exact hR.query .queryOrder h _ s
  | queryStation h n => exact hR.query .queryStation h _ s
  | queryCarrier h n => exact hR.query .queryCarrier h _ s
  | queryTray h n => exact hR.query .queryTray h _ s
  | querySweep h => exact hR.query .querySweep h _ s
  | queryIncident h => exact hR.query .queryIncident h _ s
  | queryWing h mask => exact hR.quiet (hR.takeFrame (fun _ => hq.queryWing mask) _ h) s
  | survey h a k x z => exact hR.request (fun _ => hq.survey a k x z) .survey h s
  | acceptMap h a => exact hR.request (fun _ => hq.acceptMap a) .acceptMap h s
  | carrierClear h a => exact hR.request (hq.carrierClear a) .carrierClear h s
  | lineClear h l => exact hR.request (hq.lineClear l) .lineClear h s
  | sweepControlContinuous h => exact hR.request (fun _ => hq.continuous) .sweepControl h s
  | sweepControlSingle h => exact hR.request (fun _ => hq.single) .sweepControl h s
  | sweepControlStop h => exact hR.request hq.stop .sweepControl h s
  | _ => cases hc

/-- What a frame received does is what its request does. -/
theorem runRequest_eq_exec (c : Instr) (hc : (requestOf c).isSome) (s : State) : runRequest c s = Machine.exec c s := by
  cases c <;> cases hc <;> rfl

theorem runRequest_of_none (c : Instr) (hc : requestOf c = none) (s : State) : runRequest c s = .next s := by
  cases c <;> cases hc <;> rfl

/-- Bytes keep what the requests they may carry keep. -/
theorem receive (hR : Steady R) (hq : RequestsKeep R) (hcfg : ∀ l s, R s (configureAct l s).1) (bytes : List Byte)
    (s : State) : R s (receive bytes s) := by
  have hframe : ∀ c s, R s (frameActs c s) := by
    intro c s
    unfold frameActs
    cases hc : requestOf c with
    | none => rw [runRequest_of_none c hc]; exact hR.bus _ s
    | some p =>
      have hsome : (requestOf c).isSome := by simp [hc]
      obtain ⟨t, ht, hst⟩ := hR.exec_request hq c hsome (fun _ => hcfg) s
      rw [runRequest_eq_exec c hsome, ht]
      exact hR.trans hst (hR.bus _ t)
  have hbyte : ∀ s b, R s (receiveByte s b) := by
    intro s b
    unfold receiveByte
    extract_lets r k t
    have ht : R s t := hR.link _ s
    split
    · exact ht
    · exact hR.trans ht (hR.link _ _)
    · exact hR.trans ht (hframe _ _)
  unfold Machine.receive
  induction bytes generalizing s with
  | nil => exact hR.refl s
  | cons b t ih => exact hR.trans (hbyte s b) (ih _)

/-- Every command but a start keeps what its own effect keeps. -/
theorem exec (hR : Steady R) (hq : RequestsKeep R) (he : EventsKeep R) (c : Instr) (hs : isStart c = false)
    (hcfg : isConfigure c = true → ∀ l s, R s (configureAct l s).1)
    (hdone : c = .flashWriteComplete → ∀ s, R s (flashDone s)) (s : State) : ∃ t, Machine.exec c s = .next t ∧ R s t := by
  by_cases hc : (requestOf c).isSome
  · exact hR.exec_request hq c hc hcfg s
  cases c with
  | linkReset n =>
    refine hR.quiet (f := fun s => if 20 ≤ n then linkReset s else s) (fun s => ?_) s
    split
    · exact hR.link _ s
    · exact hR.refl s
  | frameDiscarded bytes => exact hR.quiet (hR.receive hq (hcfg rfl) bytes) s
  | frameByteTimeout bytes =>
    refine hR.quiet (f := fun s => byteTimeout (Machine.receive bytes s))
      (fun s => hR.trans (hR.receive hq (hcfg rfl) bytes s) ?_) s
    unfold byteTimeout
    split
    · exact hR.refl _
    · exact hR.link _ _
  | transmitComplete => exact hR.quiet he.frameSent s
  | warmupExpiry => exact hR.effect he.warmup s
  | conversionComplete raw => exact hR.effect (he.conversion raw) s
  | panelInputChange i high => exact hR.effect (he.panel i high) s
  | holdClearExpiry => exact hR.effect he.holdClear s
  | parkTimerExpiry => exact hR.effect he.parkTimer s
  | restartTimerExpiry => exact hR.effect he.restartTimer s
  | segmentComplete a no r => exact hR.effect (he.segmentComplete a no r) s
  | segmentFault a no f => exact hR.effect (he.segmentFault a no f) s
  | segmentDeadline a no => exact hR.effect (he.segmentDeadline a no) s
  | settleTimerExpiry a => exact hR.effect (he.settleTimer a) s
  | driveStatusReport a col level fork fault => exact hR.effect (he.driveStatus a _) s
  | carrierClearTimeout a => exact hR.effect (he.carrierClearTimeout a) s
  | discoveryTimeout => exact hR.effect he.discoveryTimeout s
  | diversionComplete no => exact hR.effect (he.diversion no) s
  | advanceComplete no => exact hR.effect (he.advance no) s
  | releaseComplete no => exact hR.effect (he.release no) s
  | inboundDiversionComplete no => exact hR.effect (he.inboundDiversion no) s
  | lineFaultReport l no => exact hR.effect (he.lineFault l no) s
  | lineTransferDeadline l no => exact hR.effect (he.lineDeadline l no) s
  | lineContentsReport l bins inbound f => exact hR.effect (he.lineContents l bins inbound f) s
  | lineClearTimeout l => exact hR.effect (he.lineClearTimeout l) s
  | terminalFullReport st n p => exact hR.effect (he.terminalFull st n p) s
  | terminalChangeReport st p b => exact hR.effect (he.terminalChange st p b) s
  | itemScan st c => exact hR.effect (he.itemScan st c) s
  | absentButton st => exact hR.effect (he.absent st) s
  | releaseButton st => exact hR.effect (he.releaseButton st) s
  | damagedButton st => exact hR.effect (he.damaged st) s
  | autoReleaseExpiry st => exact hR.effect (he.autoRelease st) s
  | idleTimerExpiry st => exact hR.effect (he.idleTimer st) s
  | trayWaitLimitReached st c => exact hR.effect (he.waitLimit st c) s
  | flashWriteComplete => exact hR.effect (hdone rfl) s
  | flashWriteError => exact hR.effect he.flashError s
  | journalRetryExpiry => exact hR.effect he.journalRetry s
  | coldStart => cases hs
  | warmRestart => cases hs
  | _ => exact absurd rfl hc

end Steady
end Sys2Proof.Machine
end

