-- ==== Sys2Proof/Proofs/OwnRecords.lean ====
section
/-! PROOF. Settings, flash, clock and queue change only at their own commands. -/

namespace Sys2Proof.Machine

open Sys2Proof

/-! ## The effects of requests -/

theorem keeps_enterRestarting (s : State) : Keeps s (enterRestarting s) := by
  unfold enterRestarting
  extract_lets t u v
  have hu : Keeps s u := (keeps_closeIncident s).trans (keeps_yard _ t)
  exact (hu.trans ((keeps_modWing _ u).trans (keeps_setWing _ _))).trans (keeps_onYard _ v)

theorem keeps_startAct (s : State) : Keeps s (startAct s).1 := by
  unfold startAct
  split
  · exact .refl s
  · split
    · exact .refl s
    · exact keeps_enterNormal s
  · exact .refl s

theorem keeps_restartAct (id : Nat) (s : State) : Keeps s (restartAct id s).1 := by
  unfold restartAct
  split
  · exact .refl s
  · exact keeps_link _ s

theorem keeps_resumeAct (n : Nat) (s : State) : Keeps s (resumeAct n s).1 := by
  unfold resumeAct
  iterate 4 (split; · exact .refl s)
  exact keeps_enterRestarting s

theorem keeps_flushAct (id : Nat) (s : State) : Keeps s (flushAct id s).1 := by
  unfold flushAct
  extract_lets keys
  split
  · exact keeps_yard _ s
  · split
    · exact .refl s
    · exact keeps_yard _ s

theorem keeps_createdReply (e : Env) (n : Nat) (s : State) (r : Yard × (Nat ⊕ ReplyCode)) :
    Keeps s (createdReply e n s r).1 := by
  unfold createdReply
  split
  · exact keeps_yard _ s
  · exact .refl s

theorem keeps_lendBin (e : Env) (b st : Nat) (p : Pick) (s : State) : Keeps s (lendBin e b st p s).1 := by
  unfold lendBin
  extract_lets y
  split
  · split
    · exact .refl s
    · split
      · exact .refl s
      · exact keeps_yard _ s
  · exact keeps_createdReply ..

theorem keeps_lendAct (b slip w st : Nat) (item : ItemCode) (s : State) : Keeps s (lendAct b slip w st item s).1 := by
  unfold lendAct
  extract_lets y
  iterate 5 (split; · exact .refl s)
  exact keeps_lendBin ..

theorem keeps_cancelAct (slip : Nat) (s : State) : Keeps s (cancelAct slip s).1 := by
  unfold cancelAct
  split
  · exact .refl s
  · split
    · exact .refl s
    · split
      · exact .refl s
      · split <;> exact keeps_yard _ s

theorem keeps_fetchAct (b st : Nat) (s : State) : Keeps s (fetchAct b st s).1 := by
  unfold fetchAct
  extract_lets y e
  iterate 4 (split; · exact .refl s)
  split
  · exact .refl s
  · exact keeps_createdReply ..

theorem keeps_retireAct (b : Nat) (s : State) : Keeps s (retireAct b s).1 := by
  unfold retireAct
  split
  · exact .refl s
  · iterate 2 (split; · exact .refl s)
    exact keeps_yard _ s

theorem keeps_inductAct (b c : Nat) (f : Option Nat) (s : State) : Keeps s (inductAct b c f s).1 := by
  unfold inductAct
  extract_lets y
  iterate 4 (split; · exact .refl s)
  exact keeps_yard _ s

theorem keeps_intakeAct (w st : Nat) (item : ItemCode) (s : State) : Keeps s (intakeAct w st item s).1 := by
  unfold intakeAct
  split
  · exact .refl s
  · extract_lets y
    iterate 5 (split; · exact .refl s)
    exact keeps_yard _ s

theorem keeps_drainAct (st : Nat) (s : State) : Keeps s (drainAct st s).1 := by
  unfold drainAct
  split
  · exact .refl s
  · iterate 2 (split; · exact .refl s)
    exact keeps_yard _ s

theorem keeps_clearTrayAct (st : Nat) (item : Option ItemCode) (s : State) : Keeps s (clearTrayAct st item s).1 := by
  unfold clearTrayAct
  split
  · exact .refl s
  · split
    · exact keeps_yard _ s
    · split
      · exact .refl s
      · split
        · exact .refl s
        · split
          · exact keeps_yard _ s
          · exact .refl s

theorem keeps_surveyAct (a k x z : Nat) (s : State) : Keeps s (surveyAct a k x z s).1 := by
  unfold surveyAct
  split
  · exact .refl s
  · iterate 3 (split; · exact .refl s)
    exact keeps_yard _ s

theorem keeps_acceptAct (a : Nat) (s : State) : Keeps s (acceptAct a s).1 := by
  unfold acceptAct
  split
  · exact .refl s
  · extract_lets e
    iterate 2 (split; · exact .refl s)
    exact keeps_yard _ s

theorem keeps_carrierClearAct (a id : Nat) (s : State) : Keeps s (carrierClearAct a id s).1 := by
  unfold carrierClearAct
  split
  · exact .refl s
  · extract_lets c
    split
    · exact .refl s
    · exact keeps_yard _ s

theorem keeps_lineClearAct (l id : Nat) (s : State) : Keeps s (lineClearAct l id s).1 := by
  unfold lineClearAct
  split
  · exact .refl s
  · extract_lets r
    split
    · exact .refl s
    · exact keeps_yard _ s

theorem keeps_continuousAct (s : State) : Keeps s (continuousAct s).1 := by
  unfold continuousAct
  split
  · exact ⟨rfl, rfl, rfl, rfl⟩
  · exact ⟨rfl, rfl, rfl, rfl⟩
  · exact ⟨rfl, rfl, rfl, rfl⟩
  · exact .refl s

theorem keeps_singleAct (s : State) : Keeps s (singleAct s).1 := by
  unfold singleAct
  split
  · exact .refl s
  · split
    · exact ⟨rfl, rfl, rfl, rfl⟩
    · exact ⟨rfl, rfl, rfl, rfl⟩
    · exact .refl s
    · exact .refl s

theorem keeps_stopAct (id : Nat) (s : State) : Keeps s (stopAct id s).1 := by
  unfold stopAct
  split
  · exact .refl s
  · split
    · exact .refl s
    · exact ⟨rfl, rfl, rfl, rfl⟩
    · exact ⟨rfl, rfl, rfl, rfl⟩
    · exact ⟨rfl, rfl, rfl, rfl⟩

theorem keeps_queryWingAct (mask : Nat) (s : State) : Keeps s (queryWingAct mask s).1 := keeps_yard _ s

theorem keeps_requests : RequestsKeep Keeps where
  start := keeps_startAct
  restart := keeps_restartAct
  resume := keeps_resumeAct
  flush := keeps_flushAct
  lend := keeps_lendAct
  cancelLend := keeps_cancelAct
  fetch := keeps_fetchAct
  retire := keeps_retireAct
  induct := keeps_inductAct
  returnIntake := keeps_intakeAct
  drainTray := keeps_drainAct
  clearTray := keeps_clearTrayAct
  survey := keeps_surveyAct
  acceptMap := keeps_acceptAct
  carrierClear := keeps_carrierClearAct
  lineClear := keeps_lineClearAct
  continuous := keeps_continuousAct
  single := keeps_singleAct
  stop := keeps_stopAct
  queryWing := keeps_queryWingAct

/-! ## The effects of events -/

theorem keeps_frameSent (s : State) : Keeps s (frameSent s) := by
  unfold frameSent
  extract_lets k
  split
  · exact .refl s
  · exact keeps_link _ s
  · extract_lets t
    split <;> exact ⟨rfl, rfl, rfl, rfl⟩
  · exact ⟨rfl, rfl, rfl, rfl⟩

theorem keeps_noticeStage (i : Slot) (k : SlotKind) (z : Zone) (before after zone : Stage)
    (l : Option (Nat × Option Int)) (s : State) : Keeps s (noticeStage i k z before after zone l s) := by
  unfold noticeStage
  split
  · exact .refl s
  · exact keeps_notifyS _ _ s
  · exact keeps_notifyS _ _ s
  · exact keeps_notifyS _ _ s

theorem keeps_degradedSync (z : Zone) (s : State) : Keeps s (degradedSync z s) := by
  unfold degradedSync
  extract_lets faults now
  split
  · exact .refl s
  · exact (keeps_modSweep _ s).trans (keeps_notifyS _ _ _)

theorem keeps_stageSync (i : Slot) (z : Zone) (s : State) : Keeps s (stageSync i z s) := by
  unfold stageSync
  extract_lets old now
  split
  · exact .refl s
  · exact (keeps_modSweep _ s).trans (keeps_arrival _ _ _)

theorem keeps_zonesSync (i : Slot) (s : State) : Keeps s (zonesSync i s) :=
  (Keeps.foldl _ (fun s z => keeps_degradedSync z s) _ s).trans (Keeps.foldl _ (fun s z => keeps_stageSync i z s) _ _)

theorem keeps_stopSync (s : State) : Keeps s (stopSync s) := by
  unfold stopSync
  split
  · exact (keeps_modSweep _ s).trans (keeps_answers _ _ _ _)
  · exact .refl s

theorem keeps_conversionDone (raw : Nat) (s : State) : Keeps s (conversionDone raw s) := by
  unfold conversionDone
  split
  · exact .refl s
  · extract_lets old new t u
    have hu : Keeps s u := (keeps_modSweep _ s).trans (keeps_ite _ (.refl t) (keeps_noticeStage ..))
    exact hu.trans ((keeps_zonesSync _ u).trans ((keeps_modSweep _ _).trans (keeps_stopSync _)))

theorem keeps_holdClearEnds (s : State) : Keeps s (holdClearEnds s) := by
  unfold holdClearEnds
  split
  · extract_lets t u
    have ht : Keeps s t := keeps_modWing _ s
    split
    · exact ht.trans (keeps_returnNormal t)
    · exact ht.trans ((keeps_modWing _ t).trans (keeps_ite _ (keeps_returnNormal u) (keeps_modWing _ u)))
    · exact ht
  · exact .refl s

theorem keeps_parkTimerEnds (s : State) : Keeps s (parkTimerEnds s) := keeps_ite _ (keeps_enterSealing _ s) (.refl s)

theorem keeps_restartTimerEnds (s : State) : Keeps s (restartTimerEnds s) :=
  keeps_ite _ ((keeps_dropUnreported s).trans (keeps_enterNormal _)) (.refl s)

theorem keeps_segmentReported (a : Aisle) (no : Nat) (r : SegReport) (s : State) : Keeps s (segmentReported a no r s) := by
  unfold segmentReported stopObstructs
  split
  · exact (keeps_onYard _ s).trans (keeps_ite _ (keeps_obstruct _) (.refl _))
  · exact .refl s

theorem keeps_segmentFaults (a : Aisle) (no : Nat) (f : DriveFault) (s : State) : Keeps s (segmentFaults a no f s) := by
  unfold segmentFaults
  split
  · exact keeps_onYard _ s
  · exact .refl s

theorem keeps_segmentExpires (a : Aisle) (no : Nat) (s : State) : Keeps s (segmentExpires a no s) := by
  unfold segmentExpires
  split
  · exact keeps_ite _ (keeps_onYard _ s) (.refl s)
  · exact .refl s

theorem keeps_clearReport (a : Aisle) (w : ClearWait) (r : DriveReport) (s : State) : Keeps s (clearReport a w r s) := by
  unfold clearReport
  extract_lets t u
  have ht : Keeps s t := keeps_yard _ s
  split
  · exact ht.trans (keeps_answer ..)
  · split
    · exact ht.trans ((keeps_yard _ t).trans (keeps_answer ..))
    · exact ht.trans ((keeps_onYard _ t).trans (keeps_answer ..))

theorem keeps_joinClearing (a : Aisle) (s : State) : Keeps s (joinClearing a s) := keeps_ite _ (keeps_modWing _ s) (.refl s)

theorem keeps_statusReported (a : Aisle) (r : DriveReport) (s : State) : Keeps s (statusReported a r s) := by
  unfold statusReported
  extract_lets c t
  split
  · exact .refl s
  · have ht : Keeps s t := by
      unfold t
      split
      · exact keeps_clearReport ..
      · exact keeps_ite _ ((keeps_onYard _ s).trans (keeps_joinClearing a _)) (keeps_ite _ (keeps_onYard _ s) (.refl s))
    exact ht.trans (keeps_onYard _ t)

theorem keeps_carrierClearExpires (a : Aisle) (s : State) : Keeps s (carrierClearExpires a s) := by
  unfold carrierClearExpires
  split
  · exact (keeps_yard _ s).trans (keeps_answer ..)
  · exact .refl s

theorem keeps_transferDone (l : LineId) (no : Nat) (f : Env → Transfer → Yard → Yard) (s : State) :
    Keeps s (transferDone l no f s) := by
  unfold transferDone
  split
  · exact keeps_onYard _ s
  · exact .refl s

theorem keeps_lineClearEnds (l : LineId) (s : State) : Keeps s (lineClearEnds l s) := by
  unfold lineClearEnds
  split
  · exact .refl s
  · extract_lets t u
    have ht : Keeps s t := keeps_yard _ s
    split
    · exact ht.trans ((keeps_onYard _ t).trans (keeps_ite _ (keeps_answer ..) (keeps_answer ..)))
    · exact ht.trans (keeps_answer ..)

theorem keeps_lineClearSync (l : LineId) (s : State) : Keeps s (lineClearSync l s) := by
  unfold lineClearSync
  split
  · exact keeps_ite _ (keeps_lineClearEnds l s) (.refl s)
  · exact .refl s

theorem keeps_contentsReported (l : LineId) (bins : List Nat) (inbound : List (Option Nat)) (f : Bool) (s : State) :
    Keeps s (contentsReported l bins inbound f s) :=
  keeps_ite _ ((keeps_onYard _ s).trans (keeps_lineClearSync l _))
    (keeps_ite _ ((keeps_yard _ s).trans (keeps_lineClearSync l _)) (.refl s))

theorem keeps_fullReported (st : Station) (n p : Option Nat) (s : State) : Keeps s (fullReported st n p s) :=
  (keeps_ite _ (keeps_yard _ s) (keeps_onYard _ s)).trans (keeps_lineClearSync _ _)

theorem keeps_flushBusy (p : FlushWait → Bool) (s : State) : Keeps s (flushBusy p s) :=
  (keeps_yard _ s).trans (Keeps.foldl _ (fun s (w : FlushWait) => keeps_answer w.id .busy [] s) _ _)

theorem keeps_closeJournal (failed : Bool) (s : State) : Keeps s (closeJournal failed s) :=
  (keeps_yard _ s).trans (keeps_flushBusy _ _)

theorem keeps_writeFailed (s : State) : Keeps s (writeFailed s) := by
  unfold writeFailed
  split
  · exact .refl s
  · extract_lets t u
    have hu : Keeps s u := (keeps_ite _ (keeps_notifyS _ _ s) (.refl s)).trans (keeps_yard _ t)
    split
    · exact hu.trans (keeps_flushBusy _ u)
    · exact hu

theorem keeps_flashFailed (s : State) : Keeps s (flashFailed s) :=
  keeps_ite _ ((keeps_writeFailed s).trans ((keeps_closeJournal _ _).trans (keeps_enterSealed _ _))) (keeps_writeFailed s)

theorem keeps_events : EventsKeep Keeps where
  frameSent := keeps_frameSent
  warmup := keeps_modSweep _
  conversion := keeps_conversionDone
  panel := keeps_panelArrives
  holdClear := keeps_holdClearEnds
  parkTimer := keeps_parkTimerEnds
  restartTimer := keeps_restartTimerEnds
  segmentComplete := keeps_segmentReported
  segmentFault := keeps_segmentFaults
  segmentDeadline := keeps_segmentExpires
  settleTimer _ := keeps_onYard _
  driveStatus := keeps_statusReported
  carrierClearTimeout := keeps_carrierClearExpires
  discoveryTimeout := keeps_onYard _
  diversion _ := keeps_transferDone _ _ _
  advance _ := keeps_transferDone _ _ _
  release _ := keeps_transferDone _ _ _
  inboundDiversion _ := keeps_transferDone _ _ _
  lineFault _ _ := keeps_onYard _
  lineDeadline _ _ := keeps_onYard _
  lineContents := keeps_contentsReported
  lineClearTimeout := keeps_lineClearEnds
  terminalFull := keeps_fullReported
  terminalChange _ _ _ := keeps_onYard _
  itemScan _ _ := keeps_onYard _
  absent _ := keeps_onYard _
  releaseButton _ := keeps_onYard _
  damaged _ := keeps_onYard _
  autoRelease _ := keeps_onYard _
  idleTimer _ := keeps_onYard _
  waitLimit _ _ := keeps_onYard _
  flashError := keeps_flashFailed
  journalRetry := keeps_onYard _

end Sys2Proof.Machine
end

