-- ==== Sys2Proof/Proofs/OwnCommands.lean ====
section
/-! PROOF. What Configure, a completed flash write and a start leave as it was; the statement on what each command
may change. -/

namespace Sys2Proof.Machine

open Sys2Proof

/-! ## Configure leaves flash, the clock and the queue -/

/-- Flash, the wing clock and the commands that wait are as they were. -/
structure KeepsRun (s u : State) : Prop where
  flash : u.flash = s.flash
  clock : u.clock = s.clock
  pending : u.pending = s.pending

theorem KeepsRun.refl (s : State) : KeepsRun s s := ⟨rfl, rfl, rfl⟩

theorem KeepsRun.trans {s t u : State} (h : KeepsRun s t) (g : KeepsRun t u) : KeepsRun s u :=
  ⟨g.flash.trans h.flash, g.clock.trans h.clock, g.pending.trans h.pending⟩

theorem Keeps.run {s u : State} (h : Keeps s u) : KeepsRun s u := ⟨h.flash, h.clock, h.pending⟩

theorem keepsRun_ite (c : Prop) [Decidable c] {s t u : State} (h : KeepsRun s t) (g : KeepsRun s u) :
    KeepsRun s (if c then t else u) := by split; exact h; exact g

theorem keepsRun_secGeometry (a c l : Nat) (s : State) : KeepsRun s (secGeometry a c l s).1 := by
  unfold secGeometry
  extract_lets g old y z w x
  split
  · exact .refl s
  · exact ⟨rfl, rfl, rfl⟩

theorem keepsRun_secCells (items : List CellItem) (s : State) : KeepsRun s (secCells items s).1 := by
  unfold secCells
  split
  · exact .refl s
  · exact keepsRun_ite _ ⟨rfl, rfl, rfl⟩ ⟨rfl, rfl, rfl⟩

theorem keepsRun_secProfiles (p : ProfileCfg) (s : State) : KeepsRun s (secProfiles p s).1 := by
  unfold secProfiles
  split
  · exact ⟨rfl, rfl, rfl⟩
  · exact .refl s

theorem keepsRun_secAssign (items : List AssignItem) (s : State) : KeepsRun s (secAssign items s).1 := by
  unfold secAssign
  split
  · exact .refl s
  · exact ⟨rfl, rfl, rfl⟩

theorem keepsRun_stationItem (i : StationItem) (s : State) : KeepsRun s (stationItem i s).1 := by
  unfold stationItem
  split
  · exact .refl s
  · extract_lets cur open' given others fit
    split
    · exact ⟨rfl, rfl, rfl⟩
    · split
      · exact ⟨rfl, rfl, rfl⟩
      · exact .refl s
    · split
      · exact .refl s
      · exact ⟨rfl, rfl, rfl⟩

theorem keepsRun_stationItems (l : List StationItem) (s : State) : KeepsRun s (stationItems l s).1 := by
  induction l generalizing s with
  | nil => exact .refl s
  | cons i t ih => exact (keepsRun_stationItem i s).trans (ih _)

theorem keepsRun_secStations (items : List StationItem) (s : State) : KeepsRun s (secStations items s).1 := by
  unfold secStations
  split
  · exact .refl s
  · exact (keepsRun_stationItems items s).trans (keepsRun_ite _ ⟨rfl, rfl, rfl⟩ (.refl _))

theorem keeps_slotItem (i : SlotItem) (s : State) : Keeps s (slotItem i s).1 := by
  unfold slotItem
  split
  · exact .refl s
  · split
    · exact .refl s
    · exact keeps_ite _ ((keeps_modSweep _ s).trans (keeps_zonesSync _ _)) (keeps_modSweep _ s)

theorem keeps_slotItems (l : List SlotItem) (s : State) : Keeps s (slotItems l s).1 := by
  induction l generalizing s with
  | nil => exact .refl s
  | cons i t ih => exact (keeps_slotItem i s).trans (ih _)

theorem keeps_settledNotices (ms : List Settled) (s : State) : Keeps s (settledNotices ms s) := by
  refine Keeps.foldl _ (fun s i => ?_) _ s
  split
  · exact keeps_noticeStage ..
  · exact .refl s

theorem keeps_secSweep (r : Option (Nat × Nat)) (items : List SlotItem) (s : State) : Keeps s (secSweep r items s).1 := by
  have hrange : ∀ busy : Bool, Keeps s (match r with | some r => if busy then s else modSweep (setRange r) s | none => s) := by
    intro busy
    split
    · exact keeps_ite _ (.refl s) (keeps_modSweep _ s)
    · exact .refl s
  unfold secSweep
  split
  · exact .refl s
  · extract_lets busy rc t
    obtain ⟨u, rs, ms, hu⟩ : ∃ u rs ms, slotItems items t = (u, rs, ms) := ⟨_, _, _, rfl⟩
    have h2 : Keeps s u := by simpa [hu] using (hrange busy).trans (keeps_slotItems items t)
    rw [hu]
    dsimp only
    exact h2.trans ((keeps_settledNotices ms u).trans (keeps_ite _ (keeps_yard _ _) (.refl _)))

theorem keepsRun_cfg (c : Settings) (s : State) : KeepsRun s { s with cfg := c } := ⟨rfl, rfl, rfl⟩

theorem keeps_storeSettings (v : SettingsVal) (s : State) : Keeps s (storeSettings v s) := keeps_yard _ s

theorem keepsRun_secTrays (th limit : Option Nat) (s : State) : KeepsRun s (secTrays th limit s).1 := by
  unfold secTrays
  extract_lets a c
  exact (keepsRun_cfg c s).trans ((keeps_eachStation _ _).trans (keeps_storeSettings _ _)).run

theorem keepsRun_secSessions (idle auto : Option Nat) (s : State) : KeepsRun s (secSessions idle auto s).1 := by
  unfold secSessions
  extract_lets a c
  exact (keepsRun_cfg c s).trans ((keeps_yard _ _).trans (keeps_storeSettings _ _)).run

theorem keepsRun_applySection (c : CfgSection) (s : State) : KeepsRun s (applySection c s).1 := by
  cases c with
  | geometry a c l => exact keepsRun_secGeometry a c l s
  | cells items => exact keepsRun_secCells items s
  | profiles p => exact keepsRun_secProfiles p s
  | aisleAssign items => exact keepsRun_secAssign items s
  | stations items => exact keepsRun_secStations items s
  | dispatch a p => exact ⟨rfl, rfl, rfl⟩
  | trays t l => exact keepsRun_secTrays t l s
  | sessions i a => exact keepsRun_secSessions i a s
  | sweep r items => exact (keeps_secSweep r items s).run
  | fire h d c r => exact ⟨rfl, rfl, rfl⟩

theorem keepsRun_applySections (l : List CfgSection) (s : State) : KeepsRun s (applySections l s).1 := by
  induction l generalizing s with
  | nil => exact .refl s
  | cons c t ih =>
    exact (keepsRun_applySection c s).trans ((keepsRun_ite _ (.refl _) (keeps_onYard _ _).run).trans (ih _))

theorem keepsRun_configureAct (l : List CfgSection) (s : State) : KeepsRun s (configureAct l s).1 := by
  unfold configureAct
  split
  · exact keepsRun_applySections l s
  · exact .refl s

/-! ## A completed write leaves the settings, the clock and the queue -/

/-- The settings, the wing clock and the commands that wait are as they were. -/
structure KeepsSettings (s u : State) : Prop where
  cfg : u.cfg = s.cfg
  clock : u.clock = s.clock
  pending : u.pending = s.pending

theorem KeepsSettings.trans {s t u : State} (h : KeepsSettings s t) (g : KeepsSettings t u) : KeepsSettings s u :=
  ⟨g.cfg.trans h.cfg, g.clock.trans h.clock, g.pending.trans h.pending⟩

theorem Keeps.settings {s u : State} (h : Keeps s u) : KeepsSettings s u := ⟨h.cfg, h.clock, h.pending⟩

theorem keeps_flushWrote (k : JKey) (s : State) : Keeps s (flushWrote k s) :=
  (keeps_yard _ s).trans (Keeps.foldl _ (fun s (w : FlushWait) => keeps_answer w.id .ok [] s) _ _)

theorem keepsSettings_writeDone (s : State) : KeepsSettings s (writeDone s) := by
  unfold writeDone
  split
  · exact ⟨rfl, rfl, rfl⟩
  · exact ⟨rfl, rfl, rfl⟩
  · extract_lets t
    have ht : KeepsSettings s t := ⟨rfl, rfl, rfl⟩
    split
    · exact ht
    · exact ht.trans (keeps_flushWrote _ t).settings

theorem keepsSettings_flashDone (s : State) : KeepsSettings s (flashDone s) := by
  unfold flashDone
  split
  · exact (keepsSettings_writeDone s).trans ((keeps_closeJournal _ _).trans (keeps_enterSealed _ _)).settings
  · exact keepsSettings_writeDone s

/-! ## A start -/

theorem keeps_startEnds (p : Panel) (s : State) : Keeps s (startEnds p s) := by
  refine Keeps.trans (Keeps.foldl _ (fun s i => ?_) _ s) (keeps_yard _ _)
  exact keeps_ite _ (keeps_panelArrives i true s) (.refl s)

/-- A start sets the clock to 0 and leaves the queue; flash is what it loads from. -/
theorem start_clock (p : Panel) (s : State) : (finish (startEnds p s)).clock = s.clock
    ∧ (finish (startEnds p s)).pending = s.pending ∧ (finish (startEnds p s)).flash = s.flash := by
  have h := (keeps_startEnds p s).trans (keeps_finish _)
  exact ⟨h.clock, h.pending, h.flash⟩

theorem coldStart_keeps (k : Straps) (p : Panel) (bad : List Nat) (s : State) :
    ∃ t, exec (.coldStart k p bad) s = .next t ∧ t.pending = s.pending ∧ t.clock = ⟨0, 0⟩ ∧ t.flash = s.flash := by
  obtain ⟨hclock, hpending, hflash⟩ := start_clock p (startState false s.flash bad { Link.reset with rate := k } (some 20)
    #v[0, 0, 0, 0, 0, 0] 0 0 s.pending)
  exact ⟨_, rfl, hpending, hclock, hflash⟩

theorem warmRestart_keeps (e : Option Nat) (p : Panel) (bad : List Nat) (s : State) :
    ∃ t, exec (.warmRestart e p bad) s = .next t ∧ t.pending = s.pending ∧ (t.clock = s.clock ∨ t.clock = ⟨0, 0⟩) := by
  by_cases h : s.link.restart = .due
  · refine ⟨finish (warmRestart e p bad s), by simp [exec, execWarmRestart, h], ?_⟩
    unfold warmRestart
    rw [if_pos h]
    extract_lets f t y u
    obtain ⟨hclock, hpending, -⟩ := start_clock p (modSweep startConv u)
    exact ⟨hpending, .inr hclock⟩
  · exact ⟨clearBus s, by simp [exec, execWarmRestart, h], rfl, .inl rfl⟩

/-! ## The statement -/

/-- What a component of the state that nothing around a command touches does, as a relation. -/
theorem steady_of_keeps {α : Type} (f : State → α) (hf : ∀ s t, Keeps s t → f t = f s) : Steady fun s t => f t = f s where
  refl _ := rfl
  trans h g := g.trans h
  link _ _ := hf _ _ (keeps_link _ _)
  bus _ _ := hf _ _ (keeps_yard _ _)
  transmit s := hf _ _ (keeps_transmit s)
  finish s := hf _ _ (keeps_finish s)

theorem RequestsKeep.mono {R Q : State → State → Prop} (h : RequestsKeep R) (hQ : ∀ s t, R s t → Q s t) : RequestsKeep Q where
  start s := hQ _ _ (h.start s)
  restart id s := hQ _ _ (h.restart id s)
  resume n s := hQ _ _ (h.resume n s)
  flush id s := hQ _ _ (h.flush id s)
  lend b slip w st item s := hQ _ _ (h.lend b slip w st item s)
  cancelLend slip s := hQ _ _ (h.cancelLend slip s)
  fetch b st s := hQ _ _ (h.fetch b st s)
  retire b s := hQ _ _ (h.retire b s)
  induct b c f s := hQ _ _ (h.induct b c f s)
  returnIntake w st item s := hQ _ _ (h.returnIntake w st item s)
  drainTray st s := hQ _ _ (h.drainTray st s)
  clearTray st item s := hQ _ _ (h.clearTray st item s)
  survey a k x z s := hQ _ _ (h.survey a k x z s)
  acceptMap a s := hQ _ _ (h.acceptMap a s)
  carrierClear a id s := hQ _ _ (h.carrierClear a id s)
  lineClear l id s := hQ _ _ (h.lineClear l id s)
  continuous s := hQ _ _ (h.continuous s)
  single s := hQ _ _ (h.single s)
  stop id s := hQ _ _ (h.stop id s)
  queryWing mask s := hQ _ _ (h.queryWing mask s)

theorem EventsKeep.mono {R Q : State → State → Prop} (h : EventsKeep R) (hQ : ∀ s t, R s t → Q s t) : EventsKeep Q where
  frameSent s := hQ _ _ (h.frameSent s)
  warmup s := hQ _ _ (h.warmup s)
  conversion raw s := hQ _ _ (h.conversion raw s)
  panel i high s := hQ _ _ (h.panel i high s)
  holdClear s := hQ _ _ (h.holdClear s)
  parkTimer s := hQ _ _ (h.parkTimer s)
  restartTimer s := hQ _ _ (h.restartTimer s)
  segmentComplete a no r s := hQ _ _ (h.segmentComplete a no r s)
  segmentFault a no f s := hQ _ _ (h.segmentFault a no f s)
  segmentDeadline a no s := hQ _ _ (h.segmentDeadline a no s)
  settleTimer a s := hQ _ _ (h.settleTimer a s)
  driveStatus a r s := hQ _ _ (h.driveStatus a r s)
  carrierClearTimeout a s := hQ _ _ (h.carrierClearTimeout a s)
  discoveryTimeout s := hQ _ _ (h.discoveryTimeout s)
  diversion no s := hQ _ _ (h.diversion no s)
  advance no s := hQ _ _ (h.advance no s)
  release no s := hQ _ _ (h.release no s)
  inboundDiversion no s := hQ _ _ (h.inboundDiversion no s)
  lineFault l no s := hQ _ _ (h.lineFault l no s)
  lineDeadline l no s := hQ _ _ (h.lineDeadline l no s)
  lineContents l bins inbound f s := hQ _ _ (h.lineContents l bins inbound f s)
  lineClearTimeout l s := hQ _ _ (h.lineClearTimeout l s)
  terminalFull st n p s := hQ _ _ (h.terminalFull st n p s)
  terminalChange st p b s := hQ _ _ (h.terminalChange st p b s)
  itemScan st c s := hQ _ _ (h.itemScan st c s)
  absent st s := hQ _ _ (h.absent st s)
  releaseButton st s := hQ _ _ (h.releaseButton st s)
  damaged st s := hQ _ _ (h.damaged st s)
  autoRelease st s := hQ _ _ (h.autoRelease st s)
  idleTimer st s := hQ _ _ (h.idleTimer st s)
  waitLimit st c s := hQ _ _ (h.waitLimit st c s)
  flashError s := hQ _ _ (h.flashError s)
  journalRetry s := hQ _ _ (h.journalRetry s)

/-- A component of the state that Configure and a completed write leave too is left by every command but a start. -/
theorem exec_component {α : Type} (f : State → α) (hf : ∀ s t, Keeps s t → f t = f s) (c : Instr) (hs : isStart c = false)
    (hcfg : isConfigure c = true → ∀ s t, KeepsRun s t → f t = f s)
    (hdone : c = .flashWriteComplete → ∀ s t, KeepsSettings s t → f t = f s) (s : State) :
    ∃ t, exec c s = .next t ∧ f t = f s :=
  (steady_of_keeps f hf).exec (keeps_requests.mono hf) (keeps_events.mono hf) c hs
    (fun hc _ s => hcfg hc s _ (keepsRun_configureAct _ s)) (fun hc s => hdone hc s _ (keepsSettings_flashDone s)) s

/-- Settles O3: the effects one by one, and what surrounds them by the dispatch. -/
theorem commandsChangeOnlyTheirOwn : Obligations.CommandsChangeOnlyTheirOwn := by
  intro c s
  cases hs : isStart c with
  | true =>
    cases c with
    | coldStart k p bad =>
      obtain ⟨t, ht, hpending, hclock, hflash⟩ := coldStart_keeps k p bad s
      exact ⟨t, ht, hpending, .inr ⟨rfl, hclock⟩, fun _ h => (Bool.noConfusion h), fun _ _ => hflash⟩
    | warmRestart e p bad =>
      obtain ⟨t, ht, hpending, hclock⟩ := warmRestart_keeps e p bad s
      exact ⟨t, ht, hpending, hclock.imp_right fun h => ⟨rfl, h⟩, fun _ h => (Bool.noConfusion h),
        fun _ h => absurd rfl (h e p bad)⟩
    | _ => cases hs
  | false =>
    obtain ⟨t, ht, hrun⟩ := exec_component (fun s => (s.clock, s.pending)) (fun _ _ h => by simp [h.clock, h.pending]) c hs
      (fun _ _ _ h => by simp [h.clock, h.pending]) (fun _ _ _ h => by simp [h.clock, h.pending]) s
    obtain ⟨hclock, hpending⟩ := Prod.mk.inj hrun
    have same : ∀ P : State → Prop, (∃ u, exec c s = .next u ∧ P u) → P t := by
      rintro P ⟨u, hu, hP⟩
      cases ht.symm.trans hu
      exact hP
    refine ⟨t, ht, hpending, .inl hclock, fun hc _ => same (·.cfg = s.cfg) ?_, fun hc _ => same (·.flash = s.flash) ?_⟩
    · exact exec_component (·.cfg) (fun _ _ h => h.cfg) c hs (fun h => by simp [hc] at h) (fun _ _ _ h => h.cfg) s
    · exact exec_component (·.flash) (fun _ _ h => h.flash) c hs (fun _ _ _ h => h.flash) (fun h => absurd h hc) s

end Sys2Proof.Machine
end

