-- ==== Sys2Proof/Proofs/Places.lean ====
section
/-! PROOF. The places of R9 other than a cell, one by one: where a bin stands, and the list of placed bins read so. -/

namespace Sys2Proof.Machine

open Sys2Proof

-- Default arguments given by tactics wait for the kernel: one theorem at a time, so that few wait at once.
set_option Elab.async false

/-- A bin is recorded in a place. -/
abbrev At (b : Nat) (p : Place) (y : Yard) : Prop := placeHolds b y p = true

theorem at_fork {b : Nat} {a : Aisle} {y : Yard} : At b (.fork a) y ↔ y.carriers[a].load = some b := by simp [At, placeHolds]
theorem at_delivery {b : Nat} {y : Yard} : At b .delivery y ↔ b ∈ y.lines.delivery.map (·.bin) := by simp [At, placeHolds]
theorem at_ret {b : Nat} {y : Yard} : At b .ret y ↔ b ∈ y.lines.returns.map (·.bin) := by simp [At, placeHolds]
theorem at_inbound {b : Nat} {a : Aisle} {y : Yard} : At b (.inbound a) y ↔ y.lines.inbound[a] = some b := by
  simp [At, placeHolds]
theorem at_next {b : Nat} {st : Station} {y : Yard} : At b (.next st) y ↔ y.stations[st].next.map (·.bin) = some b := by
  simp [At, placeHolds]
theorem at_present {b : Nat} {st : Station} {y : Yard} :
    At b (.present st) y ↔ y.stations[st].present.map (·.bin) = some b := by simp [At, placeHolds]

/-! ## Vectors by their indices -/

/-- An entry of a vector after a write, by the index in the range itself. -/
theorem vset_get {n : Nat} {α : Type} (v : Vector α n) (i j : Fin n) (x : α) :
    (v.set i x)[j] = if i = j then x else v[j] := by simp [Vector.getElem_set, Fin.ext_iff]

theorem vmap_get {n : Nat} {α β : Type} (v : Vector α n) (f : α → β) (j : Fin n) : (v.map f)[j] = f v[j] := by simp

theorem mem_toList_iff {n : Nat} {α : Type} {v : Vector α n} {x : α} : x ∈ v.toList ↔ ∃ i : Fin n, v[i] = x := by
  simp only [Vector.mem_toList_iff, Vector.mem_iff_getElem]
  exact ⟨fun ⟨i, h, hx⟩ => ⟨⟨i, h⟩, hx⟩, fun ⟨i, hx⟩ => ⟨i, i.isLt, hx⟩⟩

theorem mem_filterMap_toList {n : Nat} {α β : Type} {v : Vector α n} {f : α → Option β} {x : β} :
    x ∈ v.toList.filterMap f ↔ ∃ i : Fin n, f v[i] = some x := by
  simp only [List.mem_filterMap, mem_toList_iff]
  exact ⟨fun ⟨_, ⟨i, rfl⟩, h⟩ => ⟨i, h⟩, fun ⟨i, h⟩ => ⟨_, ⟨i, rfl⟩, h⟩⟩

/-- The values that a vector's entries give differ when no two entries give one. -/
theorem nodup_filterMap_toList {n : Nat} {α β : Type} {v : Vector α n} {f : α → Option β} :
    (v.toList.filterMap f).Nodup ↔ ∀ i j : Fin n, ∀ x, f v[i] = some x → f v[j] = some x → i = j := by
  rw [List.Nodup, List.pairwise_filterMap, List.pairwise_iff_getElem]
  simp only [Vector.length_toList, Vector.getElem_toList]
  constructor
  · intro h i j x hi hj
    rcases lt_trichotomy i j with hij | hij | hij
    · exact absurd rfl (h i j i.isLt j.isLt hij x hi x hj)
    · exact hij
    · exact absurd rfl (h j i j.isLt i.isLt hij x hj x hi)
  · rintro h i j hi hj hij x hx z hz rfl
    have := Fin.mk.inj (h ⟨i, hi⟩ ⟨j, hj⟩ x hx hz)
    omega

/-! ## The list of placed bins -/

theorem mem_placedBins {b : Nat} {y : Yard} : b ∈ placedBins y ↔ ∃ p, At b p y := by
  simp only [placedBins, List.mem_append, mem_filterMap_toList]
  constructor
  · rintro (((((⟨a, h⟩ | h) | h) | ⟨a, h⟩) | ⟨st, h⟩) | ⟨st, h⟩)
    · exact ⟨.fork a, at_fork.2 h⟩
    · exact ⟨.delivery, at_delivery.2 h⟩
    · exact ⟨.ret, at_ret.2 h⟩
    · exact ⟨.inbound a, at_inbound.2 h⟩
    · exact ⟨.next st, at_next.2 h⟩
    · exact ⟨.present st, at_present.2 h⟩
  · rintro ⟨p, h⟩
    cases p with
    | fork a => exact .inl (.inl (.inl (.inl (.inl ⟨a, at_fork.1 h⟩))))
    | delivery => exact .inl (.inl (.inl (.inl (.inr (at_delivery.1 h)))))
    | ret => exact .inl (.inl (.inl (.inr (at_ret.1 h))))
    | inbound a => exact .inl (.inl (.inr ⟨a, at_inbound.1 h⟩))
    | next st => exact .inl (.inr ⟨st, at_next.1 h⟩)
    | present st => exact .inr ⟨st, at_present.1 h⟩

/-- The placed bins differ when each line lists a bin once and no bin stands in two places. -/
theorem nodup_placedBins {y : Yard} : (placedBins y).Nodup ↔ (y.lines.delivery.map (·.bin)).Nodup
    ∧ (y.lines.returns.map (·.bin)).Nodup ∧ ∀ b p q, At b p y → At b q y → p = q := by
  simp only [placedBins, List.nodup_append, nodup_filterMap_toList, List.mem_append, mem_filterMap_toList]
  constructor
  · rintro ⟨⟨⟨⟨⟨hf, hd, hfd⟩, hr, hdr⟩, hi, hri⟩, hn, hin⟩, hp, hnp⟩
    refine ⟨hd, hr, fun b p q hbp hbq => ?_⟩
    cases p <;> cases q <;> simp only [at_fork, at_delivery, at_ret, at_inbound, at_next, at_present] at hbp hbq <;> grind
  · rintro ⟨hd, hr, one⟩
    have ne : ∀ {b c p q}, At b p y → At c q y → p ≠ q → b ≠ c := fun hp hq hpq hbc => hpq (one _ _ _ hp (hbc ▸ hq))
    refine ⟨⟨⟨⟨⟨?_, hd, ?_⟩, hr, ?_⟩, ?_, ?_⟩, ?_, ?_⟩, ?_, ?_⟩
    · exact fun i j x hi hj => Place.fork.inj (one x _ _ (at_fork.2 hi) (at_fork.2 hj))
    · exact fun b ⟨a, hb⟩ c hc => ne (at_fork.2 hb) (at_delivery.2 hc) (by simp)
    · rintro b (⟨a, hb⟩ | hb) c hc
      · exact ne (at_fork.2 hb) (at_ret.2 hc) (by simp)
      · exact ne (at_delivery.2 hb) (at_ret.2 hc) (by simp)
    · exact fun i j x hi hj => Place.inbound.inj (one x _ _ (at_inbound.2 hi) (at_inbound.2 hj))
    · rintro b ((⟨a, hb⟩ | hb) | hb) c ⟨i, hc⟩
      · exact ne (at_fork.2 hb) (at_inbound.2 hc) (by simp)
      · exact ne (at_delivery.2 hb) (at_inbound.2 hc) (by simp)
      · exact ne (at_ret.2 hb) (at_inbound.2 hc) (by simp)
    · exact fun i j x hi hj => Place.next.inj (one x _ _ (at_next.2 hi) (at_next.2 hj))
    · rintro b (((⟨a, hb⟩ | hb) | hb) | ⟨a, hb⟩) c ⟨i, hc⟩
      · exact ne (at_fork.2 hb) (at_next.2 hc) (by simp)
      · exact ne (at_delivery.2 hb) (at_next.2 hc) (by simp)
      · exact ne (at_ret.2 hb) (at_next.2 hc) (by simp)
      · exact ne (at_inbound.2 hb) (at_next.2 hc) (by simp)
    · exact fun i j x hi hj => Place.present.inj (one x _ _ (at_present.2 hi) (at_present.2 hj))
    · rintro b ((((⟨a, hb⟩ | hb) | hb) | ⟨a, hb⟩) | ⟨a, hb⟩) c ⟨i, hc⟩
      · exact ne (at_fork.2 hb) (at_present.2 hc) (by simp)
      · exact ne (at_delivery.2 hb) (at_present.2 hc) (by simp)
      · exact ne (at_ret.2 hb) (at_present.2 hc) (by simp)
      · exact ne (at_inbound.2 hb) (at_present.2 hc) (by simp)
      · exact ne (at_next.2 hb) (at_present.2 hc) (by simp)

end Sys2Proof.Machine
end

