-- ==== Sys2Proof/Proofs/Kinds.lean ====
section
/-! PROOF. The invariants of the yard as one family: the lists and tables, the places of bins, the numbers of bins and
the timers of sessions. Each operation keeps every member, and its lemma says so once for all of them. The journal's part
comes first. -/

namespace Sys2Proof.Machine

open Sys2Proof

-- Default arguments given by tactics wait for the kernel: one theorem at a time, so that few wait at once.
set_option Elab.async false

/-- Which invariant is meant. `places` has two parameters for the reports, which take bins from their places before
they put them back: where a bin may stand at all, and which bins keep a record of standing in a place meanwhile. -/
inductive Kind where
  | lists
  | places (may : Place → Nat → Prop) (kept : Nat → Prop)
  | numbers
  | sessions

/-! ## The journal's part -/

/-- The journal's lists are within their bounds, and no write of it stores a geometry that does not fit. -/
structure JLists (j : Journal) : Prop where
  safe : JournalSafe j
  waiting : ∀ w ∈ j.ctl, WriteFits w
  writing : ∀ w, j.writing = some (.ctl w) → WriteFits w

/-- The keys of attributes in the journal name bins by numbers that bins can have. -/
structure JNumbers (j : Journal) : Prop where
  entries : ∀ k ∈ j.entries.map (·.key), KeyNumbered k
  marks : ∀ b ∈ j.attrMarks, binOk b = true
  writing : ∀ e r, j.writing = some (.entry e r) → KeyNumbered e.key

/-- A control write stores no idle timeout below R127's range. -/
def IdleFits : CtlWrite → Prop
  | .settings (.sessions idle _) => 30 ≤ idle
  | _ => True

/-- The journal's writes store no idle timeout below R127's range. -/
structure JTimes (j : Journal) : Prop where
  waiting : ∀ w ∈ j.ctl, IdleFits w
  writing : ∀ w, j.writing = some (.ctl w) → IdleFits w

/-- What an invariant asks of the journal. -/
def JHolds : Kind → Journal → Prop
  | .lists, j | .places _ _, j => JLists j
  | .numbers, j => JNumbers j
  | .sessions, j => JTimes j

/-- What an invariant asks of a key that enters the journal. -/
def KeyOk : Kind → JKey → Prop
  | .lists, k | .places _ _, k => KeyFits k
  | .numbers, k => KeyNumbered k
  | .sessions, _ => True

/-- What an invariant asks of a control write. -/
def CtlOk : Kind → CtlWrite → Prop
  | .lists, w | .places _ _, w => WriteFits w
  | .numbers, _ => True
  | .sessions, w => IdleFits w

theorem keyOk_fill (m : Kind) (b : Nat) : KeyOk m (.fill b) := by cases m <;> trivial

theorem keyOk_of_fits {a : CellAddr} (h : KeyFits (.cell a)) (m : Kind) : KeyOk m (.cell a) := by
  cases m with
  | lists => exact h
  | places => exact h
  | numbers => trivial
  | sessions => trivial

/-- A control write that stores no settings. -/
def Plain (w : CtlWrite) : Prop := ∀ v, w ≠ .settings v

theorem Plain.ok {w : CtlWrite} (h : Plain w) (m : Kind) : CtlOk m w := by
  cases w with
  | settings v => exact absurd rfl (h v)
  | _ => cases m <;> trivial

/-- What a write in flight may be after a change that adds none: one of the list, or a plain one. -/
def FromJournal (j : Journal) : Writing → Prop
  | .ctl w => w ∈ j.ctl ∨ Plain w
  | .entry e _ => e.key ∈ j.entries.map (·.key) ∨ ∃ r, j.writing = some (.entry e r)

/-- A change of the journal that adds nothing to it but plain control writes. -/
structure JLight (j z : Journal) : Prop where
  entries : (z.entries.map (·.key)).Sublist (j.entries.map (·.key)) := by exact .refl _
  marks : ∀ k, marked z k = true → marked j k = true := by exact fun _ h => h
  ctl : ∀ w ∈ z.ctl, w ∈ j.ctl ∨ Plain w := by exact fun _ h => .inl h
  writing : ∀ x, z.writing = some x → j.writing = some x ∨ FromJournal j x := by exact fun _ h => .inl h

theorem marked_attr {j : Journal} {b : Nat} : marked j (.attr b) = true ↔ b ∈ j.attrMarks := by simp [marked]

theorem mem_keys {j : Journal} {e : JEntry} (h : e ∈ j.entries) : e.key ∈ j.entries.map (·.key) := List.mem_map_of_mem h

theorem JournalSafe.ofKeys {j z : Journal} (h : JournalSafe j)
    (hk : (z.entries.map (·.key)).Sublist (j.entries.map (·.key))) (hm : ∀ k, marked z k = true → marked j k = true) :
    JournalSafe z where
  bound := by have := hk.length_le; simp only [List.length_map] at this; exact this.trans h.bound
  keys := h.keys.sublist hk
  unmarked e he := by
    obtain ⟨x, hx, hxe⟩ := List.mem_map.1 (hk.subset (mem_keys he))
    rw [← hxe]
    have := h.unmarked x hx
    by_contra hc
    simp only [Bool.not_eq_false] at hc
    simp [hm _ hc] at this
  fits e he := by
    obtain ⟨x, hx, hxe⟩ := List.mem_map.1 (hk.subset (mem_keys he))
    exact hxe ▸ h.fits x hx

namespace JHolds

variable {m : Kind} {j z : Journal}

/-- The control writes, whichever invariant is meant: what lists, numbers and times ask of them is one condition. -/
theorem ctlOk (h : JHolds m j) {w : CtlWrite} (hw : w ∈ j.ctl) : CtlOk m w := by
  cases m with
  | lists => exact h.waiting w hw
  | places => exact h.waiting w hw
  | numbers => trivial
  | sessions => exact h.waiting w hw

theorem writingOk (h : JHolds m j) {w : CtlWrite} (hw : j.writing = some (.ctl w)) : CtlOk m w := by
  cases m with
  | lists => exact h.writing w hw
  | places => exact h.writing w hw
  | numbers => trivial
  | sessions => exact h.writing w hw

/-- The keys of the list are ones the invariant allows. -/
theorem keyOk (h : JHolds m j) {k : JKey} (hk : k ∈ j.entries.map (·.key)) : KeyOk m k := by
  have fits : JLists j → KeyFits k := fun h => by
    obtain ⟨e, he, rfl⟩ := List.mem_map.1 hk
    exact h.safe.fits e he
  cases m with
  | lists => exact fits h
  | places => exact fits h
  | numbers => exact h.entries k hk
  | sessions => trivial

/-- The parts put together again: for the lists the bounds are to be shown, for the rest each key and write. -/
theorem of_parts (hsafe : (∀ k, KeyOk m k → KeyFits k) → JournalSafe j → JournalSafe z) (h : JHolds m j)
    (hkeys : ∀ k ∈ z.entries.map (·.key), KeyOk m k) (hmarks : ∀ b ∈ z.attrMarks, KeyOk m (.attr b))
    (hctl : ∀ w ∈ z.ctl, CtlOk m w) (hwc : ∀ w, z.writing = some (.ctl w) → CtlOk m w)
    (hwe : ∀ e r, z.writing = some (.entry e r) → KeyOk m e.key ∨ ∃ r', j.writing = some (.entry e r')) : JHolds m z := by
  cases m with
  | lists => exact ⟨hsafe (fun _ hk => hk) h.safe, hctl, hwc⟩
  | places => exact ⟨hsafe (fun _ hk => hk) h.safe, hctl, hwc⟩
  | numbers => exact ⟨hkeys, hmarks, fun e r hw => (hwe e r hw).elim id fun ⟨r', h'⟩ => h.writing e r' h'⟩
  | sessions => exact ⟨hctl, hwc⟩

theorem markOk (h : JHolds m j) {b : Nat} (hb : b ∈ j.attrMarks) : KeyOk m (.attr b) := by
  cases m with
  | numbers => exact h.marks b hb
  | _ => trivial

theorem light (h : JHolds m j) (hl : JLight j z) : JHolds m z := by
  have hplain : ∀ w, w ∈ j.ctl ∨ Plain w → CtlOk m w := fun w hw => hw.elim h.ctlOk (·.ok m)
  refine of_parts (fun _ hs => hs.ofKeys hl.entries hl.marks) h (fun k hk => h.keyOk (hl.entries.subset hk))
    (fun b hb => h.markOk (marked_attr.1 (hl.marks _ (marked_attr.2 hb)))) (fun w hw => hplain w (hl.ctl w hw))
    (fun w hw => (hl.writing _ hw).elim h.writingOk (hplain w)) (fun e r hw => ?_)
  rcases hl.writing _ hw with hw | hk | hw
  · exact .inr ⟨r, hw⟩
  · exact .inl (h.keyOk hk)
  · exact .inr hw

end JHolds

/-! ## A change arrives, and marked records enter -/

theorem marked_mark_iff (j : Journal) (k x : JKey) (hk : KeyFits k) (hx : KeyFits x) :
    marked (mark j k) x = true ↔ x = k ∨ marked j x = true := by
  cases k <;> cases x <;> simp only [marked, mark, List.contains_eq_mem, decide_eq_true_eq, mem_ninsert, reduceCtorEq,
    false_or, JKey.fill.injEq, JKey.attr.injEq]
  next a b =>
    refine or_congr_left ⟨fun h => ?_, fun h => by rw [JKey.cell.inj h]⟩
    rw [cellCode_inj _ _ hx hk h]

theorem coalesce_marks (j : Journal) (k : JKey) (v : JVal) (x : JKey) : marked (coalesce j k v) x = marked j x := by
  cases x <;> rfl

theorem not_any_key {j : Journal} {k : JKey} (h : ¬ (j.entries.any fun e => e.key = k) = true) :
    k ∉ j.entries.map (·.key) := by
  simp only [List.any_eq_true, decide_eq_true_eq, not_exists, not_and] at h
  rintro hk
  obtain ⟨e, he, hek⟩ := List.mem_map.1 hk
  exact h e he hek

/-- An entry that is not in the list and not marked joins it where it has room. -/
theorem JournalSafe.append {j z : Journal} (h : JournalSafe j) {e : JEntry} (hz : z.entries = j.entries ++ [e])
    (hroom : j.entries.length < 64) (hk : e.key ∉ j.entries.map (·.key)) (hm : marked z e.key = false)
    (hmarks : ∀ k, marked z k = true → marked j k = true) (hf : KeyFits e.key) : JournalSafe z where
  bound := by rw [hz, List.length_append]; simp; omega
  keys := by
    rw [hz, List.map_append, List.nodup_append]
    refine ⟨h.keys, by simp, ?_⟩
    rintro x hx y hy rfl
    simp only [List.map_cons, List.map_nil, List.mem_singleton] at hy
    exact hk (hy ▸ hx)
  unmarked x hx := by
    rw [hz, List.mem_append] at hx
    rcases hx with hx | hx
    · by_contra hc
      simp only [Bool.not_eq_false] at hc
      have := h.unmarked x hx
      simp [hmarks _ hc] at this
    · rw [List.mem_singleton.1 hx]; exact hm
  fits x hx := by
    rw [hz, List.mem_append] at hx
    rcases hx with hx | hx
    · exact h.fits x hx
    · rw [List.mem_singleton.1 hx]; exact hf

/-- A record that has no entry is marked. -/
theorem JournalSafe.mark {j : Journal} (h : JournalSafe j) {k : JKey} (hk : KeyFits k)
    (hnew : k ∉ j.entries.map (·.key)) : JournalSafe (mark j k) := by
  have hentries : (Machine.mark j k).entries = j.entries := by cases k <;> rfl
  refine ⟨by rw [hentries]; exact h.bound, by rw [hentries]; exact h.keys, fun e he => ?_, by rw [hentries]; exact h.fits⟩
  rw [hentries] at he
  rw [Bool.eq_false_iff]
  intro hm
  rcases (marked_mark_iff j k e.key hk (h.fits e he)).1 hm with rfl | hm
  · exact hnew (mem_keys he)
  · exact Bool.eq_false_iff.1 (h.unmarked e he) hm

namespace JHolds

variable {m : Kind} {j z : Journal}

theorem coalesce (h : JHolds m j) (k : JKey) (v : JVal) : JHolds m (coalesce j k v) := by
  refine h.light ⟨?_, fun x hx => by rwa [coalesce_marks] at hx, fun _ h => .inl h, fun x hx => ?_⟩
  · rw [coalesce_keys]
  · cases hw : j.writing with
    | none => simp [Machine.coalesce, hw] at hx
    | some w =>
      cases w with
      | ctl w => exact .inl (by simpa [Machine.coalesce, hw] using hx)
      | entry e r =>
        simp only [Machine.coalesce, hw, Option.some.injEq] at hx
        subst hx
        exact .inr (.inr ⟨r, hw⟩)

theorem holdOffOf (h : JHolds m j) : JHolds m (holdOffOf j) := h.light { marks := fun k hk => by cases k <;> exact hk }

/-- A change that arrives keeps the journal's part. -/
theorem change (h : JHolds m j) {k : JKey} (v : JVal) (hk : KeyOk m k) : JHolds m (journalChange k v j) := by
  unfold journalChange
  split
  · exact h.coalesce k v
  next hnew =>
  have hfresh := not_any_key hnew
  split
  · exact h
  next hm =>
  split
  · refine of_parts (fun hfits hs => hs.mark (hfits k hk) hfresh) h (fun x hx => h.keyOk (by cases k <;> exact hx))
      (fun b hb => ?_) (fun w hw => h.ctlOk (by cases k <;> exact hw)) (fun w hw => h.writingOk (by cases k <;> exact hw))
      (fun e r hw => .inr ⟨r, by cases k <;> exact hw⟩)
    cases k with
    | attr d =>
      rcases (mem_ninsert _ _ _).1 hb with rfl | hb
      · exact hk
      · exact h.markOk hb
    | cell a => exact h.markOk hb
    | fill d => exact h.markOk hb
  next hopen =>
  have hroom : j.entries.length < 64 := by
    simp only [Bool.or_eq_true, decide_eq_true_eq, not_or, Nat.not_le] at hopen
    exact hopen.2
  refine JHolds.holdOffOf (of_parts (fun hfits hs => hs.append rfl hroom hfresh ?_ (fun _ h => ?_) (hfits k hk)) h
    (fun x hx => ?_) (fun b hb => h.markOk hb) (fun w hw => h.ctlOk hw) (fun w hw => h.writingOk hw) (fun e r hw => .inr ⟨r, hw⟩))
  · rw [Bool.eq_false_iff]
    cases k <;> exact hm
  · next x => cases x <;> exact h
  · simp only [List.map_append, List.mem_append, List.map_cons, List.map_nil, List.mem_singleton] at hx
    rcases hx with hx | rfl
    · exact h.keyOk hx
    · exact hk

end JHolds
end Sys2Proof.Machine
end

