-- ==== Sys2Proof/Proofs/JournalKept.lean ====
section
/-! PROOF. Every operation of the journal keeps its part of the invariants. -/

namespace Sys2Proof.Machine

open Sys2Proof

-- Default arguments given by tactics wait for the kernel: one theorem at a time, so that few wait at once.
set_option Elab.async false

/-! ## Many changes at once (R1) -/

theorem mem_nmerge {l r : List Nat} {n : Nat} (h : n ∈ nmerge l r) : n ∈ l ∨ n ∈ r := by
  induction l generalizing r with
  | nil => exact .inr (by simpa [nmerge] using h)
  | cons k t ih =>
    simp only [nmerge, List.mem_append, List.mem_cons] at h
    rcases h with h | rfl | h
    · exact .inr (List.takeWhile_prefix _ |>.subset h)
    · exact .inl List.mem_cons_self
    · rcases ih h with h | h
      · exact .inl (List.mem_cons_of_mem _ h)
      · exact .inr (List.dropWhile_suffix _ |>.subset h)

namespace JHolds

variable {m : Kind} {j z : Journal}

theorem coalesceAll (h : JHolds m j) (c : StoredCell) (l : List CellAddr) :
    JHolds m (l.foldl (fun j x => Machine.coalesce j (.cell x) (.cell c)) j) := by
  induction l generalizing j with
  | nil => exact h
  | cons a t ih => exact ih (h.coalesce _ _)

end JHolds

/-- What the contents of cells replaced in place leave: the keys, and the marks. -/
theorem coalesceAll_keys (c : StoredCell) (l : List CellAddr) (j : Journal) :
    (l.foldl (fun j x => coalesce j (.cell x) (.cell c)) j).entries.map (·.key) = j.entries.map (·.key)
    ∧ (l.foldl (fun j x => coalesce j (.cell x) (.cell c)) j).cellMarks = j.cellMarks := by
  induction l generalizing j with
  | nil => exact ⟨rfl, rfl⟩
  | cons a t ih =>
    obtain ⟨h1, h2⟩ := ih (coalesce j (.cell a) (.cell c))
    exact ⟨h1.trans (coalesce_keys _ _ _), h2⟩

namespace JHolds

variable {m : Kind} {j z : Journal}

/-- Cells that have no entry are marked, many at once. -/
theorem markCells (h : JHolds m j) (l : List CellAddr) (hl : ∀ a ∈ l, KeyOk m (.cell a))
    (hnew : ∀ a ∈ l, JKey.cell a ∉ j.entries.map (·.key)) :
    JHolds m { j with cellMarks := nmerge (l.map cellCode) j.cellMarks } := by
  refine of_parts (j := j) (fun hfits hs => ⟨hs.bound, hs.keys, fun e he => ?_, hs.fits⟩) h (fun _ => h.keyOk)
    (fun _ => h.markOk) (fun _ => h.ctlOk) (fun _ => h.writingOk) (fun e r hw => .inr ⟨r, hw⟩)
  have hold := hs.unmarked e he
  rw [Bool.eq_false_iff] at hold ⊢
  intro hm
  cases hk : e.key with
  | fill b => rw [hk] at hold hm; exact hold hm
  | attr b => rw [hk] at hold hm; exact hold hm
  | cell x =>
    rw [hk] at hold hm
    simp only [marked, List.contains_eq_mem, decide_eq_true_eq] at hold hm ⊢
    rcases mem_nmerge hm with hm | hm
    · obtain ⟨a, ha, hax⟩ := List.mem_map.1 hm
      have hfx : KeyFits (.cell x) := hk ▸ hs.fits e he
      have : a = x := cellCode_inj a x (hfits _ (hl a ha)) hfx hax
      exact hnew a ha (by rw [this, ← hk]; exact mem_keys he)
    · exact hold (decide_eq_true hm)

theorem changes (h : JHolds m j) (c : StoredCell) (l : List CellAddr) (hl : ∀ a ∈ l, KeyOk m (.cell a)) :
    JHolds m (journalChanges c l j) := by
  induction l generalizing j with
  | nil => exact h
  | cons a t ih =>
    unfold journalChanges
    split
    · extract_lets j'
      obtain ⟨hkeys, hmarks⟩ := coalesceAll_keys c ((a :: t).filter fun x => cellListed j x) j
      rw [← hmarks]
      refine (h.coalesceAll c _).markCells _ (fun x hx => hl x (List.mem_of_mem_filter hx)) (fun x hx => ?_)
      rw [hkeys]
      have := (List.mem_filter.1 hx).2
      simpa [cellListed] using this
    · exact ih (h.change _ (hl a List.mem_cons_self)) fun x hx => hl x (List.mem_cons_of_mem _ hx)

/-! ## Control writes -/

theorem mem_of_mem_ctlPut {inFlight : Bool} {l : List CtlWrite} {w x : CtlWrite} (h : x ∈ ctlPut inFlight l w) :
    x = w ∨ x ∈ l := by
  induction l generalizing inFlight with
  | nil => cases inFlight <;> simp_all [ctlPut]
  | cons y t ih =>
    cases inFlight with
    | true =>
      simp only [ctlPut, List.mem_cons] at h
      rcases h with rfl | h
      · exact .inr List.mem_cons_self
      · exact (ih h).imp_right (List.mem_cons_of_mem _)
    | false =>
      unfold ctlPut at h
      split at h
      · simp only [List.mem_cons] at h
        exact h.imp_right (List.mem_cons_of_mem _)
      · simp only [List.mem_cons] at h
        rcases h with rfl | h
        · exact .inr List.mem_cons_self
        · exact (ih h).imp_right (List.mem_cons_of_mem _)

/-- The control writes replaced by ones that the invariant allows. -/
theorem withCtl (h : JHolds m j) (l : List CtlWrite) (hl : ∀ w ∈ l, CtlOk m w) : JHolds m { j with ctl := l } :=
  of_parts (j := j) (fun _ hs => hs.ofKeys (.refl _) fun k hk => by cases k <;> exact hk) h (fun _ => h.keyOk) (fun _ => h.markOk) hl
    (fun _ => h.writingOk) (fun _ r hw => .inr ⟨r, hw⟩)

theorem ctlAdd (h : JHolds m j) {w : CtlWrite} (hw : CtlOk m w) (inFlight : Bool) :
    JHolds m { j with ctl := ctlPut inFlight j.ctl w } :=
  h.withCtl _ fun _ hx => (mem_of_mem_ctlPut hx).elim (fun hxw => hxw ▸ hw) h.ctlOk

end JHolds

/-! ## Marked records (R17) -/

theorem marked_unmark_le (j : Journal) (k x : JKey) (h : marked (unmark j k) x = true) : marked j x = true := by
  cases k <;> cases x <;> simp_all [marked, unmark]

theorem marked_unmark_same (j : Journal) (k : JKey) : marked (unmark j k) k = false := by
  cases k <;> simp [marked, unmark]

theorem unmark_entries (j : Journal) (k : JKey) : (unmark j k).entries = j.entries := by cases k <;> rfl
theorem unmark_ctl (j : Journal) (k : JKey) : (unmark j k).ctl = j.ctl := by cases k <;> rfl
theorem unmark_writing (j : Journal) (k : JKey) : (unmark j k).writing = j.writing := by cases k <;> rfl

/-- A marked record that an invariant allows: a cell's mark is its code. -/
theorem keyOk_of_marked {m : Kind} {j : Journal} {k : JKey} (h : JHolds m j) (hk : marked j k = true)
    (hfits : KeyFits k) : KeyOk m k := by
  cases k with
  | attr b => exact h.markOk (marked_attr.1 hk)
  | fill b => exact keyOk_fill m b
  | cell a => exact keyOk_of_fits hfits m

theorem keyFits_of_code {n : Nat} {a : CellAddr} (h : cellOfCode n = some a) : KeyFits (.cell a) := by
  unfold cellOfCode at h
  split at h
  · obtain ⟨x, -, rfl⟩ := Option.map_eq_some_iff.1 h
    exact ⟨by simp, by simp; omega, by simp; omega⟩
  · cases h

theorem keyFits_of_ordered {j : Journal} {k : JKey} (h : k ∈ orderedKeys j) : KeyFits k := by
  simp only [orderedKeys, List.mem_append, List.mem_filterMap, Option.map_eq_some_iff, List.mem_flatMap] at h
  rcases h with ⟨n, -, c, hc, rfl⟩ | ⟨b, -, hb⟩
  · exact keyFits_of_code hc
  · rcases hb with hb | hb
    · split at hb
      · rw [List.mem_singleton.1 hb]; trivial
      · cases hb
    · split at hb
      · rw [List.mem_singleton.1 hb]; trivial
      · cases hb

namespace JHolds

variable {m : Kind} {j z : Journal}

/-- A marked record enters the list at the tail and loses its mark. -/
theorem take (h : JHolds m j) {k : JKey} (v : JVal) (hroom : j.entries.length < 64) (hm : marked j k = true)
    (hk : KeyFits k) :
    JHolds m (Machine.holdOffOf (noted (unmark { j with entries := j.entries ++ [⟨k, v⟩] } k) k)) := by
  have hnew : JournalSafe j → k ∉ j.entries.map (·.key) := fun hs hmem => by
    obtain ⟨e, he, rfl⟩ := List.mem_map.1 hmem
    exact Bool.eq_false_iff.1 (hs.unmarked e he) hm
  have hle : ∀ x, marked (noted (unmark { j with entries := j.entries ++ [⟨k, v⟩] } k) k) x = true → marked j x = true := by
    intro x hx
    have := marked_unmark_le { j with entries := j.entries ++ [⟨k, v⟩] } k x (by cases x <;> exact hx)
    cases x <;> exact this
  refine JHolds.holdOffOf (of_parts (j := j) (fun _ hs => hs.append (e := ⟨k, v⟩) ?_ hroom (hnew hs) ?_ hle hk) h (fun x hx => ?_)
    (fun b hb => h.markOk (marked_attr.1 (hle _ (marked_attr.2 hb)))) (fun w hw => h.ctlOk ?_) (fun w hw => h.writingOk ?_)
    (fun e r hw => .inr ⟨r, ?_⟩))
  · exact unmark_entries _ k
  · have := marked_unmark_same { j with entries := j.entries ++ [⟨k, v⟩] } k
    cases k <;> exact this
  · simp only [noted, unmark_entries, List.map_append, List.mem_append, List.map_cons, List.map_nil, List.mem_singleton] at hx
    rcases hx with hx | rfl
    · exact h.keyOk hx
    · exact keyOk_of_marked h hm hk
  · simpa [noted, unmark_ctl] using hw
  · simpa [noted, unmark_writing] using hw
  · simpa [noted, unmark_writing] using hw

/-! ## The writer -/

theorem beginWrite (h : JHolds m j) (clean : Bool) : JHolds m (Machine.beginWrite clean j) := by
  have hplain : ∀ v, Plain (.clean v) := fun v x => by simp
  unfold Machine.beginWrite
  split
  · exact h
  · split
    next hctl => exact h.light { writing := fun x hx => .inr (by cases hx; exact .inl (by simp [hctl])) }
    next e t hctl hent =>
      split
      · exact h.light
          { ctl := fun w hw => .inr (by rw [List.mem_singleton.1 hw]; exact hplain false)
            writing := fun x hx => .inr (by cases hx; exact .inr (hplain false)) }
      · exact h.light { writing := fun x hx => .inr (by cases hx; exact .inl (by simp [hent])) }
    next =>
      split
      · split
        · exact h
        · exact h.light
            { ctl := fun w hw => .inr (by rw [List.mem_singleton.1 hw]; exact hplain true)
              writing := fun x hx => .inr (by cases hx; exact .inr (hplain true)) }
      · exact h

theorem flushEnded (h : JHolds m j) (clean : Bool) : JHolds m (Machine.flushEnded clean j) := by
  unfold Machine.flushEnded
  split
  · refine h.light { ctl := fun w hw => ?_ }
    rcases List.mem_append.1 hw with hw | hw
    · exact .inl hw
    · exact .inr (by rw [List.mem_singleton.1 hw]; intro v; simp)
  · exact h

end JHolds
end Sys2Proof.Machine
end

