-- ==== Sys2Proof/Proofs/Invariants.lean ====
section
/-! PROOF. The yard's part of the invariants, and the rules by which an operation is shown to keep them: one for
changes that add nothing (`Holds.light`), one for each kind of change that does. -/

namespace Sys2Proof.Machine

open Sys2Proof

-- Default arguments given by tactics wait for the kernel: one theorem at a time, so that few wait at once.
set_option Elab.async false

/-- The tables are canonical and the lists beside the journal's within their bounds. -/
structure Tables (e : Env) (y : Yard) : Prop where
  cells : KSorted y.cells
  bins : KSorted y.bins
  geometry : GeometryFits e.cfg.geometry
  outbox : y.post.outbox.length ≤ 32
  orders : OrdersSafe y
  trays : ∀ st : Station, y.trays[st].items.length ≤ 24
  placements : ∀ (st : Station) (x : Session), y.stations[st].session = some x → x.placements.length ≤ 8

/-- Each bin stands in one place, with a record that says so (R9), and in none but those it may. -/
structure Placed (may : Place → Nat → Prop) (kept : Nat → Prop) (e : Env) (y : Yard) : Prop where
  delivery : (y.lines.delivery.map (·.bin)).Nodup
  returns : (y.lines.returns.map (·.bin)).Nodup
  one : ∀ b p q, At b p y → At b q y → p = q
  there : ∀ b, kept b ∨ (∃ p, At b p y) → ∃ r, getBin b y = some r ∧ inPlace r = true
  noCell : ∀ b r, getBin b y = some r → inPlace r = true → r.cell = none
  stored : ∀ k b, kget y.cells k = some (.occupied b) →
    ∃ r a, getBin b y = some r ∧ r.st = .stored ∧ r.cell = some a ∧ cellOfCode k = some a
  within : ∀ k c, kget y.cells k = some c → ∃ a, cellOfCode k = some a ∧ inGeometry e.cfg.geometry a = true
  allowed : ∀ b p, At b p y → may p b

/-- Every record of the bin table has a number that a bin can have (R8). -/
def Numbered (y : Yard) : Prop := ∀ b r, getBin b y = some r → binOk b = true

/-- The idle timeout is in R127's range, and in Standby no session's timer stands at its end. -/
structure Timed (e : Env) (y : Yard) : Prop where
  timeout : 30 ≤ e.cfg.idleTimeout
  rest : e.wing = .standby → ∀ (st : Station) (x : Session), y.stations[st].session = some x →
    x.idle ≠ some 0 ∧ x.auto ≠ some 0

/-- What an invariant asks of the yard beside the journal. -/
def YHolds : Kind → Env → Yard → Prop
  | .lists, e, y => Tables e y
  | .places may kept, e, y => Tables e y ∧ Placed may kept e y
  | .numbers, _, y => Numbered y
  | .sessions, e, y => Timed e y

/-- An invariant holds of a yard. -/
structure Holds (m : Kind) (e : Env) (y : Yard) : Prop where
  journal : JHolds m y.journal
  yard : YHolds m e y

/-! ## Changes that add nothing -/

/-- A session that goes on from one of before, or begins: no timer of it is set to 0 in Standby, and its placements are
within their bound. -/
structure SessionFrom (e : Env) (o : Option Session) (x : Session) : Prop where
  placements : x.placements.length ≤ 8 ∨ ∃ z, o = some z ∧ x.placements.length ≤ z.placements.length
  idle : e.wing = .standby → x.idle = none ∨ x.idle = some e.cfg.idleTimeout ∨ ∃ z, o = some z ∧ x.idle = z.idle
  auto : e.wing = .standby → x.auto = none ∨ (x.auto = some e.cfg.autoDelay ∧ e.cfg.autoDelay ≠ 0) ∨ ∃ z, o = some z ∧ x.auto = z.auto

theorem SessionFrom.same {e : Env} {o : Option Session} {x : Session} (h : o = some x) : SessionFrom e o x :=
  ⟨.inr ⟨x, h, le_rfl⟩, fun _ => .inr (.inr ⟨x, h, rfl⟩), fun _ => .inr (.inr ⟨x, h, rfl⟩)⟩

/-- What the invariants ask of an order. -/
def orderSig (o : Order) : Nat × Nat × Bool × Nat := (o.no, o.bin, o.closing, o.picks.length)

/-- A change of the yard that adds nothing to the tables, the orders, the trays and the sessions. -/
structure Still (e : Env) (y z : Yard) : Prop where
  cells : z.cells = y.cells := by rfl
  bins : z.bins = y.bins := by rfl
  orders : z.orders.map orderSig = y.orders.map orderSig := by rfl
  outbox : y.post.outbox.length ≤ 32 → z.post.outbox.length ≤ 32 := by exact fun h => h
  trays : ∀ st : Station, z.trays[st].items.length ≤ max 24 y.trays[st].items.length := by exact fun _ => le_max_right _ _
  sessions : ∀ (st : Station) x, z.stations[st].session = some x → SessionFrom e y.stations[st].session x := by
    exact fun _ _ h => .same h

/-- A change of the yard that adds nothing an invariant speaks of: no bin comes to a place. -/
structure Light (e : Env) (y z : Yard) : Prop extends Still e y z where
  places : ∀ b p, At b p z → At b p y := by exact fun _ p h => by cases p <;> exact h
  delivery : (z.lines.delivery.map (·.bin)).Sublist (y.lines.delivery.map (·.bin)) := by exact .refl _
  returns : (z.lines.returns.map (·.bin)).Sublist (y.lines.returns.map (·.bin)) := by exact .refl _

/-- A change that adds nothing but one bin to one place. -/
structure Joins (b : Nat) (p : Place) (e : Env) (y z : Yard) : Prop extends Still e y z where
  places : ∀ x q, At x q z → At x q y ∨ (x = b ∧ q = p)
  delivery : (z.lines.delivery.map (·.bin)).Sublist (y.lines.delivery.map (·.bin)) ∨ (p = .delivery ∧
    z.lines.delivery.map (·.bin) = y.lines.delivery.map (·.bin) ++ [b]) := by exact .inl (.refl _)
  returns : (z.lines.returns.map (·.bin)).Sublist (y.lines.returns.map (·.bin)) ∨ (p = .ret ∧
    z.lines.returns.map (·.bin) = y.lines.returns.map (·.bin) ++ [b]) := by exact .inl (.refl _)

theorem OrdersSafe.of_sig {y z : Yard} (h : OrdersSafe y) (hb : z.bins = y.bins)
    (ho : z.orders.map orderSig = y.orders.map orderSig) : OrdersSafe z where
  bound := by have := congrArg List.length ho; simp only [List.length_map] at this; rw [this]; exact h.bound
  numbers := by
    have := congrArg (List.map Prod.fst) ho
    simp only [List.map_map] at this
    exact (this : z.orders.map (·.no) = y.orders.map (·.no)) ▸ h.numbers
  picks o hm := by
    obtain ⟨x, hx, hxo⟩ := List.mem_map.1 (ho ▸ List.mem_map_of_mem (f := orderSig) hm)
    simp only [orderSig, Prod.mk.injEq] at hxo
    exact hxo.2.2.2 ▸ h.picks x hx
  live o hm hc := by
    obtain ⟨x, hx, hxo⟩ := List.mem_map.1 (ho ▸ List.mem_map_of_mem (f := orderSig) hm)
    simp only [orderSig, Prod.mk.injEq] at hxo
    obtain ⟨hno, hbin, hclosing, -⟩ := hxo
    have := h.live x hx (hclosing.trans hc)
    rw [hbin, hno] at this
    simpa [getBin, hb] using this
  retired b r hr := h.retired b r (by simpa [getBin, hb] using hr)

theorem getBin_congr {y z : Yard} (h : z.bins = y.bins) (b : Nat) : getBin b z = getBin b y := by simp [getBin, h]

variable {m : Kind} {e : Env} {y z : Yard}

theorem Tables.still (h : Tables e y) (hl : Still e y z) : Tables e z where
  cells := hl.cells ▸ h.cells
  bins := hl.bins ▸ h.bins
  geometry := h.geometry
  outbox := hl.outbox h.outbox
  orders := h.orders.of_sig hl.bins hl.orders
  trays st := (hl.trays st).trans (max_le le_rfl (h.trays st))
  placements st x hx := by
    rcases (hl.sessions st x hx).placements with hp | ⟨w, hw, hp⟩
    · exact hp
    · exact hp.trans (h.placements st w hw)

theorem Timed.still (h : Timed e y) (hl : Still e y z) : Timed e z where
  timeout := h.timeout
  rest hw st x hx := by
    have hfrom := hl.sessions st x hx
    have := h.timeout
    refine ⟨?_, ?_⟩
    · rcases hfrom.idle hw with hi | hi | ⟨w, hw', hi⟩
      · simp [hi]
      · rw [hi]; simp; omega
      · exact hi ▸ (h.rest hw st w hw').1
    · rcases hfrom.auto hw with ha | ⟨ha, hd⟩ | ⟨w, hw', ha⟩
      · simp [ha]
      · simp [ha, hd]
      · exact ha ▸ (h.rest hw st w hw').2

section
variable {may : Place → Nat → Prop} {kept : Nat → Prop}

theorem Placed.light (h : Placed may kept e y) (hl : Light e y z) : Placed may kept e z where
  delivery := h.delivery.sublist hl.delivery
  returns := h.returns.sublist hl.returns
  one b p q hp hq := h.one b p q (hl.places b p hp) (hl.places b q hq)
  there b hb := by
    rw [getBin_congr hl.bins]
    exact h.there b (hb.imp_right fun ⟨p, hp⟩ => ⟨p, hl.places b p hp⟩)
  noCell b r hr := h.noCell b r (getBin_congr hl.bins b ▸ hr)
  stored k b hk := by simpa only [getBin_congr hl.bins] using h.stored k b (hl.cells ▸ hk)
  within k c hk := h.within k c (hl.cells ▸ hk)
  allowed b p hp := h.allowed b p (hl.places b p hp)

/-- A bin that stands nowhere and whose record says that it is in a place comes to a place where it may stand. -/
theorem Placed.joins (h : Placed may kept e y) {b : Nat} {p : Place} (hl : Joins b p e y z) (hno : ∀ q, ¬At b q y)
    (hr : ∃ r, getBin b y = some r ∧ inPlace r = true) (hmay : may p b) : Placed may kept e z where
  delivery := by
    rcases hl.delivery with hd | ⟨-, hd⟩
    · exact h.delivery.sublist hd
    · rw [hd, List.nodup_append]
      refine ⟨h.delivery, by simp, fun x hx c hc hxc => hno .delivery (at_delivery.2 ?_)⟩
      rwa [← List.mem_singleton.1 hc, ← hxc]
  returns := by
    rcases hl.returns with hd | ⟨-, hd⟩
    · exact h.returns.sublist hd
    · rw [hd, List.nodup_append]
      refine ⟨h.returns, by simp, fun x hx c hc hxc => hno .ret (at_ret.2 ?_)⟩
      rwa [← List.mem_singleton.1 hc, ← hxc]
  one x q q' hq hq' := by
    rcases hl.places x q hq with hq | ⟨rfl, rfl⟩ <;> rcases hl.places x q' hq' with hq' | ⟨hx, rfl⟩
    · exact h.one x q q' hq hq'
    · exact absurd (hx ▸ hq) (hno q)
    · exact absurd hq' (hno q')
    · rfl
  there x hx := by
    rw [getBin_congr hl.bins]
    rcases hx with hx | ⟨q, hq⟩
    · exact h.there x (.inl hx)
    · rcases hl.places x q hq with hq | ⟨rfl, rfl⟩
      · exact h.there x (.inr ⟨q, hq⟩)
      · exact hr
  noCell x r hx := h.noCell x r (getBin_congr hl.bins x ▸ hx)
  stored k x hk := by simpa only [getBin_congr hl.bins] using h.stored k x (hl.cells ▸ hk)
  within k c hk := h.within k c (hl.cells ▸ hk)
  allowed x q hq := by
    rcases hl.places x q hq with hq | ⟨rfl, rfl⟩
    · exact h.allowed x q hq
    · exact hmay

end

/-- What an invariant asks for only where it speaks of the places of bins. -/
def IfPlaces : Kind → ((Place → Nat → Prop) → (Nat → Prop) → Prop) → Prop
  | .places may kept, P => P may kept
  | _, _ => True

theorem YHolds.light (h : YHolds m e y) (hl : Light e y z) : YHolds m e z := by
  cases m with
  | lists => exact Tables.still h hl.toStill
  | places => exact ⟨h.1.still hl.toStill, h.2.light hl⟩
  | numbers => exact fun b r hr => h b r (getBin_congr hl.bins b ▸ hr)
  | sessions => exact Timed.still h hl.toStill

theorem YHolds.joins (h : YHolds m e y) {b : Nat} {p : Place} (hl : Joins b p e y z)
    (hp : IfPlaces m fun may _ => (∀ q, ¬At b q y) ∧ (∃ r, getBin b y = some r ∧ inPlace r = true) ∧ may p b) :
    YHolds m e z := by
  cases m with
  | lists => exact Tables.still h hl.toStill
  | places =>
    obtain ⟨hno, hr, hmay⟩ := hp
    exact ⟨h.1.still hl.toStill, h.2.joins hl hno hr hmay⟩
  | numbers => exact fun b r hr => h b r (getBin_congr hl.bins b ▸ hr)
  | sessions => exact Timed.still h hl.toStill

namespace Holds

/-- A change that adds nothing an invariant speaks of keeps it. -/
theorem light (h : Holds m e y) (hl : Light e y z) (hj : z.journal = y.journal := by rfl) : Holds m e z :=
  ⟨hj ▸ h.journal, h.yard.light hl⟩

theorem joins (h : Holds m e y) {b : Nat} {p : Place} (hl : Joins b p e y z)
    (hp : IfPlaces m fun may _ => (∀ q, ¬At b q y) ∧ (∃ r, getBin b y = some r ∧ inPlace r = true) ∧ may p b)
    (hj : z.journal = y.journal := by rfl) : Holds m e z := ⟨hj ▸ h.journal, h.yard.joins hl hp⟩

theorem modJournal (h : Holds m e y) {f : Journal → Journal} (hf : JHolds m y.journal → JHolds m (f y.journal)) :
    Holds m e (modJournal f y) := ⟨hf h.journal, h.yard.light {}⟩

theorem foldl {α : Type} {f : Yard → α → Yard} (h : Holds m e y) (l : List α)
    (hf : ∀ z x, x ∈ l → Holds m e z → Holds m e (f z x)) : Holds m e (l.foldl f y) := by
  induction l generalizing y with
  | nil => exact h
  | cons x t ih => exact ih (hf y x List.mem_cons_self h) fun z w hw => hf z w (List.mem_cons_of_mem _ hw)

theorem tables {may : Place → Nat → Prop} {kept : Nat → Prop} (h : Holds (.places may kept) e y) : Tables e y := h.yard.1
theorem placed {may : Place → Nat → Prop} {kept : Nat → Prop} (h : Holds (.places may kept) e y) : Placed may kept e y :=
  h.yard.2

end Holds
end Sys2Proof.Machine
end

