-- ==== Sys2Proof/Proofs/Records.lean ====
section
/-! PROOF. The rules for a change of a bin's record, of a cell, and of the order queue. -/

namespace Sys2Proof.Machine

open Sys2Proof

-- Default arguments given by tactics wait for the kernel: one theorem at a time, so that few wait at once.
set_option Elab.async false

variable {m : Kind} {e : Env} {y z : Yard}

/-! ## Bin records -/

/-- A record gives its bin's live order its number, and a Retired bin has none (R11, R71). -/
structure LiveOk (y : Yard) (b : Nat) (r : Bin) : Prop where
  live : ∀ o ∈ y.orders, o.closing = false → o.bin = b → r.live = some o.no
  retired : r.st = .retired → r.live = none

/-- A record says where its bin stands (R9). -/
structure PlaceOk (kept : Nat → Prop) (y : Yard) (b : Nat) (r : Bin) : Prop where
  there : kept b ∨ (∃ p, At b p y) → inPlace r = true
  noCell : inPlace r = true → r.cell = none
  stored : ∀ k, kget y.cells k = some (.occupied b) → r.st = .stored ∧ ∃ a, r.cell = some a ∧ cellOfCode k = some a

/-- What an invariant asks of the record of a bin. -/
def RecordOk : Kind → Yard → Nat → Bin → Prop
  | .lists, y, b, r => LiveOk y b r
  | .places _ kept, y, b, r => LiveOk y b r ∧ PlaceOk kept y b r
  | .numbers, _, b, _ => binOk b = true
  | .sessions, _, _, _ => True

theorem LiveOk.of_same {b : Nat} {r q : Bin} (h : LiveOk y b r) (hl : q.live = r.live) (hst : q.st ≠ .retired ∨ q.st = r.st) :
    LiveOk y b q where
  live o ho hc hb := hl.trans (h.live o ho hc hb)
  retired hq := hl.trans (h.retired (hst.elim (absurd hq) fun hs => hs ▸ hq))

theorem inPlace_congr {r q : Bin} (h : q.st = r.st) : inPlace q = inPlace r := by unfold inPlace; rw [h]

theorem getBin_putBin (b d : Nat) (r : Bin) (y : Yard) : getBin d (putBin b r y) = if d = b then some r else getBin d y := by
  split
  next h => rw [h, getBin_putBin_same]
  next h => exact getBin_putBin_other b d r y h

theorem OrdersSafe.liveOk (h : OrdersSafe y) {b : Nat} {r : Bin} (hb : getBin b y = some r) : LiveOk y b r where
  live o ho hc hob := by
    obtain ⟨q, hq, hlive⟩ := h.live o ho hc
    rw [hob, hb] at hq
    cases hq
    exact hlive
  retired := h.retired b r hb

theorem Placed.placeOk {may : Place → Nat → Prop} {kept : Nat → Prop} (h : Placed may kept e y) {b : Nat} {r : Bin}
    (hb : getBin b y = some r) : PlaceOk kept y b r where
  there hat := by
    obtain ⟨q, hq, hin⟩ := h.there b hat
    rw [hb] at hq
    cases hq
    exact hin
  noCell := h.noCell b r hb
  stored k hk := by
    obtain ⟨q, a, hq, hst, hcell, hcode⟩ := h.stored k b hk
    rw [hb] at hq
    cases hq
    exact ⟨hst, a, hcell, hcode⟩

theorem Tables.putBin (h : Tables e y) {b : Nat} {r : Bin} (hr : LiveOk y b r) : Tables e (putBin b r y) where
  cells := h.cells
  bins := KSorted_kput _ _ _ h.bins
  geometry := h.geometry
  outbox := h.outbox
  orders := by
    refine ⟨h.orders.bound, h.orders.numbers, h.orders.picks, fun o ho hc => ?_, fun d q hd hq => ?_⟩
    · rw [getBin_putBin]
      split
      next hob => exact ⟨r, rfl, hr.live o ho hc hob⟩
      next => exact h.orders.live o ho hc
    · rw [getBin_putBin] at hd
      split at hd
      · cases hd; exact hr.retired hq
      · exact h.orders.retired d q hd hq
  trays := h.trays
  placements := h.placements

theorem Placed.putBin {may : Place → Nat → Prop} {kept : Nat → Prop} (h : Placed may kept e y) {b : Nat} {r : Bin}
    (hr : PlaceOk kept y b r) : Placed may kept e (putBin b r y) where
  delivery := h.delivery
  returns := h.returns
  one x p q hp hq := h.one x p q (by cases p <;> exact hp) (by cases q <;> exact hq)
  there x hx := by
    have hx' : kept x ∨ ∃ p, At x p y := hx.imp_right fun ⟨p, hp⟩ => ⟨p, by cases p <;> exact hp⟩
    rw [getBin_putBin]
    split
    next hxb => exact ⟨r, rfl, hr.there (hxb ▸ hx')⟩
    next => exact h.there x hx'
  noCell x q hq := by
    rw [getBin_putBin] at hq
    split at hq
    · cases hq; exact hr.noCell
    · exact h.noCell x q hq
  stored k x hk := by
    rw [getBin_putBin]
    split
    next hxb =>
      obtain ⟨hst, a, hcell, hcode⟩ := hr.stored k (hxb ▸ hk)
      exact ⟨r, a, rfl, hst, hcell, hcode⟩
    next => exact h.stored k x hk
  within := h.within
  allowed x p hp := h.allowed x p (by cases p <;> exact hp)

namespace Holds

/-- A record that is there is one that the invariant allows. -/
theorem recordOk (h : Holds m e y) {b : Nat} {r : Bin} (hb : getBin b y = some r) : RecordOk m y b r := by
  cases m with
  | lists => exact h.yard.orders.liveOk hb
  | places => exact ⟨h.tables.orders.liveOk hb, h.placed.placeOk hb⟩
  | numbers => exact h.yard b r hb
  | sessions => trivial

theorem putBin (h : Holds m e y) {b : Nat} {r : Bin} (hr : RecordOk m y b r) : Holds m e (putBin b r y) := by
  refine ⟨h.journal, ?_⟩
  cases m with
  | lists => exact Tables.putBin h.yard hr
  | places => exact ⟨h.tables.putBin hr.1, h.placed.putBin hr.2⟩
  | numbers =>
    intro d q hd
    rw [getBin_putBin] at hd
    split at hd
    next hdb => exact hdb ▸ hr
    next => exact h.yard d q hd
  | sessions => exact ⟨h.yard.timeout, h.yard.rest⟩

theorem modBin (h : Holds m e y) {b : Nat} {f : Bin → Bin} (hf : ∀ r, getBin b y = some r → RecordOk m y b (f r)) :
    Holds m e (modBin b f y) := by
  unfold Machine.modBin
  split
  next r hr => exact h.putBin (hf r hr)
  next => exact h

end Holds

/-- Values of a bin that no invariant speaks of. -/
theorem RecordOk.same {b : Nat} {r q : Bin} (h : RecordOk m y b r) (hst : q.st = r.st) (hcell : q.cell = r.cell)
    (hlive : q.live = r.live) : RecordOk m y b q := by
  cases m with
  | lists => exact LiveOk.of_same h hlive (.inr hst)
  | places =>
    refine ⟨LiveOk.of_same h.1 hlive (.inr hst), ?_, ?_, ?_⟩
    · rw [inPlace_congr hst]; exact h.2.there
    · rw [inPlace_congr hst, hcell]; exact h.2.noCell
    · rw [hst, hcell]; exact h.2.stored
  | numbers => exact h
  | sessions => trivial

/-- A record whose place is replaced by another, not Retired. -/
theorem RecordOk.placed {b : Nat} {r q : Bin} (h : RecordOk m y b r) (hlive : q.live = r.live) (hst : q.st ≠ .retired)
    (hp : IfPlaces m fun _ kept => PlaceOk kept y b q) : RecordOk m y b q := by
  cases m with
  | lists => exact LiveOk.of_same h hlive (.inl hst)
  | places => exact ⟨LiveOk.of_same h.1 hlive (.inl hst), hp⟩
  | numbers => exact h
  | sessions => trivial

namespace Holds

/-- Values of a bin change that no invariant speaks of. -/
theorem modBinValues (h : Holds m e y) (b : Nat) (f : Bin → Bin) (hst : ∀ r, (f r).st = r.st)
    (hcell : ∀ r, (f r).cell = r.cell) (hlive : ∀ r, (f r).live = r.live) : Holds m e (Machine.modBin b f y) :=
  h.modBin fun r hr => (h.recordOk hr).same (hst r) (hcell r) (hlive r)

theorem putBinValues (h : Holds m e y) {b : Nat} {r : Bin} (hr : getBin b y = some r) (q : Bin) (hst : q.st = r.st)
    (hcell : q.cell = r.cell) (hlive : q.live = r.live) : Holds m e (Machine.putBin b q y) :=
  h.putBin ((h.recordOk hr).same hst hcell hlive)

/-- No Occupied cell is recorded with a bin that is not Stored. -/
theorem not_occupied {may : Place → Nat → Prop} {kept : Nat → Prop} (h : Placed may kept e y) {b : Nat} {r : Bin}
    (hb : getBin b y = some r) (hst : r.st ≠ .stored) (k : Nat) : kget y.cells k ≠ some (.occupied b) := by
  intro hk
  obtain ⟨hs, -⟩ := (h.placeOk hb).stored k hk
  exact hst hs

/-- A bin that no Occupied cell is recorded with has a record that says it is in a place. -/
theorem modBinInPlace (h : Holds m e y) {b : Nat} {st : BinSt} {aisle : Option Aisle} {station : Option Station}
    (hst : ∀ r, inPlace (Machine.placed r st none aisle station) = true)
    (hfree : IfPlaces m fun _ _ => ∀ k, kget y.cells k ≠ some (.occupied b)) :
    Holds m e (Machine.modBin b (fun r => Machine.placed r st none aisle station) y) := by
  refine h.modBin fun r hr => (h.recordOk hr).placed rfl ?_ ?_
  · intro hret
    have := hst r
    simp only [Machine.placed] at hret
    simp [inPlace, Machine.placed, hret] at this
  · cases m with
    | places may kept => exact ⟨fun _ => hst r, fun _ => rfl, fun k hk => absurd hk (hfree k)⟩
    | _ => trivial

/-- A bin that stands nowhere becomes Unverified. -/
theorem binLost (h : Holds m e y) {b : Nat} {cell : Option CellAddr}
    (hno : IfPlaces m fun _ kept => ¬kept b ∧ (∀ p, ¬At b p y) ∧ ∀ k, kget y.cells k ≠ some (.occupied b)) :
    Holds m e (Machine.binLost b cell y) := by
  refine h.modBin fun r hr => (h.recordOk hr).placed rfl (by simp [Machine.placed]) ?_
  cases m with
  | places may kept =>
    obtain ⟨hk, hat, hocc⟩ := hno
    exact ⟨fun hx => (hx.elim hk fun ⟨p, hp⟩ => hat p hp).elim, fun hin => by simp [inPlace, Machine.placed] at hin,
      fun k hk => absurd hk (hocc k)⟩
  | _ => trivial

/-- A bin that stands nowhere becomes Stored in a cell, the only one that may be recorded with it. -/
theorem binStored (h : Holds m e y) {b : Nat} {a : CellAddr}
    (hno : IfPlaces m fun _ kept => ¬kept b ∧ (∀ p, ¬At b p y) ∧
      ∀ k, kget y.cells k = some (.occupied b) → cellOfCode k = some a) :
    Holds m e (Machine.binStored b a y) := by
  refine h.modBin fun r hr => (h.recordOk hr).placed rfl (by simp [Machine.placed]) ?_
  cases m with
  | places may kept =>
    obtain ⟨hk, hat, hocc⟩ := hno
    exact ⟨fun hx => (hx.elim hk fun ⟨p, hp⟩ => hat p hp).elim, fun hin => by simp [inPlace, Machine.placed] at hin,
      fun k hk => ⟨rfl, a, rfl, hocc k hk⟩⟩
  | _ => trivial

/-! ## Fill, attributes and the Damaged flag -/

theorem journalAttr (h : Holds m e y) {b : Nat} {r : Bin} (hr : getBin b y = some r) (v : JVal) :
    Holds m e (Machine.modJournal (journalChange (.attr b) v) y) := by
  refine h.modJournal fun hj => hj.change v ?_
  cases m with
  | numbers => exact h.yard b r hr
  | _ => trivial

theorem attrChange (h : Holds m e y) (b : Nat) : Holds m e (Machine.attrChange b y) := by
  unfold Machine.attrChange
  split
  next r hr => exact h.journalAttr hr _
  next => exact h

theorem journalFill (h : Holds m e y) (b : Nat) (v : JVal) :
    Holds m e (Machine.modJournal (journalChange (.fill b) v) y) := h.modJournal fun hj => hj.change v (keyOk_fill m b)

theorem setFill (h : Holds m e y) (b n : Nat) : Holds m e (Machine.setFill b n y) :=
  (h.modBinValues b (fun r => { r with fill := n }) (fun _ => rfl) (fun _ => rfl) fun _ => rfl).journalFill b _

theorem lowerFill (h : Holds m e y) (b n : Nat) : Holds m e (Machine.lowerFill b n y) := by
  unfold Machine.lowerFill
  split
  · exact h.setFill _ _
  · exact h

theorem raiseFill (h : Holds m e y) (b n : Nat) : Holds m e (Machine.raiseFill b n y) := by
  unfold Machine.raiseFill
  split
  · exact h.setFill _ _
  · exact h

theorem setDamaged (h : Holds m e y) (b : Nat) : Holds m e (Machine.setDamaged b y) := by
  unfold Machine.setDamaged
  split
  next r hr =>
    split
    · exact h
    · exact (h.putBinValues hr { r with damaged := true } rfl rfl rfl).attrChange b
  next => exact h

/-- A record is made sure of for a bin with a number it can have. -/
theorem ensureBin (h : Holds m e y) {b : Nat} (hb : binOk b = true) : Holds m e (Machine.ensureBin b y) := by
  unfold Machine.ensureBin
  split
  next hnone =>
    refine journalFill (attrChange (h.putBin ?_) b) b _
    have hlive : OrdersSafe y → LiveOk y b ⟨100, 0, .unverified, none, none, none, true, false, none⟩ := by
      refine fun ho => ⟨fun o hm hc hob => ?_, fun _ => rfl⟩
      obtain ⟨r, hr, -⟩ := ho.live o hm hc
      rw [hob, hnone] at hr
      cases hr
    cases m with
    | lists => exact hlive h.yard.orders
    | places may kept =>
      refine ⟨hlive h.tables.orders, fun hx => ?_, fun _ => rfl, fun k hk => ?_⟩
      · obtain ⟨r, hr, -⟩ := h.placed.there b hx
        rw [hnone] at hr
        cases hr
      · obtain ⟨r, -, hr, -⟩ := h.placed.stored k b hk
        rw [hnone] at hr
        cases hr
    | numbers => exact hb
    | sessions => trivial
  next r hr =>
    split
    next hret =>
      refine attrChange (h.putBin ?_) b
      refine (h.recordOk hr).placed rfl (by simp) ?_
      cases m with
      | places may kept =>
        have hok := h.placed.placeOk hr
        refine ⟨fun hx => ?_, fun hin => by simp [inPlace] at hin, fun k hk => ?_⟩
        · have := hok.there hx
          simp [inPlace, hret] at this
        · have := (hok.stored k hk).1
          rw [hret] at this
          cases this
      | _ => trivial
    next => exact h

end Holds
end Sys2Proof.Machine
end

