-- ==== Sys2Proof/Proofs/CellsAndOrders.lean ====
section
/-! PROOF. A change of a cell, and the orders that enter and leave the queue. -/

namespace Sys2Proof.Machine

open Sys2Proof

-- Default arguments given by tactics wait for the kernel: one theorem at a time, so that few wait at once.
set_option Elab.async false

variable {m : Kind} {e : Env} {y z : Yard}

/-- What an invariant asks for only where it speaks of the lists. -/
def IfLists : Kind → Prop → Prop
  | .lists, P | .places _ _, P => P
  | _, _ => True

theorem IfLists.of {P : Prop} (h : P) : IfLists m P := by cases m <;> trivial

theorem IfLists.map {P Q : Prop} (h : IfLists m P) (f : P → Q) : IfLists m Q := by
  cases m with
  | lists => exact f h
  | places => exact f h
  | _ => trivial

/-! ## Cells -/

/-- What a cell that is listed has to satisfy: it lies in the geometry, and the bin it is Occupied with is Stored there. -/
structure CellOk (e : Env) (y : Yard) (k : Nat) (c : Cell) : Prop where
  within : ∃ a, cellOfCode k = some a ∧ inGeometry e.cfg.geometry a = true
  stored : ∀ b, c = .occupied b → ∃ r a, getBin b y = some r ∧ r.st = .stored ∧ r.cell = some a ∧ cellOfCode k = some a

/-- The map is replaced by one that lists, beside cells of before, only ones that may be. -/
theorem Holds.withCells (h : Holds m e y) {l : List (Nat × Cell)} (hs : IfLists m (KSorted y.cells → KSorted l))
    (hl : ∀ may kept, m = .places may kept → ∀ k c, kget l k = some c → kget y.cells k = some c ∨ CellOk e y k c) :
    Holds m e { y with cells := l } := by
  refine ⟨h.journal, ?_⟩
  have tables : (KSorted y.cells → KSorted l) → Tables e y → Tables e { y with cells := l } := fun hs ht =>
    ⟨hs ht.cells, ht.bins, ht.geometry, ht.outbox, ⟨ht.orders.1, ht.orders.2, ht.orders.3, ht.orders.4, ht.orders.5⟩,
      ht.trays, ht.placements⟩
  cases m with
  | lists => exact tables hs h.yard
  | places may kept =>
    have hp := h.placed
    refine ⟨tables hs h.tables, hp.delivery, hp.returns, fun b p q hb hq => ?_, fun b hb => ?_, hp.noCell, fun k b hk => ?_,
      fun k c hk => ?_, fun b p hb => ?_⟩
    · exact hp.one b p q (by cases p <;> exact hb) (by cases q <;> exact hq)
    · exact hp.there b (hb.imp_right fun ⟨p, hb⟩ => ⟨p, by cases p <;> exact hb⟩)
    · rcases hl may kept rfl k _ hk with hk | hk
      · exact hp.stored k b hk
      · exact hk.stored b rfl
    · rcases hl may kept rfl k _ hk with hk | hk
      · exact hp.within k c hk
      · exact hk.within
    · exact hp.allowed b p (by cases p <;> exact hb)
  | numbers => exact h.yard
  | sessions => exact ⟨h.yard.timeout, h.yard.rest⟩

theorem keyFits_of_in {g : Geometry} {a : CellAddr} (hg : GeometryFits g) (ha : inGeometry g a = true) :
    KeyFits (.cell a) := by
  simp only [inGeometry, decide_eq_true_eq] at ha
  obtain ⟨-, h1, h2, h3⟩ := ha
  exact ⟨h1, h2.trans hg.1, lt_of_lt_of_le h3 hg.2⟩

theorem keyOk_of_in {g : Geometry} {a : CellAddr} (hg : IfLists m (GeometryFits g)) (ha : inGeometry g a = true) :
    KeyOk m (.cell a) := by
  cases m with
  | lists => exact keyFits_of_in hg ha
  | places => exact keyFits_of_in hg ha
  | numbers => trivial
  | sessions => trivial

/-- Where the lists are meant, the geometry is within the limits of R1. -/
theorem Holds.geometryFits (h : Holds m e y) : IfLists m (GeometryFits e.cfg.geometry) := by
  cases m with
  | lists => exact h.yard.geometry
  | places => exact h.tables.geometry
  | _ => trivial

theorem Holds.keyOk_cell (h : Holds m e y) {a : CellAddr} (ha : inGeometry e.cfg.geometry a = true) : KeyOk m (.cell a) :=
  keyOk_of_in h.geometryFits ha

theorem kget_putCell {a : CellAddr} {c : Cell} (hs : KSorted y.cells) {k : Nat} {x : Cell}
    (hk : kget (putCell a c y).cells k = some x) : (k ≠ cellCode a ∧ kget y.cells k = some x) ∨ (k = cellCode a ∧ x = c) := by
  by_cases hka : k = cellCode a
  · subst hka
    unfold putCell at hk
    split at hk
    · simp [kget_kdel_same _ _ hs] at hk
    · simp [kget_kdel_same _ _ hs] at hk
    · simp only [kget_kput_same, Option.some.injEq] at hk
      exact .inr ⟨rfl, hk.symm⟩
  · refine .inl ⟨hka, ?_⟩
    unfold putCell at hk
    split at hk
    · rwa [kget_kdel_other _ _ _ hka] at hk
    · rwa [kget_kdel_other _ _ _ hka] at hk
    · rwa [kget_kput_other _ _ _ _ hka] at hk

/-- A cell in the geometry takes another content, one that is right for it. -/
theorem Holds.setCellOk (h : Holds m e y) {a : CellAddr} {c : Cell}
    (hc : IfPlaces m fun _ _ => ∀ b, c = .occupied b → ∃ r, getBin b y = some r ∧ r.st = .stored ∧ r.cell = some a) :
    Holds m e (setCell e a c y) := by
  unfold setCell
  extract_lets old z
  split
  · exact h
  next hold =>
  have hin : inGeometry e.cfg.geometry a = true := inGeometry_of_getCell_ne_absent (y := y) fun hn => hold (.inl hn)
  have hz : Holds m e z := by
    refine h.withCells (.of (KSorted_putCell a c y)) fun may kept hm k x hk => ?_
    subst hm
    refine (kget_putCell h.tables.cells hk).imp (·.2) fun ⟨hka, hxc⟩ => ?_
    obtain ⟨h1, h2, h3⟩ := keyFits_of_in h.tables.geometry hin
    have hcode : cellOfCode k = some a := hka ▸ cellOfCode_cellCode a h1 h2 h3
    refine ⟨⟨a, hcode, hin⟩, fun b hb => ?_⟩
    obtain ⟨r, hr, hst, hcell⟩ := hc b (hxc ▸ hb)
    exact ⟨r, a, hr, hst, hcell, hcode⟩
  split
  · exact hz
  · exact hz.modJournal fun hj => hj.change _ (h.keyOk_cell hin)

/-- A cell becomes anything but Occupied. -/
theorem Holds.setCell (h : Holds m e y) (a : CellAddr) {c : Cell} (hc : ∀ b, c ≠ .occupied b) :
    Holds m e (setCell e a c y) := by
  refine h.setCellOk ?_
  cases m with
  | places => exact fun b hb => absurd hb (hc b)
  | _ => trivial

theorem setCell_bins (a : CellAddr) (c : Cell) (y : Yard) : (setCell e a c y).bins = y.bins := by rw [setCell_frame]

theorem getBin_setCell (b : Nat) (a : CellAddr) (c : Cell) (y : Yard) : getBin b (setCell e a c y) = getBin b y :=
  getBin_congr (setCell_bins a c y) b

/-- What a cell's change and a bin's record do does not depend on their order. -/
theorem modBin_setCell (b : Nat) (f : Bin → Bin) (a : CellAddr) (c : Cell) (y : Yard) :
    modBin b f (Machine.setCell e a c y) = Machine.setCell e a c (modBin b f y) := by
  unfold modBin
  rw [getBin_setCell]
  split
  · unfold Machine.setCell putBin
    have hget : ∀ l, getCell e a { y with bins := l } = getCell e a y := fun _ => rfl
    simp only [hget]
    split
    · rfl
    · split <;> rfl
  · rfl

/-! ## The order queue -/

/-- The numbers that are tried from one on (R71): each next, and from 65,535 back to 1. -/
theorem nextNo_iterate (n i : Nat) (hi : i ≤ 97) :
    nextNo^[i] n = if i = 0 then n else if 65535 < n then i else if n + i ≤ 65535 then n + i else n + i - 65535 := by
  induction i with
  | zero => simp
  | succ i ih =>
    rw [Function.iterate_succ_apply', if_neg (Nat.succ_ne_zero i)]
    have hx := ih (by omega)
    generalize nextNo^[i] n = x at hx
    unfold nextNo
    split_ifs at hx ⊢ <;> omega

theorem nextNo_iterate_inj {n i j : Nat} (hi : i ≤ 97) (hj : j ≤ 97) (h : nextNo^[i] n = nextNo^[j] n) : i = j := by
  rw [nextNo_iterate n i hi, nextNo_iterate n j hj] at h
  split_ifs at h <;> omega

/-- A search that ends at a number in use has met nothing but numbers in use. -/
theorem used_of_freeNo_used (l : List Order) (f n : Nat) (h : freeNo l f n ∈ l.map (·.no)) :
    ∀ i ≤ f, nextNo^[i] n ∈ l.map (·.no) := by
  induction f generalizing n with
  | zero => intro i hi; simpa [Nat.le_zero.1 hi, freeNo] using h
  | succ f ih =>
    unfold freeNo at h
    split at h
    next hused =>
      intro i hi
      cases i with
      | zero => simpa using hused
      | succ i => exact ih (nextNo n) h i (by omega)
    next hfree =>
      exact absurd (by simpa using h) hfree

/-- The queue holds at most 96 orders, so that one of 97 numbers is free. -/
theorem freeNo_not_mem (l : List Order) (n : Nat) (hl : l.length ≤ 96) : freeNo l 97 n ∉ l.map (·.no) := by
  intro h
  have hsub : (List.range 98).map (fun i => nextNo^[i] n) ⊆ l.map (·.no) := by
    intro x hx
    obtain ⟨i, hi, rfl⟩ := List.mem_map.1 hx
    exact used_of_freeNo_used l 97 n h i (by simp only [List.mem_range] at hi; omega)
  have hnodup : ((List.range 98).map fun i => nextNo^[i] n).Nodup :=
    List.nodup_range.map_on fun i hi j hj hij => by
      simp only [List.mem_range] at hi hj
      exact nextNo_iterate_inj (by omega) (by omega) hij
  have := (List.subperm_of_subset hnodup hsub).length_le
  simp only [List.length_map, List.length_range] at this
  omega

/-- A change of the records that leaves every bin its place. -/
structure SamePlaces (y z : Yard) : Prop where
  record : ∀ b r, getBin b z = some r → ∃ q, getBin b y = some q ∧ q.st = r.st ∧ q.cell = r.cell
  back : ∀ b r, getBin b y = some r → ∃ q, getBin b z = some q ∧ q.st = r.st ∧ q.cell = r.cell

theorem samePlaces_modBin (b : Nat) (f : Bin → Bin) (hst : ∀ r, (f r).st = r.st) (hcell : ∀ r, (f r).cell = r.cell)
    (y : Yard) : SamePlaces y (modBin b f y) where
  record d r hr := by
    by_cases hdb : d = b
    · subst hdb
      rw [getBin_modBin_same] at hr
      obtain ⟨q, hq, rfl⟩ := Option.map_eq_some_iff.1 hr
      exact ⟨q, hq, (hst q).symm, (hcell q).symm⟩
    · exact ⟨r, by rwa [getBin_modBin_other _ _ _ _ hdb] at hr, rfl, rfl⟩
  back d r hr := by
    by_cases hdb : d = b
    · subst hdb
      exact ⟨f r, by rw [getBin_modBin_same, hr]; rfl, hst r, hcell r⟩
    · exact ⟨r, by rwa [getBin_modBin_other _ _ _ _ hdb], rfl, rfl⟩

/-- A change of the queue and of the bins' live orders: what is left to show is the queue's own bounds. -/
theorem Holds.queue (h : Holds m e y) {l : List Order} {n : Nat} {bins : List (Nat × Bin)}
    (hsorted : KSorted y.bins → KSorted bins) (ho : IfLists m (OrdersSafe y → OrdersSafe { y with orders := l, nextOrder := n, bins := bins }))
    (hs : SamePlaces y { y with bins := bins }) : Holds m e { y with orders := l, nextOrder := n, bins := bins } := by
  refine ⟨h.journal, ?_⟩
  have tables : (OrdersSafe y → OrdersSafe { y with orders := l, nextOrder := n, bins := bins }) → Tables e y →
      Tables e { y with orders := l, nextOrder := n, bins := bins } := fun ho ht =>
    ⟨ht.cells, hsorted ht.bins, ht.geometry, ht.outbox, ho ht.orders, ht.trays, ht.placements⟩
  cases m with
  | lists => exact tables ho h.yard
  | places may kept =>
    have hp := h.placed
    refine ⟨tables ho h.tables, hp.delivery, hp.returns, fun b p q hb hq => ?_, fun b hb => ?_, fun b r hr hin => ?_,
      fun k b hk => ?_, hp.within, fun b p hb => ?_⟩
    · exact hp.one b p q (by cases p <;> exact hb) (by cases q <;> exact hq)
    · obtain ⟨r, hr, hin⟩ := hp.there b (hb.imp_right fun ⟨p, hb⟩ => ⟨p, by cases p <;> exact hb⟩)
      obtain ⟨q, hq, hst, -⟩ := hs.back b r hr
      exact ⟨q, hq, by rw [inPlace_congr hst]; exact hin⟩
    · obtain ⟨q, hq, hst, hcell⟩ := hs.record b r hr
      rw [← hcell]
      exact hp.noCell b q hq (by rw [inPlace_congr hst]; exact hin)
    · obtain ⟨r, a, hr, hst, hcell, hcode⟩ := hp.stored k b hk
      obtain ⟨q, hq, hst', hcell'⟩ := hs.back b r hr
      exact ⟨q, a, hq, hst'.trans hst, hcell'.trans hcell, hcode⟩
    · exact hp.allowed b p (by cases p <;> exact hb)
  | numbers =>
    intro b r hr
    obtain ⟨q, hq, -⟩ := hs.record b r hr
    exact h.yard b q hq
  | sessions => exact ⟨h.yard.timeout, h.yard.rest⟩

theorem sorted_modBin {b : Nat} {f : Bin → Bin} (h : KSorted y.bins) : KSorted (modBin b f y).bins := by
  unfold modBin
  split
  · exact KSorted_kput _ _ _ h
  · exact h

/-- An order's change that keeps its number, its bin, whether it closes, and how many picks it has. -/
theorem Holds.modOrder (h : Holds m e y) (no : Nat) {f : Order → Order}
    (hf : ∀ o, orderSig (f o) = orderSig o := by exact fun _ => rfl) : Holds m e (modOrder no f y) := by
  refine h.light { orders := ?_ }
  simp only [Machine.modOrder, List.map_map]
  refine List.map_congr_left fun o _ => ?_
  simp only [Function.comp]
  split
  · exact hf o
  · rfl

/-- A bin that a new live order may be made for: it has a record, is not Retired, and has no live order. -/
def Orderable (b : Nat) (y : Yard) : Prop :=
  (∃ r, getBin b y = some r ∧ r.st ≠ .retired) ∧ ∀ o ∈ y.orders, o.closing = false → o.bin ≠ b

/-- A new order of a free number that its bin's record names. -/
theorem OrdersSafe.append (h : OrdersSafe y) {o : Order} {bins : List (Nat × Bin)} (hroom : y.orders.length < 96)
    (hb : Orderable o.bin y) (hno : o.no ∉ y.orders.map (·.no)) (hp : o.picks.length ≤ 8)
    (hsame : ∀ r, getBin o.bin y = some r → kget bins o.bin = some { r with live := some o.no })
    (hother : ∀ d, d ≠ o.bin → kget bins d = getBin d y) (n : Nat) :
    OrdersSafe { y with orders := y.orders ++ [o], nextOrder := n, bins := bins } := by
  obtain ⟨⟨r, hr, hst⟩, hnone⟩ := hb
  refine ⟨by simp; omega, ?_, fun x hx => ?_, fun x hx hc => ?_, fun d q hd hq => ?_⟩
  · rw [List.map_append, List.nodup_append]
    refine ⟨h.numbers, by simp, ?_⟩
    rintro x hx c hc rfl
    exact hno (by rwa [List.mem_singleton.1 hc] at hx)
  · rcases List.mem_append.1 hx with hx | hx
    · exact h.picks x hx
    · exact List.mem_singleton.1 hx ▸ hp
  · rcases List.mem_append.1 hx with hx | hx
    · obtain ⟨q, hq, hlive⟩ := h.live x hx hc
      exact ⟨q, (hother _ (hnone x hx hc)).trans hq, hlive⟩
    · rw [List.mem_singleton.1 hx]
      exact ⟨_, hsame r hr, rfl⟩
  · by_cases hdb : d = o.bin
    · subst hdb
      have := (hsame r hr).symm.trans hd
      cases this
      exact absurd hq hst
    · exact h.retired d q ((hother d hdb).symm.trans hd) hq

/-- A new order enters a queue that has room. -/
theorem Holds.createOrder (h : Holds m e y) (cls : OrderClass) {b : Nat} (st : Station) {picks : List Pick}
    (retire : Bool) (o : Option OrderSt) (hroom : queueFull y = false) (hb : IfLists m (Orderable b y))
    (hp : picks.length ≤ 8) : Holds m e (createOrder e cls b st picks retire o y).1 := by
  unfold Machine.createOrder
  extract_lets no q q'
  have hroom : y.orders.length < 96 := by simpa [queueFull] using hroom
  have hframe : Machine.modBin b (fun r => { r with live := some no }) { y with orders := y.orders ++ [q'], nextOrder := nextNo no }
      = { y with orders := y.orders ++ [q'], nextOrder := nextNo no
                 bins := (Machine.modBin b (fun r => { r with live := some no }) y).bins } := by
    rw [modBin_frame]
    unfold Machine.modBin getBin Machine.putBin
    dsimp only
    split <;> rfl
  show Holds m e (Machine.modBin b (fun r => { r with live := some no })
    { y with orders := y.orders ++ [q'], nextOrder := nextNo no })
  rw [hframe]
  have hother : ∀ d, d ≠ b → kget (Machine.modBin b (fun r => { r with live := some no }) y).bins d = getBin d y :=
    fun d hd => getBin_modBin_other b d _ y hd
  have hsame : SamePlaces y (Machine.modBin b (fun r => { r with live := some no }) y) :=
    samePlaces_modBin b (fun r => { r with live := some no }) (fun _ => rfl) (fun _ => rfl) y
  refine h.queue sorted_modBin (hb.map fun hb ho => ho.append hroom hb (freeNo_not_mem _ _ (by omega)) hp (fun r hr => ?_) hother _)
    ⟨hsame.record, hsame.back⟩
  have := getBin_modBin_same b (fun r => { r with live := some no }) y
  rw [hr] at this
  exact this

/-! ## Orders that leave, and orders that close -/

/-- The record of a bin whose live order is taken away if it has a number. -/
def unlive (no : Nat) (r : Bin) : Bin := if r.live = some no then { r with live := none } else r

theorem unlive_st (no : Nat) (r : Bin) : (unlive no r).st = r.st := by unfold unlive; split <;> rfl
theorem unlive_cell (no : Nat) (r : Bin) : (unlive no r).cell = r.cell := by unfold unlive; split <;> rfl

/-- The live order of an order's bin is taken away. -/
def unliveOf (no : Nat) (y : Yard) : Yard :=
  match orderOf no y with
  | some o => modBin o.bin (unlive no) y
  | none => y

theorem unliveOf_frame (no : Nat) (y : Yard) : unliveOf no y = { y with bins := (unliveOf no y).bins } := by
  unfold unliveOf
  split
  · exact modBin_frame _ _ _
  · rfl

theorem samePlaces_refl (y : Yard) : SamePlaces y y :=
  ⟨fun _ r hr => ⟨r, hr, rfl, rfl⟩, fun _ r hr => ⟨r, hr, rfl, rfl⟩⟩

theorem samePlaces_unliveOf (no : Nat) (y : Yard) : SamePlaces y (unliveOf no y) := by
  unfold unliveOf
  split
  · exact samePlaces_modBin _ _ (unlive_st no) (unlive_cell no) y
  · exact samePlaces_refl y

theorem sorted_unliveOf {no : Nat} (h : KSorted y.bins) : KSorted (unliveOf no y).bins := by
  unfold unliveOf
  split
  · exact sorted_modBin h
  · exact h

theorem live_unliveOf {no x : Nat} (hx : x ≠ no) {b : Nat} {r : Bin} (hr : getBin b y = some r) (hl : r.live = some x) :
    ∃ q, getBin b (unliveOf no y) = some q ∧ q.live = some x := by
  unfold unliveOf
  split
  next o ho =>
    by_cases hb : b = o.bin
    · subst hb
      refine ⟨unlive no r, by rw [getBin_modBin_same, hr]; rfl, ?_⟩
      simp [unlive, hl, hx]
    · exact ⟨r, by rwa [getBin_modBin_other _ _ _ _ hb], hl⟩
  next => exact ⟨r, hr, hl⟩

theorem retired_unliveOf (h : OrdersSafe y) {no b : Nat} {q : Bin} (hq : getBin b (unliveOf no y) = some q)
    (hst : q.st = .retired) : q.live = none := by
  unfold unliveOf at hq
  split at hq
  next o ho =>
    by_cases hb : b = o.bin
    · subst hb
      rw [getBin_modBin_same] at hq
      obtain ⟨r, hr, rfl⟩ := Option.map_eq_some_iff.1 hq
      have := h.retired _ r hr (by rwa [unlive_st] at hst)
      simp [unlive, this]
    · exact h.retired b q (by rwa [getBin_modBin_other _ _ _ _ hb] at hq) hst
  next => exact h.retired b q hq hst

/-- The orders that are left, each with what the invariants ask of it as before, but that one may no longer be live. -/
theorem OrdersSafe.unlive (h : OrdersSafe y) (no : Nat) {l : List Order}
    (hsub : (l.map (·.no)).Sublist (y.orders.map (·.no)))
    (hl : ∀ o ∈ l, ∃ x ∈ y.orders, x.no = o.no ∧ x.bin = o.bin ∧ x.picks.length = o.picks.length
      ∧ (o.closing = false → x.closing = false ∧ o.no ≠ no)) :
    OrdersSafe { y with orders := l, nextOrder := y.nextOrder, bins := (unliveOf no y).bins } where
  bound := by have := hsub.length_le; simp only [List.length_map] at this; exact this.trans h.bound
  numbers := h.numbers.sublist hsub
  picks o ho := by
    obtain ⟨x, hx, -, -, hp, -⟩ := hl o ho
    exact hp ▸ h.picks x hx
  live o ho hc := by
    obtain ⟨x, hx, hno, hbin, -, hlive⟩ := hl o ho
    obtain ⟨hxc, hne⟩ := hlive hc
    obtain ⟨r, hr, hrl⟩ := h.live x hx hxc
    rw [← hbin]
    exact live_unliveOf hne hr (hno ▸ hrl)
  retired b r hr hst := retired_unliveOf h hr hst

namespace Holds

theorem dropOrder (h : Holds m e y) (no : Nat) : Holds m e (Machine.dropOrder no y) := by
  have heq : Machine.dropOrder no y = { y with
      orders := y.orders.filter (fun o => o.no ≠ no), nextOrder := y.nextOrder, bins := (unliveOf no y).bins } := by
    have h1 : Machine.dropOrder no y = { unliveOf no y with orders := (unliveOf no y).orders.filter fun o => o.no ≠ no } := rfl
    rw [h1, unliveOf_frame]
  rw [heq]
  refine h.queue sorted_unliveOf (.of fun ho => ho.unlive no ((List.filter_sublist).map _) fun o hm => ?_) ⟨(samePlaces_unliveOf no y).record, (samePlaces_unliveOf no y).back⟩
  obtain ⟨hm, hne⟩ := List.mem_filter.1 hm
  exact ⟨o, hm, rfl, rfl, rfl, fun hc => ⟨hc, by simpa using hne⟩⟩

theorem orderClosing (h : Holds m e y) (no : Nat) : Holds m e (Machine.orderClosing no y) := by
  have heq : Machine.orderClosing no y = { y with
      orders := y.orders.map (fun o => if o.no = no then { o with closing := true } else o)
      nextOrder := y.nextOrder, bins := (unliveOf no y).bins } := by
    have h1 : Machine.orderClosing no y = Machine.modOrder no (fun o => { o with closing := true }) (unliveOf no y) := rfl
    rw [h1, unliveOf_frame]
    rfl
  rw [heq]
  refine h.queue sorted_unliveOf (.of fun ho => ho.unlive no ?_ fun o hm => ?_) ⟨(samePlaces_unliveOf no y).record, (samePlaces_unliveOf no y).back⟩
  · rw [List.map_map]
    refine (List.map_congr_left fun o _ => ?_) ▸ List.Sublist.refl _
    simp only [Function.comp]
    split <;> rfl
  · obtain ⟨x, hx, rfl⟩ := List.mem_map.1 hm
    refine ⟨x, hx, ?_⟩
    split
    · exact ⟨rfl, rfl, rfl, fun hc => by cases hc⟩
    next hne => exact ⟨rfl, rfl, rfl, fun hc => ⟨hc, hne⟩⟩

/-- The picks of an order change, and stay 8 at most. -/
theorem setPicks (h : Holds m e y) (no : Nat) {f : Order → Order}
    (hf : ∀ o, (f o).no = o.no ∧ (f o).bin = o.bin ∧ (f o).closing = o.closing)
    (hp : IfLists m (∀ o ∈ y.orders, o.no = no → (f o).picks.length ≤ 8)) : Holds m e (Machine.modOrder no f y) := by
  refine h.queue (n := y.nextOrder) (bins := y.bins) id (hp.map fun hp ho => ⟨?_, ?_, fun o hm => ?_, fun o hm hc => ?_, ho.retired⟩)
    (samePlaces_refl y)
  · simpa using ho.bound
  · have hno : (y.orders.map fun o => if o.no = no then f o else o).map (·.no) = y.orders.map (·.no) := by
      rw [List.map_map]
      refine List.map_congr_left fun o _ => ?_
      simp only [Function.comp]
      split
      · exact (hf o).1
      · rfl
    exact hno ▸ ho.numbers
  · obtain ⟨x, hx, rfl⟩ := List.mem_map.1 hm
    split
    next hno => exact hp x hx hno
    next => exact ho.picks x hx
  · obtain ⟨x, hx, rfl⟩ := List.mem_map.1 hm
    by_cases hno : x.no = no
    · rw [if_pos hno] at hc ⊢
      obtain ⟨hxno, hbin, hclosing⟩ := hf x
      obtain ⟨r, hr, hl⟩ := ho.live x hx (hclosing ▸ hc)
      exact ⟨r, hbin ▸ hr, hl.trans (congrArg some hxno.symm)⟩
    · rw [if_neg hno] at hc ⊢
      exact ho.live x hx hc

end Holds
end Sys2Proof.Machine
end

