-- ==== Sys2Proof/Proofs/SmallSteps.lean ====
section
/-! PROOF. The updates of one record, notices and displays, space-bin choices, evaluation, trays and sessions keep the
invariants. -/

namespace Sys2Proof.Machine

open Sys2Proof

-- Default arguments given by tactics wait for the kernel: one theorem at a time, so that few wait at once.
set_option Elab.async false

variable {m : Kind} {e : Env} {y z : Yard}

/-! ## One record of the yard -/

theorem Light.modCarrier {a : Aisle} {f : Carrier → Carrier}
    (hf : ∀ b, (f y.carriers[a]).load = some b → y.carriers[a].load = some b) : Light e y (modCarrier a f y) where
  places b p hp := by
    cases p with
    | fork a' =>
      rw [at_fork] at hp ⊢
      simp only [Machine.modCarrier, vset_get] at hp
      split at hp
      next h => exact h ▸ hf b hp
      next => exact hp
    | _ => exact hp

theorem Light.modStation {st : Station} {f : StationRec → StationRec}
    (hs : ∀ x, (f y.stations[st]).session = some x → SessionFrom e y.stations[st].session x)
    (hn : ∀ b, (f y.stations[st]).next.map (·.bin) = some b → y.stations[st].next.map (·.bin) = some b)
    (hp : ∀ b, (f y.stations[st]).present.map (·.bin) = some b → y.stations[st].present.map (·.bin) = some b) :
    Light e y (modStation st f y) where
  sessions st' x hx := by
    simp only [Machine.modStation, vset_get] at hx
    split at hx
    next h => exact h ▸ hs x hx
    next => exact .same hx
  places b p hat := by
    cases p with
    | next st' =>
      rw [at_next] at hat ⊢
      simp only [Machine.modStation, vset_get] at hat
      split at hat
      next h => exact h ▸ hn b hat
      next => exact hat
    | present st' =>
      rw [at_present] at hat ⊢
      simp only [Machine.modStation, vset_get] at hat
      split at hat
      next h => exact h ▸ hp b hat
      next => exact hat
    | _ => exact hat

theorem Light.modTray {st : Station} {f : Tray → Tray}
    (hf : (f y.trays[st]).items.length ≤ max 24 y.trays[st].items.length) : Light e y (modTray st f y) where
  trays st' := by
    simp only [Machine.modTray, vset_get]
    split
    next h => exact h ▸ hf
    next => exact le_max_right _ _
  places b p hp := by cases p <;> exact hp

theorem Light.modLines {f : Lines → Lines} (hd : (f y.lines).delivery.Sublist y.lines.delivery := by exact .refl _)
    (hr : (f y.lines).returns.Sublist y.lines.returns := by exact .refl _)
    (hi : ∀ (a : Aisle) b, (f y.lines).inbound[a] = some b → y.lines.inbound[a] = some b := by exact fun _ _ h => h) :
    Light e y (modLines f y) where
  delivery := hd.map _
  returns := hr.map _
  places b p hp := by
    cases p with
    | delivery => rw [at_delivery] at hp ⊢; exact (hd.map _).subset hp
    | ret => rw [at_ret] at hp ⊢; exact (hr.map _).subset hp
    | inbound a => rw [at_inbound] at hp ⊢; exact hi a b hp
    | _ => exact hp

theorem lineRec_frame (l : LineId) (f : LineRec → LineRec) (y : Yard) :
    ∃ d r, modLine l f y = modLines (fun x => { x with del := d, ret := r }) y := by
  cases l
  · exact ⟨f y.lines.del, y.lines.ret, rfl⟩
  · exact ⟨y.lines.del, f y.lines.ret, rfl⟩

theorem postPut_bound (p : Post) (n : Notice) (h : p.outbox.length ≤ 32) : (postPut p n).outbox.length ≤ 32 := by
  unfold postPut
  split
  next => simp; omega
  split
  · extract_lets keep list list'
    have hkl : keep.length + list.length = p.outbox.length := by
      unfold keep list
      split
      · rw [← List.length_append, List.take_append_drop]
      · simp
    have hlist : list'.length + 1 ≤ max 1 list.length := by
      unfold list'
      split
      next i hi =>
        have := (List.findIdx?_eq_some_iff_findIdx_eq.1 hi).1
        rw [List.length_eraseIdx_of_lt this]
        omega
      next => rw [List.length_drop]; omega
    have hkeep : keep.length ≤ 1 := by
      unfold keep
      split
      · exact List.length_take_le _ _
      · exact Nat.zero_le _
    simp only [List.length_append, List.length_singleton]
    omega
  · exact h

namespace Holds

theorem modCarrier (h : Holds m e y) (a : Aisle) {f : Carrier → Carrier}
    (hf : ∀ c b, (f c).load = some b → c.load = some b := by exact fun _ _ h => h) : Holds m e (modCarrier a f y) :=
  h.light (.modCarrier (hf _))

theorem modTray (h : Holds m e y) (st : Station) {f : Tray → Tray}
    (hf : ∀ t, (f t).items.length ≤ t.items.length := by exact fun _ => le_rfl) : Holds m e (modTray st f y) :=
  h.light (.modTray ((hf _).trans (le_max_right _ _)))

/-- A station's session goes on, and its places stay or are emptied. -/
theorem modStation (h : Holds m e y) (st : Station) {f : StationRec → StationRec}
    (hs : ∀ r x, (f r).session = some x → SessionFrom e r.session x := by exact fun _ _ h => .same h)
    (hn : ∀ r b, (f r).next.map (·.bin) = some b → r.next.map (·.bin) = some b := by exact fun _ _ h => h)
    (hp : ∀ r b, (f r).present.map (·.bin) = some b → r.present.map (·.bin) = some b := by exact fun _ _ h => h) :
    Holds m e (modStation st f y) := h.light (.modStation (hs _) (hn _) (hp _))

theorem modSession (h : Holds m e y) (st : Station) {f : Session → Session}
    (hf : ∀ x, SessionFrom e (some x) (f x)) : Holds m e (modSession st f y) := by
  refine h.modStation st (hs := fun r x hx => ?_)
  obtain ⟨w, hw, rfl⟩ := Option.map_eq_some_iff.1 hx
  exact hw ▸ hf w

theorem modLines (h : Holds m e y) {f : Lines → Lines}
    (hd : ∀ l, (f l).delivery.Sublist l.delivery := by exact fun _ => .refl _)
    (hr : ∀ l, (f l).returns.Sublist l.returns := by exact fun _ => .refl _)
    (hi : ∀ l (a : Aisle) b, (f l).inbound[a] = some b → l.inbound[a] = some b := by exact fun _ _ _ h => h) :
    Holds m e (modLines f y) := h.light (.modLines (hd _) (hr _) (hi _))

theorem modLine (h : Holds m e y) (l : LineId) (f : LineRec → LineRec) : Holds m e (modLine l f y) := by
  obtain ⟨d, r, hdr⟩ := lineRec_frame l f y
  rw [hdr]
  exact h.modLines

theorem modArb (h : Holds m e y) (a : Aisle) (f : Arbiter → Arbiter) : Holds m e (modArb a f y) := h.light {}
theorem modEst (h : Holds m e y) (a : Aisle) (f : AisleSpeed → AisleSpeed) : Holds m e (modEst a f y) := h.light {}
theorem modVerif (h : Holds m e y) (a : Aisle) (f : Verif → Verif) : Holds m e (modVerif a f y) := h.light {}
theorem send (h : Holds m e y) (b : BusMsg) : Holds m e (send b y) := h.light {}

theorem notify (h : Holds m e y) (k : NoticeKind) (l : List Fld) : Holds m e (notify e k l y) :=
  h.light { outbox := fun hb => postPut_bound _ _ hb }

/-! ## Displays -/

theorem sendDisplay (h : Holds m e y) (st : Station) : Holds m e (sendDisplay st y) := (h.modStation st).send _

theorem showStation (h : Holds m e y) (st : Station) : Holds m e (showStation st y) := by
  unfold Machine.showStation
  split
  · exact h
  · exact h.sendDisplay st

theorem syncDisplays (h : Holds m e y) : Holds m e (syncDisplays y) := h.foldl _ fun _ st _ h => h.showStation st

end Holds
end Sys2Proof.Machine
end

