-- ==== Sys2Proof/Proofs/QueueKept.lean ====
section
/-! PROOF. The order queue, the trays and the sessions keep the invariants (chapters 4, 6 and 7). -/

namespace Sys2Proof.Machine

open Sys2Proof

-- Default arguments given by tactics wait for the kernel: one theorem at a time, so that few wait at once.
set_option Elab.async false

variable {m : Kind} {e : Env} {y z : Yard}

theorem Holds.ifLists (h : Holds m e y) {P : Prop} (f : Tables e y → P) : IfLists m P := by
  cases m with
  | lists => exact f h.yard
  | places => exact f h.tables
  | _ => trivial

/-! ## New orders (R78, R140, R141) -/

/-- A bin whose record names no live order has none in the queue. -/
theorem orderable_of_free (h : Tables e y) {b : Nat} {r : Bin} (hr : getBin b y = some r) (hlive : r.live = none)
    (hst : r.st ≠ .retired) : Orderable b y := by
  refine ⟨⟨r, hr, hst⟩, fun o ho hc hb => ?_⟩
  obtain ⟨q, hq, hl⟩ := h.orders.live o ho hc
  rw [hb, hr] at hq
  cases hq
  rw [hlive] at hl
  cases hl

theorem mem_spaceFirst {need : Nat} {l : List SpaceBin} {c : SpaceBin} (h : spaceFirst need l = some c) : c ∈ l := by
  induction l generalizing c with
  | nil => cases h
  | cons p t ih =>
    unfold spaceFirst at h
    split at h
    next q hq =>
      split at h
      · cases h; exact List.mem_cons_of_mem _ (ih hq)
      · cases h; exact List.mem_cons_self
    next => cases h; exact List.mem_cons_self

theorem spaceBin_some {small b : Nat} {r : Bin} {c : SpaceBin} (h : spaceBin e small b r y = some c) :
    c.bin = b ∧ r.st = .stored ∧ r.live = none ∧ r.retirePending = false := by
  unfold spaceBin at h
  split at h
  next hst hcell =>
    split at h
    next hok =>
      obtain ⟨f, -, rfl⟩ := Option.map_eq_some_iff.1 h
      simp only [Bool.and_eq_true, Bool.not_eq_true', Option.isNone_iff_eq_none] at hok
      exact ⟨rfl, hst, hok.1.1.2, hok.1.1.1.2⟩
    next => cases h
  next => cases h

/-- The bin a tray chooses is Stored, has no live order and is not to be retired (R140). -/
theorem chooseBin_record (hs : KSorted y.bins) {st : Station} {c : SpaceBin} (h : chooseBin e st y = some c) :
    ∃ r, getBin c.bin y = some r ∧ r.st = .stored ∧ r.live = none ∧ r.retirePending = false := by
  unfold chooseBin at h
  split at h
  · cases h
  · obtain ⟨p, hp, hc⟩ := List.mem_filterMap.1 (mem_spaceFirst h)
    obtain ⟨hb, hst, hlive, hpend⟩ := spaceBin_some hc
    exact ⟨p.2, hb ▸ kget_of_mem _ _ _ hs hp, hst, hlive, hpend⟩

theorem getBin_createOrder_other {cls : OrderClass} {b d : Nat} {st : Station} {picks : List Pick} {retire : Bool}
    {o : Option OrderSt} (h : d ≠ b) : getBin d (createOrder e cls b st picks retire o y).1 = getBin d y :=
  getBin_modBin_other _ _ _ _ h

namespace Holds

theorem spaceChoice (h : Holds m e y) (st : Station) : Holds m e (spaceChoice e st y) := by
  unfold Machine.spaceChoice
  extract_lets t
  split
  · split
    next c hc =>
      split
      · exact h.modTray st
      next hroom =>
        have horder : IfLists m (Orderable c.bin y) := h.ifLists fun ht => by
          obtain ⟨r, hr, hst, hlive, -⟩ := chooseBin_record ht.bins hc
          exact orderable_of_free ht hr hlive (by simp [hst])
        exact (h.createOrder .space st false none (by simpa using hroom) horder (Nat.zero_le _)).modTray st
    next =>
      split
      · exact h
      · exact (h.modTray st).notify _ _
  · exact h

theorem trayChoices (h : Holds m e y) : Holds m e (trayChoices e y) := h.foldl _ fun _ st _ h => h.spaceChoice st

theorem choicesWhen (h : Holds m e y) (b : Bool) : Holds m e (choicesWhen b e y) := by
  unfold Machine.choicesWhen
  split
  · exact h.trayChoices
  · exact h

theorem verifyEdge (h : Holds m e y) (a : Aisle) : Holds m e (verifyEdge e a y) := (h.modVerif a _).choicesWhen _

/-- The Retire course: each bin's record is as it was when the course began, since each order changes its own bin's. -/
theorem retireOrders (h : Holds m e y) (l : List (Nat × Bin)) (hn : IfLists m (l.map Prod.fst).Nodup)
    (hl : IfLists m (∀ p ∈ l, getBin p.1 y = some p.2 ∧ wantsRetire p.2 = true)) :
    Holds m e (l.foldl (fun y p => match retireStation e y with
      | some st => if queueFull y then y else (Machine.createOrder e .staff p.1 st [] true none y).1
      | none => y) y) := by
  induction l generalizing y with
  | nil => exact h
  | cons p t ih =>
    have hn' : IfLists m (t.map Prod.fst).Nodup := hn.map fun hn => (List.nodup_cons.1 hn).2
    have hl' : IfLists m (∀ q ∈ t, getBin q.1 y = some q.2 ∧ wantsRetire q.2 = true) :=
      hl.map fun hl q hq => hl q (List.mem_cons_of_mem _ hq)
    rw [List.foldl_cons]
    split
    next st hst =>
      split
      · exact ih h hn' hl'
      next hroom =>
        refine ih (h.createOrder .staff st true none (by simpa using hroom) ?_ (Nat.zero_le _)) hn' ?_
        · cases m with
          | lists =>
            obtain ⟨hr, hw⟩ := hl p List.mem_cons_self
            simp only [wantsRetire, Bool.and_eq_true, decide_eq_true_eq, Option.isNone_iff_eq_none] at hw
            exact orderable_of_free h.yard hr hw.2 (by simp [hw.1.1])
          | places =>
            obtain ⟨hr, hw⟩ := hl p List.mem_cons_self
            simp only [wantsRetire, Bool.and_eq_true, decide_eq_true_eq, Option.isNone_iff_eq_none] at hw
            exact orderable_of_free h.tables hr hw.2 (by simp [hw.1.1])
          | _ => trivial
        · have key : (t.map Prod.fst).Nodup → p.1 ∉ t.map Prod.fst →
              (∀ q ∈ t, getBin q.1 y = some q.2 ∧ wantsRetire q.2 = true) →
              ∀ q ∈ t, getBin q.1 (Machine.createOrder e .staff p.1 st [] true none y).1 = some q.2 ∧ wantsRetire q.2 = true := by
            intro _ hp hl q hq
            rw [getBin_createOrder_other fun hqp => hp (List.mem_map.2 ⟨q, hq, hqp⟩)]
            exact hl q hq
          cases m with
          | lists => exact key hn' (List.nodup_cons.1 hn).1 hl'
          | places => exact key hn' (List.nodup_cons.1 hn).1 hl'
          | _ => trivial
    next => exact ih h hn' hl'

theorem retireCourse (h : Holds m e y) : Holds m e (retireCourse e y) := by
  refine h.retireOrders _ (h.ifLists fun ht => ?_) (h.ifLists fun ht p hp => ?_)
  · have hs : ((y.bins.filter fun p => wantsRetire p.2).map Prod.fst).Pairwise (· < ·) := KSorted_filter _ _ ht.bins
    exact hs.imp fun h => Nat.ne_of_lt h
  · obtain ⟨hp, hw⟩ := List.mem_filter.1 hp
    exact ⟨kget_of_mem _ _ _ ht.bins hp, hw⟩

/-! ## Leaving the queue, and evaluation -/

theorem trayOrderLeft (h : Holds m e y) (no : Nat) (st : Station) : Holds m e (trayOrderLeft e no st y) := by
  unfold Machine.trayOrderLeft
  split
  · exact (h.modTray st).spaceChoice st
  · split
    · exact h.spaceChoice st
    · exact h

theorem traysOrderLeft (h : Holds m e y) (no : Nat) : Holds m e (traysOrderLeft e no y) :=
  h.foldl _ fun _ st _ h => h.trayOrderLeft no st

theorem removeOrder (h : Holds m e y) (no : Nat) : Holds m e (removeOrder e no y) := (h.dropOrder no).traysOrderLeft no

theorem closeOrder (h : Holds m e y) (no : Nat) : Holds m e (closeOrder e no y) := by
  unfold Machine.closeOrder
  split
  · exact h
  · exact (((h.modOrder no).dropOrder no).notify _ _).traysOrderLeft no

theorem evalOrder (h : Holds m e y) (no : Nat) : Holds m e (evalOrder e no y) := by
  unfold Machine.evalOrder
  split
  · exact h
  next o ho =>
    split
    · extract_lets st w
      split
      · exact h
      · have hw : Holds m e w := (h.modOrder no).notify _ _
        split
        · exact hw.removeOrder no
        · exact hw
    · exact h

theorem evalOrders (h : Holds m e y) : Holds m e (evalOrders e y) := h.foldl _ fun _ no _ h => h.evalOrder no

theorem evalBin (h : Holds m e y) (b : Nat) : Holds m e (evalBin e b y) := by
  unfold Machine.evalBin
  split
  · exact h.evalOrder _
  · exact h

theorem cellChanged (h : Holds m e y) (a : Aisle) : Holds m e (cellChanged e a y) := (h.verifyEdge a).evalOrders

end Holds

theorem settlePick_length (fits : Pick → Bool) (st : PickSt) (l : List Pick) : (settlePick fits st l).length = l.length := by
  induction l with
  | nil => rfl
  | cons p t ih =>
    unfold settlePick
    split
    · rfl
    · simp [ih]

namespace Holds

theorem unserveFirst (h : Holds m e y) (no : Nat) : Holds m e (unserveFirst no y) :=
  h.modOrder no fun o => by simp [orderSig, settlePick_length]

theorem unservePicks (h : Holds m e y) (no : Nat) : Holds m e (unservePicks no y) :=
  h.modOrder no fun o => by simp [orderSig]

theorem orderToQueue (h : Holds m e y) (no : Nat) : Holds m e (orderToQueue no y) :=
  h.modOrder no fun o => by cases o.st <;> rfl

theorem untaskOrder (h : Holds m e y) (no : Nat) : Holds m e (untaskOrder no y) :=
  h.modOrder no fun o => by split <;> rfl

/-! ## Trays (chapter 7) -/

theorem beginDemand (h : Holds m e y) (st : Station) : Holds m e (beginDemand st y) := h.modTray st
theorem demandEnd (h : Holds m e y) (st : Station) : Holds m e (demandEnd st y) := h.modTray st

theorem demandEdge (h : Holds m e y) (st : Station) : Holds m e (demandEdge e st y) := by
  unfold Machine.demandEdge
  split
  · exact (h.beginDemand st).spaceChoice st
  · exact h

theorem levelEdge (h : Holds m e y) (st : Station) : Holds m e (levelEdge e st y) := by
  unfold Machine.levelEdge
  split
  · exact h.demandEdge st
  · exact h

theorem modItem (h : Holds m e y) (st : Station) (c : ItemCode) (f : TrayItem → TrayItem) : Holds m e (modItem st c f y) :=
  h.modTray st fun t => by simp

theorem markLimit (h : Holds m e y) (st : Station) (c : ItemCode) : Holds m e (markLimit e st c y) :=
  (h.modItem st c _).demandEdge st

theorem markWaited (h : Holds m e y) (st : Station) : Holds m e (markWaited e st y) :=
  h.foldl _ fun _ i _ h => h.markLimit st i.item

/-- A session's fields change that no invariant speaks of, or its placements become fewer, or its timers are unset. -/
theorem shrinkSession (h : Holds m e y) (st : Station) {f : Session → Session}
    (hp : ∀ x, (f x).placements.length ≤ x.placements.length := by exact fun _ => le_rfl)
    (hi : ∀ x, (f x).idle = none ∨ (f x).idle = x.idle := by exact fun _ => .inr rfl)
    (ha : ∀ x, (f x).auto = none ∨ (f x).auto = x.auto := by exact fun _ => .inr rfl) : Holds m e (Machine.modSession st f y) :=
  h.modSession st fun x => ⟨.inr ⟨x, rfl, hp x⟩, fun _ => (hi x).imp_right fun hi => .inr ⟨x, rfl, hi⟩,
    fun _ => (ha x).imp_right fun ha => .inr ⟨x, rfl, ha⟩⟩

theorem handBack (h : Holds m e y) (st : Station) (p : Placement) : Holds m e (handBack e st p y) := by
  unfold Machine.handBack
  extract_lets before a b c
  have hb : Holds m e b :=
    ((h.shrinkSession st (f := fun s => { s with placements := s.placements.drop 1 }) (hp := fun x => by simp)).modItem st
      p.item _).showStation st
  have hc : Holds m e c := by
    unfold c
    split
    · exact hb.markLimit st p.item
    · exact hb
  split
  · exact hc.demandEdge st
  · exact hc

theorem handBackAll (h : Holds m e y) (st : Station) : Holds m e (handBackAll e st y) := by
  unfold Machine.handBackAll
  split
  · exact h
  · exact h.foldl _ fun _ p _ h => h.handBack st p

theorem offer (h : Holds m e y) (st : Station) (i : TrayItem) : Holds m e (offer st i y) := by
  unfold Machine.offer
  split
  · exact h
  next s hs =>
    split
    · exact h
    · split
      next hfit =>
        refine modItem (h.light (.modStation (fun x hx => ?_) (fun _ h => h) fun _ h => h)) st i.item _
        simp only [hs, Option.map_some, Option.some.injEq] at hx
        subst hx
        exact ⟨.inl (by simp; omega), fun _ => .inr (.inr ⟨s, hs, rfl⟩), fun _ => .inr (.inr ⟨s, hs, rfl⟩)⟩
      · exact h

theorem firstFit (h : Holds m e y) (st : Station) : Holds m e (firstFit st y) := by
  unfold Machine.firstFit
  extract_lets offered w
  split
  · have hw : Holds m e w := Holds.showStation (h.foldl _ fun _ i _ h => h.offer st i) st
    split
    · exact hw.demandEnd st
    · exact hw
  · exact h

theorem readdress (h : Holds m e y) (st : Station) (role : Role) (o : Order) : Holds m e (readdress e st role o y) := by
  unfold Machine.readdress
  split
  · split
    · exact h.removeOrder o.no
    · split
      · exact h
      · split
        · exact h.modOrder o.no
        · exact h
  · exact h

theorem roleOpens (h : Holds m e y) (st : Station) : Holds m e (roleOpens e st y) := by
  unfold Machine.roleOpens
  extract_lets edge w
  have hw : Holds m e w := by
    refine Holds.firstFit ?_ st
    split
    · exact h.beginDemand st
    · exact h
  split
  · exact hw.spaceChoice st
  · exact hw

theorem setRole (h : Holds m e y) (st : Station) (role : Role) : Holds m e (setRole e st role y) := by
  unfold Machine.setRole
  split
  · exact h
  · extract_lets a b c
    have ha : Holds m e a := h.modStation st
    have hb : Holds m e b := by
      unfold b
      split
      · exact ha
      · exact ha.demandEnd st
    have hc : Holds m e c := hb.foldl _ fun _ o _ h => h.readdress st role o
    split
    · exact hc.roleOpens st
    · exact hc

theorem syncRole (h : Holds m e y) (st : Station) : Holds m e (syncRole e st y) := by
  unfold Machine.syncRole
  split
  · exact h.setRole st _
  · exact h

theorem syncRoles (h : Holds m e y) : Holds m e (syncRoles e y) := h.foldl _ fun _ st _ h => h.syncRole st

/-! ## Sessions (chapter 6) -/

theorem joinRelease (h : Holds m e y) (st : Station) : Holds m e (joinRelease st y) :=
  h.modLines (hd := fun l => by split <;> exact .refl _) (hr := fun l => by split <;> exact .refl _)
    (hi := fun l a b hb => by split at hb <;> exact hb)

theorem leaveRelease (h : Holds m e y) (st : Station) : Holds m e (leaveRelease st y) := h.modLines

theorem closeSession (h : Holds m e y) (st : Station) : Holds m e (closeSession e st y) := by
  unfold Machine.closeSession
  split
  · exact h
  · extract_lets w
    have hw : Holds m e w := h.modStation st (hs := fun _ _ h => by cases h)
    split
    · exact hw.closeOrder _
    · exact hw

theorem unserveEach (h : Holds m e y) (st : Station) (no n : Nat) : Holds m e (unserveEach st no n y) := by
  induction n generalizing y with
  | zero => exact h
  | succ n ih => exact ih ((h.unserveFirst no).showStation st)

theorem dropWork (h : Holds m e y) (st : Station) (s : Session) : Holds m e (dropWork e st s y) := by
  refine Holds.handBackAll ?_ st
  split
  · exact h.unserveEach st _ _
  · exact h

theorem enterReleasing (h : Holds m e y) (st : Station) : Holds m e (enterReleasing e st y) := by
  unfold Machine.enterReleasing
  split
  · exact h
  next s hs =>
    split
    · exact h
    · extract_lets a b c
      have hb : Holds m e b := (h.dropWork st s).shrinkSession st (f := fun s => { s with releasing := true, idle := none, auto := none, met := false })
        (hi := fun _ => .inl rfl) (ha := fun _ => .inl rfl)
      have hc : Holds m e c := by
        refine Holds.showStation ?_ st
        split
        · exact hb.orderClosing _
        · exact hb
      split
      · exact (hc.closeSession st).showStation st
      · exact hc.joinRelease st

theorem removeSession (h : Holds m e y) (st : Station) : Holds m e (removeSession e st y) := by
  unfold Machine.removeSession
  split
  · exact h
  · exact ((h.dropWork st _).leaveRelease st).closeSession st

theorem openSession (h : Holds m e y) (st : Station) : Holds m e (openSession e st y) := by
  unfold Machine.openSession
  split
  next p hnone hp =>
    extract_lets o a s b c d
    clear_value o
    have ha : Holds m e a := by
      unfold a
      split
      · exact h.modOrder _
      · exact h
    have hb : Holds m e b := ha.light (.modStation
      (fun x hx => by cases hx; exact ⟨.inl (Nat.zero_le _), fun _ => .inr (.inl rfl), fun _ => .inl rfl⟩) (fun _ h => h) fun _ h => h)
    have hd : Holds m e d := ((hb.notify _ _).showStation st).firstFit st
    split
    · split
      · exact hd.enterReleasing st
      · exact hd
    · exact hd
  next => exact h

theorem syncAuto (h : Holds m e y) (st : Station) : Holds m e (syncAuto e st y) := by
  unfold Machine.syncAuto
  split
  · exact h
  · extract_lets now
    refine h.modSession st fun x => ⟨.inr ⟨x, rfl, le_rfl⟩, fun _ => .inr (.inr ⟨x, rfl, rfl⟩), fun _ => ?_⟩
    dsimp only
    split
    · split
      · exact .inr (.inr ⟨x, rfl, rfl⟩)
      · split
        · exact .inl rfl
        next hd => exact .inr (.inl ⟨rfl, hd⟩)
    · exact .inl rfl

theorem syncAutos (h : Holds m e y) : Holds m e (syncAutos e y) := h.foldl _ fun _ st _ h => h.syncAuto st

theorem autoExpires (h : Holds m e y) (st : Station) : Holds m e (autoExpires e st y) := by
  unfold Machine.autoExpires
  split
  · exact h
  · split
    · exact h.enterReleasing st
    · exact h

theorem idleExpires (h : Holds m e y) (st : Station) : Holds m e (idleExpires e st y) := by
  unfold Machine.idleExpires
  split
  · exact h
  · split
    · exact (h.enterReleasing st).notify _ _
    · exact h

theorem putOffExpiries (h : Holds m e y) (st : Station) : Holds m e (putOffExpiries e st y) :=
  (h.autoExpires st).idleExpires st

theorem staffAct (h : Holds m e y) (st : Station) : Holds m e (staffAct e st y) :=
  h.modSession st fun x => by
    split
    · exact .same rfl
    · exact ⟨.inr ⟨x, rfl, le_rfl⟩, fun _ => .inr (.inl rfl), fun _ => .inr (.inr ⟨x, rfl, rfl⟩)⟩

theorem armSession (h : Holds m e y) (st : Station) : Holds m e (armSession st y) := h.shrinkSession st

end Holds
end Sys2Proof.Machine
end

