-- ==== Sys2Proof/Proofs/Moves.lean ====
section
/-! PROOF. The rules for bins that move: out of a place, into a place, into a cell, and into no place. -/

namespace Sys2Proof.Machine

open Sys2Proof

-- Default arguments given by tactics wait for the kernel: one theorem at a time, so that few wait at once.
set_option Elab.async false

variable {m : Kind} {e : Env} {y z : Yard}

/-! ## Kinds that ask for more -/

/-- The same invariant, with fewer places where bins may stand. -/
def Kind.restrict (m : Kind) (F : Place → Nat → Prop) : Kind :=
  match m with
  | .places may kept => .places (fun p b => may p b ∧ F p b) kept
  | m => m

/-- The same invariant, with more bins whose records say that they stand in a place. -/
def Kind.keep (m : Kind) (K : Nat → Prop) : Kind :=
  match m with
  | .places may kept => .places may (fun b => kept b ∨ K b)
  | m => m

/-- The same invariant, with a bin nowhere. -/
abbrev Kind.without (m : Kind) (b : Nat) : Kind := m.restrict fun _ x => x ≠ b

/-- No bin is asked to keep a record of standing in a place. -/
def Kind.Free (m : Kind) : Prop := IfPlaces m fun _ kept => ∀ b, ¬kept b

theorem Kind.Free.restrict (h : m.Free) (F : Place → Nat → Prop) : (m.restrict F).Free := by cases m <;> exact h

theorem IfPlaces.imp {P Q : (Place → Nat → Prop) → (Nat → Prop) → Prop} (h : IfPlaces m P)
    (f : ∀ may kept, P may kept → Q may kept) : IfPlaces m Q := by
  cases m with
  | places may kept => exact f may kept h
  | _ => trivial

theorem IfPlaces.and {P Q : (Place → Nat → Prop) → (Nat → Prop) → Prop} (h : IfPlaces m P) (g : IfPlaces m Q) :
    IfPlaces m fun may kept => P may kept ∧ Q may kept := by
  cases m with
  | places may kept => exact ⟨h, g⟩
  | _ => trivial

namespace Holds

/-- What the places of bins give, where the invariant speaks of them. -/
theorem ifPlaces (h : Holds m e y) {P : (Place → Nat → Prop) → (Nat → Prop) → Prop}
    (f : ∀ may kept, Tables e y → Placed may kept e y → P may kept) : IfPlaces m P := by
  cases m with
  | places may kept => exact f may kept h.tables h.placed
  | _ => trivial

theorem restrict (h : Holds m e y) {F : Place → Nat → Prop} (hF : IfPlaces m fun _ _ => ∀ p b, At b p y → F p b) :
    Holds (m.restrict F) e y := by
  cases m with
  | places may kept =>
    have hp := h.placed
    exact ⟨h.journal, h.tables, ⟨hp.delivery, hp.returns, hp.one, hp.there, hp.noCell, hp.stored, hp.within,
      fun b p hb => ⟨hp.allowed b p hb, hF p b hb⟩⟩⟩
  | _ => exact h

theorem mono (F : Place → Nat → Prop) (h : Holds (m.restrict F) e y) : Holds m e y := by
  cases m with
  | places may kept =>
    have hp := h.placed
    exact ⟨h.journal, h.tables, ⟨hp.delivery, hp.returns, hp.one, hp.there, hp.noCell, hp.stored, hp.within,
      fun b p hb => (hp.allowed b p hb).1⟩⟩
  | _ => exact h

/-- Where a restriction holds, it holds of every bin in a place. -/
theorem restricted {F : Place → Nat → Prop} (h : Holds (m.restrict F) e y) :
    IfPlaces m fun _ _ => ∀ p b, At b p y → F p b := by
  cases m with
  | places may kept => exact fun p b hb => (h.placed.allowed b p hb).2
  | _ => trivial

theorem keep (h : Holds m e y) {K : Nat → Prop}
    (hK : IfPlaces m fun _ _ => ∀ b, K b → ∃ r, getBin b y = some r ∧ inPlace r = true) : Holds (m.keep K) e y := by
  cases m with
  | places may kept =>
    have hp := h.placed
    refine ⟨h.journal, h.tables, ⟨hp.delivery, hp.returns, hp.one, fun b hb => ?_, hp.noCell, hp.stored, hp.within, hp.allowed⟩⟩
    rcases hb with (hb | hb) | hb
    · exact hp.there b (.inl hb)
    · exact hK b hb
    · exact hp.there b (.inr hb)
  | _ => exact h

theorem unkeep (K : Nat → Prop) (h : Holds (m.keep K) e y) : Holds m e y := by
  cases m with
  | places may kept =>
    have hp := h.placed
    exact ⟨h.journal, h.tables, ⟨hp.delivery, hp.returns, hp.one, fun b hb => hp.there b (hb.imp_left .inl), hp.noCell,
      hp.stored, hp.within, hp.allowed⟩⟩
  | _ => exact h

/-- A bin kept has a record that says it stands in a place. -/
theorem keptRecord {K : Nat → Prop} (h : Holds (m.keep K) e y) :
    IfPlaces m fun _ _ => ∀ b, K b → ∃ r, getBin b y = some r ∧ inPlace r = true := by
  cases m with
  | places may kept => exact fun b hb => h.placed.there b (.inl (.inr hb))
  | _ => trivial

/-! ## Out of a place -/

/-- Bins leave places, and stand then in fewer. -/
theorem leave (h : Holds m e y) (hl : Light e y z) {F : Place → Nat → Prop} (hF : ∀ p b, At b p z → F p b)
    (hj : z.journal = y.journal := by rfl) : Holds (m.restrict F) e z :=
  (h.light hl hj).restrict (by cases m with | places => exact hF | _ => trivial)

/-- A bin leaves the one place where it stood, and stands nowhere. -/
theorem vacate (h : Holds m e y) (hl : Light e y z) {b : Nat} {p : Place} (hat : At b p y) (hgone : ¬At b p z)
    (hj : z.journal = y.journal := by rfl) : Holds (m.without b) e z :=
  (h.light hl hj).restrict (h.ifPlaces fun _ _ _ hp q x hx hxb => by
    subst hxb
    have := hp.one x q p (hl.places x q hx) hat
    exact hgone (this ▸ hx))

/-! ## Into a place -/

/-- A bin that stands nowhere comes to a place where it may stand. -/
theorem comes {b : Nat} {p : Place} (h : Holds ((m.without b).keep (· = b)) e y) (hl : Joins b p e y z)
    (hmay : IfPlaces m fun may _ => may p b) (hj : z.journal = y.journal := by rfl) : Holds m e z := by
  have h0 : Holds m e y := mono _ (unkeep _ h)
  refine h0.joins hl ?_ hj
  cases m with
  | places may kept =>
    exact ⟨fun q hq => (h.placed.allowed b q hq).2 rfl, h.placed.there b (.inl (.inr rfl)), hmay⟩
  | _ => trivial

/-! ## Into no place, and into a cell -/

/-- No Occupied cell is recorded with a bin whose record says that it stands in a place. -/
theorem free_of_inPlace {may : Place → Nat → Prop} {kept : Nat → Prop} (h : Placed may kept e y) {b : Nat}
    (hr : ∃ r, getBin b y = some r ∧ inPlace r = true) (k : Nat) : kget y.cells k ≠ some (.occupied b) := by
  obtain ⟨r, hr, hin⟩ := hr
  refine not_occupied h hr ?_ k
  rintro hst
  simp [inPlace, hst] at hin

/-- A bin that stands nowhere and in no cell becomes Unverified. -/
theorem lost (hf : m.Free) {b : Nat} (h : Holds (m.without b) e y) (cell : Option CellAddr)
    (hfree : IfPlaces m fun _ _ => ∀ k, kget y.cells k ≠ some (.occupied b)) :
    Holds (m.without b) e (Machine.binLost b cell y) := by
  refine h.binLost ?_
  cases m with
  | places may kept => exact ⟨hf b, fun p hp => (h.placed.allowed b p hp).2 rfl, hfree⟩
  | _ => trivial

/-- A bin whose record does not say that it stands in a place stands in none. -/
theorem nowhere_of_record {may : Place → Nat → Prop} {kept : Nat → Prop} (h : Placed may kept e y) {b : Nat}
    (hr : ∀ r, getBin b y = some r → inPlace r = false) : ¬kept b ∧ ∀ p, ¬At b p y := by
  have : ¬(kept b ∨ ∃ p, At b p y) := fun hb => by
    obtain ⟨r, hr', hin⟩ := h.there b hb
    rw [hr r hr'] at hin
    cases hin
  exact ⟨fun hk => this (.inl hk), fun p hp => this (.inr ⟨p, hp⟩)⟩

/-- A bin recorded in no place becomes Unverified, where no Occupied cell names it. -/
theorem lostRecord (h : Holds m e y) (b : Nat) (cell : Option CellAddr)
    (hr : IfPlaces m fun _ _ => ∀ r, getBin b y = some r → inPlace r = false)
    (hfree : IfPlaces m fun _ _ => ∀ k, kget y.cells k ≠ some (.occupied b)) : Holds m e (Machine.binLost b cell y) := by
  refine h.binLost ?_
  cases m with
  | places may kept =>
    obtain ⟨hk, hat⟩ := nowhere_of_record h.placed hr
    exact ⟨hk, hat, hfree⟩
  | _ => trivial

/-- A bin that stands nowhere is put into a cell. -/
theorem stores {b : Nat} (h : Holds (m.without b) e y) (a : CellAddr)
    (hfree : IfPlaces m fun _ kept => ¬kept b ∧ (∃ r, getBin b y = some r) ∧ ∀ k, kget y.cells k ≠ some (.occupied b)) :
    Holds m e (Machine.binStored b a (Machine.setCell e a (.occupied b) y)) := by
  unfold Machine.binStored
  rw [modBin_setCell]
  have hs : Holds (m.without b) e (Machine.binStored b a y) := by
    refine h.binStored ?_
    cases m with
    | places may kept =>
      exact ⟨hfree.1, fun p hp => (h.placed.allowed b p hp).2 rfl, fun k hk => absurd hk (hfree.2.2 k)⟩
    | _ => trivial
  refine (mono _ hs).setCellOk ?_
  cases m with
  | places may kept =>
    intro d hd
    cases hd
    obtain ⟨-, ⟨r, hr⟩, -⟩ := hfree
    exact ⟨Machine.placed r .stored (some a) (some a.aisle) none, by
      rw [Machine.binStored, getBin_modBin_same, hr]; rfl, rfl, rfl⟩
  | _ => trivial

/-! ## All bins at once, and a cell that is read again -/

/-- Every bin's record is replaced by one that the invariant allows. -/
theorem mapBins (h : Holds m e y) (f : Nat → Bin → Bin) (hf : ∀ b r, getBin b y = some r → RecordOk m y b (f b r)) :
    Holds m e { y with bins := y.bins.map fun p => (p.1, f p.1 p.2) } := by
  have hget : ∀ b, getBin b { y with bins := y.bins.map fun p => (p.1, f p.1 p.2) } = (getBin b y).map (f b) :=
    fun b => kget_map y.bins f b
  have tables : (∀ b r, getBin b y = some r → LiveOk y b (f b r)) → Tables e y →
      Tables e { y with bins := y.bins.map fun p => (p.1, f p.1 p.2) } := fun hf ht => by
    refine ⟨ht.cells, KSorted_map _ _ (fun _ => rfl) ht.bins, ht.geometry, ht.outbox,
      ⟨ht.orders.bound, ht.orders.numbers, ht.orders.picks, fun o ho hc => ?_, fun b q hq hst => ?_⟩, ht.trays, ht.placements⟩
    · obtain ⟨r, hr, -⟩ := ht.orders.live o ho hc
      exact ⟨f o.bin r, by rw [hget, hr]; rfl, (hf _ r hr).live o ho hc rfl⟩
    · rw [hget] at hq
      obtain ⟨r, hr, rfl⟩ := Option.map_eq_some_iff.1 hq
      exact (hf b r hr).retired hst
  refine ⟨h.journal, ?_⟩
  cases m with
  | lists => exact tables hf h.yard
  | places may kept =>
    have hp := h.placed
    have hat : ∀ b p, At b p { y with bins := y.bins.map fun p => (p.1, f p.1 p.2) } ↔ At b p y :=
      fun b p => by cases p <;> rfl
    refine ⟨tables (fun b r hr => (hf b r hr).1) h.tables, hp.delivery, hp.returns, fun b p q hb hq => ?_, fun b hb => ?_,
      fun b q hq hin => ?_, fun k b hk => ?_, hp.within, fun b p hb => hp.allowed b p ((hat b p).1 hb)⟩
    · exact hp.one b p q ((hat b p).1 hb) ((hat b q).1 hq)
    · have hb' : kept b ∨ ∃ p, At b p y := hb.imp_right fun ⟨p, hb⟩ => ⟨p, (hat b p).1 hb⟩
      obtain ⟨r, hr, -⟩ := hp.there b hb'
      exact ⟨f b r, by rw [hget, hr]; rfl, (hf b r hr).2.there hb'⟩
    · rw [hget] at hq
      obtain ⟨r, hr, rfl⟩ := Option.map_eq_some_iff.1 hq
      exact (hf b r hr).2.noCell hin
    · obtain ⟨r, -, hr, -⟩ := hp.stored k b hk
      obtain ⟨hst, a, hcell, hcode⟩ := (hf b r hr).2.stored k hk
      exact ⟨f b r, a, by rw [hget, hr]; rfl, hst, hcell, hcode⟩
  | numbers =>
    intro b q hq
    rw [hget] at hq
    obtain ⟨r, hr, rfl⟩ := Option.map_eq_some_iff.1 hq
    exact hf b r hr
  | sessions => exact ⟨h.yard.timeout, h.yard.rest⟩

/-- The cell is left out of the map while it is read again. -/
theorem unlist (h : Holds m e y) (a : CellAddr) : Holds m e (Machine.putCell a .empty y) :=
  h.withCells (.of (KSorted_putCell a .empty y)) fun may kept hm k c hk => by
    subst hm
    by_cases hka : k = cellCode a
    · subst hka
      rw [show kget _ _ = none from kget_kdel_same _ _ h.tables.cells] at hk
      cases hk
    · exact .inl ((kget_kdel_other _ _ _ hka).symm.trans hk)

/-- A listed cell of the geometry takes a content that is right for it, whatever it was recorded as before. -/
theorem setCellOver {a : CellAddr} {c : Cell} (h : Holds m e (Machine.putCell a .empty y)) (hs : IfLists m (KSorted y.cells))
    (hne : Machine.getCell e a y ≠ .absent)
    (hc : IfPlaces m fun _ _ => ∀ b, c = .occupied b → ∃ r, getBin b y = some r ∧ r.st = .stored ∧ r.cell = some a) :
    Holds m e (Machine.setCell e a c y) := by
  have hin : inGeometry e.cfg.geometry a = true := inGeometry_of_getCell_ne_absent hne
  have hlisted : ∀ l : List (Nat × Cell), IfLists m (KSorted l) → (IfPlaces m fun _ _ => ∀ k x, kget l k = some x →
      (k ≠ cellCode a ∧ kget y.cells k = some x) ∨ (k = cellCode a ∧ x = c)) → Holds m e { y with cells := l } := by
    intro l hl hk
    refine h.withCells (l := l) (hl.map fun hl _ => hl) ?_
    rintro may kept rfl k x hkx
    rcases hk k x hkx with ⟨hka, hk⟩ | ⟨hka, rfl⟩
    · exact .inl ((kget_kdel_other _ _ _ hka).trans hk)
    · right
      obtain ⟨h1, h2, h3⟩ := keyFits_of_in h.tables.geometry hin
      have hcode : cellOfCode k = some a := hka ▸ cellOfCode_cellCode a h1 h2 h3
      refine ⟨⟨a, hcode, hin⟩, fun b hb => ?_⟩
      obtain ⟨r, hr, hst, hcell⟩ := hc b hb
      exact ⟨r, a, hr, hst, hcell, hcode⟩
  unfold Machine.setCell
  extract_lets old z
  have hz : Holds m e z := hlisted _ (hs.map (KSorted_putCell a c y)) <| by
    cases m with
    | places => exact fun k x hk => kget_putCell hs hk
    | _ => trivial
  split
  next hold =>
    refine hlisted y.cells hs ?_
    cases m with
    | places =>
      intro k x hk
      by_cases hka : k = cellCode a
      · refine .inr ⟨hka, ?_⟩
        have : old = x := by simp only [old, Machine.getCell, hin, if_true, ← hka, hk, Option.getD_some]
        exact this ▸ hold.resolve_left hne
      · exact .inl ⟨hka, hk⟩
    | _ => trivial
  next =>
    split
    · exact hz
    · exact hz.modJournal fun hj => hj.change _ (h.keyOk_cell hin)

end Holds
end Sys2Proof.Machine
end

