-- ==== Sys2Proof/Proofs/LineMoves.lean ====
section
/-! PROOF. A bin comes to a place, and the lines' transfers carry one from place to place (chapter 5). -/

namespace Sys2Proof.Machine

open Sys2Proof

-- Default arguments given by tactics wait for the kernel: one theorem at a time, so that few wait at once.
set_option Elab.async false

variable {m : Kind} {e : Env} {y z : Yard}

/-! ## Arrivals -/

/-- A bin's record has a change of its own beside any other that leaves the bin table alone. -/
theorem modBin_comm (b : Nat) (f : Bin → Bin) (g : Yard → Yard) (y : Yard) (hb : (g y).bins = y.bins := by rfl)
    (hg : ∀ l, g { y with bins := l } = { g y with bins := l } := by exact fun _ => rfl) :
    modBin b f (g y) = g (modBin b f y) := by
  unfold modBin getBin
  rw [hb]
  split
  next r _ => exact ((hg _).trans (by rw [← hb]; rfl)).symm
  · rfl

theorem modStation_modStation (st : Station) (f g : StationRec → StationRec) (y : Yard) :
    modStation st f (modStation st g y) = modStation st (fun r => f (g r)) y := by
  simp [modStation, Vector.set_set]

/-- Every place is open to every bin, and no bin is asked to keep a record. -/
def Kind.Whole (m : Kind) : Prop := IfPlaces m fun may kept => (∀ p b, may p b) ∧ ∀ b, ¬kept b

theorem Kind.Whole.free (h : m.Whole) : m.Free := h.imp fun _ _ h => h.2
theorem Kind.Whole.may (h : m.Whole) (p : Place) (b : Nat) : IfPlaces m fun may _ => may p b := h.imp fun _ _ h => h.1 p b

/-- A bin may move: it has a record, and no Occupied cell is recorded with it. -/
abbrev Movable (m : Kind) (b : Nat) (y : Yard) : Prop :=
  IfPlaces m fun _ _ => (∃ r, getBin b y = some r) ∧ ∀ k, kget y.cells k ≠ some (.occupied b)

theorem Joins.toFork {a : Aisle} {b : Nat} : Joins b (.fork a) e y (modCarrier a (fun c => { c with load := some b }) y) where
  places x q hq := by
    cases q with
    | fork a' =>
      rw [at_fork] at hq ⊢
      simp only [modCarrier, vset_get] at hq
      split at hq
      next h => exact .inr ⟨(Option.some.inj hq).symm, h ▸ rfl⟩
      next => exact .inl hq
    | _ => exact .inl hq

theorem Joins.toDelivery {p : DeliveryPlace} {b : Nat} (hb : p.bin = b := by rfl) :
    Joins b .delivery e y (modLines (fun l => { l with delivery := l.delivery ++ [p] }) y) where
  delivery := .inr ⟨rfl, by simp [modLines, hb]⟩
  places x q hq := by
    cases q with
    | delivery =>
      rw [at_delivery] at hq ⊢
      simp only [modLines, List.map_append, List.mem_append, List.map_cons, List.map_nil, List.mem_singleton] at hq
      exact hq.imp_right fun h => ⟨h.trans hb, rfl⟩
    | _ => exact .inl hq

theorem Joins.toRet {p : ReturnPlace} {b : Nat} (hb : p.bin = b := by rfl) :
    Joins b .ret e y (modLines (fun l => { l with returns := l.returns ++ [p] }) y) where
  returns := .inr ⟨rfl, by simp [modLines, hb]⟩
  places x q hq := by
    cases q with
    | ret =>
      rw [at_ret] at hq ⊢
      simp only [modLines, List.map_append, List.mem_append, List.map_cons, List.map_nil, List.mem_singleton] at hq
      exact hq.imp_right fun h => ⟨h.trans hb, rfl⟩
    | _ => exact .inl hq

theorem Joins.toInbound {a : Aisle} {b : Nat} :
    Joins b (.inbound a) e y (modLines (fun l => { l with inbound := l.inbound.set a (some b) }) y) where
  places x q hq := by
    cases q with
    | inbound a' =>
      rw [at_inbound] at hq ⊢
      simp only [modLines, vset_get] at hq
      split at hq
      next h => exact .inr ⟨(Option.some.inj hq).symm, h ▸ rfl⟩
      next => exact .inl hq
    | _ => exact .inl hq

theorem Joins.toNext {st : Station} {p : PlaceBin} {b : Nat} (hb : p.bin = b := by rfl) :
    Joins b (.next st) e y (modStation st (fun r => { r with next := some p }) y) where
  sessions st' x hx := by
    simp only [modStation, vset_get] at hx
    split at hx
    next h => exact h ▸ .same hx
    next => exact .same hx
  places x q hq := by
    cases q with
    | next st' =>
      rw [at_next] at hq ⊢
      simp only [modStation, vset_get] at hq
      split at hq
      next h => exact .inr ⟨(Option.some.inj hq).symm.trans hb, h ▸ rfl⟩
      next => exact .inl hq
    | present st' =>
      rw [at_present] at hq ⊢
      simp only [modStation, vset_get] at hq
      split at hq
      next h => exact .inl (h ▸ hq)
      next => exact .inl hq
    | _ => exact .inl hq

theorem Joins.toPresent {st : Station} {p : PlaceBin} {b : Nat} (hb : p.bin = b := by rfl) :
    Joins b (.present st) e y (modStation st (fun r => { r with present := some p }) y) where
  sessions st' x hx := by
    simp only [modStation, vset_get] at hx
    split at hx
    next h => exact h ▸ .same hx
    next => exact .same hx
  places x q hq := by
    cases q with
    | present st' =>
      rw [at_present] at hq ⊢
      simp only [modStation, vset_get] at hq
      split at hq
      next h => exact .inr ⟨(Option.some.inj hq).symm.trans hb, h ▸ rfl⟩
      next => exact .inl hq
    | next st' =>
      rw [at_next] at hq ⊢
      simp only [modStation, vset_get] at hq
      split at hq
      next h => exact .inl (h ▸ hq)
      next => exact .inl hq
    | _ => exact .inl hq

namespace Holds

/-- A bin that stands nowhere has its record say where it goes. -/
theorem departs {b : Nat} (h : Holds (m.without b) e y) (hm : Movable m b y) {st : BinSt} {aisle : Option Aisle}
    {station : Option Station} (hst : ∀ r, inPlace (Machine.placed r st none aisle station) = true) :
    Holds ((m.without b).keep (· = b)) e (Machine.modBin b (fun r => Machine.placed r st none aisle station) y) := by
  refine Holds.keep ?_ ?_
  · refine h.modBinInPlace hst ?_
    cases m with
    | places => exact hm.2
    | _ => trivial
  · cases m with
    | places =>
      rintro d rfl
      obtain ⟨r, hr⟩ := hm.1
      exact ⟨_, by rw [getBin_modBin_same, hr]; rfl, hst r⟩
    | _ => trivial

/-- A bin that stands nowhere comes to a place, and its record says so. -/
theorem arrives {b : Nat} {p : Place} (h : Holds (m.without b) e y) (hm : Movable m b y)
    (hmay : IfPlaces m fun may _ => may p b) {st : BinSt} {aisle : Option Aisle} {station : Option Station}
    (hst : ∀ r, inPlace (Machine.placed r st none aisle station) = true)
    (hl : Joins b p e (Machine.modBin b (fun r => Machine.placed r st none aisle station) y) z)
    (hj : z.journal = (Machine.modBin b (fun r => Machine.placed r st none aisle station) y).journal := by rfl) :
    Holds m e z := (h.departs hm hst).comes hl hmay hj

/-- A bin in a place can be moved. -/
theorem movable (h : Holds m e y) {b : Nat} {p : Place} (hat : At b p y) : Movable m b y :=
  h.ifPlaces fun _ _ _ hp => by
    obtain ⟨r, hr, hin⟩ := hp.there b (.inr ⟨p, hat⟩)
    exact ⟨⟨r, hr⟩, free_of_inPlace hp ⟨r, hr, hin⟩⟩

end Holds

theorem Movable.same {b : Nat} (h : Movable m b y) (hb : z.bins = y.bins := by rfl) (hc : z.cells = y.cells := by rfl) :
    Movable m b z := by
  refine h.imp fun _ _ h => ?_
  rw [getBin_congr hb, hc]
  exact h

/-! ## Transfers (R93, R94) -/

namespace Holds

theorem beginTransfer (h : Holds m e y) (l : LineId) (k : TransferKind) (b : Nat) : Holds m e (beginTransfer l k b y) :=
  (h.modLine l _).send _

theorem endTransfer (h : Holds m e y) (l : LineId) (no : Nat) : Holds m e (endTransfer l no y) := h.modLine l _

theorem cutTransfer (h : Holds m e y) (t : Transfer) : Holds m e (cutTransfer t y) := by
  unfold Machine.cutTransfer
  split
  · split
    · split
      · exact h.modLines
      · exact h
    · exact h
  · exact h

theorem cutTransfers (h : Holds m e y) (l : LineId) : Holds m e (cutTransfers l y) :=
  (h.modLine l _).foldl _ fun _ t _ h => h.cutTransfer t

theorem lineFaulted (h : Holds m e y) (l : LineId) (f : LineFault) : Holds m e (lineFaulted l f y) :=
  ((h.modLine l _).send _).cutTransfers l

theorem lineHalted (h : Holds m e y) (l : LineId) : Holds m e (lineHalted l y) := (h.modLine l _).cutTransfers l

theorem freshen (h : Holds m e y) (st : Station) (p : StPlace) (v : Option Nat) : Holds m e (freshen st p v y) := h.modLine .delivery _

/-! ## Delivery line (R96, R97) -/

theorem diversionTest (h : Holds m e y) : Holds m e (diversionTest e y) := by
  unfold Machine.diversionTest
  split
  · exact h
  · split
    · exact h.beginTransfer _ _ _
    · exact h

theorem advanceTest (h : Holds m e y) (st : Station) : Holds m e (advanceTest e st y) := by
  unfold Machine.advanceTest
  split
  · exact h
  · split
    · exact h.beginTransfer _ _ _
    · exact h

theorem diversionDone (h : Holds m e y) (hw : m.Whole) (st : Station) (t : Transfer) : Holds m e (diversionDone st t y) := by
  unfold Machine.diversionDone
  extract_lets w v
  have hw' : Holds m e w := h.endTransfer _ _
  clear_value w
  split
  · exact hw'
  next p hp =>
    split
    · exact hw'
    · have hpb : p.bin = t.bin := by simpa using List.find?_some hp
      have hat : At t.bin .delivery w := at_delivery.2 (hpb ▸ List.mem_map_of_mem (List.mem_of_find?_eq_some hp))
      have hv : Holds (m.without t.bin) e v := hw'.vacate (.modLines (hd := List.filter_sublist)) hat <| by
        rw [at_delivery]
        simp only [Machine.modLines, List.mem_map, List.mem_filter, decide_eq_true_eq, not_exists, not_and, and_imp]
        exact fun x _ hx hxb => hx hxb
      rw [modBin_comm t.bin _ (Machine.modStation st fun r => { r with next := some ⟨t.bin, p.source⟩ }) v]
      exact hv.arrives (hw'.movable hat).same (hw.may (.next st) _) (fun _ => rfl) (.toNext (p := ⟨t.bin, p.source⟩))

/-- A station's Next bin is its Present one. -/
theorem advanced (h : Holds m e y) (hw : m.Whole) (st : Station) :
    Holds m e (Machine.modStation st (fun r => { r with next := none, present := r.next }) y) := by
  rcases hn : y.stations[st].next with _ | p
  · refine h.light (.modStation (fun x hx => .same hx) (fun _ h => by cases h) fun b hb => ?_)
    dsimp only at hb
    rw [hn] at hb
    cases hb
  · have hat : At p.bin (.next st) y := at_next.2 (by rw [hn]; rfl)
    have hv : Holds (m.without p.bin) e (Machine.modStation st (fun r => { r with next := none }) y) :=
      h.vacate (.modStation (fun x hx => .same hx) (fun _ h => by cases h) fun _ h => h) hat (by
        rw [at_next]; simp only [Machine.modStation, vset_get, if_true, Option.map_none]; simp)
    have hrec : IfPlaces m fun _ _ => ∃ r, getBin p.bin y = some r ∧ inPlace r = true :=
      h.ifPlaces fun _ _ _ hp => hp.there _ (.inr ⟨_, hat⟩)
    have hk : Holds ((m.without p.bin).keep (· = p.bin)) e (Machine.modStation st (fun r => { r with next := none }) y) :=
      hv.keep (by cases m with | places => exact fun b hb => hb ▸ hrec | _ => trivial)
    have := hk.comes (Joins.toPresent (st := st) (p := p)) (hw.may _ _)
    rw [modStation_modStation] at this
    have heq : Machine.modStation st (fun r => { r with next := none, present := r.next }) y
        = Machine.modStation st (fun r => { r with next := none, present := some p }) y := by
      unfold Machine.modStation; dsimp only; rw [hn]
    rw [heq]
    exact this

theorem advanceDone (h : Holds m e y) (hw : m.Whole) (st : Station) (t : Transfer) : Holds m e (advanceDone e st t y) := by
  unfold Machine.advanceDone
  extract_lets w
  have hw' : Holds m e w := h.endTransfer _ _
  split
  · exact (hw'.advanced hw st).openSession st
  · exact hw'

/-! ## Return line (R98 to R101) -/

theorem joinReturn {b : Nat} (h : Holds (m.without b) e y) (hm : Movable m b y)
    (hmay : IfPlaces m fun may _ => may .ret b) (source : Option Aisle) : Holds m e (joinReturn e b source y) := by
  unfold Machine.joinReturn
  extract_lets a
  rw [modBin_comm b _ (Machine.modLines fun l => { l with returns := l.returns ++ [⟨b, a⟩] }) y]
  exact h.arrives hm hmay (fun _ => rfl) (.toRet (p := ⟨b, a⟩))

theorem releaseTest (h : Holds m e y) : Holds m e (releaseTest e y) := by
  unfold Machine.releaseTest
  split
  · exact h
  · split
    · exact h
    · split
      · exact (h.leaveRelease _).beginTransfer _ _ _
      · exact h

theorem releaseDone (h : Holds m e y) (hw : m.Whole) (st : Station) (t : Transfer) : Holds m e (releaseDone e st t y) := by
  unfold Machine.releaseDone
  extract_lets w
  have hw' : Holds m e w := h.endTransfer _ _
  clear_value w
  split
  next hc =>
    have hat : At t.bin (.present st) w := by
      rw [at_present]
      unfold Machine.holds at hc
      split at hc
      next q hq => rw [hq]; simpa using hc
      next => cases hc
    have hv : Holds (m.without t.bin) e (Machine.modStation st (fun r => { r with present := none }) w) :=
      hw'.vacate (.modStation (fun x hx => .same hx) (fun _ h => h) fun _ h => by cases h) hat (by
        rw [at_present]; simp only [Machine.modStation, vset_get, if_true, Option.map_none]; simp)
    exact (((hv.joinReturn (hw'.movable hat).same (hw.may _ _) _).closeSession st).showStation st).freshen _ _ _
  · split
    next r hr =>
      split
      next hst =>
        have hno : IfPlaces m fun _ _ => ∀ p x, At x p w → x ≠ t.bin := hw'.ifPlaces fun _ _ _ hp p x hx hxb => by
          refine (nowhere_of_record hp (b := t.bin) fun q hq => ?_).2 p (hxb ▸ hx)
          rw [hr] at hq; cases hq; simp [inPlace, hst]
        refine (hw'.restrict hno).joinReturn (hw'.ifPlaces fun _ _ _ hp => ⟨⟨r, hr⟩, ?_⟩) (hw.may _ _) none
        exact not_occupied hp hr (by simp [hst])
      · exact hw'
    · exact hw'

theorem reassignHead (h : Holds m e y) (a : Aisle) : Holds m e (reassignHead a y) := by
  unfold Machine.reassignHead
  split
  · exact h
  next p t hpt =>
    refine Holds.modBinValues (h.light { places := fun x q hq => ?_, returns := ?_ }) p.bin (fun r => { r with aisle := some a })
      (fun _ => rfl) (fun _ => rfl) fun _ => rfl
    · cases q with
      | ret =>
        rw [at_ret] at hq ⊢
        rw [hpt]
        exact hq
      | _ => exact hq
    · simp [Machine.modLines, hpt]

theorem headTest (h : Holds m e y) : Holds m e (headTest e y) := by
  unfold Machine.headTest
  split
  · split
    · exact h.modLines
    · exact h
  · split
    · exact h
    · split
      · exact h.modLines
      · split
        · exact h.reassignHead _
        · split
          · exact h
          · exact h.modLines.notify _ _

theorem inboundTest (h : Holds m e y) : Holds m e (inboundTest e y) := by
  unfold Machine.inboundTest
  split
  · exact h
  · split
    · exact h.beginTransfer _ _ _
    · exact h

theorem inboundDone (h : Holds m e y) (hw : m.Whole) (a : Aisle) (t : Transfer) : Holds m e (inboundDone a t y) := by
  unfold Machine.inboundDone
  extract_lets w
  have hw' : Holds m e w := h.endTransfer _ _
  clear_value w
  split
  next hc =>
    simp only [Bool.and_eq_true, List.any_eq_true, decide_eq_true_eq] at hc
    obtain ⟨⟨p, hp, hpb⟩, -⟩ := hc
    have hat : At t.bin .ret w := at_ret.2 (hpb ▸ List.mem_map_of_mem hp)
    have hv : Holds (m.without t.bin) e (Machine.modLines (fun l => { l with returns := l.returns.filter fun p => p.bin ≠ t.bin }) w) :=
      hw'.vacate (.modLines (hr := List.filter_sublist)) hat <| by
        rw [at_ret]
        simp only [Machine.modLines, List.mem_map, List.mem_filter, decide_eq_true_eq, not_exists, not_and, and_imp]
        exact fun x _ hx hxb => hx hxb
    rw [modBin_comm t.bin _ (Machine.modLines fun l => { l with
        returns := l.returns.filter (fun p => p.bin ≠ t.bin), inbound := l.inbound.set a (some t.bin) }) w]
    have := hv.arrives (z := Machine.modLines (fun l => { l with inbound := l.inbound.set a (some t.bin) })
        (Machine.modBin t.bin (fun r => Machine.placed r .inbound none (some a) none)
          (Machine.modLines (fun l => { l with returns := l.returns.filter fun p => p.bin ≠ t.bin }) w)))
      (hw'.movable hat).same (hw.may (.inbound a) _) (fun _ => rfl) .toInbound
    rw [modBin_comm t.bin _ (Machine.modLines fun l => { l with returns := l.returns.filter fun p => p.bin ≠ t.bin }) w] at this
    exact this
  · exact hw'

theorem lineTests (h : Holds m e y) : Holds m e (lineTests e y) :=
  ((((h.foldl _ fun _ st _ h => h.advanceTest st).diversionTest).releaseTest).headTest).inboundTest

end Holds
end Sys2Proof.Machine
end

