-- ==== Sys2Proof/Proofs/InHand.lean ====
section
/-! PROOF. A bin that has left its place and not yet come to another, and the reports that take bins up and put them
down (R25, R66, R85, R102, R103). -/

namespace Sys2Proof.Machine

open Sys2Proof

-- Default arguments given by tactics wait for the kernel: one theorem at a time, so that few wait at once.
set_option Elab.async false

variable {m : Kind} {e : Env} {y z : Yard}

/-! ## A bin in hand -/

/-- A bin stands at one place at most, and its record says that it stands in a place. -/
def Kind.onlyAt (m : Kind) (b : Nat) (p : Place) : Kind := (m.restrict fun q x => x = b → q = p).keep (· = b)

/-- A bin stands nowhere, while its record says that it stands in a place. -/
abbrev Kind.inHand (m : Kind) (b : Nat) : Kind := (m.without b).keep (· = b)

namespace Holds

/-- A restriction gives way to another that holds as well. -/
theorem tighten {F G : Place → Nat → Prop} (h : Holds (m.restrict F) e y)
    (hG : IfPlaces m fun _ _ => ∀ p b, At b p y → F p b → G p b) : Holds (m.restrict G) e y := by
  cases m with
  | places may kept => exact (mono F h).restrict fun p b hb => hG p b hb (h.restricted p b hb)
  | _ => exact h

/-- A change of the yard that moves no bin, where the invariant speaks of places. -/
theorem still (h : Holds m e y) (hs : Still e y z) (hp : IfPlaces m fun _ _ => (∀ b p, At b p z → At b p y)
      ∧ (z.lines.delivery.map (·.bin)).Sublist (y.lines.delivery.map (·.bin))
      ∧ (z.lines.returns.map (·.bin)).Sublist (y.lines.returns.map (·.bin)))
    (hj : z.journal = y.journal := by rfl) : Holds m e z := by
  refine ⟨hj ▸ h.journal, ?_⟩
  cases m with
  | lists => exact Tables.still h.yard hs
  | places => exact h.yard.light { toStill := hs, places := hp.1, delivery := hp.2.1, returns := hp.2.2 }
  | numbers => exact fun b r hr => h.yard b r (getBin_congr hs.bins b ▸ hr)
  | sessions => exact Timed.still h.yard hs

theorem only (h : Holds m e y) {b : Nat} {p : Place} (hat : At b p y) : Holds (m.onlyAt b p) e y := by
  have hone : Holds (m.restrict fun q x => x = b → q = p) e y :=
    h.restrict (h.ifPlaces fun _ _ _ hp q x hx hxb => hp.one b q p (hxb ▸ hx) hat)
  refine hone.keep ?_
  cases m with
  | places may kept => exact fun d hd => hd ▸ h.placed.there b (.inr ⟨p, hat⟩)
  | _ => trivial

/-- The bin has gone from the only place where it may be. -/
theorem gone {b : Nat} {p : Place} (h : Holds (m.onlyAt b p) e y) (hgone : ¬At b p y) : Holds (m.inHand b) e y := by
  have hr := h.keptRecord
  refine ((unkeep _ h).tighten ?_).keep ?_
  · cases m with
    | places => exact fun q x hx hq hxb => hgone (hq hxb ▸ hxb ▸ hx)
    | _ => trivial
  · cases m with
    | places => exact hr
    | _ => trivial

/-- A bin is taken up from the place where it stands. -/
theorem pickUp (h : Holds m e y) {b : Nat} {p : Place} (hat : At b p y) (hl : Light e y z) (hgone : ¬At b p z)
    (hj : z.journal = y.journal := by rfl) : Holds (m.inHand b) e z := ((h.only hat).light hl hj).gone hgone

theorem handRecord {b : Nat} (h : Holds (m.inHand b) e y) :
    IfPlaces m fun _ _ => ∃ r, getBin b y = some r ∧ inPlace r = true := by
  have hr := h.keptRecord
  cases m with
  | places => exact hr b rfl
  | _ => trivial

theorem handFree {b : Nat} (h : Holds (m.inHand b) e y) : IfPlaces m fun _ _ => ∀ k, kget y.cells k ≠ some (.occupied b) := by
  have hr := h.handRecord
  cases m with
  | places => exact free_of_inPlace h.placed hr
  | _ => trivial

theorem handNowhere {b : Nat} (h : Holds (m.inHand b) e y) : IfPlaces m fun _ _ => ∀ p, ¬At b p y := by
  cases m with
  | places => exact fun p hp => (h.placed.allowed b p hp).2 rfl
  | _ => trivial

theorem handMovable {b : Nat} (h : Holds (m.inHand b) e y) : Movable m b y := by
  have hr := h.handRecord
  have hfree := h.handFree
  cases m with
  | places =>
    obtain ⟨r, hr, -⟩ := hr
    exact ⟨⟨r, hr⟩, hfree⟩
  | _ => trivial

/-- A bin in hand is lost. -/
theorem handLost {b : Nat} (h : Holds (m.inHand b) e y) (hf : m.Free) (cell : Option CellAddr) :
    Holds m e (Machine.binLost b cell y) := mono _ (lost hf (unkeep _ h) cell h.handFree)

/-- A bin in hand is put into a cell. -/
theorem handStored {b : Nat} (h : Holds (m.inHand b) e y) (hf : m.Free) (a : CellAddr) :
    Holds m e (Machine.binStored b a (Machine.setCell e a (.occupied b) y)) := by
  refine stores (unkeep _ h) a ?_
  have hm := h.handMovable
  cases m with
  | places => exact ⟨hf b, hm⟩
  | _ => trivial

/-- A bin in hand is put down in another place. -/
theorem putDown {b : Nat} {p : Place} (h : Holds (m.inHand b) e y) (hmay : IfPlaces m fun may _ => may p b) {st : BinSt}
    {aisle : Option Aisle} {station : Option Station} (hst : ∀ r, inPlace (Machine.placed r st none aisle station) = true)
    (hl : Joins b p e (Machine.modBin b (fun r => Machine.placed r st none aisle station) y) z)
    (hj : z.journal = (Machine.modBin b (fun r => Machine.placed r st none aisle station) y).journal := by rfl) :
    Holds m e z := (unkeep _ h).arrives h.handMovable hmay hst hl hj

end Holds

/-! ## Cells that are left -/

theorem cellCode_of_cellOfCode {n : Nat} {a : CellAddr} (h : cellOfCode n = some a) : cellCode a = n := by
  unfold cellOfCode at h
  split at h
  next hn =>
    obtain ⟨x, hx, rfl⟩ := Option.map_eq_some_iff.1 h
    unfold aisleOf at hx
    split at hx
    next hr =>
      cases hx
      simp only [cellCode, aisleNo, Nat.add_sub_cancel]
      have key : ∀ d s : Nat, d = n % 2 → s = 2048 * (n / 2048 % 2) →
          d + 2 * (n / 2 % 16) + 32 * (n / 32 % 64) + s + 4096 * (n / 4096 - 1 + 1) = n := by omega
      refine key _ _ ?_ ?_
      · split
        next heq => split at heq <;> simp_all
        next heq => split at heq <;> simp_all
      · split
        next heq => split at heq <;> simp_all
        next heq => split at heq <;> simp_all
    next => cases hx
  · cases h

/-- A cell after a change of one: what it was, or the new content. -/
theorem kget_setCell {a : CellAddr} {c : Cell} (hs : KSorted y.cells) {k : Nat} {x : Cell}
    (hk : kget (setCell e a c y).cells k = some x) :
    (k ≠ cellCode a ∧ kget y.cells k = some x) ∨ (k = cellCode a ∧ (x = c ∨ getCell e a y = .absent ∧ kget y.cells k = some x)) := by
  have hcells : (setCell e a c y).cells = y.cells ∧ (getCell e a y = .absent ∨ getCell e a y = c)
      ∨ (setCell e a c y).cells = (putCell a c y).cells := by
    unfold setCell
    dsimp only
    split
    next h => exact .inl ⟨rfl, h⟩
    · split <;> exact .inr rfl
  rcases hcells with ⟨hc, hold⟩ | hc
  · rw [hc] at hk
    by_cases hka : k = cellCode a
    · refine .inr ⟨hka, ?_⟩
      rcases hold with hold | hold
      · exact .inr ⟨hold, hk⟩
      · by_cases hin : inGeometry e.cfg.geometry a = true
        · left
          rw [← hold, getCell, if_pos hin, ← hka, hk]; rfl
        · exact .inr ⟨by simp [getCell, hin], hk⟩
    · exact .inl ⟨hka, hk⟩
  · rw [hc] at hk
    exact (kget_putCell hs hk).imp_right fun ⟨hka, hx⟩ => ⟨hka, .inl hx⟩

/-- The cell that has been changed is Occupied only if it was changed so. -/
theorem occupied_setCell {may : Place → Nat → Prop} {kept : Nat → Prop} (h : Holds (.places may kept) e y) {a : CellAddr}
    {c : Cell} {k b : Nat} (hk : kget (setCell e a c y).cells k = some (.occupied b)) (hka : cellOfCode k = some a) :
    c = .occupied b := by
  rcases kget_setCell h.tables.cells hk with ⟨hne, -⟩ | ⟨-, hc | ⟨habs, hk⟩⟩
  · exact absurd (cellCode_of_cellOfCode hka).symm hne
  · exact hc.symm
  · obtain ⟨a', hcode, hin⟩ := h.placed.within k _ hk
    rw [hka] at hcode
    cases hcode
    rw [getCell, if_pos hin, cellCode_of_cellOfCode hka, hk] at habs
    cases habs

theorem storedCell_of_record {b : Nat} {r : Bin} (hr : getBin b y = some r) (hst : r.st = .stored) : storedCell b y = r.cell := by
  simp [storedCell, hr, hst]

namespace Holds

theorem leaveCell (h : Holds m e y) (b : Nat) {c : Cell} (hc : ∀ d, c ≠ .occupied d) : Holds m e (leaveCell e b c y) := by
  unfold Machine.leaveCell
  split
  · exact h.setCell _ hc
  · exact h

theorem leaveCell_free (h : Holds m e y) (b : Nat) {c : Cell} (hc : ∀ d, c ≠ .occupied d) :
    IfPlaces m fun _ _ => ∀ k, kget (Machine.leaveCell e b c y).cells k ≠ some (.occupied b) := by
  have h' := h.leaveCell b hc
  cases m with
  | places =>
    intro k hk
    obtain ⟨r, a, hr, hst, hcell, hcode⟩ := h'.placed.stored k b hk
    have hr' : getBin b y = some r := by
      rw [← hr]
      unfold Machine.leaveCell
      split
      · exact (getBin_setCell b _ c y).symm
      · rfl
    unfold Machine.leaveCell at hk
    rw [storedCell_of_record hr' hst, hcell] at hk
    exact hc b (occupied_setCell h hk hcode)
  | _ => trivial

end Holds

theorem ensureBin_cells (b : Nat) (y : Yard) : (ensureBin b y).cells = y.cells := by
  have hattr : ∀ (d : Nat) (w : Yard), (attrChange d w).cells = w.cells := fun d w => by unfold attrChange; split <;> rfl
  unfold ensureBin
  split
  · exact hattr _ _
  · split
    · exact hattr _ _
    · rfl

theorem attrChange_bins (b : Nat) (y : Yard) : (attrChange b y).bins = y.bins := by unfold attrChange; split <;> rfl

theorem getBin_ensureBin (b : Nat) (y : Yard) : ∃ r, getBin b (ensureBin b y) = some r := by
  unfold ensureBin
  split
  · exact ⟨_, (getBin_congr (attrChange_bins _ _) b).trans (getBin_putBin_same _ _ _)⟩
  next r hr =>
    split
    · exact ⟨_, (getBin_congr (attrChange_bins _ _) b).trans (getBin_putBin_same _ _ _)⟩
    · exact ⟨r, hr⟩

/-! ## Reservations and retrieve tasks -/

namespace Holds

theorem releaseCell (h : Holds m e y) (a : CellAddr) : Holds m e (releaseCell e a y) := by
  unfold Machine.releaseCell
  split
  · exact h.setCell a (fun _ => by simp)
  · exact h

theorem freeCell (h : Holds m e y) (a : CellAddr) : Holds m e (freeCell e a y) := by
  unfold Machine.freeCell
  split
  · exact (h.setCell a (fun _ => by simp)).evalOrders
  · exact h

theorem releaseTask (h : Holds m e y) (a : Aisle) (t : Option Task) : Holds m e (releaseTask e a t y) := by
  unfold Machine.releaseTask
  split
  · split
    · exact h
    · exact h.releaseCell _
  · exact h

theorem tellOrder (h : Holds m e y) (t : Option Task) : Holds m e (tellOrder t y) := by
  unfold Machine.tellOrder
  split
  · exact h.untaskOrder _
  · exact h

theorem leaveMerge (h : Holds m e y) (a : Aisle) : Holds m e (leaveMerge a y) := h.modLines

theorem endGrant (h : Holds m e y) (a : Aisle) : Holds m e (endGrant a y) :=
  h.modLines (hd := fun l => by split <;> exact .refl _) (hr := fun l => by split <;> exact .refl _)
    (hi := fun l a b hb => by split at hb <;> exact hb)

end Holds

theorem freeCarrier_load (c : Carrier) : (freeCarrier c).load = c.load := by
  unfold freeCarrier
  split
  · rfl
  · rfl
  · rfl
  · split <;> rfl

namespace Holds

theorem dropRetrieve (h : Holds m e y) (no : Nat) (a : Aisle) : Holds m e (dropRetrieve e no a y) := by
  unfold Machine.dropRetrieve
  extract_lets c
  split
  · exact ((h.releaseTask a _).leaveMerge a).modCarrier a fun c b hb => by rwa [freeCarrier_load] at hb
  · split
    · exact (h.releaseTask a _).modCarrier a fun c b hb => by rwa [freeCarrier_load] at hb
    · exact h

theorem reportedOrder (h : Holds m e y) (b : Nat) : Holds m e (reportedOrder e b y) := by
  unfold Machine.reportedOrder
  split
  · exact h
  next o ho =>
    extract_lets kept w
    clear_value kept
    have hw : Holds m e w := by
      unfold w
      split
      · exact h.modOrder _
      · exact h.orderToQueue _
    exact hw.foldl _ fun _ a _ h => h.dropRetrieve _ a

/-! ## Taking a bin from where it was recorded -/

end Holds

theorem mem_stationList (st : Station) : st ∈ stationList := by revert st; decide

/-- Where a bin may still be after it has been taken from every place but those of some stations. -/
def AtStations (l : List Station) (b : Nat) (p : Place) (x : Nat) : Prop := x = b → ∃ st ∈ l, p = .next st ∨ p = .present st

theorem emptyPlace_bin {b d : Nat} {p : Option PlaceBin} (h : (emptyPlace b p).map (·.bin) = some d) :
    p.map (·.bin) = some d ∧ d ≠ b := by
  unfold emptyPlace at h
  split at h
  next q =>
    split at h
    · cases h
    next hne => cases h; exact ⟨rfl, hne⟩
  · cases h

namespace Holds

theorem takeFromStation {b : Nat} {st : Station} {l : List Station} (h : Holds (m.restrict (AtStations (st :: l) b)) e y) :
    Holds (m.restrict (AtStations l b)) e (takeFromStation e b st y) := by
  unfold Machine.takeFromStation
  extract_lets w was v
  have hw : Holds (m.restrict (AtStations (st :: l) b)) e w := by
    unfold w
    split
    · split
      · exact h.removeSession st
      · exact h
    · exact h
  clear_value w
  have hv : Holds (m.restrict (AtStations l b)) e v := by
    refine (hw.light (.modStation (fun x hx => .same hx) (fun _ h => (emptyPlace_bin h).1) fun _ h => (emptyPlace_bin h).1)).tighten ?_
    cases m with
    | places =>
      rintro p x hx hF rfl
      obtain ⟨st', hst', hp⟩ := hF rfl
      refine ⟨st', (List.mem_cons.1 hst').resolve_left ?_, hp⟩
      rintro rfl
      rcases hp with rfl | rfl
      · rw [at_next] at hx
        simp only [Machine.modStation, vset_get, if_true] at hx
        exact (emptyPlace_bin hx).2 rfl
      · rw [at_present] at hx
        simp only [Machine.modStation, vset_get, if_true] at hx
        exact (emptyPlace_bin hx).2 rfl
    | _ => trivial
  split
  · exact hv
  · exact hv.showStation st

theorem takeFromStations {b : Nat} (l : List Station) (h : Holds (m.restrict (AtStations l b)) e y) :
    Holds (m.without b) e (l.foldl (fun y st => Machine.takeFromStation e b st y) y) := by
  induction l generalizing y with
  | nil =>
    refine h.tighten ?_
    cases m with
    | places => exact fun p x _ hF hxb => by obtain ⟨st, hst, -⟩ := hF hxb; cases hst
    | _ => trivial
  | cons st l ih => exact ih h.takeFromStation

theorem takeFromPlaces (h : Holds m e y) (b : Nat) : Holds (m.without b) e (takeFromPlaces e b y) := by
  unfold Machine.takeFromPlaces
  extract_lets w v
  have hlight : Light e y v :=
    { places := fun x p hx => by
        cases p with
        | fork a =>
          rw [at_fork] at hx ⊢
          simp only [v, w, Machine.modLines, vmap_get] at hx
          split at hx
          · cases hx
          · exact hx
        | delivery => rw [at_delivery] at hx ⊢; exact (List.filter_sublist.map _).subset hx
        | ret => rw [at_ret] at hx ⊢; exact (List.filter_sublist.map _).subset hx
        | inbound a =>
          rw [at_inbound] at hx ⊢
          simp only [v, w, Machine.modLines, vmap_get] at hx
          split at hx
          · cases hx
          · exact hx
        | _ => exact hx
      delivery := List.filter_sublist.map _
      returns := List.filter_sublist.map _ }
  refine takeFromStations stationList ((h.light hlight).restrict ?_)
  cases m with
  | places =>
    rintro p x hx rfl
    cases p with
    | fork a =>
      rw [at_fork] at hx
      simp only [v, w, Machine.modLines, vmap_get] at hx
      split at hx
      · cases hx
      next hne => exact absurd hx hne
    | delivery =>
      rw [at_delivery] at hx
      obtain ⟨q, hq, hqb⟩ := List.mem_map.1 hx
      exact absurd hqb (by simpa using (List.mem_filter.1 hq).2)
    | ret =>
      rw [at_ret] at hx
      obtain ⟨q, hq, hqb⟩ := List.mem_map.1 hx
      exact absurd hqb (by simpa using (List.mem_filter.1 hq).2)
    | inbound a =>
      rw [at_inbound] at hx
      simp only [v, w, Machine.modLines, vmap_get] at hx
      split at hx
      · cases hx
      next hne => exact absurd hx hne
    | next st => exact ⟨st, mem_stationList st, .inl rfl⟩
    | present st => exact ⟨st, mem_stationList st, .inr rfl⟩
  | _ => trivial

/-- A bin that stands nowhere is lost. -/
theorem loseBin (h : Holds m e y) (b : Nat) (hno : IfPlaces m fun _ kept => ¬kept b ∧ (∀ p, ¬At b p y)
      ∧ ∀ k, kget y.cells k ≠ some (.occupied b)) : Holds m e (loseBin e b y) := (h.binLost hno).reportedOrder b

theorem handLose {b : Nat} (h : Holds (m.inHand b) e y) (hf : m.Free) : Holds m e (Machine.loseBin e b y) :=
  (h.handLost hf none).reportedOrder b

/-! ## Placing a reported bin (R25) -/

theorem noteFound (h : Holds m e y) (b : Nat) (p : Place) : Holds m e (noteFound b p y) := by
  unfold Machine.noteFound
  split
  · exact h.light { places := fun _ p h => by cases p <;> exact h }
  · exact h

theorem listConflict (h : Holds m e y) (b : Nat) (p : Place) : Holds m e (listConflict b p y) := by
  unfold Machine.listConflict
  split
  · split
    · exact h.light { places := fun _ p h => by cases p <;> exact h }
    · exact h
  · exact h

/-- A bin is taken from wherever it is recorded, and has a record. -/
theorem takenUp (h : Holds m e y) {b : Nat} (hb : binOk b = true) {c : Cell} (hc : ∀ d, c ≠ .occupied d) :
    Holds (m.without b) e (Machine.ensureBin b (Machine.leaveCell e b c (Machine.takeFromPlaces e b y)))
    ∧ Movable m b (Machine.ensureBin b (Machine.leaveCell e b c (Machine.takeFromPlaces e b y))) := by
  have h1 := h.takeFromPlaces b
  have h2 := h1.leaveCell_free b hc
  refine ⟨(h1.leaveCell b hc).ensureBin hb, ?_⟩
  cases m with
  | places => exact ⟨getBin_ensureBin b _, by rw [ensureBin_cells]; exact h2⟩
  | _ => trivial

theorem placeBin (h : Holds m e y) {b : Nat} (hb : binOk b = true) {c : Cell} (hc : ∀ d, c ≠ .occupied d) {p : Place}
    (hmay : IfPlaces m fun may _ => may p b) {st : BinSt} {aisle : Option Aisle} {station : Option Station}
    (hst : ∀ r, inPlace (Machine.placed r st none aisle station) = true) {put : Yard → Yard}
    (hput : ∀ w, Joins b p e w (put w) ∧ (put w).journal = w.journal) :
    Holds m e (placeBin e b c st aisle station put y) := by
  obtain ⟨h1, hm⟩ := h.takenUp hb hc
  exact (h1.arrives hm hmay hst (hput _).1 (hput _).2).reportedOrder b

theorem placeReported (h : Holds m e y) {b : Nat} (hb : binOk b = true) {p : Place}
    (hmay : IfPlaces m fun may _ => may p b) {st : BinSt} {aisle : Option Aisle} {station : Option Station}
    (hst : ∀ r, inPlace (Machine.placed r st none aisle station) = true) {put : Yard → Yard}
    (hput : ∀ w, Joins b p e w (put w) ∧ (put w).journal = w.journal) :
    Holds m e (placeReported e b p st aisle station put y) :=
  ((h.placeBin hb (fun _ => by simp) hmay hst hput).noteFound b p).evalOrders

/-! ## A drive unit's fork report -/

theorem loseLoad (h : Holds m e y) (hf : m.Free) (a : Aisle) (fork : Option Nat) : Holds m e (loseLoad e a fork y) := by
  unfold Machine.loseLoad
  split
  next b hb =>
    split
    · exact h
    · refine (h.pickUp (at_fork.2 hb) (.modCarrier fun _ h => by cases h) ?_).handLose hf
      rw [at_fork]
      simp only [Machine.modCarrier, vset_get, if_true]
      simp
  · exact h

theorem forkReport (h : Holds m e y) (hw : m.Whole) (a : Aisle) (fork : Option Nat) : Holds m e (forkReport e a fork y) := by
  unfold Machine.forkReport
  extract_lets old f w
  have hw' : Holds m e w := h.loseLoad hw.free a f
  have hfork : f = fork.filter binOk := rfl
  clear_value w f
  cases f with
  | none => exact hw'
  | some b =>
    have hok : binOk b = true := (Option.filter_eq_some_iff.1 hfork.symm).2
    dsimp only
    split
    · exact hw'.noteFound _ _
    · split
      · exact hw'.listConflict _ _
      · exact hw'.placeReported hok (hw.may (.fork a) b) (fun _ => rfl) fun _ => ⟨.toFork, rfl⟩

theorem forkCleared (h : Holds m e y) (hw : m.Whole) (a : Aisle) (fork : Option Nat) : Holds m e (forkCleared e a fork y) := by
  unfold Machine.forkCleared
  extract_lets old f w
  have hw' : Holds m e w := h.loseLoad hw.free a f
  have hfork : f = fork.filter binOk := rfl
  clear_value w f
  cases f with
  | none => exact hw'
  | some b =>
    have hok : binOk b = true := (Option.filter_eq_some_iff.1 hfork.symm).2
    dsimp only
    split
    · exact hw'
    · exact hw'.placeBin hok (fun _ => by simp) (hw.may (.fork a) b) (fun _ => rfl) fun _ => ⟨.toFork, rfl⟩

end Holds
end Sys2Proof.Machine
end

