-- ==== Sys2Proof/Proofs/LineReports.lean ====
section
/-! PROOF. The contents reports of the lines and the reports of the terminals (R102, R103, R125, R126). -/

namespace Sys2Proof.Machine

open Sys2Proof

-- Default arguments given by tactics wait for the kernel: one theorem at a time, so that few wait at once.
set_option Elab.async false

variable {m : Kind} {e : Env} {y z : Yard}

/-! ## The delivery line's report -/

namespace Holds

/-- The bins of a list keep the record that they had in a place. -/
theorem keepPlaced (h : Holds m e y) (l : List Nat) (hl : IfPlaces m fun _ _ => ∀ b ∈ l, ∃ p, At b p y) :
    Holds (m.keep (· ∈ l)) e y := by
  refine h.keep ?_
  cases m with
  | places => exact fun b hb => h.placed.there b (.inr (hl b hb))
  | _ => trivial

/-- Bins that stand nowhere are lost one after another. -/
theorem loseEach {l : List Nat} (h : Holds (m.keep (· ∈ l)) e y) (hf : m.Free) (hn : IfPlaces m fun _ _ => l.Nodup)
    (hno : IfPlaces m fun may _ => ∀ b ∈ l, ∀ p, ¬may p b) :
    Holds m e (l.foldl (fun y b => Machine.loseBin e b y) y) := by
  induction l generalizing y with
  | nil => exact unkeep _ h
  | cons b l ih =>
    have hr := h.keptRecord
    have hl : Holds (m.keep (· ∈ l)) e y := by
      refine (unkeep _ h).keep ?_
      cases m with
      | places => exact fun d hd => hr d (List.mem_cons_of_mem _ hd)
      | _ => trivial
    refine ih (hl.loseBin b ?_) ?_ ?_
    · cases m with
      | places =>
        refine ⟨fun hk => hk.elim (hf b) (List.nodup_cons.1 hn).1, fun p hp => ?_, ?_⟩
        · exact hno b List.mem_cons_self p (h.placed.allowed b p hp)
        · exact free_of_inPlace h.placed (hr b List.mem_cons_self)
      | _ => trivial
    · cases m with
      | places => exact (List.nodup_cons.1 hn).2
      | _ => trivial
    · cases m with
      | places => exact fun d hd => hno d (List.mem_cons_of_mem _ hd)
      | _ => trivial

/-- A bin whose record is kept, and that stands nowhere, comes back to a place. -/
theorem comesBack {b : Nat} {p : Place} (h : Holds m e y) (hno : IfPlaces m fun _ kept => kept b ∧ ∀ q, ¬At b q y)
    (hl : Joins b p e y z) (hmay : IfPlaces m fun may _ => may p b) (hj : z.journal = y.journal := by rfl) :
    Holds m e z := by
  refine h.joins hl ?_ hj
  cases m with
  | places =>
    obtain ⟨hk, hat⟩ := hno
    exact ⟨hat, h.placed.there b (.inl hk), hmay⟩
  | _ => trivial

/-- One bin of a delivery drive's report. Bins of the list before the report stand on the line or nowhere. -/
theorem deliveryReported (h : Holds m e y) {old : List DeliveryPlace} {b : Nat}
    (hold : IfPlaces m fun may kept => (∀ p d, may p d → d ∈ old.map (·.bin) → p = .delivery) ∧ ∀ d ∈ old.map (·.bin), kept d)
    (hmay : IfPlaces m fun may _ => may .delivery b) : Holds m e (deliveryReported e old b y) := by
  unfold Machine.deliveryReported
  split
  · exact h
  next hcond =>
    simp only [Bool.or_eq_true, Bool.not_eq_true', not_or, Bool.not_eq_false, List.any_eq_true, decide_eq_true_eq,
      not_exists, not_and] at hcond
    obtain ⟨hok, hnot⟩ := hcond
    split
    next p hp =>
      have hpb : p.bin = b := by simpa using List.find?_some hp
      subst hpb
      have hmem : p.bin ∈ old.map (·.bin) := List.mem_map_of_mem (List.mem_of_find?_eq_some hp)
      refine (h.comesBack ?_ .toDelivery hmay).noteFound _ _
      cases m with
      | places =>
        refine ⟨hold.2 _ hmem, fun q hq => ?_⟩
        rw [hold.1 q _ (h.placed.allowed _ _ hq) hmem, at_delivery] at hq
        obtain ⟨x, hx, hxb⟩ := List.mem_map.1 hq
        exact hnot x hx hxb
      | _ => trivial
    next =>
      split
      · exact h.listConflict _ _
      · exact h.placeReported hok hmay (fun _ => rfl) fun _ => ⟨.toDelivery, rfl⟩

theorem deliveryReport (h : Holds m e y) (hw : m.Whole) (bins : List Nat) : Holds m e (deliveryReport e bins y) := by
  unfold Machine.deliveryReport
  extract_lets old a b c
  set F : Place → Nat → Prop := fun p x => x ∈ old.map (·.bin) → p = .delivery with hF
  set G : Place → Nat → Prop := fun p x => p = .delivery → x ∈ bins with hG
  have h0 : Holds ((m.restrict F).keep (· ∈ old.map (·.bin))) e y := by
    refine Holds.keepPlaced ?_ _ ?_
    · exact h.restrict (h.ifPlaces fun _ _ _ hp p x hx hold => hp.one x _ _ hx (at_delivery.2 hold))
    · cases m with
      | places => exact fun x hx => ⟨.delivery, at_delivery.2 hx⟩
      | _ => trivial
  have hb : Holds (((m.restrict F).keep (· ∈ old.map (·.bin))).restrict G) e b := by
    refine ((h0.cutTransfers .delivery).modLines (hd := fun _ => List.nil_sublist _)).restrict ?_
    cases m with
    | places =>
      rintro p x hx rfl
      rw [at_delivery] at hx
      cases hx
    | _ => trivial
  have hc : Holds (((m.restrict F).keep (· ∈ old.map (·.bin))).restrict G) e c := by
    refine hb.foldl _ fun w x hx hw' => hw'.deliveryReported ?_ ?_
    · cases m with
      | places => exact ⟨fun p d hmay => hmay.1.2, fun d hd => .inr hd⟩
      | _ => trivial
    · cases m with
      | places => exact ⟨⟨hw.1 _ _, fun _ => rfl⟩, fun _ => hx⟩
      | _ => trivial
  have hlist : (old.filter fun p => !bins.contains p.bin).foldl (fun y p => Machine.loseBin e p.bin y) c
      = ((old.filter fun p => !bins.contains p.bin).map (·.bin)).foldl (fun y b => Machine.loseBin e b y) c := by
    rw [List.foldl_map]
  rw [hlist]
  have hk : Holds (((m.restrict F).restrict G).keep (· ∈ (old.filter fun p => !bins.contains p.bin).map (·.bin))) e c := by
    cases m with
    | places =>
      have hp := hc.placed
      refine ⟨hc.journal, hc.tables, ⟨hp.delivery, hp.returns, hp.one, fun x hx => hp.there x ?_, hp.noCell, hp.stored, hp.within, hp.allowed⟩⟩
      refine hx.imp_left fun hx => hx.imp_right fun hx => ?_
      exact (List.filter_sublist.map _).subset hx
    | _ => exact hc
  refine mono F (mono G (hk.loseEach (hw.free.restrict F |>.restrict G) ?_ ?_))
  · cases m with
    | places => exact h.placed.delivery.sublist (List.filter_sublist.map _)
    | _ => trivial
  · cases m with
    | places =>
      rintro x hx p ⟨⟨-, hpF⟩, hpG⟩
      obtain ⟨q, hq, rfl⟩ := List.mem_map.1 hx
      obtain ⟨hq, hnot⟩ := List.mem_filter.1 hq
      have := hpG (hpF (List.mem_map_of_mem hq))
      simp [this] at hnot
    | _ => trivial

end Holds

/-! ## The return line's report -/

theorem mem_aisles (a : Aisle) : a ∈ aisles := by revert a; decide

theorem mem_returnRecorded {b : Nat} : b ∈ (returnRecorded y).map (·.bin) ↔ At b .ret y ∨ ∃ a, At b (.inbound a) y := by
  simp only [returnRecorded, List.map_append, List.mem_append, at_ret]
  refine or_congr_right ?_
  simp only [at_inbound, List.mem_map, List.mem_filterMap, Option.map_eq_some_iff]
  constructor
  · rintro ⟨q, ⟨a, -, x, hx, rfl⟩, rfl⟩
    exact ⟨a, hx⟩
  · rintro ⟨a, ha⟩
    exact ⟨⟨b, a⟩, ⟨a, mem_aisles a, b, ha, rfl⟩, rfl⟩

namespace Holds

/-- One bin of a return drive's report. Bins of the list before the report stand on the line or nowhere. -/
theorem returnReported (h : Holds m e y) {old : List ReturnPlace} {b : Nat}
    (hold : IfPlaces m fun may kept => ∀ d ∈ old.map (·.bin), kept d ∧ ∀ p, may p d → p = .ret)
    (hmay : IfPlaces m fun may _ => may .ret b) : Holds m e (returnReported e old b y) := by
  unfold Machine.returnReported
  split
  · exact h
  next hcond =>
    simp only [Bool.or_eq_true, Bool.not_eq_true', not_or, Bool.not_eq_false, List.any_eq_true, decide_eq_true_eq,
      not_exists, not_and] at hcond
    obtain ⟨hok, hnot⟩ := hcond
    split
    next p hp =>
      have hpb : p.bin = b := by simpa using List.find?_some hp
      have hmem : b ∈ old.map (·.bin) := hpb ▸ List.mem_map_of_mem (List.mem_of_find?_eq_some hp)
      refine Holds.noteFound ?_ _ _
      rw [modBin_comm b _ (Machine.modLines fun l => { l with returns := l.returns ++ [p] }) y]
      refine (h.restrict (F := fun _ x => x ≠ b) ?_).arrives ?_ hmay (fun _ => rfl) (.toRet hpb)
      · cases m with
        | places =>
          rintro q x hq rfl
          rw [(hold x hmem).2 q (h.placed.allowed _ _ hq), at_ret] at hq
          obtain ⟨w, hw, hwb⟩ := List.mem_map.1 hq
          exact hnot w hw hwb
        | _ => trivial
      · cases m with
        | places =>
          obtain ⟨r, hr, hin⟩ := h.placed.there b (.inl (hold b hmem).1)
          exact ⟨⟨r, hr⟩, free_of_inPlace h.placed ⟨r, hr, hin⟩⟩
        | _ => trivial
    next =>
      split
      · exact h.listConflict _ _
      · obtain ⟨h1, hm⟩ := h.takenUp hok (c := .unverified (some b)) (fun _ => by simp)
        exact ((((h1.joinReturn hm hmay _).reportedOrder b).noteFound _ _)).evalOrders

theorem inboundReported (h : Holds m e y) (a : Aisle) (p : Option Nat) (hmay : IfPlaces m fun may _ => ∀ b, may (.inbound a) b) :
    Holds m e (inboundReported e a p y) := by
  unfold Machine.inboundReported
  split
  · exact h
  next b hb =>
    have hok : binOk b = true := (Option.filter_eq_some_iff.1 hb).2
    split
    · exact h
    · split
      · exact h.listConflict _ _
      · exact h.placeReported hok (hmay.imp fun _ _ h => h b) (fun _ => rfl) fun _ => ⟨.toInbound, rfl⟩

/-- The bins that a return drive no longer reports are lost. -/
theorem loseUnlisted (h : Holds m e y) (hf : m.Free) (l : List ReturnPlace)
    (hno : IfPlaces m fun may _ => ∀ q ∈ l, ∀ p, ¬may p q.bin) :
    Holds m e (l.foldl (fun y p => match getBin p.bin y with
      | some r => if r.st = .onReturn ∨ r.st = .inbound then Machine.loseBin e p.bin y else y
      | none => y) y) := by
  refine h.foldl _ fun w q hq hw => ?_
  split
  next r hr =>
    split
    next hst =>
      refine hw.loseBin _ ?_
      cases m with
      | places =>
        refine ⟨hf _, fun p hp => hno q hq p (hw.placed.allowed _ _ hp), ?_⟩
        exact not_occupied hw.placed hr (by rcases hst with h | h <;> simp [h])
      | _ => trivial
    · exact hw
  · exact hw

theorem returnReport (h : Holds m e y) (hw : m.Whole) (bins : List Nat) (inbound : List (Option Nat)) :
    Holds m e (returnReport e bins inbound y) := by
  unfold Machine.returnReport
  extract_lets line old a b c d now
  set F : Place → Nat → Prop := fun p x => x ∈ old.map (·.bin) → p = .ret ∨ ∃ a, p = .inbound a with hF
  set G : Place → Nat → Prop := fun p x => x ∈ old.map (·.bin) → p = .ret with hG
  set H : Place → Nat → Prop := fun p x => (p = .ret ∨ ∃ a, p = .inbound a) → x ∈ now.map (·.bin) with hH
  have h0 : Holds ((m.restrict F).keep (· ∈ old.map (·.bin))) e y := by
    refine Holds.keepPlaced ?_ _ ?_
    · refine h.restrict (h.ifPlaces fun _ _ _ hp p x hx hold => ?_)
      rcases mem_returnRecorded.1 hold with hr | ⟨a, hi⟩
      · exact .inl (hp.one x _ _ hx hr)
      · exact .inr ⟨a, hp.one x _ _ hx hi⟩
    · cases m with
      | places =>
        intro x hx
        rcases mem_returnRecorded.1 hx with hr | ⟨a, hi⟩
        · exact ⟨_, hr⟩
        · exact ⟨_, hi⟩
      | _ => trivial
  have hb : Holds (((m.restrict F).keep (· ∈ old.map (·.bin))).restrict G) e b := by
    refine ((h0.cutTransfers .ret).modLines (hr := fun _ => List.nil_sublist _) (hi := ?_)).restrict ?_
    · intro l a x hx
      fin_cases a <;> cases hx
    · cases m with
      | places =>
        intro p x hx hold
        have hp := ((h0.cutTransfers .ret).modLines
          (f := fun l => { l with returns := [], inbound := #v[none, none, none, none, none, none] })
          (hr := fun _ => List.nil_sublist _) (hi := fun l a x hx => by fin_cases a <;> cases hx)).placed.allowed x p hx
        rcases hp.2 hold with hp | ⟨a, rfl⟩
        · exact hp
        · rw [at_inbound] at hx
          fin_cases a <;> cases hx
      | _ => trivial
  have hc : Holds ((m.restrict F).keep (· ∈ old.map (·.bin))) e c := by
    refine mono G (hb.foldl _ fun w x hx hw' => hw'.returnReported ?_ ?_)
    · cases m with
      | places =>
        intro d hd
        have : d ∈ old.map (·.bin) := mem_returnRecorded.2 (.inl (at_ret.2 hd))
        exact ⟨.inr this, fun p hp => hp.2 this⟩
      | _ => trivial
    · cases m with
      | places => exact ⟨⟨hw.1 _ _, fun _ => .inl rfl⟩, fun _ => rfl⟩
      | _ => trivial
  have hd : Holds ((m.restrict F).keep (· ∈ old.map (·.bin))) e d := by
    refine hc.foldl _ fun w a _ hw' => hw'.inboundReported a _ ?_
    cases m with
    | places => exact fun x => ⟨hw.1 _ _, fun _ => .inr ⟨a, rfl⟩⟩
    | _ => trivial
  have hn : Holds ((m.restrict F).restrict H) e d := by
    refine (unkeep _ hd).restrict ?_
    cases m with
    | places =>
      rintro p x hx (rfl | ⟨a, rfl⟩)
      · exact mem_returnRecorded.2 (.inl hx)
      · exact mem_returnRecorded.2 (.inr ⟨a, hx⟩)
    | _ => trivial
  refine mono F (mono H (hn.loseUnlisted (hw.free.restrict F |>.restrict H) _ ?_))
  cases m with
  | places =>
    rintro q hq p ⟨⟨-, hpF⟩, hpH⟩
    obtain ⟨hq, hnot⟩ := List.mem_filter.1 hq
    obtain ⟨x, hx, hxb⟩ := List.mem_map.1 (hpH (hpF (List.mem_map_of_mem hq)))
    simp only [Bool.not_eq_true', List.any_eq_false, decide_eq_true_eq] at hnot
    exact hnot x hx hxb
  | _ => trivial

theorem lineReported (h : Holds m e y) (l : LineId) (fault : Bool) : Holds m e (lineReported l fault y) := h.modLine l _

end Holds
end Sys2Proof.Machine
end

