-- ==== Sys2Proof/Proofs/TerminalReports.lean ====
section
/-! PROOF. The reports of the terminals (R103, R125, R126). -/

namespace Sys2Proof.Machine

open Sys2Proof

-- Default arguments given by tactics wait for the kernel: one theorem at a time, so that few wait at once.
set_option Elab.async false

variable {m : Kind} {e : Env} {y z : Yard}

/-! ## A bin that is to be retired has no order left, and no tray makes one -/

/-- No live order is for the bin, which is to be retired, so that no tray may choose it (R140). -/
def Dismissed (b : Nat) (y : Yard) : Prop :=
  KSorted y.bins ∧ (∃ r, getBin b y = some r ∧ r.retirePending = true) ∧ ∀ o ∈ y.orders, o.closing = false → o.bin ≠ b

namespace Dismissed

variable {b : Nat}

theorem congr (h : Dismissed b y) (hb : z.bins = y.bins := by rfl) (ho : z.orders = y.orders := by rfl) : Dismissed b z := by
  obtain ⟨hs, hr, hno⟩ := h
  exact ⟨hb ▸ hs, by rwa [getBin_congr hb], ho ▸ hno⟩

theorem spaceChoice (h : Dismissed b y) (st : Station) : Dismissed b (spaceChoice e st y) := by
  unfold Machine.spaceChoice
  extract_lets t
  split
  · split
    next c hc =>
      split
      · exact h.congr
      · obtain ⟨hs, ⟨r, hr, hpend⟩, hno⟩ := h
        obtain ⟨q, hq, -, -, hq'⟩ := chooseBin_record hs hc
        have hne : c.bin ≠ b := by
          rintro rfl
          rw [hq] at hr
          cases hr
          rw [hpend] at hq'
          cases hq'
        refine ⟨sorted_modBin hs, ⟨r, (getBin_createOrder_other (Ne.symm hne)).trans hr, hpend⟩, fun o ho hcl => ?_⟩
        have ho' : o ∈ (createOrder e .space c.bin st [] false none y).1.orders := ho
        rw [createOrder, modBin_frame] at ho'
        rcases List.mem_append.1 ho' with ho' | ho'
        · exact hno o ho' hcl
        · rw [List.mem_singleton.1 ho']
          exact hne
    next =>
      split
      · exact h
      · exact h.congr
  · exact h

theorem traysOrderLeft (h : Dismissed b y) (no : Nat) : Dismissed b (traysOrderLeft e no y) := by
  unfold Machine.traysOrderLeft
  induction stationList generalizing y with
  | nil => exact h
  | cons st t ih =>
    refine ih ?_
    show Dismissed b (trayOrderLeft e no st y)
    unfold trayOrderLeft
    split
    · exact (h.congr (z := modTray st (fun t => { t with spaceOrder := none }) y)).spaceChoice st
    · split
      · exact h.spaceChoice st
      · exact h

end Dismissed

theorem dropOrder_orders (no : Nat) (y : Yard) : (dropOrder no y).orders = y.orders.filter fun o => o.no ≠ no := by
  unfold dropOrder
  dsimp only
  split
  · rw [modBin_frame]
  · rfl

theorem dropOrder_bins (no : Nat) (y : Yard) : (dropOrder no y).bins = (unliveOf no y).bins := by
  unfold dropOrder unliveOf
  cases orderOf no y <;> rfl

/-- The bin's live order leaves the queue. -/
theorem Dismissed.dropOrder {b no : Nat} (h : Tables e y) {r : Bin} (hr : getBin b y = some r) (hpend : r.retirePending = true)
    (hlive : r.live = some no) : Dismissed b (dropOrder no y) := by
  refine ⟨by rw [dropOrder_bins]; exact sorted_unliveOf h.bins, ?_, fun o ho hc hob => ?_⟩
  · rw [getBin_congr (dropOrder_bins no y)]
    unfold unliveOf
    split
    next o _ =>
      by_cases hbo : b = o.bin
      · refine ⟨unlive no r, by rw [← hbo, getBin_modBin_same, hr]; rfl, ?_⟩
        unfold unlive
        split <;> exact hpend
      · exact ⟨r, by rw [getBin_modBin_other _ _ _ _ hbo, hr], hpend⟩
    next => exact ⟨r, hr, hpend⟩
  · rw [dropOrder_orders] at ho
    obtain ⟨ho, hne⟩ := List.mem_filter.1 ho
    obtain ⟨q, hq, hl⟩ := h.orders.live o ho hc
    rw [hob, hr] at hq
    cases hq
    rw [hlive] at hl
    cases hl
    simp at hne

/-- Closing a bin's live order dismisses the bin. -/
theorem dismissed_closeOrder {b : Nat} {o : Order} (h : Tables e y) {r : Bin} (hr : getBin b y = some r)
    (hpend : r.retirePending = true) (ho : o ∈ y.orders) (hob : o.bin = b) (hc : o.closing = false) :
    Dismissed b (closeOrder e o.no y) := by
  unfold closeOrder
  split
  next hnone =>
    have := List.find?_eq_none.1 hnone o ho
    simp at this
  next p hp =>
    refine Dismissed.traysOrderLeft ?_ o.no
    refine Dismissed.congr (y := dropOrder o.no (modOrder o.no (fun o => { o with counts := some (pickCounts p.picks) }) y)) ?_
    obtain ⟨q, hq, hl⟩ := h.orders.live o ho hc
    rw [hob, hr] at hq
    cases hq
    refine Dismissed.dropOrder (e := e) (h.still { orders := ?_ }) hr hpend hl
    simp only [modOrder, List.map_map]
    refine List.map_congr_left fun x _ => ?_
    simp only [Function.comp]
    split <;> rfl

namespace Holds

/-- A bin in hand that is to be retired becomes Retired. -/
theorem retireBin {b : Nat} (h : Holds (m.inHand b) e y) (hf : m.Free) (hp : retirePendingBin b y = true) :
    Holds m e (retireBin e b y) := by
  unfold Machine.retireBin
  extract_lets w
  have hw : Holds (m.inHand b) e w := by
    unfold w
    split
    · exact (h.unservePicks _).closeOrder _
    · exact h
  have hdis : IfLists m (Dismissed b w) := by
    refine (IfLists.map (m := m) (P := Tables e y) ?_) fun ht => ?_
    · cases m with
      | lists => exact h.yard
      | places => exact h.tables
      | _ => trivial
    · unfold retirePendingBin at hp
      split at hp
      next r hr =>
        unfold w
        split
        next o ho =>
          have hbo := List.find?_some ho
          simp only [decide_eq_true_eq] at hbo
          have hmem : ∃ p ∈ (Machine.unservePicks o.no y).orders, p.no = o.no ∧ p.bin = b ∧ p.closing = false := by
            refine ⟨_, List.mem_map_of_mem (List.mem_of_find?_eq_some ho), ?_⟩
            rw [if_pos rfl]
            exact ⟨rfl, hbo⟩
          obtain ⟨p, hpm, hpo, hpb, hpc⟩ := hmem
          rw [← hpo]
          refine dismissed_closeOrder (e := e) (r := r) (ht.still { orders := ?_ }) hr hp (hpo ▸ hpm) hpb hpc
          simp only [Machine.unservePicks, Machine.modOrder, List.map_map]
          refine List.map_congr_left fun x _ => ?_
          simp only [Function.comp]
          split
          · simp [orderSig]
          · rfl
        next hnone =>
          refine ⟨ht.bins, ⟨r, hr, hp⟩, fun o ho hc hob => ?_⟩
          have := List.find?_eq_none.1 hnone o ho
          simp [hc, hob] at this
      next => cases hp
  clear_value w
  have hfree := hw.handFree
  refine Holds.attrChange ((mono _ (unkeep _ hw)).modBin fun r hr => ?_) b
  have hrec : RecordOk m w b r := (mono _ (unkeep _ hw)).recordOk hr
  have hnowhere := hw.handNowhere
  cases m with
  | lists => exact ⟨fun o ho hc hob => absurd hob (hdis.2.2 o ho hc), fun _ => rfl⟩
  | places =>
    refine ⟨⟨fun o ho hc hob => absurd hob (hdis.2.2 o ho hc), fun _ => rfl⟩, ?_, fun _ => rfl, fun k hk => absurd hk (hfree k)⟩
    exact fun hx => (hx.elim (hf b) fun ⟨p, hp⟩ => hnowhere p hp).elim
  | numbers => exact hrec
  | sessions => trivial

/-! ## Terminal reports (R103, R125, R126) -/

end Holds

theorem at_stPlace {b : Nat} {st : Station} {p : StPlace} : At b (stPlace st p) y ↔ (placeOf st p y).map (·.bin) = some b := by
  cases p
  · exact at_next
  · exact at_present

theorem Joins.setPlace {st : Station} {p : StPlace} {v : PlaceBin} {b : Nat} (hb : v.bin = b := by rfl) :
    Joins b (stPlace st p) e y (setPlace st p (some v) y) := by
  cases p
  · exact .toNext hb
  · exact .toPresent hb

theorem setPlace_journal (st : Station) (p : StPlace) (v : Option PlaceBin) (y : Yard) : (setPlace st p v y).journal = y.journal := by
  cases p <;> rfl

/-- A station's place takes a bin that it has, or none. -/
theorem Light.setPlace {st : Station} {p : StPlace} {v : Option PlaceBin}
    (hv : ∀ b, v.map (·.bin) = some b → (placeOf st p y).map (·.bin) = some b) : Light e y (setPlace st p v y) := by
  cases p
  · exact .modStation (f := fun r => { r with next := v }) (fun x hx => .same hx) hv fun _ h => h
  · exact .modStation (f := fun r => { r with present := v }) (fun x hx => .same hx) (fun _ h => h) hv

theorem not_at_setPlace {b : Nat} {st : Station} {p : StPlace} : ¬At b (stPlace st p) (setPlace st p none y) := by
  rw [at_stPlace]
  cases p <;> simp only [placeOf, Machine.setPlace, modStation, vset_get, if_true, Option.map_none] <;> simp

theorem emptied_bins (st : Station) (p : StPlace) (y : Yard) : (emptied st p y).bins = y.bins := by
  cases p
  · rfl
  · rw [emptied, showStation_frame]
    rfl

/-- The bin of a Present place that is leaving is to be retired. -/
theorem retirePending_of_leaving {st : Station} {q : PlaceBin} (h : leaving st y = true) (hq : y.stations[st].present = some q) :
    retirePendingBin q.bin y = true := by
  simp only [leaving, Bool.and_eq_true] at h
  rw [hq] at h
  exact h.2

namespace Holds

theorem setPlaceNone (h : Holds m e y) (st : Station) (p : StPlace) : Holds m e (Machine.setPlace st p none y) :=
  h.light (.setPlace fun _ h => by cases h) (setPlace_journal st p none y)

theorem emptied (h : Holds m e y) (st : Station) (p : StPlace) : Holds m e (Machine.emptied st p y) := by
  cases p
  · exact h.setPlaceNone st .next
  · exact (h.setPlaceNone st .present).showStation st

/-- A station's place that is recorded empty holds no bin. -/
theorem emptiedClear (h : Holds m e y) (st : Station) (p : StPlace) :
    Holds (m.restrict fun q _ => q ≠ stPlace st p) e (Machine.emptied st p y) := by
  have hclear : Holds (m.restrict fun q _ => q ≠ stPlace st p) e (Machine.setPlace st p none y) := by
    refine (h.setPlaceNone st p).restrict ?_
    cases m with
    | places =>
      rintro q x hx rfl
      exact not_at_setPlace hx
    | _ => trivial
  cases p
  · exact hclear
  · exact hclear.showStation st

/-- A bin that may be only at a station's place is in hand when that place is recorded empty. -/
theorem emptiedHand {b : Nat} {st : Station} {p : StPlace} (h : Holds (m.onlyAt b (stPlace st p)) e y) :
    Holds ((m.restrict fun q _ => q ≠ stPlace st p).inHand b) e (Machine.emptied st p y) := by
  have hclear := h.emptiedClear st p
  cases m with
  | places may kept =>
    have hp := hclear.placed
    refine ⟨hclear.journal, hclear.tables, ⟨hp.delivery, hp.returns, hp.one, hp.there, hp.noCell, hp.stored, hp.within, ?_⟩⟩
    intro x q hx
    obtain ⟨⟨hm, honly⟩, hne⟩ := hp.allowed x q hx
    exact ⟨⟨hm, hne⟩, fun hxb => hne (honly hxb)⟩
  | _ => exact hclear

theorem terminalPlaced (h : Holds m e y) (st : Station) (p : StPlace) {b : Nat} (hb : binOk b = true)
    (hmay : IfPlaces m fun may _ => may (stPlace st p) b) : Holds m e (terminalPlaced e st p b y) := by
  unfold Machine.terminalPlaced
  split
  · exact h.listConflict _ _
  · exact h.placeReported hb hmay (fun _ => rfl) fun w => ⟨.setPlace, setPlace_journal st p _ w⟩

/-- After a place has been cleared it holds no bin but the reported one. -/
theorem clearPlace (h : Holds m e y) (hf : m.Free) (st : Station) (p : StPlace) (v other : Option Nat) :
    Holds (m.restrict fun q x => q = stPlace st p → v = some x) e (clearPlace e st p v other y) := by
  have hclear : ∀ {w}, Holds (m.restrict fun q _ => q ≠ stPlace st p) e w →
      Holds (m.restrict fun q x => q = stPlace st p → v = some x) e w := fun hw => by
    refine hw.tighten ?_
    cases m with
    | places => exact fun q x _ hne hq => absurd hq hne
    | _ => trivial
  unfold Machine.clearPlace
  split
  next hnone =>
    refine h.restrict ?_
    cases m with
    | places =>
      rintro q x hx rfl
      rw [at_stPlace, hnone] at hx
      cases hx
    | _ => trivial
  next q hq =>
    split
    next hv =>
      refine h.restrict ?_
      cases m with
      | places =>
        rintro _ x hx rfl
        rw [at_stPlace, hq] at hx
        exact hv.trans hx
      | _ => trivial
    · split
      next hc =>
        simp only [Bool.and_eq_true, decide_eq_true_eq] at hc
        obtain ⟨⟨⟨rfl, hl⟩, -⟩, -⟩ := hc
        have hat : At q.bin (stPlace st .present) y := at_stPlace.2 (by rw [hq]; rfl)
        refine hclear ((h.only hat).emptiedHand.retireBin (hf.restrict _) ?_)
        rw [retirePendingBin, getBin_congr (emptied_bins st .present y)]
        exact retirePending_of_leaving hl hq
      · refine hclear (Holds.emptiedClear ?_ st p)
        split
        · exact h.removeSession st
        · exact h

theorem loseUnreported (h : Holds m e y) (hf : m.Free) (st : Station) (old : Option PlaceBin)
    (hold : IfPlaces m fun may _ => ∀ p x, may p x → old.map (·.bin) = some x → p = .next st ∨ p = .present st) :
    Holds m e (loseUnreported e st old y) := by
  unfold Machine.loseUnreported
  split
  · exact h
  next q =>
    split
    · exact h
    next hnot =>
      split
      next r hr =>
        split
        next hst =>
          refine h.loseBin _ ?_
          cases m with
          | places =>
            refine ⟨hf _, fun p hp => hnot ?_, not_occupied h.placed hr (by simp [hst.1])⟩
            rcases hold p _ (h.placed.allowed _ p hp) rfl with rfl | rfl
            · exact .inl (at_next.1 hp)
            · exact .inr (at_present.1 hp)
          | _ => trivial
        · exact h
      · exact h

theorem fullPlace (h : Holds m e y) (st : Station) (p : StPlace) (v : Option Nat)
    (hv : IfPlaces m fun may _ => ∀ x, may (stPlace st p) x ↔ v = some x) : Holds m e (fullPlace e st p v y) := by
  unfold Machine.fullPlace
  split
  · exact h
  next b hb =>
    obtain ⟨hb, hok⟩ := Option.filter_eq_some_iff.1 hb
    split
    next q hq =>
      have hstill : Still e y (Machine.setPlace st p (some ⟨b, reportSource b y⟩) y) := (Joins.setPlace (b := b)).toStill
      refine (h.still hstill ?_ (setPlace_journal st p _ y)).noteFound _ _
      cases m with
      | places =>
        have hat : At q.bin (stPlace st p) y := at_stPlace.2 (by rw [hq]; rfl)
        have hqb : q.bin = b := by
          have := (hv _).1 (h.placed.allowed _ _ hat)
          rw [hb] at this
          exact (Option.some.inj this).symm
        have hl : Light e y (Machine.setPlace st p (some ⟨b, reportSource b y⟩) y) :=
          .setPlace fun x hx => by rw [hq]; exact (congrArg some hqb).trans hx
        exact ⟨hl.places, hl.delivery, hl.returns⟩
      | _ => trivial
    next => exact h.terminalPlaced st p hok (hv.imp fun _ _ h => (h b).2 hb)

theorem terminalReport (h : Holds m e y) (hw : m.Whole) (st : Station) (next present : Option Nat) :
    Holds m e (terminalReport e st next present y) := by
  unfold Machine.terminalReport
  extract_lets oldNext oldPresent n a b c
  set F : Place → Nat → Prop := fun p x => oldNext.map (·.bin) = some x ∨ oldPresent.map (·.bin) = some x →
    p = .next st ∨ p = .present st with hF
  set G : Place → Nat → Prop := fun p x => p = stPlace st .present → present = some x with hG
  set H : Place → Nat → Prop := fun p x => p = stPlace st .next → n = some x with hH
  have h0 : Holds (m.restrict F) e y := h.restrict <| h.ifPlaces fun _ _ _ hp p x hx hold => by
    rcases hold with hold | hold
    · exact .inl (hp.one x _ _ hx (at_next.2 hold))
    · exact .inr (hp.one x _ _ hx (at_present.2 hold))
  have ha : Holds (((m.restrict F).restrict G).restrict H) e a :=
    (h0.clearPlace (hw.free.restrict F) st .present present n).clearPlace (hw.free.restrict F |>.restrict G) st .next n present
  have hb : Holds (((m.restrict F).restrict G).restrict H) e b := by
    refine (ha.fullPlace st .present present ?_).fullPlace st .next n ?_
    · cases m with
      | places => exact fun x => ⟨fun hx => hx.1.2 rfl, fun hx => ⟨⟨⟨hw.1 _ _, fun _ => .inr rfl⟩, fun _ => hx⟩, fun hp => by cases hp⟩⟩
      | _ => trivial
    · cases m with
      | places => exact fun x => ⟨fun hx => hx.2 rfl, fun hx => ⟨⟨⟨hw.1 _ _, fun _ => .inl rfl⟩, fun hp => by cases hp⟩, fun _ => hx⟩⟩
      | _ => trivial
  have hc : Holds (m.restrict F) e c := by
    refine ((mono G (mono H hb)).loseUnreported (hw.free.restrict F) st _ ?_).loseUnreported (hw.free.restrict F) st _ ?_
    · cases m with
      | places => exact fun p x hx hold => hx.2 (.inl hold)
      | _ => trivial
    · cases m with
      | places => exact fun p x hx hold => hx.2 (.inr hold)
      | _ => trivial
  exact (mono F hc).openSession st

theorem terminalEmptied (h : Holds m e y) (hf : m.Free) (st : Station) (p : StPlace) {q : PlaceBin}
    (hq : placeOf st p y = some q) : Holds m e (terminalEmptied e st p q.bin y) := by
  have hat : At q.bin (stPlace st p) y := at_stPlace.2 (by rw [hq]; rfl)
  unfold Machine.terminalEmptied
  split
  next hc =>
    simp only [Bool.and_eq_true, decide_eq_true_eq] at hc
    obtain ⟨rfl, hl⟩ := hc
    refine mono _ ((h.only hat).emptiedHand.retireBin (hf.restrict _) ?_)
    rw [retirePendingBin, getBin_congr (emptied_bins st .present y)]
    exact retirePending_of_leaving hl hq
  · refine mono _ ((Holds.emptiedHand ?_).handLose (hf.restrict _))
    split
    · exact (h.only hat).removeSession st
    · exact h.only hat

theorem terminalChange (h : Holds m e y) (hw : m.Whole) (st : Station) (p : StPlace) (v : Option Nat) :
    Holds m e (terminalChange e st p v y) := by
  unfold Machine.terminalChange
  extract_lets w a b
  split
  · exact h
  · have ha : Holds m e a := by
      unfold a
      split
      next q hq => exact h.terminalEmptied hw.free st p hq
      · exact h
    have hb : Holds m e b := ha.freshen _ _ _
    have hw' : w = v.filter binOk := rfl
    clear_value b w
    cases w with
    | none => exact hb
    | some x =>
      have hx := hb.terminalPlaced st p (Option.filter_eq_some_iff.1 hw'.symm).2 (hw.may _ _)
      dsimp only
      split
      · exact hx.openSession st
      · exact hx

end Holds
end Sys2Proof.Machine
end

