-- ==== Sys2Proof/Proofs/Readings.lean ====
section
/-! PROOF. A survey's readings are reconciled with the map and the bins (R152 to R156). -/

namespace Sys2Proof.Machine

open Sys2Proof

-- Default arguments given by tactics wait for the kernel: one theorem at a time, so that few wait at once.
set_option Elab.async false

variable {m : Kind} {e : Env} {y z : Yard}

/-! ## The bins of a cell are lost -/

theorem loseBinsAt_eq (a : CellAddr) (b? : Option Nat) (y : Yard) : loseBinsAt a b? y = { y with bins := y.bins.map fun p =>
    (p.1, if p.2.cell = some a ∧ some p.1 ≠ b? then placed p.2 .unverified none none none else p.2) } := by
  unfold loseBinsAt
  congr 1
  refine List.map_congr_left fun p _ => ?_
  dsimp only
  split <;> rfl

/-- A cell's change leaves the bins alone, whatever they are. -/
theorem setCell_withBins (a : CellAddr) (c : Cell) (y : Yard) (l : List (Nat × Bin)) :
    setCell e a c { y with bins := l } = { setCell e a c y with bins := l } := by
  unfold setCell
  have hget : getCell e a { y with bins := l } = getCell e a y := rfl
  dsimp only
  rw [hget]
  split
  · rfl
  · split <;> rfl

theorem setCell_loseBinsAt (a x : CellAddr) (b? : Option Nat) (c : Cell) (y : Yard) :
    setCell e a c (loseBinsAt x b? y) = loseBinsAt x b? (setCell e a c y) := by
  unfold loseBinsAt
  rw [setCell_withBins, setCell_bins]

theorem ensureBin_withCells (b : Nat) (y : Yard) (l : List (Nat × Cell)) :
    ensureBin b { y with cells := l } = { ensureBin b y with cells := l } := by
  have hattr : ∀ w : Yard, attrChange b { w with cells := l } = { attrChange b w with cells := l } := fun w => by
    unfold attrChange
    have hget : getBin b { w with cells := l } = getBin b w := rfl
    rw [hget]
    split <;> rfl
  unfold ensureBin
  have hget : getBin b { y with cells := l } = getBin b y := rfl
  rw [hget]
  split
  · exact congrArg (modJournal (journalChange (.fill b) (.fill 0))) (hattr (putBin b _ y))
  · split
    · exact hattr (putBin b _ y)
    · rfl

namespace Holds

/-- The bins recorded in a cell are lost, but for the one that the cell is Occupied with. -/
theorem loseBinsAt (h : Holds m e y) (a : CellAddr) (b? : Option Nat)
    (hocc : IfPlaces m fun _ _ => ∀ k b, kget y.cells k = some (.occupied b) → cellOfCode k = some a → some b = b?) :
    Holds m e (loseBinsAt a b? y) := by
  rw [loseBinsAt_eq]
  refine h.mapBins (fun b r => if r.cell = some a ∧ some b ≠ b? then Machine.placed r .unverified none none none else r)
    fun b r hr => ?_
  split
  next hc =>
    refine (h.recordOk hr).placed rfl (by simp [Machine.placed]) ?_
    cases m with
    | places may kept =>
      obtain ⟨hcell, hne⟩ := hc
      have hok := h.placed.placeOk hr
      refine ⟨fun hx => ?_, fun _ => rfl, fun k hk => ?_⟩
      · have := hok.noCell (hok.there hx)
        rw [hcell] at this
        cases this
      · obtain ⟨-, a', hcell', hcode⟩ := hok.stored k hk
        rw [hcell] at hcell'
        cases hcell'
        exact absurd (hocc k b hk hcode) hne
    | _ => trivial
  next => exact h.recordOk hr

/-- A cell takes a content, and the bins recorded in it are lost but for the one it is then Occupied with. -/
theorem setCellLosing (h : Holds m e y) (a : CellAddr) (b? : Option Nat) {c : Cell}
    (hc : IfPlaces m fun _ _ => ∀ b, c = .occupied b → some b = b? ∧ ∃ r, getBin b y = some r ∧ r.st = .stored ∧ r.cell = some a) :
    Holds m e (Machine.setCell e a c (Machine.loseBinsAt a b? y)) := by
  rw [setCell_loseBinsAt]
  refine (h.setCellOk (hc.imp fun _ _ hc b hb => (hc b hb).2)).loseBinsAt a b? ?_
  cases m with
  | places => exact fun k b hk hka => (hc b (occupied_setCell h hk hka)).1
  | _ => trivial

/-- A cell is left by the bin Stored in it. -/
theorem setCell_free (h : Holds m e y) {a : CellAddr} {b : Nat} {c : Cell} (hc : ∀ d, c ≠ .occupied d)
    (hr : IfPlaces m fun _ _ => ∀ r, getBin b y = some r → r.st = .stored → r.cell = some a) :
    IfPlaces m fun _ _ => ∀ k, kget (Machine.setCell e a c y).cells k ≠ some (.occupied b) := by
  have h' := h.setCell a hc
  cases m with
  | places =>
    intro k hk
    obtain ⟨r, x, hr', hst, hcell, hcode⟩ := h'.placed.stored k b hk
    rw [getBin_setCell] at hr'
    rw [hr r hr' hst] at hcell
    cases hcell
    exact hc b (occupied_setCell h hk hcode)
  | _ => trivial

/-- A bin that stands nowhere, in no cell either, is recorded in the cell where it has been read. -/
theorem readStored (h : Holds m e y) (a : CellAddr) {b : Nat} (hb : binOk b = true)
    (hno : IfPlaces m fun _ kept => (¬kept b ∧ ∀ p, ¬At b p y) ∧ ∀ k, kget y.cells k ≠ some (.occupied b)) :
    Holds m e (Machine.binStored b a (Machine.setCell e a (.occupied b) (Machine.ensureBin b (Machine.loseBinsAt a (some b) y)))) := by
  have hw : Holds (m.without b) e y := h.restrict <| by
    cases m with
    | places => exact fun p x hx hxb => hno.1.2 p (hxb ▸ hx)
    | _ => trivial
  refine mono (fun _ x => x ≠ b) ?_
  unfold Machine.binStored
  rw [modBin_setCell]
  have hcells : (Machine.ensureBin b (Machine.loseBinsAt a (some b) y)).cells = y.cells := ensureBin_cells b _
  have hrest : ∀ {w}, Holds (m.without b) e w → (IfPlaces m fun _ _ => ∀ k, kget w.cells k ≠ some (.occupied b)) →
      Holds (m.without b) e (Machine.binStored b a w) := fun {w} hw hfree => by
    refine hw.binStored ?_
    cases m with
    | places => exact ⟨hno.1.1, fun p hp => (hw.placed.allowed b p hp).2 rfl, fun k hk => absurd hk (hfree k)⟩
    | _ => trivial
  by_cases habs : Machine.getCell e a y = .absent
  · have hz : Holds (m.without b) e (Machine.ensureBin b (Machine.loseBinsAt a (some b) y)) := by
      refine (hw.loseBinsAt a (some b) ?_).ensureBin hb
      cases m with
      | places =>
        intro k d hk hka
        obtain ⟨x, hx, hin⟩ := h.placed.within k _ hk
        rw [hka] at hx
        cases hx
        rw [Machine.getCell, if_pos hin, cellCode_of_cellOfCode hka, hk] at habs
        cases habs
      | _ => trivial
    have hz' := hrest hz (hno.imp fun _ _ hno => by rw [hcells]; exact hno.2)
    rwa [Machine.setCell, if_pos]
    left
    rw [modBin_frame]
    simpa only [Machine.getCell, hcells] using habs
  · have hput : Machine.putCell a .empty (Machine.ensureBin b (Machine.loseBinsAt a (some b) y))
        = Machine.ensureBin b (Machine.loseBinsAt a (some b) (Machine.putCell a .empty y)) := by
      rw [Machine.putCell, hcells, ← ensureBin_withCells]
      rfl
    have hz : Holds (m.without b) e (Machine.putCell a .empty (Machine.ensureBin b (Machine.loseBinsAt a (some b) y))) := by
      rw [hput]
      refine ((hw.unlist a).loseBinsAt a (some b) ?_).ensureBin hb
      cases m with
      | places =>
        intro k d hk hka
        rcases kget_putCell h.tables.cells hk with ⟨hne, -⟩ | ⟨-, hd⟩
        · exact absurd (cellCode_of_cellOfCode hka).symm hne
        · cases hd
      | _ => trivial
    have hstored := hrest hz <| by
      rw [hput]
      cases m with
      | places =>
        intro k hk
        rw [ensureBin_cells] at hk
        have hk : kget (Machine.putCell a .empty y).cells k = some (.occupied b) := hk
        rcases kget_putCell h.tables.cells hk with ⟨-, hk⟩ | ⟨-, hd⟩
        · exact hno.2 k hk
        · cases hd
      | _ => trivial
    rw [Machine.binStored, modBin_comm b _ (Machine.putCell a .empty)] at hstored
    refine hstored.setCellOver ?_ ?_ ?_
    · rw [modBin_frame]
      dsimp only
      rw [hcells]
      exact hw.ifLists (·.cells)
    · rw [modBin_frame]
      simpa only [Machine.getCell, hcells] using habs
    · cases m with
      | places =>
        rintro d hd
        cases hd
        obtain ⟨r, hr⟩ := getBin_ensureBin b (Machine.loseBinsAt a (some b) y)
        exact ⟨_, by rw [getBin_modBin_same, hr]; rfl, rfl, rfl⟩
      | _ => trivial

/-- The cell of a bin that is displaced takes another content. -/
theorem displace (h : Holds m e y) (x : CellAddr) (b : Nat) (r : SurveyRun) : Holds m e (displace e x b y r).1 :=
  h.setCell x fun _ => by simp

theorem readBin (h : Holds m e y) (a : CellAddr) {b : Nat} (hb : binOk b = true) (r : SurveyRun) :
    Holds m e (readBin e a b y r).1 := by
  unfold Machine.readBin
  extract_lets old rec' conflict agrees elsewhere
  split
  · exact h
  · split
    · exact h.setCellLosing a (some b) (by cases m with | places => exact fun _ h => by cases h | _ => trivial)
    next hconf =>
      split
      next hag =>
        refine h.setCellLosing a (some b) ?_
        cases m with
        | places =>
          rintro d hd
          cases hd
          refine ⟨rfl, ?_⟩
          unfold agrees rec' at hag
          split at hag
          next q hq => exact ⟨q, hq, by simpa using hag⟩
          next => cases hag
        | _ => trivial
      next hag =>
        have hplace : ∀ q, getBin b y = some q → inPlace q = false := fun q hq => by
          unfold conflict rec' at hconf
          rw [hq] at hconf
          simpa using hconf
        have key : ∀ w : Yard, Holds m e w → getBin b w = getBin b y →
            (IfPlaces m fun _ _ => ∀ k, kget w.cells k ≠ some (.occupied b)) →
            Holds m e (Machine.binStored b a (Machine.setCell e a (.occupied b) (Machine.ensureBin b (Machine.loseBinsAt a (some b) w)))) := by
          intro w hw hget hfree
          refine hw.readStored a hb ?_
          cases m with
          | places => exact ⟨nowhere_of_record hw.placed fun q hq => hplace q (hget ▸ hq), hfree⟩
          | _ => trivial
        have hels : elsewhere = storedCell b y := by
          unfold elsewhere rec' storedCell
          cases getBin b y <;> rfl
        rw [hels]
        cases hsc : storedCell b y with
        | some x =>
          refine key _ (h.displace x b r) (getBin_setCell b x _ y) (h.setCell_free (fun _ => by simp) ?_)
          cases m with
          | places => exact fun q hq hst => (storedCell_of_record hq hst).symm.trans hsc
          | _ => trivial
        | none =>
          refine key _ h rfl ?_
          cases m with
          | places =>
            intro k hk
            obtain ⟨q, x, hq, hst, hcell, -⟩ := h.placed.stored k b hk
            rw [storedCell_of_record hq hst, hcell] at hsc
            cases hsc
          | _ => trivial

theorem readEmpty (h : Holds m e y) (a : CellAddr) (r : SurveyRun) : Holds m e (readEmpty e a y r).1 := by
  unfold Machine.readEmpty
  extract_lets old w
  split
  · exact h
  · exact h.setCellLosing a none (by cases m with | places => exact fun _ h => by cases h | _ => trivial)

theorem readUnreadable (h : Holds m e y) (a : CellAddr) (r : SurveyRun) : Holds m e (readUnreadable e a y r).1 := by
  unfold Machine.readUnreadable
  extract_lets r' old
  have hold : Machine.getCell e a y = old := rfl
  clear_value old
  cases old with
  | occupied b =>
    have hrec : IfPlaces m fun _ _ => ∃ q, getBin b y = some q ∧ q.st = .stored ∧ q.cell = some a := by
      cases m with
      | places =>
        have hin := inGeometry_of_getCell_ne_absent (e := e) (a := a) (y := y) (by rw [hold]; simp)
        have hk : kget y.cells (cellCode a) = some (.occupied b) := by
          rw [Machine.getCell, if_pos hin] at hold
          cases hk : kget y.cells (cellCode a) with
          | none => rw [hk] at hold; cases hold
          | some c => rw [hk] at hold; exact congrArg some hold
        obtain ⟨q, x, hq, hst, hcell, hcode⟩ := h.placed.stored _ b hk
        obtain ⟨h1, h2, h3⟩ := keyFits_of_in h.tables.geometry hin
        rw [cellOfCode_cellCode a h1 h2 h3] at hcode
        cases hcode
        exact ⟨q, hq, hst, hcell⟩
      | _ => trivial
    refine (h.setCell a (c := .unverified (some b)) fun _ => by simp).lostRecord b (some a) ?_ (h.setCell_free (fun _ => by simp) ?_)
    · cases m with
      | places =>
        obtain ⟨q, hq, hst, -⟩ := hrec
        intro q' hq'
        rw [getBin_setCell, hq] at hq'
        cases hq'
        simp [inPlace, hst]
      | _ => trivial
    · cases m with
      | places =>
        obtain ⟨q, hq, -, hcell⟩ := hrec
        intro q' hq' _
        rw [hq] at hq'
        cases hq'
        exact hcell
      | _ => trivial
  | empty => exact h.setCell a fun _ => by simp
  | reserved => exact h.setCell a fun _ => by simp
  | _ => exact h

theorem readCell (h : Holds m e y) (a : CellAddr) (t : TagRead) (r : SurveyRun) : Holds m e (readCell e a t y r).1 := by
  unfold Machine.readCell
  cases t with
  | bin b =>
    dsimp only
    split
    next hb => exact h.readBin a hb r
    next => exact h.readUnreadable a r
  | empty => exact h.readEmpty a r
  | unreadable => exact h.readUnreadable a r

theorem readNext (h : Holds m e y) (a : CellAddr) (t : TagRead) (r : SurveyRun) : Holds m e (readNext e a t y r).1 :=
  (h.readCell a t r).cellChanged a.aisle

theorem readSide (h : Holds m e y) (a : CellAddr) (t : SideRead) (r : SurveyRun) : Holds m e (readSide e a t y r).1 := by
  have h1 := h.readNext a t.front r
  unfold Machine.readSide
  dsimp only
  split
  · exact h1.readNext _ _ _
  · exact h1

theorem reconcile (h : Holds m e y) (a : Aisle) (p : Nat × Nat) (n s : SideRead) (r : SurveyRun) :
    Holds m e (reconcile e a p n s y r).1 := (h.readSide _ n r).readSide _ s _

end Holds
end Sys2Proof.Machine
end

