-- ==== Sys2Proof/Proofs/CarrierPlans.lean ====
section
/-! PROOF. The carriers: segments, plans and faults, as far as no bin moves (chapter 3). -/

namespace Sys2Proof.Machine

open Sys2Proof

-- Default arguments given by tactics wait for the kernel: one theorem at a time, so that few wait at once.
set_option Elab.async false

variable {m : Kind} {e : Env} {y z : Yard}

namespace Holds

/-! ## Segments -/

theorem setSt (h : Holds m e y) (a : Aisle) (st : CarrierSt) : Holds m e (setSt a st y) := h.modCarrier a
theorem setTask (h : Holds m e y) (a : Aisle) (t : Option Task) : Holds m e (setTask a t y) := h.modCarrier a
theorem setPos (h : Holds m e y) (a : Aisle) (p : Nat × Nat) : Holds m e (setPos a p y) := h.modCarrier a

theorem beginSeg (h : Holds m e y) (a : Aisle) (k : SegKind) (t : SegTarget) (b : Option Nat) (st : CarrierSt) :
    Holds m e (beginSeg e a k t b st y) := (h.modCarrier a).send _

theorem applyProfile (h : Holds m e y) (a : Aisle) : Holds m e (applyProfile e a y) := h.modEst a _

theorem segEnded (h : Holds m e y) (a : Aisle) : Holds m e (segEnded e a y) := by
  unfold Machine.segEnded
  extract_lets w
  have hw : Holds m e w := h.modCarrier a
  split
  · exact hw.applyProfile a
  · exact hw

/-! ## Faults -/

theorem surveyAborted (h : Holds m e y) (a : Aisle) (r : SurveyRun) (begun : Bool) : Holds m e (surveyAborted e a r begun y) :=
  h.notify _ _

theorem abortSurvey (h : Holds m e y) (a : Aisle) : Holds m e (abortSurvey e a y) := by
  unfold Machine.abortSurvey
  split
  · split
    · exact h
    · exact (h.setTask a _).surveyAborted _ _ _
  · exact h

theorem unsuspend (h : Holds m e y) (a : Aisle) : Holds m e (unsuspend a y) :=
  h.modCarrier a fun c b hb => by
    split at hb
    · exact hb
    · split at hb <;> exact hb

theorem enterFaulted (h : Holds m e y) (a : Aisle) (f : FaultReason) (found : Option Nat) :
    Holds m e (enterFaulted e a f found y) := by
  unfold Machine.enterFaulted
  exact ((((h.unsuspend a).modCarrier a).notify _ _).abortSurvey a).tellOrder _

theorem noticeNotFound (h : Holds m e y) (a : Aisle) (x : Option CellAddr) (b : Nat) : Holds m e (noticeNotFound e a x b y) :=
  h.notify _ _

/-! ## Plans -/

theorem endTask (h : Holds m e y) (a : Aisle) : Holds m e (endTask e a y) := by
  unfold Machine.endTask
  exact ((h.releaseTask a _).tellOrder _).modCarrier a

theorem reserve (h : Holds m e y) (x : CellAddr) (b : Nat) (p : Purpose) : Holds m e (reserve e x b p y) :=
  h.setCell x fun _ => by simp [reduceCtorEq]

theorem travelTo (h : Holds m e y) (a : Aisle) (p : Nat × Nat) (st : CarrierSt) : Holds m e (travelTo e a p st y).1 := by
  unfold Machine.travelTo
  split
  · exact h
  · exact h.beginSeg _ _ _ _ _

/-- A step that travels first, and then goes on. -/
theorem travelThen (h : Holds m e y) (a : Aisle) (p : Nat × Nat) (st : CarrierSt) {f : Yard → Yard × Bool}
    (hf : ∀ z, Holds m e z → Holds m e (f z).1) :
    Holds m e (match Machine.travelTo e a p st y with | (z, true) => f z | r => r).1 := by
  have ht := h.travelTo a p st
  split
  next z hz => rw [hz] at ht; exact hf z ht
  next => exact ht

theorem retrieveStep (h : Holds m e y) (a : Aisle) (no b : Nat) (x : CellAddr) (st : RStep) (sh : Option (Nat × CellAddr)) :
    Holds m e (retrieveStep e a no b x st sh y).1 := by
  unfold Machine.retrieveStep
  cases st with
  | toFront => exact h.travelThen a _ _ fun z hz => hz.setTask a _
  | takeFront =>
    rcases sh with _ | ⟨f, s⟩
    · exact h.setTask a _
    · dsimp only
      split
      · exact h.beginSeg _ _ _ _ _
      · exact h.endTask a
  | toTarget =>
    rcases sh with _ | ⟨f, s⟩
    · exact h.setTask a _
    · exact h.travelThen a _ _ fun z hz => hz.setTask a _
  | putTarget =>
    rcases sh with _ | ⟨f, s⟩
    · exact h.setTask a _
    · dsimp only
      split
      · exact h.beginSeg _ _ _ _ _
      · have hf := h.freeCell s
        split
        · exact (hf.reserve _ _ _).setTask a _
        · exact (hf.setTask a _).endTask a
  | toBin => exact h.travelThen a _ _ fun z hz => hz.setTask a _
  | takeBin =>
    dsimp only
    split
    · exact h.beginSeg _ _ _ _ _
    · exact h.endTask a
  | toMouth => exact h.travelThen a _ _ fun z hz => hz.setTask a _
  | waitMerge =>
    refine h.travelThen a _ _ fun z hz => Holds.setSt ?_ a _
    exact hz.modLines (hd := fun l => by split <;> exact .refl _) (hr := fun l => by split <;> exact .refl _)
      (hi := fun l a b hb => by split at hb <;> exact hb)
  | handoff => exact h.beginSeg _ _ _ _ _

/-- A put-away chooses its cell, or ends. -/
theorem putawayChoice (h : Holds m e y) (a : Aisle) (b : Nat) (o : Option CellAddr) :
    Holds m e (match o with
      | some x => (Machine.setTask a (some (.putaway b .toCell (some x))) (Machine.reserve e x b .putAway y), true)
      | none => (Machine.endTask e a (Machine.setTask a (some (.putaway b .choose none)) y), false)).1 := by
  cases o with
  | some x => exact (h.reserve _ _ _).setTask a _
  | none => exact (h.setTask a _).endTask a

theorem putawayStep (h : Holds m e y) (a : Aisle) (b : Nat) (st : PStep) (x : Option CellAddr) :
    Holds m e (putawayStep e a b st x y).1 := by
  unfold Machine.putawayStep
  cases st with
  | toMouth => exact h.travelThen a _ _ fun z hz => hz.setTask a _
  | takeInbound => exact h.beginSeg _ _ _ _ _
  | choose => exact h.putawayChoice a b _
  | toCell =>
    cases x with
    | some c => exact h.travelThen a _ _ fun z hz => hz.setTask a _
    | none => exact h.putawayChoice a b _
  | putCell =>
    cases x with
    | some c =>
      dsimp only
      split
      · exact h.beginSeg _ _ _ _ _
      · exact (h.freeCell c).putawayChoice a b _
    | none => exact h.putawayChoice a b _

theorem surveyEnd (h : Holds m e y) (a : Aisle) (r : SurveyRun) : Holds m e (surveyEnd e a r y) := by
  unfold Machine.surveyEnd
  extract_lets pass w
  refine Holds.notify ?_ _ _
  unfold w
  split
  · exact (h.modVerif a _).verifyEdge a
  · exact h

theorem finishSurvey (h : Holds m e y) (a : Aisle) (r : SurveyRun) : Holds m e (finishSurvey e a r y) :=
  (h.modCarrier a).surveyEnd a r

theorem surveyStep (h : Holds m e y) (a : Aisle) (r : SurveyRun) : Holds m e (surveyStep e a r y).1 := by
  unfold Machine.surveyStep
  split
  · dsimp only
    exact h.modCarrier a
  · split
    · exact h.finishSurvey a r
    · exact (h.setTask a _).travelThen a _ _ fun z hz => (hz.setTask a _).beginSeg _ _ _ _ _

theorem parkDone (h : Holds m e y) (a : Aisle) : Holds m e (parkDone a y) := h.modCarrier a

theorem parkStep (h : Holds m e y) (a : Aisle) (t : Task) : Holds m e (parkStep e a t y).1 := by
  unfold Machine.parkStep
  split
  · exact h.travelThen a _ _ fun z hz => hz.setTask a _
  · split
    · exact h.beginSeg _ _ _ _ _
    · exact (h.releaseCell _).setTask a _
  · exact h.travelThen a _ _ fun z hz => hz.parkDone a
  · exact h.beginSeg _ _ _ _ _
  · exact h

theorem planStep (h : Holds m e y) (a : Aisle) (t : Task) : Holds m e (planStep e a t y).1 := by
  cases t with
  | retrieve no b x st sh => exact h.retrieveStep a no b x st sh
  | putaway b st x => exact h.putawayStep a b st x
  | survey r => exact h.surveyStep a r
  | _ => exact h.parkStep a _

theorem runSteps (h : Holds m e y) (a : Aisle) (n : Nat) : Holds m e (runSteps e a n y) := by
  induction n generalizing y with
  | zero => exact h
  | succ n ih =>
    unfold Machine.runSteps
    split
    · exact h.setSt a _
    next t ht =>
      have hs := h.planStep a t
      split
      next z hz => rw [hz] at hs; exact ih hs
      next z hz => rw [hz] at hs; exact hs

theorem runPlan (h : Holds m e y) (a : Aisle) : Holds m e (runPlan e a y) := h.runSteps a 12

/-! ## Park plans, and what a carrier does next -/

theorem setAside (h : Holds m e y) (a : Aisle) (t : Option Task) : Holds m e (setAside e a t y) := by
  unfold Machine.setAside
  extract_lets z
  have hz : Holds m e z := ((h.releaseTask a t).tellOrder t).leaveMerge a
  split
  · exact hz
  · exact hz.evalOrders

theorem takePark (h : Holds m e y) (a : Aisle) : Holds m e (takePark e a y) := by
  unfold Machine.takePark
  extract_lets w v c col u t
  have hu : Holds m e u := (((h.unsuspend a).abortSurvey a).setAside a _).modCarrier a
  refine Holds.runPlan ?_ a
  unfold t
  split
  · split
    · exact (hu.reserve _ _ _).setTask a _
    · exact hu
  · exact hu

theorem advance (h : Holds m e y) (a : Aisle) : Holds m e (advance e a y) := by
  unfold Machine.advance
  split
  · exact h.runPlan a
  · split
    · exact h.runPlan a
    · exact h.endTask a
  · exact h.setSt a _
  · exact h.setSt a _
  · split
    · exact h.runPlan a
    · exact h.takePark a
  · exact (h.abortSurvey a).endTask a
  · exact (h.abortSurvey a).endTask a
  · exact (h.abortSurvey a).endTask a

theorem tookBin (h : Holds m e y) (a : Aisle) : Holds m e (tookBin a y) := by
  unfold Machine.tookBin
  split
  · exact h.setTask a _
  · exact h.setTask a _
  · exact h.setTask a _
  · exact h

theorem missedBin (h : Holds m e y) (a : Aisle) : Holds m e (missedBin e a y) := by
  unfold Machine.missedBin
  split
  · exact (h.releaseTask a _).setTask a _
  · exact ((h.releaseTask a _).tellOrder _).setTask a _

theorem putBinDown (h : Holds m e y) (a : Aisle) : Holds m e (putBinDown a y) := by
  unfold Machine.putBinDown
  split
  · exact h.setTask a _
  · exact h.setTask a _
  · exact h.setTask a _
  · exact h

theorem putawayEnds (h : Holds m e y) (t : Option Task) : Holds m e (putawayEnds e t y) := by
  unfold Machine.putawayEnds
  split
  · exact ((h.evalBin _).retireCourse).trayChoices
  · exact h

theorem readDone (h : Holds m e y) (a : Aisle) (n s : SideRead) : Holds m e (readDone e a n s y) := by
  unfold Machine.readDone
  split
  · split
    next p rest _ _ =>
      have hr := h.reconcile a p n s
      dsimp only
      split
      · exact ((hr _).finishSurvey a _).advance a
      · exact ((hr _).setTask a _).advance a
    · exact h.advance a
  · exact h.advance a

theorem travelDone (h : Holds m e y) (a : Aisle) (p : Nat × Nat) : Holds m e (travelDone e a p y) := by
  unfold Machine.travelDone
  extract_lets w
  have hw : Holds m e w := h.setPos a p
  refine Holds.advance ?_ a
  split
  · exact hw.unsuspend a
  · exact hw

/-! ## Hold, Parking and Halt -/

theorem holdCarrier (h : Holds m e y) (a : Aisle) : Holds m e (holdCarrier a y) := by
  unfold Machine.holdCarrier
  extract_lets c
  split
  · exact (h.leaveMerge a).setSt a _
  · exact h

theorem clearMove (h : Holds m e y) (a : Aisle) : Holds m e (clearMove e a y) := (h.modCarrier a).runPlan a

theorem resumeCarrier (h : Holds m e y) (a : Aisle) : Holds m e (resumeCarrier e a y) := by
  unfold Machine.resumeCarrier
  split
  · exact h.runPlan a
  · exact h

theorem parkCarrier (h : Holds m e y) (a : Aisle) : Holds m e (parkCarrier e a y) := by
  unfold Machine.parkCarrier
  extract_lets c
  split
  · exact h
  · exact h
  · exact h
  · exact h
  · split
    · exact h.takePark a
    · exact h

end Holds
end Sys2Proof.Machine
end

