-- ==== Sys2Proof/Proofs/Strokes.lean ====
section
/-! PROOF. The strokes of the forks: bins taken from cells and inbound places, and put down (R48 to R52, R57). -/

namespace Sys2Proof.Machine

open Sys2Proof

-- Default arguments given by tactics wait for the kernel: one theorem at a time, so that few wait at once.
set_option Elab.async false

variable {m : Kind} {e : Env} {y z : Yard}

theorem Kind.keep_restrict (m : Kind) (K : Nat → Prop) (F : Place → Nat → Prop) :
    (m.keep K).restrict F = (m.restrict F).keep K := by cases m <;> rfl

/-- A record of standing in a place is not one that `ensureBin` has made. -/
theorem inPlace_of_ensureBin {b : Nat} {r : Bin} (hr : getBin b (ensureBin b y) = some r) (hin : inPlace r = true) :
    getBin b y = some r := by
  unfold ensureBin at hr
  split at hr
  · have hr : getBin b (attrChange b (putBin b ⟨100, 0, .unverified, none, none, none, true, false, none⟩ y)) = some r := hr
    rw [getBin_congr (attrChange_bins _ _), getBin_putBin_same] at hr
    cases hr
    simp [inPlace] at hin
  · split at hr
    · rw [getBin_congr (attrChange_bins _ _), getBin_putBin_same] at hr
      cases hr
      simp [inPlace] at hin
    · exact hr

/-- No Occupied cell is at an address. -/
abbrev Vacant (m : Kind) (x : CellAddr) (y : Yard) : Prop :=
  IfPlaces m fun _ _ => ∀ k b, kget y.cells k = some (.occupied b) → cellOfCode k ≠ some x

namespace Holds

/-! ## Cells that a stroke has changed -/

theorem vacant_setCell (h : Holds m e y) (x : CellAddr) {c : Cell} (hc : ∀ d, c ≠ .occupied d) :
    Vacant m x (Machine.setCell e x c y) := by
  cases m with
  | places => exact fun k b hk hx => hc b (occupied_setCell h hk hx)
  | _ => trivial

theorem leaveOther (h : Holds m e y) (b : Nat) (x : CellAddr) : Holds m e (leaveOther e b x y) := by
  unfold Machine.leaveOther
  split
  · split
    · exact h
    · exact h.setCell _ fun _ => by simp
  · exact h

theorem getBin_leaveOther (b : Nat) (x : CellAddr) (y : Yard) : getBin b (Machine.leaveOther e b x y) = getBin b y := by
  unfold Machine.leaveOther
  split
  · split
    · rfl
    · exact getBin_setCell _ _ _ _
  · rfl

/-- A bin that has left a cell, and every other, is in none. -/
theorem leaveOther_free (h : Holds m e y) (b : Nat) {x : CellAddr} (hx : Vacant m x y) :
    IfPlaces m fun _ _ => ∀ k, kget (Machine.leaveOther e b x y).cells k ≠ some (.occupied b) := by
  unfold Machine.leaveOther
  cases hsc : storedCell b y with
  | none =>
    cases m with
    | places =>
      intro k hk
      obtain ⟨r, a, hr, hst, hcell, -⟩ := h.placed.stored k b hk
      rw [storedCell_of_record hr hst, hcell] at hsc
      cases hsc
    | _ => trivial
  | some w =>
    dsimp only
    split
    next hwx =>
      cases m with
      | places =>
        intro k hk
        obtain ⟨r, a, hr, hst, hcell, hcode⟩ := h.placed.stored k b hk
        rw [storedCell_of_record hr hst, hcell] at hsc
        cases hsc
        exact hx k b hk (hwx ▸ hcode)
      | _ => trivial
    next =>
      refine h.setCell_free (fun _ => by simp) ?_
      cases m with
      | places => exact fun r hr hst => (storedCell_of_record hr hst).symm.trans hsc
      | _ => trivial

/-- The bin that a stroke expected of a cell is lost with the cell's change. -/
theorem loseFrom (h : Holds m e y) (x : CellAddr) (b : Nat) (last : Option CellAddr) {c : Cell} (hc : ∀ d, c ≠ .occupied d) :
    Holds m e (loseFrom b x last (Machine.setCell e x c y)) := by
  have hs := h.setCell x hc
  unfold Machine.loseFrom
  split
  next r hr =>
    split
    next hcell =>
      rw [getBin_setCell] at hr
      refine hs.lostRecord b last ?_ (h.setCell_free hc ?_)
      · cases m with
        | places =>
          intro q hq
          rw [getBin_setCell, hr] at hq
          cases hq
          by_contra hin
          simp only [Bool.not_eq_false] at hin
          rw [h.placed.noCell b r hr hin] at hcell
          cases hcell
        | _ => trivial
      · cases m with
        | places =>
          intro q hq _
          rw [hr] at hq
          cases hq
          exact hcell
        | _ => trivial
    · exact hs
  · exact hs

theorem vacant_loseFrom {x : CellAddr} {b : Nat} {last : Option CellAddr} (h : Vacant m x y) :
    Vacant m x (Machine.loseFrom b x last y) := by
  unfold Machine.loseFrom
  split
  · split
    · rw [Machine.binLost, modBin_frame]; exact h
    · exact h
  · exact h

/-! ## Bins onto a fork -/

theorem onFork {a : Aisle} {b : Nat} (h : Holds (m.without b) e y) (hm : Movable m b y) (hw : m.Whole) :
    Holds m e (onFork a b y) := by
  unfold Machine.onFork
  rw [modBin_comm b _ (Machine.modCarrier a fun c => { c with load := some b }) y]
  exact h.arrives hm (hw.may (.fork a) b) (fun _ => rfl) .toFork

theorem forkTakes (h : Holds m e y) (hw : m.Whole) (a : Aisle) {b : Nat} (hb : binOk b = true)
    (hfree : IfPlaces m fun _ _ => ∀ k, kget y.cells k ≠ some (.occupied b)) : Holds m e (forkTakes e a b y) := by
  unfold Machine.forkTakes
  split
  next hin =>
    extract_lets w
    have hkeep : Holds (m.keep (· = b)) e y := by
      obtain ⟨r, hr, hin⟩ := Option.map_eq_some_iff.1 hin
      refine h.keep ?_
      cases m with
      | places => exact fun d hd => hd ▸ ⟨r, hr, hin⟩
      | _ => trivial
    have htake := hkeep.takeFromPlaces b
    rw [Kind.without, Kind.keep_restrict] at htake
    have hwy : Holds m e w := (unkeep _ htake).onFork htake.handMovable hw
    split
    · exact hwy.orderToQueue _
    · exact hwy
  next hnot =>
    have hout : Holds (m.without b) e y := h.restrict <| by
      cases m with
      | places =>
        intro p x hx hxb
        refine (nowhere_of_record h.placed (b := b) fun r hr => ?_).2 p (hxb ▸ hx)
        by_contra hin
        simp only [Bool.not_eq_false] at hin
        exact hnot (by rw [hr]; simp [hin])
      | _ => trivial
    refine (hout.ensureBin hb).onFork ?_ hw
    cases m with
    | places => exact ⟨getBin_ensureBin b y, by rw [ensureBin_cells]; exact hfree⟩
    | _ => trivial

/-! ## Unsettled strokes -/

/-- A carrier's load is taken from its fork. -/
theorem unload (h : Holds m e y) {a : Aisle} {b : Nat} (hb : y.carriers[a].load = some b) :
    Holds (m.inHand b) e (Machine.modCarrier a (fun c => { c with load := none }) y) := by
  refine h.pickUp (at_fork.2 hb) (.modCarrier fun _ h => by cases h) ?_
  rw [at_fork]
  simp only [Machine.modCarrier, vset_get, if_true]
  simp

theorem unsettled (h : Holds m e y) (hw : m.Whole) (a : Aisle) (s : Segment) : Holds m e (unsettled e a s y) := by
  unfold Machine.unsettled
  split
  · split
    · exact h.loseFrom _ _ _ fun _ => by simp
    · exact h
  · split
    next b hb => exact ((h.unload hb).setCell _ fun _ => by simp).handLost hw.free _
    next => exact h.releaseCell _
  · exact h.endGrant a
  · exact h

/-! ## Completions -/

theorem mismatched (h : Holds m e y) {x : CellAddr} {b : Nat} (hb : binOk b = true) (hx : Vacant m x y) :
    Holds m e (mismatched e x b y) := by
  have key : ∀ {w}, Holds m e w → (∀ r, getBin b w = some r → inPlace r = false) →
      (IfPlaces m fun _ _ => ∀ k, kget w.cells k ≠ some (.occupied b)) →
      Holds m e (Machine.binLost b (some x) (Machine.ensureBin b w)) := fun {w} hw hplace hfree => by
    refine (hw.ensureBin hb).lostRecord b _ ?_ ?_
    · cases m with
      | places =>
        intro r hr
        by_contra hin
        simp only [Bool.not_eq_false] at hin
        rw [hplace r (inPlace_of_ensureBin hr hin)] at hin
        cases hin
      | _ => trivial
    · rw [ensureBin_cells]; exact hfree
  unfold Machine.mismatched
  split
  next r hr =>
    split
    · exact h
    next hin =>
      refine key (h.leaveOther b x) (fun q hq => ?_) (h.leaveOther_free b hx)
      rw [getBin_leaveOther, hr] at hq
      cases hq
      simpa using hin
  next hnone =>
    refine key h (fun q hq => by rw [hnone] at hq; cases hq) ?_
    cases m with
    | places =>
      intro k hk
      obtain ⟨r, -, hr, -⟩ := h.placed.stored k b hk
      rw [hnone] at hr
      cases hr
    | _ => trivial

theorem forkInCell (h : Holds m e y) (hw : m.Whole) (a : Aisle) (x : CellAddr) (b : Nat) (t : TagRead)
    (ht : ∀ f, t = .bin f → binOk f = true) : Holds m e (forkInCell e a x b t y) := by
  unfold Machine.forkInCell
  split
  next f =>
    split
    next hfb =>
      have hs := h.setCell x (c := .empty) fun _ => by simp
      exact (((hs.leaveOther b x).forkTakes hw a (hfb ▸ ht f rfl) (hs.leaveOther_free b (h.vacant_setCell x fun _ => by simp))).tookBin a).advance a
    next =>
      refine Holds.enterFaulted ?_ a _ _
      exact (h.loseFrom x b none fun _ => by simp).mismatched (ht f rfl) (vacant_loseFrom (h.vacant_setCell x fun _ => by simp))
  · exact (((h.loseFrom x b none fun _ => by simp).noticeNotFound a _ b).missedBin a).advance a
  · exact (h.loseFrom x b (some x) fun _ => by simp).enterFaulted a _ _

theorem clearInbound (h : Holds m e y) (a : Aisle) : Holds m e (clearInbound a y) :=
  h.modLines (hi := fun l x b hb => by
    rw [vset_get] at hb
    split at hb
    · cases hb
    · exact hb)

theorem loseInbound (h : Holds m e y) (hf : m.Free) (a : Aisle) : Holds m e (loseInbound e a y) := by
  unfold Machine.loseInbound
  split
  · exact h
  next b hb =>
    extract_lets w
    have hw : Holds m e w := h.clearInbound a
    have hhand : Holds (m.inHand b) e w := by
      refine ((h.only (at_inbound.2 hb)).clearInbound a).gone ?_
      rw [at_inbound]
      simp only [Machine.clearInbound, Machine.modLines, vset_get, if_true]
      simp
    clear_value w
    split
    · split
      · exact hhand.handLose hf
      · exact hw
    · exact hw

theorem leaveInbound (h : Holds m e y) (a : Aisle) (b : Nat) : Holds m e (leaveInbound a b y) := by
  unfold Machine.leaveInbound
  split
  · exact h.clearInbound a
  · exact h

theorem forkInInbound (h : Holds m e y) (hw : m.Whole) (a : Aisle) (b : Nat) (t : TagRead)
    (ht : ∀ f, t = .bin f → binOk f = true) : Holds m e (forkInInbound e a b t y) := by
  unfold Machine.forkInInbound
  split
  next f =>
    split
    next hfb =>
      have hl := h.leaveInbound a b
      exact (((hl.leaveCell b fun _ => by simp).forkTakes hw a (hfb ▸ ht f rfl) (hl.leaveCell_free b fun _ => by simp)).tookBin a).advance a
    next =>
      refine Holds.enterFaulted ?_ a _ _
      exact (h.loseInbound hw.free a).placeBin (ht f rfl) (fun _ => by simp) (hw.may (.inbound a) f) (fun _ => rfl) fun _ => ⟨.toInbound, rfl⟩
  · exact (((h.loseInbound hw.free a).noticeNotFound a _ b).missedBin a).advance a
  · exact h.enterFaulted a _ _

theorem forkOutDone (h : Holds m e y) (hw : m.Whole) (a : Aisle) (x : CellAddr) : Holds m e (forkOutDone e a x y) := by
  unfold Machine.forkOutDone
  extract_lets t w
  refine Holds.putawayEnds (((?_ : Holds m e w).putBinDown a).advance a) t
  unfold w
  split
  next b hb => exact (h.unload hb).handStored hw.free x
  next => exact h.releaseCell x

theorem mergeDone (h : Holds m e y) (hw : m.Whole) (a : Aisle) : Holds m e (mergeDone e a y) := by
  unfold Machine.mergeDone
  extract_lets c w
  have hwy : Holds m e w := (h.endGrant a).setTask a none
  split
  next b o hb ho =>
    have hat : At b (.fork a) w := by
      rw [at_fork]
      simp only [w, Machine.setTask, Machine.endGrant, Machine.modLines, Machine.modCarrier, vset_get, if_true]
      exact hb
    dsimp only
    rw [modBin_comm b _ (Machine.modLines fun l => { l with delivery := l.delivery ++ [⟨b, o.station, some a⟩] })
      (Machine.modCarrier a (fun c => { c with load := none }) w)]
    refine (Holds.modOrder ?_ _).advance a
    exact (hwy.unload (at_fork.1 hat)).putDown (hw.may .delivery b) (fun _ => rfl) .toDelivery
  · exact hwy.advance a

end Holds

theorem binOk_of_tagRead {r : SegReport} {f : Nat} (h : tagRead r = .bin f) : binOk f = true := by
  unfold tagRead at h
  split at h
  · split at h
    next hok => cases h; exact hok
    next => cases h
  next t hnot => exact absurd h (hnot f)
  · cases h

namespace Holds

theorem segReported (h : Holds m e y) (hw : m.Whole) (a : Aisle) (s : Segment) (r : SegReport) :
    Holds m e (segReported e a s r y) := by
  unfold Machine.segReported
  split
  · exact h.travelDone a _
  · exact h.forkInCell hw a _ _ _ fun _ => binOk_of_tagRead
  · exact h.forkInInbound hw a _ _ fun _ => binOk_of_tagRead
  · exact h.forkOutDone hw a _
  · exact h.mergeDone hw a
  · split
    · exact h.readDone a _ _
    · exact h.readDone a _ _
  · split
    · exact h.setPos a _
    · exact h
  · exact h.advance a

theorem segDone (h : Holds m e y) (hw : m.Whole) (a : Aisle) (s : Segment) (r : SegReport) : Holds m e (segDone e a s r y) :=
  ((h.segEnded a).segReported hw a s r).choicesWhen _

theorem segFaulted (h : Holds m e y) (hw : m.Whole) (a : Aisle) (s : Segment) (f : DriveFault) :
    Holds m e (segFaulted e a s f y) := by
  unfold Machine.segFaulted
  extract_lets reason z z'
  have hz : Holds m e z := (h.segEnded a).send _
  refine Holds.choicesWhen (Holds.enterFaulted ?_ a _ _) _
  unfold z'
  split
  · split
    · exact hz.setDamaged _
    · exact hz
  · exact hz.unsettled hw a s

theorem segLate (h : Holds m e y) (hw : m.Whole) (a : Aisle) (s : Segment) : Holds m e (segLate e a s y) :=
  ((((h.segEnded a).send _).unsettled hw a s).enterFaulted a _ _).choicesWhen _

theorem cutSegment (h : Holds m e y) (hw : m.Whole) (a : Aisle) (s : Segment) : Holds m e (cutSegment e a s y) := by
  unfold Machine.cutSegment
  extract_lets w g v
  have hv : Holds m e v := (((h.segEnded a).unsettled hw a s).unsuspend a).modCarrier a
  exact (hv.send _).abortSurvey a

theorem haltCarrier (h : Holds m e y) (hw : m.Whole) (a : Aisle) : Holds m e (haltCarrier e a y) := by
  unfold Machine.haltCarrier
  extract_lets c
  split
  · exact h
  · exact h
  · exact h.send _
  · exact h.send _
  · split
    · exact h.cutSegment hw a _
    · exact ((((h.unsuspend a).leaveMerge a).setSt a _).send _).abortSurvey a

theorem powerCut (h : Holds m e y) (hw : m.Whole) (a : Aisle) : Holds m e (powerCut e a y) := by
  unfold Machine.powerCut
  split
  · split
    · exact h
    · exact h.cutSegment hw a _
  · exact h

theorem carrierOffline (h : Holds m e y) (hw : m.Whole) (a : Aisle) : Holds m e (carrierOffline e a y) := by
  unfold Machine.carrierOffline
  extract_lets w c v u t
  have hwy : Holds m e w := ((h.leaveMerge a).unsuspend a).segEnded a
  have chain : ∀ {n : Kind}, Holds n e w → Holds n e u := fun hn => by
    have hv : Holds _ e v := (hn.abortSurvey a).releaseTask a c.task
    unfold u
    split
    · exact hv
    · exact hv.tellOrder _
  have ht : ∀ {n : Kind}, Holds n e w → Holds n e t := fun hn => (chain hn).modCarrier a (hf := fun _ _ h => by cases h)
  split
  next b hb =>
    refine ((ht (hwy.only (at_fork.2 hb))).gone ?_).handLost hw.free none
    rw [at_fork]
    simp only [t, Machine.modCarrier, vset_get, if_true]
    simp
  next => exact ht hwy

end Holds
end Sys2Proof.Machine
end

