-- ==== Sys2Proof/Proofs/Settling.lean ====
section
/-! PROOF. The arbiters, the settling of the yard, the marked records and the writer keep the invariants. -/

namespace Sys2Proof.Machine

open Sys2Proof

-- Default arguments given by tactics wait for the kernel: one theorem at a time, so that few wait at once.
set_option Elab.async false

variable {m : Kind} {e : Env} {y z : Yard}

namespace Holds

/-! ## The arbiters (R63 to R65, R95) -/

theorem wingFull (h : Holds m e y) (a : Aisle) (b : Nat) (c : Bool) : Holds m e (wingFull e a b c y) := by
  unfold Machine.wingFull
  split
  · exact h
  · exact (h.modArb a _).notify _ _

theorem clearFull (h : Holds m e y) (a : Aisle) : Holds m e (clearFull e a y) := by
  unfold Machine.clearFull
  split
  · exact h.modArb a _
  · exact h

theorem beginTask (h : Holds m e y) (a : Aisle) (t : Task) : Holds m e (beginTask e a t y) := (h.setTask a _).runPlan a

theorem beginSurvey (h : Holds m e y) (a : Aisle) (q : SurveyReq) : Holds m e (beginSurvey e a q y) :=
  (h.modArb a _).beginTask a _

theorem beginRetrieve (h : Holds m e y) (a : Aisle) (o : Order) : Holds m e (beginRetrieve e a o y) := by
  unfold Machine.beginRetrieve
  split
  · dsimp only
    split
    · exact ((h.modOrder _).reserve _ _ _).beginTask a _
    · exact (h.modOrder _).beginTask a _
  · exact h

theorem chooseWork (h : Holds m e y) (a : Aisle) : Holds m e (chooseWork e a y) := by
  unfold Machine.chooseWork
  extract_lets orders first
  clear_value first
  have retrieve : ∀ {w}, Holds m e w → Holds m e (match first with | some o => Machine.beginRetrieve e a o w | none => w) := by
    intro w hw
    cases first with
    | some o => exact hw.beginRetrieve a o
    | none => exact hw
  split
  · split
    · split
      · exact h.beginTask a _
      · exact retrieve h
    · exact retrieve (h.wingFull a _ _)
  · exact retrieve h

theorem choose (h : Holds m e y) (a : Aisle) : Holds m e (choose e a y) := by
  unfold Machine.choose
  split
  · split
    · split
      · split
        · exact h.beginTask a _
        · exact h.wingFull a _ _
      · split
        · exact h.beginSurvey a _
        · exact h.chooseWork a
    · split
      · exact h.beginSurvey a _
      · exact h
    · exact h
  · exact h

theorem chooseAll (h : Holds m e y) : Holds m e (chooseAll e y) := h.foldl _ fun _ a _ h => (h.clearFull a).choose a

theorem mergeTest (h : Holds m e y) : Holds m e (mergeTest e y) := by
  unfold Machine.mergeTest
  split
  · exact h
  next a t _ =>
    split
    · extract_lets w
      have hw : Holds m e w := h.modLines
      clear_value w
      split
      · exact hw.beginTask a _
      · exact hw.endGrant a
    · exact h

theorem readyEdge (h : Holds m e y) (a : Aisle) : Holds m e (readyEdge e a y) := by
  unfold Machine.readyEdge
  extract_lets now was w
  have hw : Holds m e w := h.modArb a _
  split
  · exact hw.notify _ _
  · exact hw

/-! ## Settling -/

theorem settlePass (h : Holds m e y) : Holds m e (settlePass e y) := by
  unfold Machine.settlePass
  extract_lets u v w
  have hv : Holds m e v := h.syncRoles.foldl _ fun _ a _ h => (h.verifyEdge a).readyEdge a
  exact ((((hv.evalOrders).retireCourse).syncAutos).chooseAll.mergeTest).lineTests

theorem settle (h : Holds m e y) : Holds m e (settle e y) :=
  h.settlePass.settlePass.settlePass.settlePass.settlePass.settlePass

/-! ## The journal -/

theorem takeMark (h : Holds m e y) {k : JKey} (hk : KeyFits k) : Holds m e (takeMark e y k) := by
  unfold Machine.takeMark
  split
  next hc =>
    simp only [Bool.and_eq_true, decide_eq_true_eq] at hc
    exact h.modJournal fun hj => hj.take _ hc.1 hc.2 hk
  · exact h

theorem takeMarks (h : Holds m e y) : Holds m e (takeMarks e y) := by
  refine h.foldl _ fun z k hk hz => hz.takeMark (keyFits_of_ordered (j := y.journal) ?_)
  unfold takeable at hk
  split at hk
  · cases hk
  · split at hk
    · exact (List.mem_filter.1 hk).1
    · exact hk

theorem ctlRequest (h : Holds m e y) {w : CtlWrite} (hw : CtlOk m w) : Holds m e (ctlRequest w y) :=
  h.modJournal fun hj => hj.ctlAdd hw _

theorem beginSealing (h : Holds m e y) : Holds m e (beginSealing y) := h.modJournal fun hj => hj.light {}

theorem openJournal (h : Holds m e y) : Holds m e (openJournal y) := by
  refine h.modJournal fun hj => ?_
  have hplain : Plain (.sealed false) := fun v => by simp
  split
  · refine hj.light { ctl := fun w hw => ?_ }
    rcases List.mem_cons.1 hw with rfl | hw
    · exact .inr hplain
    · exact .inl hw
  · refine hj.light { ctl := fun w hw => ?_ }
    rcases List.mem_append.1 hw with hw | hw
    · exact .inl hw
    · exact .inr (by rw [List.mem_singleton.1 hw]; exact hplain)

/-! ## Surveys that are dropped -/

theorem dropRequest (h : Holds m e y) (a : Aisle) : Holds m e (dropRequest e a y) := by
  unfold Machine.dropRequest
  split
  · exact h
  · exact (h.modArb a _).surveyAborted _ _ _

end Holds
end Sys2Proof.Machine
end

