-- ==== Sys2Proof/Proofs/WingKept.lean ====
section
/-! PROOF. The invariants of the yard at the level of the whole state, and the wing's entries and arrivals (chapter 10). -/

namespace Sys2Proof.Machine

open Sys2Proof

-- Default arguments given by tactics wait for the kernel: one theorem at a time, so that few wait at once.
set_option Elab.async false

variable {m : Kind} {e e' : Env} {y : Yard} {s t : State}

/-- An invariant holds of a state's yard, with the settings and the wing state as they are. -/
def HoldsAt (m : Kind) (s : State) : Prop := Holds m (envOf s) s.yard

/-- The surroundings become others: the geometry one in which the listed cells lie, the idle timeout one in its range. -/
theorem Holds.toEnv (h : Holds m e y) (hg : IfLists m (GeometryFits e'.cfg.geometry))
    (hcells : IfPlaces m fun _ _ => ∀ k c, kget y.cells k = some c →
      ∃ a, cellOfCode k = some a ∧ inGeometry e'.cfg.geometry a = true)
    (hi : 30 ≤ e.cfg.idleTimeout → 30 ≤ e'.cfg.idleTimeout) (hw : e'.wing = .standby → e.wing = .standby) :
    Holds m e' y := by
  have tables : GeometryFits e'.cfg.geometry → Tables e y → Tables e' y := fun hg ht =>
    ⟨ht.cells, ht.bins, hg, ht.outbox, ht.orders, ht.trays, ht.placements⟩
  refine ⟨h.journal, ?_⟩
  cases m with
  | lists => exact tables hg h.yard
  | places =>
    have hp := h.placed
    exact ⟨tables hg h.tables, hp.delivery, hp.returns, hp.one, hp.there, hp.noCell, hp.stored, hcells, hp.allowed⟩
  | numbers => exact h.yard
  | sessions => exact ⟨hi h.yard.timeout, fun h' => h.yard.rest (hw h')⟩

/-- The idle timeout, where the geometry stays, may change within its range. -/
theorem Holds.env (h : Holds m e y) (hg : e'.cfg.geometry = e.cfg.geometry)
    (hi : 30 ≤ e.cfg.idleTimeout → 30 ≤ e'.cfg.idleTimeout) (hw : e'.wing = .standby → e.wing = .standby) :
    Holds m e' y := by
  refine h.toEnv (hg ▸ h.geometryFits) ?_ hi hw
  cases m with
  | places => exact hg ▸ h.placed.within
  | _ => trivial

namespace HoldsAt

theorem onYard (h : HoldsAt m s) {f : Env → Yard → Yard} (hf : ∀ {e y}, Holds m e y → Holds m e (f e y)) :
    HoldsAt m (onYard f s) := hf h

theorem setYard (h : HoldsAt m s) {f : Yard → Yard} (hf : ∀ {e y}, Holds m e y → Holds m e (f y)) :
    HoldsAt m { s with yard := f s.yard } := hf h

theorem setLink (h : HoldsAt m s) (k : Link) : HoldsAt m { s with link := k } := h

theorem modSweep (h : HoldsAt m s) (f : Sweep → Sweep) : HoldsAt m (modSweep f s) := h

theorem modWing (h : HoldsAt m s) {f : Wing → Wing} (hf : (f s.wing).st = .standby → s.wing.st = .standby := by exact fun h => h) :
    HoldsAt m (modWing f s) := h.env rfl id hf

theorem notifyS (h : HoldsAt m s) (k : NoticeKind) (l : List Fld) : HoldsAt m (notifyS k l s) := h.onYard fun h => h.notify k l

theorem answer (h : HoldsAt m s) (id : Nat) (c : ReplyCode) (l : List Fld) : HoldsAt m (answer id c l s) := h

theorem foldl {α : Type} {f : State → α → State} (h : HoldsAt m s) (l : List α)
    (hf : ∀ t x, HoldsAt m t → HoldsAt m (f t x)) : HoldsAt m (l.foldl f s) := by
  induction l generalizing s with
  | nil => exact h
  | cons x t ih => exact ih (hf s x h)

theorem eachStation (h : HoldsAt m s) {f : Env → Station → Yard → Yard}
    (hf : ∀ {e y} st, Holds m e y → Holds m e (f e st y)) : HoldsAt m (eachStation f s) :=
  h.onYard fun h => h.foldl _ fun _ st _ h => hf st h

theorem eachAisleOf (h : HoldsAt m s) {f : Env → Aisle → Yard → Yard}
    (hf : ∀ {e y} a, Holds m e y → Holds m e (f e a y)) :
    HoldsAt m (Machine.onYard (fun e y => aisles.foldl (fun y a => f e a y) y) s) :=
  h.onYard fun h => h.foldl _ fun _ a _ h => hf a h

/-! ## Notices and incidents -/

theorem noticeState (h : HoldsAt m s) (a b : WingSt) : HoldsAt m (noticeState a b s) := h.notifyS _ _

theorem incidentUpdate (h : HoldsAt m s) (l : List Fld) : HoldsAt m (incidentUpdate l s) := h.notifyS _ _

theorem modIncident (h : HoldsAt m s) (f : Incident → Incident) : HoldsAt m (modIncident f s) := h.modWing

theorem setWing (h : HoldsAt m s) {st : WingSt} (hst : st ≠ .standby) : HoldsAt m (setWing st s) := by
  unfold Machine.setWing
  extract_lets before ids withdrawn t
  have ht : HoldsAt m t := ((h.modWing (f := fun w => { w with st := st }) fun h => absurd h hst).noticeState before st).modSweep keepRunning
  split
  · exact ht.foldl _ fun _ id h => h.answer id .busy []
  · exact ht

theorem openIncident (h : HoldsAt m s) (src : Source) (l : Level) : HoldsAt m (openIncident src l s) := by
  unfold Machine.openIncident
  extract_lets no now r t u
  have ht : HoldsAt m t := h.modWing
  have hu : HoldsAt m u := ht.setYard fun h => h.ctlRequest (Plain.ok (w := .incident no) (fun v => by simp) m)
  exact hu.incidentUpdate _

theorem recordTrigger (h : HoldsAt m s) (src : Source) (l : Level) : HoldsAt m (recordTrigger src l s) := by
  unfold Machine.recordTrigger
  split
  · exact h
  · split
    · dsimp only
      split
      · exact (h.modIncident _).incidentUpdate _
      · exact (h.modIncident _).incidentUpdate _
    · exact h

theorem closeIncident (h : HoldsAt m s) : HoldsAt m (closeIncident s) := by
  unfold Machine.closeIncident
  split
  · exact h
  · split
    · exact (h.modIncident _).incidentUpdate _
    · exact h

theorem obstruct (h : HoldsAt m s) : HoldsAt m (obstruct s) := by
  unfold Machine.obstruct
  split
  · exact h
  · exact (h.modIncident _).incidentUpdate _

/-! ## Entries -/

theorem dropUnreported (h : HoldsAt m s) (hw : m.Whole) : HoldsAt m (dropUnreported s) :=
  h.onYard fun h => h.foldl _ fun _ a _ h => by
    split
    · exact h
    · exact h.carrierOffline hw a

theorem enterNormal (h : HoldsAt m s) : HoldsAt m (enterNormal s) := by
  unfold Machine.enterNormal
  extract_lets t u
  have ht : HoldsAt m t := (h.modWing (f := dropTimers)).setWing (by simp)
  have hu : HoldsAt m u := ht.eachAisleOf fun a h => h.resumeCarrier a
  exact (hu.eachStation fun st h => h.putOffExpiries st).eachStation fun st h => h.levelEdge st

theorem returnNormal (h : HoldsAt m s) : HoldsAt m (returnNormal s) := h.closeIncident.enterNormal

theorem followClearing (h : HoldsAt m s) : HoldsAt m (followClearing s) := by
  unfold Machine.followClearing
  split
  · split
    · exact h
    · exact h.setWing (by simp)
  · split
    · split
      · exact h.returnNormal
      · exact h.setWing (by simp)
    · exact h
  · exact h

theorem startHoldTimer (h : HoldsAt m s) : HoldsAt m (startHoldTimer s) := h.modWing

theorem enterHold (h : HoldsAt m s) : HoldsAt m (enterHold s) := by
  unfold Machine.enterHold
  extract_lets t u inside list v w x
  have ht : HoldsAt m t := (h.modWing (f := dropTimers)).setWing (by simp)
  have hu : HoldsAt m u := ht.onYard fun h => (h.foldl _ fun _ a _ h => h.holdCarrier a).foldl _ fun _ st _ h => h.demandEnd st
  have hv : HoldsAt m v := by
    unfold v
    split
    · exact hu.obstruct
    · exact hu
  have hw : HoldsAt m w := by
    unfold w
    split
    · exact hv
    · exact hv.startHoldTimer
  have hx : HoldsAt m x := (hw.modWing (f := fun w => { w with clearing := list })).followClearing
  exact hx.onYard fun h => h.foldl _ fun _ p _ h => by
    split
    · exact h.clearMove _
    · exact h

theorem syncClearing (h : HoldsAt m s) (p : Aisle × ClearCond) : HoldsAt m (syncClearing s p) := by
  unfold Machine.syncClearing
  extract_lets drop
  have hdrop : HoldsAt m (drop s) := h.modWing
  split
  · exact h
  · split
    · exact hdrop.obstruct
    · exact hdrop
  · exact (h.modWing (f := fun w => { w with clearing := w.clearing.map fun q => if q.1 = p.1 then (q.1, .requested) else q })).onYard fun h => h.clearMove p.1

theorem clearingSync (h : HoldsAt m s) : HoldsAt m (clearingSync s) := by
  have hfold : HoldsAt m (s.wing.clearing.foldl Machine.syncClearing s) := h.foldl _ fun _ p h => h.syncClearing p
  unfold Machine.clearingSync
  split
  · exact hfold.followClearing
  · exact hfold.followClearing
  · exact h

theorem completeIncident (h : HoldsAt m s) (before : Yard) : HoldsAt m (completeIncident before s) :=
  (h.modIncident _).incidentUpdate _

theorem enterSealing (h : HoldsAt m s) (hw : m.Whole) (halt : Bool) : HoldsAt m (enterSealing halt s) := by
  unfold Machine.enterSealing
  extract_lets before a b c d f g i k
  have ha : HoldsAt m a := (h.modWing (f := fun w => { dropTimers w with halt := halt, drvPwr := false, shutClose := true })).setWing (by simp)
  have hb : HoldsAt m b := ha.eachStation fun st h => h.demandEnd st
  have hc : HoldsAt m c := by
    unfold c
    split
    · exact hb.onYard fun h => ((h.foldl _ fun _ a _ h => h.haltCarrier hw a).send _).send _
    · exact hb
  have hd : HoldsAt m d := hc.onYard fun h => h.foldl _ fun _ a _ h => (h.powerCut hw a).dropRequest a
  have hf : HoldsAt m f := hd.onYard fun h => (h.lineHalted .delivery).lineHalted .ret
  have hg : HoldsAt m g := hf.setYard fun h => h.ctlRequest (Plain.ok (fun v => by simp) m)
  have hi : HoldsAt m i := by
    unfold i
    split
    · exact hg.setYard fun h => h.ctlRequest (Plain.ok (fun v => by simp) m)
    · exact hg
  exact (hi.completeIncident before).setYard fun h => h.beginSealing

theorem enterSealed (h : HoldsAt m s) (r : FlushResult) : HoldsAt m (enterSealed r s) :=
  ((h.modIncident _).incidentUpdate _).setWing (by simp)

theorem enterParking (h : HoldsAt m s) : HoldsAt m (enterParking s) := by
  unfold Machine.enterParking
  extract_lets a b c
  have ha : HoldsAt m a := (h.modWing (f := fun w => { dropTimers w with parkTimer := some s.cfg.fire.parkDeadline })).setWing (by simp)
  have hb : HoldsAt m b := ha.eachStation fun st h => h.demandEnd st
  have hc : HoldsAt m c := hb.eachAisleOf fun a h => h.dropRequest a
  exact hc.eachAisleOf fun a h => h.parkCarrier a

theorem parkingSync (h : HoldsAt m s) (hw : m.Whole) : HoldsAt m (parkingSync s) := by
  unfold Machine.parkingSync
  split
  · exact h.enterSealing hw false
  · exact h

/-! ## Arrivals -/

theorem riseNormal (h : HoldsAt m s) (hw : m.Whole) (l : Level) : HoldsAt m (riseNormal l s) := by
  cases l with
  | hold => exact h.enterHold
  | park => exact h.enterParking
  | trip => exact h.enterSealing hw true
  | none => exact h

theorem riseRestarting (h : HoldsAt m s) (hw : m.Whole) (l : Level) : HoldsAt m (riseRestarting l s) := by
  have hd := h.dropUnreported hw
  cases l with
  | hold => exact hd.enterHold
  | park => exact hd.enterSealing hw false
  | trip => exact hd.enterSealing hw true
  | none => exact hd

theorem holdTimerSync (h : HoldsAt m s) (was now : Bool) : HoldsAt m (holdTimerSync was now s) := by
  unfold Machine.holdTimerSync
  split
  · exact h.startHoldTimer
  · split
    · exact h.modWing
    · exact h

theorem arrivalActs (h : HoldsAt m s) (hw : m.Whole) (src : Source) (rise : Option Level) (old new : Level) (was now : Bool) :
    HoldsAt m (arrivalActs src rise old new was now s) := by
  unfold Machine.arrivalActs
  extract_lets up traced
  have htraced : HoldsAt m traced := by
    unfold traced
    split
    · exact h.recordTrigger src _
    · exact h
  have hopen := h.openIncident src new
  split
  · split
    · exact hopen.enterSealing hw _
    · split
      · exact h.noticeState _ _
      · exact h
  · split
    · exact hopen.riseNormal hw new
    · exact h
  · split
    · exact htraced.enterParking
    · split
      · exact htraced.enterSealing hw true
      · exact htraced.holdTimerSync was now
  · split
    · exact htraced.enterParking
    · split
      · exact htraced.enterSealing hw true
      · exact htraced.holdTimerSync was now
  · split
    · exact htraced.enterSealing hw true
    · exact htraced
  · exact htraced
  · exact htraced
  · split
    · exact hopen.riseRestarting hw new
    · exact h

theorem arrival (h : HoldsAt m s) (hw : m.Whole) (src : Source) (rise : Option Level) : HoldsAt m (arrival src rise s) :=
  (h.modWing (f := fun w => { w with cause := _, holdCause := _ })).arrivalActs hw _ _ _ _ _ _

theorem panelArrives (h : HoldsAt m s) (hw : m.Whole) (i : PanelInput) (high : Bool) : HoldsAt m (panelArrives i high s) := by
  unfold Machine.panelArrives
  split
  · exact h
  · exact (h.modWing (f := fun w => { w with panel := setPanel w.panel i high })).arrival hw _ _

/-! ## What follows every command -/

theorem journalGo (h : HoldsAt m s) : HoldsAt m (journalGo s) :=
  (h.onYard fun h => h.takeMarks).setYard fun h => h.modJournal fun hj => hj.beginWrite _

theorem transmit (h : HoldsAt m s) : HoldsAt m (transmit s) := by
  unfold Machine.transmit
  split
  · exact h
  · split
    · exact h.setLink _
    · split
      · exact h.setLink _
      · split
        · exact Holds.light h { places := fun _ p hp => by cases p <;> exact hp }
        · exact h

theorem outputsSync (h : HoldsAt m s) : HoldsAt m (outputsSync s) := h.modWing

theorem finish (h : HoldsAt m s) (hw : m.Whole) : HoldsAt m (finish s) := by
  unfold Machine.finish
  extract_lets t u
  have ht : HoldsAt m t := h.clearingSync.parkingSync hw
  have hu : HoldsAt m u := ht.onYard fun h => h.takeMarks.settle.syncDisplays
  exact hu.journalGo.outputsSync.transmit

end HoldsAt
end Sys2Proof.Machine
end

