-- ==== Sys2Proof/Proofs/RequestsKept.lean ====
section
/-! PROOF. The effects of the requests keep the invariants of the yard. -/

namespace Sys2Proof.Machine

open Sys2Proof

-- Default arguments given by tactics wait for the kernel: one theorem at a time, so that few wait at once.
set_option Elab.async false

variable {m : Kind} {e : Env} {y : Yard} {s : State}

/-! ## Lend and Fetch (R73 to R77) -/

theorem mem_of_orderOf {no : Nat} {o : Order} (h : orderOf no y = some o) : o ∈ y.orders ∧ o.no = no :=
  ⟨List.mem_of_find?_eq_some h, by simpa using List.find?_some h⟩

/-- The order of a number is the only one. -/
theorem orderOf_unique (h : OrdersSafe y) {no : Nat} {o x : Order} (ho : orderOf no y = some o) (hx : x ∈ y.orders)
    (hno : x.no = no) : x = o := by
  obtain ⟨hm, hono⟩ := mem_of_orderOf ho
  exact List.inj_on_of_nodup_map h.numbers hx hm (hno.trans hono.symm)

/-- A bin of the wing with no live order may have one made. -/
theorem orderable_of_liveOrder (h : OrdersSafe y) {b : Nat} (hin : binInWing b y = true) (hlive : liveOrder b y = none) :
    Orderable b y := by
  unfold binInWing at hin
  split at hin
  next r hr =>
    refine ⟨⟨r, hr, by simpa using hin⟩, fun o ho hc hob => ?_⟩
    obtain ⟨q, hq, hl⟩ := h.live o ho hc
    rw [hob, hr] at hq
    cases hq
    have : orderOf o.no y ≠ none := fun hn => by
      have := List.find?_eq_none.1 hn o ho
      simp at this
    simp [liveOrder, hr, hl, this] at hlive
  next => cases hin

namespace Holds

theorem createAround (h : Holds m e y) (cls : OrderClass) {b : Nat} (station : Nat) {picks : List Pick} (ok : Station → Bool)
    (hb : IfLists m (Orderable b y)) (hp : picks.length ≤ 8) : Holds m e (createAround e cls b station picks ok y).1 := by
  have hcreate : ∀ st o, queueFull y = false → Holds m e (Machine.createOrder e cls b st picks false o y).1 :=
    fun st o hroom => h.createOrder cls st false o hroom hb hp
  unfold Machine.createAround
  extract_lets place addressed free
  have hfree : Holds m e free.1 := by
    unfold free
    clear_value addressed
    cases addressed with
    | none => exact h
    | some st =>
      dsimp only
      split
      · exact h
      next hroom => exact hcreate _ _ (by simpa using hroom)
  clear_value free
  split
  · split
    · split
      · exact h
      next hroom =>
        refine Holds.modSession (hcreate _ _ (by simpa using hroom)) _ fun x => ⟨.inr ⟨x, rfl, le_rfl⟩, ?_, ?_⟩
        · exact fun _ => .inr (.inr ⟨x, rfl, rfl⟩)
        · exact fun _ => .inr (.inr ⟨x, rfl, rfl⟩)
    · exact hfree
  · split
    · split
      · exact h
      next hroom => exact hcreate _ _ (by simpa using hroom)
    · exact hfree
  · exact hfree

theorem joinOrder (h : Holds m e y) (o : Order) (p : Pick)
    (ho : IfLists m (∀ x ∈ y.orders, x.no = o.no → x.picks.length < 8)) : Holds m e (joinOrder o p y) := by
  unfold Machine.joinOrder
  extract_lets w
  have hw : Holds m e w := h.setPicks o.no (fun _ => ⟨rfl, rfl, rfl⟩) (ho.map fun ho x hx hno => by
    have := ho x hx hno
    simp only [List.length_append, List.length_singleton]
    omega)
  clear_value w
  split
  · exact hw.armSession _
  · exact hw

theorem withdrawPick (h : Holds m e y) {o : Order} (slip : Nat) (ho : IfLists m (o ∈ y.orders)) :
    Holds m e (withdrawPick e o slip y).1 := by
  unfold Machine.withdrawPick
  extract_lets picks w
  have hw : Holds m e w := by
    have hsafe : IfLists m (OrdersSafe y) := h.ifLists (·.orders)
    refine h.setPicks o.no (fun _ => ⟨rfl, rfl, rfl⟩) ?_
    have key : OrdersSafe y → o ∈ y.orders → ∀ x ∈ y.orders, x.no = o.no → picks.length ≤ 8 :=
      fun hs ho _ _ _ => (List.length_filter_le _ _).trans (hs.picks o ho)
    cases m with
    | lists => exact key hsafe ho
    | places => exact key hsafe ho
    | _ => trivial
  split
  · exact hw.removeOrder _
  · exact hw

/-! ## Retire and Induct -/

theorem retireSession (h : Holds m e y) (st : Station) : Holds m e (retireSession e st y) := by
  unfold Machine.retireSession
  split
  · exact h
  · split
    · split
      · exact ((h.leaveRelease st).closeSession st).showStation st
      · exact h.armSession st
    · exact (h.handBackAll st).armSession st

theorem inductBin (h : Holds m e y) (hw : m.Whole) {b : Nat} (hb : binOk b = true) (hout : binInWing b y = false) (c f : Nat) :
    Holds m e (inductBin e b c f y) := by
  unfold Machine.inductBin
  extract_lets w v
  have hrec : ∀ r, getBin b y = some r → r.st = .retired := fun r hr => by
    unfold binInWing at hout
    rw [hr] at hout
    simpa using hout
  have hlive : OrdersSafe y → LiveOk y b ⟨c, f, .onReturn, none, none, none, false, false, none⟩ := fun hs =>
    { live := fun o ho hc hob => by
        obtain ⟨r, hr, hl⟩ := hs.live o ho hc
        rw [hob] at hr
        rw [hs.retired b r hr (hrec r hr)] at hl
        cases hl
      retired := fun h => by cases h }
  have hfree : IfPlaces m fun _ kept => (¬kept b ∧ ∀ p, ¬At b p y) ∧ ∀ k, kget y.cells k ≠ some (.occupied b) :=
    h.ifPlaces fun _ _ _ hp => by
      refine ⟨nowhere_of_record hp fun r hr => by simp [inPlace, hrec r hr], fun k hk => ?_⟩
      obtain ⟨r, -, hr, hst, -⟩ := hp.stored k b hk
      rw [hrec r hr] at hst
      cases hst
  have hw0 : Holds m e w := by
    refine h.putBin ?_
    cases m with
    | lists => exact hlive h.yard.orders
    | places => exact ⟨hlive h.tables.orders, fun _ => rfl, fun _ => rfl, fun k hk => absurd hk (hfree.2 k)⟩
    | numbers => exact hb
    | sessions => trivial
  have hw1 : Holds (m.without b) e w := hw0.restrict <| by
    cases m with
    | places => exact fun p x hx hxb => hfree.1.2 p (by subst hxb; cases p <;> exact hx)
    | _ => trivial
  have hm : Movable m b w := by
    cases m with
    | places => exact ⟨⟨_, getBin_putBin_same _ _ _⟩, hfree.2⟩
    | _ => trivial
  exact ((hw1.joinReturn hm (hw.may .ret b) none).attrChange b).journalFill b _

/-! ## AcceptMap -/

theorem acceptCell (h : Holds m e y) (p : CellAddr × Option Nat) : Holds m e (acceptCell e y p) := by
  unfold Machine.acceptCell
  have hempty : Holds m e (Machine.setCell e p.1 .empty y) := h.setCell _ fun _ => by simp
  split
  · exact hempty
  next b _ =>
    split
    next r hr =>
      split
      next hst =>
        have hin : inPlace r = false := by simp [inPlace, hst]
        have hno : IfPlaces m fun _ kept => ¬kept b ∧ ∀ p, ¬At b p y := h.ifPlaces fun _ _ _ hp =>
          nowhere_of_record hp fun q hq => by rw [hr] at hq; cases hq; exact hin
        refine stores (h.restrict ?_) p.1 ?_
        · cases m with
          | places => exact fun q x hx hxb => hno.2 q (hxb ▸ hx)
          | _ => trivial
        · cases m with
          | places => exact ⟨hno.1, ⟨r, hr⟩, not_occupied h.placed hr (by simp [hst])⟩
          | _ => trivial
      · exact hempty
    next => exact hempty

theorem dropLast (h : Holds m e y) (a : Aisle) : Holds m e (dropLast a y) := by
  have heq : Machine.dropLast a y = { y with bins := y.bins.map fun p =>
      (p.1, if p.2.st = .unverified ∧ p.2.cell.map (·.aisle) = some a then { p.2 with cell := none } else p.2) } := by
    unfold Machine.dropLast
    congr 1
    refine List.map_congr_left fun p _ => ?_
    dsimp only
    split <;> rfl
  rw [heq]
  refine h.mapBins (fun _ r => if r.st = .unverified ∧ r.cell.map (·.aisle) = some a then { r with cell := none } else r) fun b r hr => ?_
  split
  next hc =>
    refine (h.recordOk hr).placed rfl (by simp [hc.1]) ?_
    cases m with
    | places =>
      have hok := h.placed.placeOk hr
      refine ⟨hok.there, fun _ => rfl, fun k hk => ?_⟩
      have := (hok.stored k hk).1
      rw [hc.1] at this
      cases this
    | _ => trivial
  next => exact h.recordOk hr

theorem acceptAisle (h : Holds m e y) (a : Aisle) : Holds m e (acceptAisle e a y) := by
  unfold Machine.acceptAisle
  extract_lets w
  have hw : Holds m e w := h.foldl _ fun _ p _ h => (h.acceptCell p).cellChanged a
  exact ((hw.dropLast a).modVerif a _).verifyEdge a

/-! ## Trays -/

theorem takeIn (h : Holds m e y) (st : Station) (item : ItemCode) (width : Nat) (hroom : y.trays[st].items.length < 24) :
    Holds m e (takeIn e st item width y) := by
  unfold Machine.takeIn
  extract_lets before w v
  have hw : Holds m e w := h.light (.modTray (le_max_of_le_left (by simp; omega)))
  refine Holds.spaceChoice (Holds.firstFit ?_ st) st
  unfold v
  split
  · exact hw.beginDemand st
  · exact hw

theorem withdrawItems (h : Holds m e y) (st : Station) (p : TrayItem → Bool) : Holds m e (withdrawItems st p y) :=
  (h.modTray st fun _ => List.length_filter_le _ _).demandEnd st

end Holds

namespace HoldsAt

theorem refuse (h : HoldsAt m s) (c : ReplyCode) : HoldsAt m (refuse c s).1 := h

theorem startAct (h : HoldsAt m s) : HoldsAt m (startAct s).1 := by
  unfold Machine.startAct
  split
  · exact h
  · split
    · exact h
    · exact h.enterNormal
  · exact h

theorem restartAct (h : HoldsAt m s) (id : Nat) : HoldsAt m (restartAct id s).1 := by
  unfold Machine.restartAct
  split
  · exact h
  · exact h.setLink _

theorem enterRestarting (h : HoldsAt m s) : HoldsAt m (enterRestarting s) := by
  unfold Machine.enterRestarting
  extract_lets c t u
  have ht : HoldsAt m t := h.closeIncident.setYard fun h => h.openJournal
  have hu : HoldsAt m u := (ht.modWing (f := fun w => { dropTimers w with
    shutClose := false, drvPwr := true, restartTimer := some t.cfg.fire.restartDelay })).setWing (by simp)
  refine hu.onYard fun h => h.light { places := fun x p hx => ?_ }
  cases p with
  | fork a =>
    rw [at_fork] at hx ⊢
    simp only [vmap_get] at hx
    exact hx
  | _ => exact hx

theorem resumeAct (h : HoldsAt m s) (n : Nat) : HoldsAt m (resumeAct n s).1 := by
  unfold Machine.resumeAct
  iterate 4 (split; · exact h)
  exact h.enterRestarting

theorem flushAct (h : HoldsAt m s) (id : Nat) : HoldsAt m (flushAct id s).1 := by
  unfold Machine.flushAct
  extract_lets keys
  split
  · exact h.setYard fun h => h.modJournal fun hj => hj.flushEnded _
  · split
    · exact h
    · exact h.setYard fun h => h.modJournal (f := fun j => { j with flushes := j.flushes ++ [⟨id, keys⟩] }) fun hj => hj.light {}

theorem createdReply (h : HoldsAt m s) (e : Env) (n : Nat) {r : Yard × (Nat ⊕ ReplyCode)}
    (hr : Holds m (envOf s) r.1) : HoldsAt m (createdReply e n s r).1 := by
  unfold Machine.createdReply
  split
  · exact hr
  · exact h

theorem lendBin (h : HoldsAt m s) (b st : Nat) (p : Pick) (hin : binInWing b s.yard = true) :
    HoldsAt m (lendBin (envOf s) b st p s).1 := by
  unfold Machine.lendBin
  extract_lets y
  split
  next o ho =>
    split
    · exact h
    · split
      · exact h
      next hroom =>
        refine Holds.joinOrder h o p (Holds.ifLists h fun ht x hx hno => ?_)
        obtain ⟨r, -, hr⟩ := Option.bind_eq_some_iff.1 ho
        obtain ⟨no, -, hno'⟩ := Option.bind_eq_some_iff.1 hr
        have hono := (mem_of_orderOf hno').2
        rw [orderOf_unique ht.orders hno' hx (hno.trans hono)]
        omega
  next hnone =>
    exact h.createdReply _ _ (Holds.createAround h .reader st _ (Holds.ifLists h fun ht => orderable_of_liveOrder ht.orders hin hnone) (by simp))

theorem lendAct (h : HoldsAt m s) (b slip w st : Nat) (item : ItemCode) : HoldsAt m (lendAct b slip w st item s).1 := by
  unfold Machine.lendAct
  extract_lets y
  split
  · exact h
  · split
    · exact h
    · split
      · exact h
      next hin =>
        split
        · exact h
        · split
          · exact h
          · exact h.lendBin b st _ (by simpa using hin)

theorem cancelAct (h : HoldsAt m s) (slip : Nat) : HoldsAt m (cancelAct slip s).1 := by
  unfold Machine.cancelAct
  split
  · exact h
  · split
    · exact h
    next o p hp =>
      split
      · exact h
      · split
        · refine Holds.withdrawPick h slip (.of ?_)
          obtain ⟨x, hx, hxo⟩ := List.exists_of_findSome?_eq_some hp
          obtain ⟨q, -, hq⟩ := Option.map_eq_some_iff.1 hxo
          cases hq
          exact hx
        · exact Holds.modOrder h _ fun o => by simp [orderSig, settlePick_length]

theorem fetchAct (h : HoldsAt m s) (b st : Nat) : HoldsAt m (fetchAct b st s).1 := by
  unfold Machine.fetchAct
  extract_lets y e
  split
  · exact h
  · split
    · exact h
    · split
      · exact h
      next hin =>
        split
        · exact h
        · split
          · exact h
          next hnone =>
            have hin : binInWing b s.yard = true := by simpa [y] using hin
            exact h.createdReply _ _ (Holds.createAround h .staff st _ (Holds.ifLists h fun ht => orderable_of_liveOrder ht.orders hin hnone) (by simp))

theorem retireAct (h : HoldsAt m s) (b : Nat) : HoldsAt m (retireAct b s).1 := by
  unfold Machine.retireAct
  split
  · exact h
  next r hr =>
    split
    · exact h
    · split
      · exact h
      · extract_lets e y z w
        have hy : Holds m e y := Holds.putBinValues h hr { r with retirePending := true } rfl rfl rfl
        have hz : Holds m e z := by
          unfold z
          split
          · exact hy.modOrder _
          · exact hy
        show Holds m e w
        unfold w
        split
        · exact hz.retireSession _
        · exact hz

theorem inductAct (h : HoldsAt m s) (hw : m.Whole) (b c : Nat) (f : Option Nat) : HoldsAt m (inductAct b c f s).1 := by
  unfold Machine.inductAct
  extract_lets y
  split
  · exact h
  next hb =>
    split
    · exact h
    next hout =>
      split
      · exact h
      · split
        · exact h
        · exact Holds.inductBin h hw (by simpa using hb) (by simpa using hout) _ _

theorem intakeAct (h : HoldsAt m s) (w st : Nat) (item : ItemCode) : HoldsAt m (intakeAct w st item s).1 := by
  unfold Machine.intakeAct
  split
  · exact h
  next d _ =>
    extract_lets y
    iterate 3 (split; · exact h)
    split
    · exact h
    next hroom =>
      split
      · exact h
      · exact Holds.takeIn h d item _ (not_le.1 hroom)

theorem drainAct (h : HoldsAt m s) (st : Nat) : HoldsAt m (drainAct st s).1 := by
  unfold Machine.drainAct
  split
  · exact h
  next d _ =>
    iterate 2 (split; · exact h)
    extract_lets y
    show Holds m (envOf s) y
    unfold y
    split
    · exact Holds.demandEnd h d
    · exact (Holds.beginDemand h d).spaceChoice d

theorem clearTaken (h : HoldsAt m s) (st : Station) (p : TrayItem → Bool) : HoldsAt m (clearTaken st p s).1 :=
  Holds.withdrawItems h st p

theorem clearTrayAct (h : HoldsAt m s) (st : Nat) (item : Option ItemCode) : HoldsAt m (clearTrayAct st item s).1 := by
  unfold Machine.clearTrayAct
  split
  · exact h
  · split
    · exact h.clearTaken _ _
    · split
      · exact h
      · split
        · exact h
        · split
          · exact h.clearTaken _ _
          · exact h

theorem surveyTaken (h : HoldsAt m s) (e : Env) (a : Aisle) (full : Bool) (x z : Nat) :
    HoldsAt m (surveyTaken e a full x z s).1 := Holds.modArb h a fun r => { r with surveyReq := some _ }

theorem surveyAct (h : HoldsAt m s) (a k x z : Nat) : HoldsAt m (surveyAct a k x z s).1 := by
  unfold Machine.surveyAct
  split
  · exact h
  · iterate 3 (split; · exact h)
    exact h.surveyTaken _ _ _ _ _

theorem acceptAct (h : HoldsAt m s) (a : Nat) : HoldsAt m (acceptAct a s).1 := by
  unfold Machine.acceptAct
  split
  · exact h
  · extract_lets e
    iterate 2 (split; · exact h)
    exact Holds.acceptAisle h _

theorem carrierClearAct (h : HoldsAt m s) (a id : Nat) : HoldsAt m (carrierClearAct a id s).1 := by
  unfold Machine.carrierClearAct
  split
  · exact h
  next d _ =>
    extract_lets c
    split
    · exact h
    · exact (Holds.modCarrier h d (f := fun c => { c with clear := some ⟨id, 50⟩ })).send _

theorem lineClearAct (h : HoldsAt m s) (l id : Nat) : HoldsAt m (lineClearAct l id s).1 := by
  unfold Machine.lineClearAct
  split
  · exact h
  next d _ =>
    extract_lets r
    split
    · exact h
    · exact Holds.light (Holds.modLine h d fun r => { r with clear := some ⟨id, 50, false, clearTerminals d, []⟩ })
        { places := fun _ p hx => by cases p <;> exact hx }

theorem continuousAct (h : HoldsAt m s) : HoldsAt m (continuousAct s).1 := by
  unfold Machine.continuousAct
  split
  · exact h.modSweep _
  · exact h.modSweep _
  · exact h.modSweep _
  · exact h

theorem singleAct (h : HoldsAt m s) : HoldsAt m (singleAct s).1 := by
  unfold Machine.singleAct
  split
  · exact h
  · split
    · exact h.modSweep _
    · exact h.modSweep _
    · exact h
    · exact h

theorem stopAct (h : HoldsAt m s) (id : Nat) : HoldsAt m (stopAct id s).1 := by
  unfold Machine.stopAct
  split
  · exact h
  · split
    · exact h
    · exact h.modSweep _
    · exact h.modSweep _
    · exact h.modSweep _

theorem queryWingAct (h : HoldsAt m s) (mask : Nat) : HoldsAt m (queryWingAct mask s).1 :=
  Holds.light h { places := fun _ p hx => by cases p <;> exact hx }

/-- The requests keep the invariants of the yard. -/
theorem requests (hw : m.Whole) : RequestsKeep fun s t => HoldsAt m s → HoldsAt m t where
  start _ h := h.startAct
  restart id _ h := h.restartAct id
  resume n _ h := h.resumeAct n
  flush id _ h := h.flushAct id
  lend b slip w st item _ h := h.lendAct b slip w st item
  cancelLend slip _ h := h.cancelAct slip
  fetch b st _ h := h.fetchAct b st
  retire b _ h := h.retireAct b
  induct b c f _ h := h.inductAct hw b c f
  returnIntake w st item _ h := h.intakeAct w st item
  drainTray st _ h := h.drainAct st
  clearTray st item _ h := h.clearTrayAct st item
  survey a k x z _ h := h.surveyAct a k x z
  acceptMap a _ h := h.acceptAct a
  carrierClear a id _ h := h.carrierClearAct a id
  lineClear l id _ h := h.lineClearAct l id
  continuous _ h := h.continuousAct
  single _ h := h.singleAct
  stop id _ h := h.stopAct id
  queryWing mask _ h := h.queryWingAct mask

end HoldsAt
end Sys2Proof.Machine
end

