-- ==== Sys2Proof/Proofs/EventsKept.lean ====
section
/-! PROOF. The effects of the events keep the invariants of the yard. -/

namespace Sys2Proof.Machine

open Sys2Proof

-- Default arguments given by tactics wait for the kernel: one theorem at a time, so that few wait at once.
set_option Elab.async false

variable {m : Kind} {e : Env} {y : Yard} {s : State}

namespace Holds

/-! ## Discovery -/

theorem setDisc (h : Holds m e y) (d : Discovery) : Holds m e { y with disc := d } :=
  h.light { places := fun _ p hx => by cases p <;> exact hx }

theorem endDiscovery (h : Holds m e y) : Holds m e (endDiscovery e y) := by
  unfold Machine.endDiscovery
  split
  · exact (h.setDisc _).notify _ _
  · exact h

theorem deviceReported (h : Holds m e y) (d : Device) : Holds m e (deviceReported e d y) := by
  have hd := h.setDisc { y.disc with
    expected := y.disc.expected.filter fun x => x ≠ d, silent := y.disc.silent.filter fun x => x ≠ d }
  unfold Machine.deviceReported discoverySync
  split
  · exact hd.endDiscovery
  · exact hd

/-! ## Carriers -/

theorem settleEnds (h : Holds m e y) (a : Aisle) : Holds m e (settleEnds a y) := by
  unfold Machine.settleEnds
  split
  · exact h.modEst a _
  · exact h

theorem takePosition (h : Holds m e y) (a : Aisle) (r : DriveReport) : Holds m e (takePosition a r y) := h.modCarrier a

theorem leaveOffline (h : Holds m e y) (hw : m.Whole) (a : Aisle) (r : DriveReport) : Holds m e (leaveOffline e a r y) := by
  unfold Machine.leaveOffline
  extract_lets w v
  have hw' : Holds m e w := (h.takePosition a r).forkReport hw a r.fork
  have hv : Holds m e v := hw'.setSt a _
  split
  · exact hw'.enterFaulted a _ _
  · split
    · exact hv.setSt a _
    · exact hv.setSt a _
    · exact hv.takePark a
    · exact hv

theorem restartReport (h : Holds m e y) (hw : m.Whole) (a : Aisle) (r : DriveReport) : Holds m e (restartReport e a r y) := by
  unfold Machine.restartReport
  extract_lets halted w v
  have hv : Holds m e v := by
    refine Holds.forkReport (Holds.takePosition ?_ a r) hw a r.fork
    unfold w
    split
    · exact h.segEnded a
    · exact h
  split
  · exact hv.enterFaulted a _ _
  · exact hv.setSt a _
  · exact hv

theorem applyClear (h : Holds m e y) (hw : m.Whole) (a : Aisle) (r : DriveReport) : Holds m e (applyClear e a r y) := by
  unfold Machine.applyClear
  extract_lets w v
  have hv : Holds m e v := ((h.takePosition a r).forkCleared hw a r.fork).releaseTask a _
  have hz := hv.modCarrier a (f := fun c => { c with task := none, fault := none, st := .idle })
  unfold Machine.spotAfterClear
  split
  · exact hz
  · exact hz.modArb a _

/-! ## Lines and terminals -/

theorem lineFaults (h : Holds m e y) (l : LineId) (no : Option Nat) : Holds m e (lineFaults l no y) := by
  unfold Machine.lineFaults
  split
  · split
    · exact h.lineFaulted l _
    · exact h
  · split
    · exact h.lineFaulted l _
    · exact h

theorem lineExpires (h : Holds m e y) (l : LineId) (no : Nat) : Holds m e (lineExpires l no y) := by
  unfold Machine.lineExpires
  split
  · exact h.lineFaulted l _
  · exact h

theorem applyContents (h : Holds m e y) (hw : m.Whole) (l : LineId) (bins : List Nat) (inbound : List (Option Nat)) (f : Bool) :
    Holds m e (applyContents l bins inbound f e y) := by
  unfold Machine.applyContents
  extract_lets w v
  have hw' : Holds m e w := by
    cases l with
    | delivery => exact h.deliveryReport hw bins
    | ret => exact h.returnReport hw bins inbound
  exact (((hw'.lineReported l f).modLine l _).setDisc _).deviceReported _

theorem applyHeld (h : Holds m e y) (hw : m.Whole) (l : LineId) (r : HeldReport) : Holds m e (applyHeld l e y r) := by
  cases r with
  | contents bins inbound f => exact (h.applyContents hw l bins inbound f).evalOrders
  | full st n p => exact (h.terminalReport hw st n p).evalOrders

theorem holdFull (h : Holds m e y) (st : Station) (n p : Option Nat) : Holds m e (holdFull st n p y) :=
  (h.modLine .delivery _).sendDisplay st

theorem applyFull (h : Holds m e y) (hw : m.Whole) (st : Station) (n p : Option Nat) : Holds m e (applyFull st n p e y) :=
  (((h.terminalReport hw st n p).sendDisplay st).modLine .delivery _).deviceReported _

theorem diversionCompletes (h : Holds m e y) (hw : m.Whole) (t : Transfer) : Holds m e (diversionCompletes e t y) := by
  unfold Machine.diversionCompletes
  split
  · exact h.diversionDone hw _ t
  · exact h

theorem advanceCompletes (h : Holds m e y) (hw : m.Whole) (t : Transfer) : Holds m e (advanceCompletes e t y) := by
  unfold Machine.advanceCompletes
  split
  · exact h.advanceDone hw _ t
  · exact h

theorem releaseCompletes (h : Holds m e y) (hw : m.Whole) (t : Transfer) : Holds m e (releaseCompletes e t y) := by
  unfold Machine.releaseCompletes
  split
  · exact h.releaseDone hw _ t
  · exact h

theorem inboundCompletes (h : Holds m e y) (hw : m.Whole) (t : Transfer) : Holds m e (inboundCompletes e t y) := by
  unfold Machine.inboundCompletes
  split
  · exact h.inboundDone hw _ t
  · exact h

/-! ## Scans and buttons -/

theorem strayScan (h : Holds m e y) (st : Station) (c : ItemCode) (n : Nat) : Holds m e (strayScan e st c n y) := h.notify _ _

theorem pickScanned (h : Holds m e y) (st : Station) (x : Session) (o : Order) (p : Pick) : Holds m e (pickScanned e st x o p y) :=
  ((h.modOrder o.no fun o => by simp [orderSig, settlePick_length]).lowerFill _ _).notify _ _

theorem placementCounts (h : Holds m e y) (st : Station) : Holds m e (placementCounts e st y) := by
  unfold Machine.placementCounts
  split
  · extract_lets w
    have hw : Holds m e w := h.modTray st
    split
    · exact hw.demandEnd st
    · exact hw
  · exact h

theorem placementScanned (h : Holds m e y) (st : Station) (x : Session) (p : Placement) :
    Holds m e (placementScanned e st x p y) := by
  unfold Machine.placementScanned
  extract_lets w v u
  have hw : Holds m e w := h.modTray st fun _ => List.length_filter_le _ _
  have hv : Holds m e v := hw.shrinkSession st (hp := fun _ => List.length_filter_le _ _)
  exact ((hv.raiseFill _ _).placementCounts st).notify _ _

theorem scanned (h : Holds m e y) (st : Station) (c : ItemCode) : Holds m e (scanned e st c y) := by
  unfold Machine.scanned
  split
  · exact h.strayScan st c 3
  · split
    · exact h.strayScan st c 2
    · extract_lets w
      have hw : Holds m e w := h.staffAct st
      split
      · exact hw.pickScanned st _ _ _
      · split
        · exact hw.placementScanned st _ _
        · exact hw.strayScan st c 1

theorem absentPressed (h : Holds m e y) (st : Station) : Holds m e (absentPressed e st y) := by
  unfold Machine.absentPressed
  split
  · exact h
  · split
    · exact h
    · extract_lets w
      have hw : Holds m e w := h.staffAct st
      split
      · exact hw
      · split
        · exact hw
        · exact (hw.modOrder _ fun o => by simp [orderSig, settlePick_length]).notify _ _

theorem damagedPressed (h : Holds m e y) (st : Station) : Holds m e (damagedPressed e st y) := by
  unfold Machine.damagedPressed
  split
  · exact h
  · exact (h.setDamaged _).enterReleasing st

theorem retryEnds (h : Holds m e y) : Holds m e (retryEnds y) := h.modJournal fun hj => hj.light {}

end Holds

namespace HoldsAt

/-! ## The host link and the sweep -/

theorem setPost (h : HoldsAt m s) {p : Post} (hp : p.outbox.length ≤ s.yard.post.outbox.length) :
    HoldsAt m { s with yard := { s.yard with post := p } } :=
  Holds.light h { places := fun _ p hx => by cases p <;> exact hx, outbox := hp.trans }

theorem frameSent (h : HoldsAt m s) : HoldsAt m (frameSent s) := by
  unfold Machine.frameSent
  extract_lets k
  split
  · exact h
  · exact h.setLink _
  · extract_lets t
    split
    · exact (h.setPost (p := { s.yard.post with outbox := [], sending := false }) (Nat.zero_le _)).setLink _
    · exact h.setLink _
  · refine (h.setPost (p := if s.yard.post.sending then
        { s.yard.post with outbox := s.yard.post.outbox.drop 1, sending := false } else s.yard.post) ?_).setLink _
    split
    · simp
    · exact le_rfl

theorem noticeStage (h : HoldsAt m s) (i : Slot) (k : SlotKind) (z : Zone) (before after zone : Stage)
    (l : Option (Nat × Option Int)) : HoldsAt m (noticeStage i k z before after zone l s) := by
  unfold Machine.noticeStage
  split
  · exact h
  · exact h.notifyS _ _
  · exact h.notifyS _ _
  · exact h.notifyS _ _

theorem degradedSync (h : HoldsAt m s) (z : Zone) : HoldsAt m (degradedSync z s) := by
  unfold Machine.degradedSync
  extract_lets faults now
  split
  · exact h
  · exact (h.modSweep _).notifyS _ _

theorem stageSync (h : HoldsAt m s) (hw : m.Whole) (i : Slot) (z : Zone) : HoldsAt m (stageSync i z s) := by
  unfold Machine.stageSync
  extract_lets old now
  split
  · exact h
  · exact (h.modSweep _).arrival hw _ _

theorem zonesSync (h : HoldsAt m s) (hw : m.Whole) (i : Slot) : HoldsAt m (zonesSync i s) :=
  (h.foldl _ fun _ z h => h.degradedSync z).foldl _ fun _ z h => h.stageSync hw i z

theorem stopSync (h : HoldsAt m s) : HoldsAt m (stopSync s) := by
  unfold Machine.stopSync
  split
  · exact (h.modSweep fun w => { w with stopIds := [] }).foldl _ fun _ id h => h.answer id .ok []
  · exact h

theorem conversionDone (h : HoldsAt m s) (hw : m.Whole) (raw : Nat) : HoldsAt m (conversionDone raw s) := by
  unfold Machine.conversionDone
  split
  · exact h
  · extract_lets old new t u
    have ht : HoldsAt m t := h.modSweep _
    have hu : HoldsAt m u := by
      unfold u
      split
      · exact ht
      · exact ht.noticeStage ..
    exact ((hu.zonesSync hw _).modSweep _).stopSync

/-! ## The wing's timers -/

theorem holdClearEnds (h : HoldsAt m s) : HoldsAt m (holdClearEnds s) := by
  unfold Machine.holdClearEnds
  split
  · extract_lets t u
    have ht : HoldsAt m t := h.modWing
    have hu : HoldsAt m u := ht.modWing
    split
    · exact ht.returnNormal
    · split
      · exact hu.returnNormal
      · exact hu.modWing
    · exact ht
  · exact h

theorem parkTimerEnds (h : HoldsAt m s) (hw : m.Whole) : HoldsAt m (parkTimerEnds s) := by
  unfold Machine.parkTimerEnds
  split
  · exact h.enterSealing hw true
  · exact h

theorem restartTimerEnds (h : HoldsAt m s) (hw : m.Whole) : HoldsAt m (restartTimerEnds s) := by
  unfold Machine.restartTimerEnds
  split
  · exact (h.dropUnreported hw).enterNormal
  · exact h

/-! ## Carriers -/

theorem segmentReported (h : HoldsAt m s) (hw : m.Whole) (a : Aisle) (no : Nat) (r : SegReport) :
    HoldsAt m (segmentReported a no r s) := by
  unfold Machine.segmentReported stopObstructs
  split
  next g _ =>
    have hd : HoldsAt m (Machine.onYard (fun e => segDone e a g r) s) := h.onYard fun h => h.segDone hw a g r
    split
    · exact hd.obstruct
    · exact hd
  · exact h

theorem segmentFaults (h : HoldsAt m s) (hw : m.Whole) (a : Aisle) (no : Nat) (f : DriveFault) :
    HoldsAt m (segmentFaults a no f s) := by
  unfold Machine.segmentFaults
  split
  next g _ => exact h.onYard fun h => h.segFaulted hw a g f
  · exact h

theorem segmentExpires (h : HoldsAt m s) (hw : m.Whole) (a : Aisle) (no : Nat) : HoldsAt m (segmentExpires a no s) := by
  unfold Machine.segmentExpires
  split
  next g _ =>
    split
    · exact h.onYard fun h => h.segLate hw a g
    · exact h
  · exact h

theorem clearReport (h : HoldsAt m s) (hw : m.Whole) (a : Aisle) (w : ClearWait) (r : DriveReport) :
    HoldsAt m (clearReport a w r s) := by
  unfold Machine.clearReport
  extract_lets t u
  have ht : HoldsAt m t := Holds.modCarrier h a (f := fun c => { c with clear := none })
  split
  · exact ht.answer ..
  · split
    · have hv : HoldsAt m { t with yard := modCarrier a (fun c => { c with fault := some .driveFault }) t.yard } :=
        ht.setYard fun h => h.modCarrier a
      exact hv.answer ..
    · have hu : HoldsAt m u := ht.onYard fun h => h.applyClear hw a r
      exact hu.answer ..

theorem joinClearing (h : HoldsAt m s) (a : Aisle) : HoldsAt m (joinClearing a s) := by
  unfold Machine.joinClearing
  extract_lets c
  split
  · exact h.modWing
  · exact h

theorem statusReported (h : HoldsAt m s) (hw : m.Whole) (a : Aisle) (r : DriveReport) : HoldsAt m (statusReported a r s) := by
  unfold Machine.statusReported
  extract_lets c t
  split
  · exact h
  · have ht : HoldsAt m t := by
      unfold t
      split
      · exact h.clearReport hw a _ r
      · split
        · have hl : HoldsAt m (Machine.onYard (fun e => leaveOffline e a r) s) := h.onYard fun h => h.leaveOffline hw a r
          exact hl.joinClearing a
        · split
          · exact h.onYard fun h => h.restartReport hw a r
          · exact h
    exact ht.onYard fun h => h.deviceReported _

theorem carrierClearExpires (h : HoldsAt m s) (a : Aisle) : HoldsAt m (carrierClearExpires a s) := by
  unfold Machine.carrierClearExpires
  split
  · have hv : HoldsAt m { s with yard := modCarrier a (fun c => { c with clear := none }) s.yard } :=
      h.setYard fun h => h.modCarrier a
    exact hv.answer ..
  · exact h

/-! ## Lines and terminals -/

theorem transferDone (h : HoldsAt m s) (l : LineId) (no : Nat) {f : Env → Transfer → Yard → Yard}
    (hf : ∀ {e y} t, Holds m e y → Holds m e (f e t y)) : HoldsAt m (transferDone l no f s) := by
  unfold Machine.transferDone
  split
  next t _ => exact h.onYard fun h => hf t h
  · exact h

theorem lineClearEnds (h : HoldsAt m s) (hw : m.Whole) (l : LineId) : HoldsAt m (lineClearEnds l s) := by
  unfold Machine.lineClearEnds
  split
  · exact h
  next w _ =>
    extract_lets t u
    have ht : HoldsAt m t := Holds.modLine h l fun r => { r with clear := none }
    have hu : HoldsAt m u := ht.onYard fun h => h.foldl _ fun _ r _ h => h.applyHeld hw l r
    split
    · split
      · exact hu.answer ..
      · exact hu.answer ..
    · exact ht.answer ..

theorem lineClearSync (h : HoldsAt m s) (hw : m.Whole) (l : LineId) : HoldsAt m (lineClearSync l s) := by
  unfold Machine.lineClearSync
  split
  · split
    · exact h.lineClearEnds hw l
    · exact h
  · exact h

theorem contentsReported (h : HoldsAt m s) (hw : m.Whole) (l : LineId) (bins : List Nat) (inbound : List (Option Nat)) (f : Bool) :
    HoldsAt m (contentsReported l bins inbound f s) := by
  unfold Machine.contentsReported
  split
  · have ha : HoldsAt m (Machine.onYard (applyContents l bins inbound f) s) := h.onYard fun h => h.applyContents hw l bins inbound f
    exact ha.lineClearSync hw l
  · split
    · have ha : HoldsAt m { s with yard := modLine l (fun r => { r with clear := r.clear.map (holdContents (.contents bins inbound f)) }) s.yard } :=
        h.setYard fun h => h.modLine l _
      exact ha.lineClearSync hw l
    · exact h

theorem fullReported (h : HoldsAt m s) (hw : m.Whole) (st : Station) (n p : Option Nat) : HoldsAt m (fullReported st n p s) := by
  unfold Machine.fullReported
  extract_lets n' p'
  refine HoldsAt.lineClearSync ?_ hw .delivery
  split
  · exact Holds.holdFull h st n' p'
  · exact h.onYard fun h => h.applyFull hw st n' p'

theorem waitLimitReached (h : HoldsAt m s) (st : Station) (c : ItemCode) : HoldsAt m (waitLimitReached st c s) :=
  h.onYard fun h => by
    split
    · split
      · exact h.markLimit st c
      · exact h
    · exact h

/-! ## Flash -/

theorem flushBusy (h : HoldsAt m s) (p : FlushWait → Bool) : HoldsAt m (flushBusy p s) := by
  unfold Machine.flushBusy
  extract_lets out
  have hj : HoldsAt m { s with yard := Machine.modJournal (fun j => { j with flushes := j.flushes.filter fun w => !p w }) s.yard } :=
    h.setYard fun h => h.modJournal fun hj => hj.light {}
  exact hj.foldl _ fun _ w h => h.answer w.id .busy []

theorem closeJournal (h : HoldsAt m s) (failed : Bool) : HoldsAt m (closeJournal failed s) := by
  refine HoldsAt.flushBusy (h.setYard fun h => h.modJournal fun hj => hj.light
    { ctl := fun w hw => .inl ?_, writing := fun x hx => by cases hx }) _
  dsimp only at hw
  split at hw
  · exact (List.mem_filter.1 hw).1
  · exact hw

theorem writeFailed (h : HoldsAt m s) : HoldsAt m (writeFailed s) := by
  unfold Machine.writeFailed
  split
  · exact h
  · extract_lets t u
    have ht : HoldsAt m t := by
      unfold t
      split
      · exact h.notifyS _ _
      · exact h
    have hu : HoldsAt m u := ht.setYard fun h => h.modJournal fun hj => hj.light { writing := fun x hx => by cases hx }
    split
    · exact hu.flushBusy _
    · exact hu

theorem flashFailed (h : HoldsAt m s) : HoldsAt m (flashFailed s) := by
  unfold Machine.flashFailed
  split
  · exact (h.writeFailed.closeJournal true).enterSealed .failed
  · exact h.writeFailed

/-- The events keep the invariants of the yard. -/
theorem events (hw : m.Whole) : EventsKeep fun s t => HoldsAt m s → HoldsAt m t where
  frameSent _ h := h.frameSent
  warmup _ h := h.modSweep _
  conversion raw _ h := h.conversionDone hw raw
  panel i high _ h := h.panelArrives hw i high
  holdClear _ h := h.holdClearEnds
  parkTimer _ h := h.parkTimerEnds hw
  restartTimer _ h := h.restartTimerEnds hw
  segmentComplete a no r _ h := h.segmentReported hw a no r
  segmentFault a no f _ h := h.segmentFaults hw a no f
  segmentDeadline a no _ h := h.segmentExpires hw a no
  settleTimer a _ h := h.onYard fun h => h.settleEnds a
  driveStatus a r _ h := h.statusReported hw a r
  carrierClearTimeout a _ h := h.carrierClearExpires a
  discoveryTimeout _ h := h.onYard fun h => h.endDiscovery
  diversion no _ h := h.transferDone .delivery no fun t h => h.diversionCompletes hw t
  advance no _ h := h.transferDone .delivery no fun t h => h.advanceCompletes hw t
  release no _ h := h.transferDone .ret no fun t h => h.releaseCompletes hw t
  inboundDiversion no _ h := h.transferDone .ret no fun t h => h.inboundCompletes hw t
  lineFault l no _ h := h.onYard fun h => h.lineFaults l no
  lineDeadline l no _ h := h.onYard fun h => h.lineExpires l no
  lineContents l bins inbound f _ h := h.contentsReported hw l bins inbound f
  lineClearTimeout l _ h := h.lineClearEnds hw l
  terminalFull st n p _ h := h.fullReported hw st n p
  terminalChange st p b _ h := h.onYard fun h => h.terminalChange hw st p b
  itemScan st c _ h := h.onYard fun h => h.scanned st c
  absent st _ h := h.onYard fun h => h.absentPressed st
  releaseButton st _ h := h.onYard fun h => h.enterReleasing st
  damaged st _ h := h.onYard fun h => h.damagedPressed st
  autoRelease st _ h := h.onYard fun h => h.autoExpires st
  idleTimer st _ h := h.onYard fun h => h.idleExpires st
  waitLimit st c _ h := h.waitLimitReached st c
  flashError _ h := h.flashFailed
  journalRetry _ h := h.onYard fun h => h.retryEnds

/-- Everything around a command's own effect keeps the invariants of the yard. -/
theorem steady (hw : m.Whole) : Steady fun s t => HoldsAt m s → HoldsAt m t where
  refl _ h := h
  trans hst htu h := htu (hst h)
  link k _ h := h.setLink k
  bus l _ h := Holds.light h { places := fun _ p hx => by cases p <;> exact hx }
  transmit _ h := h.transmit
  finish _ h := h.finish hw

end HoldsAt
end Sys2Proof.Machine
end

