-- ==== Sys2Proof/Proofs/SettingsKept.lean ====
section
/-! PROOF. The sections of Configure keep the invariants of the yard (R210). -/

namespace Sys2Proof.Machine

open Sys2Proof

-- Default arguments given by tactics wait for the kernel: one theorem at a time, so that few wait at once.
set_option Elab.async false

variable {m : Kind} {e e' : Env} {y : Yard} {s : State}

theorem clamp_le {lo hi n : Nat} (h : lo ≤ hi) : clamp lo hi n ≤ hi := by unfold clamp; omega

theorem le_clamp (lo hi n : Nat) : lo ≤ clamp lo hi n := le_max_left _ _

/-- A geometry section's values are within the limits of R1. -/
theorem geometryFits_clamp (a c l : Nat) : GeometryFits ⟨clamp 1 6 a, clamp 8 64 c, clamp 4 16 l⟩ :=
  ⟨clamp_le (by decide), clamp_le (by decide)⟩

/-- The cells of a geometry that another leaves out have codes of their own. -/
theorem keyFits_beyond {g h : Geometry} (hg : GeometryFits g) {x : CellAddr} (hx : x ∈ cellsBeyond g h) :
    KeyFits (.cell x) := by
  simp only [cellsBeyond, List.mem_flatMap, List.mem_range, List.mem_filter] at hx
  obtain ⟨a, -, sd, -, c, hc, l, hl, hx, -⟩ := hx
  have hcol : x.col = c + 1 ∧ x.level = l := by
    simp only [List.mem_cons, List.not_mem_nil, or_false] at hx
    rcases hx with rfl | rfl <;> exact ⟨rfl, rfl⟩
  obtain ⟨hcols, hlevels⟩ := hg
  exact ⟨by omega, by omega, by omega⟩

theorem keyOk_beyond {g h : Geometry} (hg : IfLists m (GeometryFits g)) : ∀ x ∈ cellsBeyond g h, KeyOk m (.cell x) := by
  intro x hx
  cases m with
  | lists => exact keyFits_beyond hg hx
  | places => exact keyFits_beyond hg hx
  | numbers => trivial
  | sessions => trivial

namespace Holds

/-! ## The geometry (R1) -/

/-- The cells left within a geometry are cells of before. -/
theorem kget_cellsWithin {g : Geometry} {k : Nat} {c : Cell}
    (hk : kget (Machine.cellsWithin g y).cells k = some c) :
    kget y.cells k = some c ∧ ∃ a, cellOfCode k = some a ∧ inGeometry g a = true := by
  unfold Machine.cellsWithin at hk
  rw [kget_filter_keys y.cells (fun k => ((cellOfCode k).map (inGeometry g)).getD false)] at hk
  split at hk
  next hin =>
    refine ⟨hk, ?_⟩
    cases ha : cellOfCode k with
    | none => simp [ha] at hin
    | some a => exact ⟨a, rfl, by simpa [ha] using hin⟩
  next => cases hk

/-- The map is cut down to a geometry, which the wing then has. -/
theorem cellsWithin (h : Holds m e y) (hg : GeometryFits e'.cfg.geometry)
    (hi : 30 ≤ e.cfg.idleTimeout → 30 ≤ e'.cfg.idleTimeout) (hw : e'.wing = .standby → e.wing = .standby) :
    Holds m e' (Machine.cellsWithin e'.cfg.geometry y) := by
  have hcut : Holds m e (Machine.cellsWithin e'.cfg.geometry y) :=
    h.withCells (.of (KSorted_filter _ _)) fun may kept hm k c hk => by
      subst hm
      exact .inl (kget_cellsWithin hk).1
  refine hcut.toEnv (.of hg) ?_ hi hw
  cases m with
  | places => exact fun k c hk => (kget_cellsWithin hk).2
  | _ => trivial

theorem cellsChange (h : Holds m e y) (c : StoredCell) {l : List CellAddr} (hl : ∀ a ∈ l, KeyOk m (.cell a)) :
    Holds m e (cellsChange c l y) := h.modJournal fun hj => hj.changes c l hl

theorem aisleLeaves (h : Holds m e y) (a : Aisle) : Holds m e (aisleLeaves a y) :=
  ((h.modCarrier a (f := fun c => { Carrier.reset with segNo := c.segNo, clear := c.clear })
    fun _ _ hb => by cases hb).modArb a _).setDisc _

theorem aisleEnters (h : Holds m e y) (a : Aisle) : Holds m e (aisleEnters a y) := (h.setDisc _).send _

theorem discoverySync (h : Holds m e y) : Holds m e (discoverySync e y) := by
  unfold Machine.discoverySync
  split
  · exact h.endDiscovery
  · exact h

/-! ## Cells, speeds, stations, trays and sessions -/

theorem cellItem (h : Holds m e y) (a : CellAddr) (d : Bool) : Holds m e (cellItem e a d y).1 := by
  unfold Machine.cellItem
  split
  · split
    · exact h
    · exact h.setCell a (by simp)
  · exact h
  · exact h
  · exact h.setCell a (by simp)
  · exact h

theorem runItems {α : Type} {f : α → Yard → Yard × ReplyCode} (hf : ∀ i {y}, Holds m e y → Holds m e (f i y).1)
    (l : List α) (h : Holds m e y) : Holds m e (runItems e f l y).1 := by
  induction l generalizing y with
  | nil => exact h
  | cons i t ih =>
    refine ih ?_
    split
    · exact hf i h
    · exact (hf i h).evalOrders

theorem profileChange (h : Holds m e y) (a : Aisle) : Holds m e (profileChange e a y) := by
  unfold Machine.profileChange
  split
  · exact h.modEst a _
  · exact h.applyProfile a

theorem trayLimits (h : Holds m e y) (st : Station) : Holds m e (trayLimits e st y) := by
  unfold Machine.trayLimits
  refine Holds.markWaited ?_ st
  split
  · exact h.demandEnd st
  · exact h

theorem dropAuto (h : Holds m e y) (n : Nat) : Holds m e (dropAuto n y) := by
  unfold Machine.dropAuto
  split
  · exact h.foldl _ fun _ st _ h => h.shrinkSession st (ha := fun _ => .inl rfl)
  · exact h

end Holds

namespace HoldsAt

/-- Settings change that no invariant speaks of. -/
theorem withCfg (h : HoldsAt m s) {c : Settings} (hg : c.geometry = s.cfg.geometry := by rfl)
    (hi : 30 ≤ s.cfg.idleTimeout → 30 ≤ c.idleTimeout := by exact id) : HoldsAt m { s with cfg := c } := h.env hg hi id

theorem storeSettings (h : HoldsAt m s) {v : SettingsVal} (hv : CtlOk m (.settings v)) : HoldsAt m (storeSettings v s) :=
  h.setYard fun h => h.ctlRequest hv

/-! ## The sections -/

theorem secGeometry (h : HoldsAt m s) (a c l : Nat) : HoldsAt m (secGeometry a c l s).1 := by
  unfold Machine.secGeometry
  extract_lets g old y₁ y₂ y₃ src fire k
  have hg : GeometryFits g := geometryFits_clamp a c l
  split
  · exact h
  let e' : Env := envOf { s with cfg := k }
  have hin : Holds m e' (Machine.cellsWithin g s.yard) := Holds.cellsWithin (e' := e') h (hg : GeometryFits e'.cfg.geometry) id id
  have h₁ : Holds m e' y₁ := (hin.cellsChange .absent (keyOk_beyond (Holds.geometryFits h))).cellsChange .empty (keyOk_beyond (.of hg))
  have h₂ : Holds m e' y₂ := h₁.foldl _ fun _ a _ h => h.aisleLeaves a
  have h₃ : HoldsAt m { s with yard := y₃, cfg := k } := h₂.foldl _ fun _ a _ h => h.aisleEnters a
  have hv : CtlOk m (.settings (.geometry g)) := by
    cases m with
    | lists => exact hg
    | places => exact hg
    | numbers => trivial
    | sessions => trivial
  exact (h₃.storeSettings hv).onYard fun h => h.discoverySync

theorem secCells (h : HoldsAt m s) (items : List CellItem) : HoldsAt m (secCells items s).1 := by
  unfold Machine.secCells
  split
  · exact h
  extract_lets e f
  have hrun : Holds m e (Machine.runItems e f items s.yard).1 := by
    refine Holds.runItems (fun i y h => ?_) items h
    unfold f
    split
    · exact h.cellItem _ _
    · exact h
  have ht : HoldsAt m { s with yard := (Machine.runItems e f items s.yard).1 } := hrun
  dsimp only
  split
  · exact ht.storeSettings (by cases m <;> trivial)
  · exact ht

theorem applySpeeds (h : HoldsAt m s) (c : Settings) (hg : c.geometry = s.cfg.geometry)
    (hi : 30 ≤ s.cfg.idleTimeout → 30 ≤ c.idleTimeout) : HoldsAt m (applySpeeds c s) :=
  (h.withCfg hg hi).onYard fun h => (h.foldl _ fun _ a _ h => h.profileChange a).choicesWhen _

theorem secProfiles (h : HoldsAt m s) (p : ProfileCfg) : HoldsAt m (secProfiles p s).1 := by
  unfold Machine.secProfiles
  split
  · extract_lets v src c
    have hc : c.geometry = s.cfg.geometry ∧ (30 ≤ s.cfg.idleTimeout → 30 ≤ c.idleTimeout) := by
      unfold c
      split <;> exact ⟨rfl, id⟩
    exact (h.applySpeeds c hc.1 hc.2).storeSettings (by cases m <;> trivial)
  · exact h

theorem secAssign (h : HoldsAt m s) (items : List AssignItem) : HoldsAt m (secAssign items s).1 := by
  unfold Machine.secAssign
  split
  · exact h
  · exact (h.applySpeeds { s.cfg with assign := items.foldl assignItem s.cfg.assign } rfl id).storeSettings (by cases m <;> trivial)

theorem applyStation (h : HoldsAt m s) (st : Station) (c : StationCfg) (role : Role) : HoldsAt m (applyStation st c role s) := by
  refine HoldsAt.onYard (h.withCfg (c := { s.cfg with stations := s.cfg.stations.set st c })) fun h => ?_
  split
  · exact h.syncRole st
  · exact h.setRole st role

theorem stationItem (h : HoldsAt m s) (i : StationItem) : HoldsAt m (stationItem i s).1 := by
  unfold Machine.stationItem
  split
  · exact h
  next st _ =>
    extract_lets cur open' given others fit
    split
    · exact h.applyStation ..
    · split
      · exact h.applyStation ..
      · exact h
    · split
      · exact h
      · exact h.applyStation ..

theorem stationItems (l : List StationItem) (h : HoldsAt m s) : HoldsAt m (stationItems l s).1 := by
  induction l generalizing s with
  | nil => exact h
  | cons i t ih => exact ih (h.stationItem i)

theorem secStations (h : HoldsAt m s) (items : List StationItem) : HoldsAt m (secStations items s).1 := by
  unfold Machine.secStations
  split
  · exact h
  · have ht := stationItems items h
    dsimp only
    split
    · exact ht.storeSettings (by cases m <;> trivial)
    · exact ht

theorem secDispatch (h : HoldsAt m s) (aging pressure : Option Nat) : HoldsAt m (secDispatch aging pressure s).1 := by
  unfold Machine.secDispatch
  exact (h.withCfg).storeSettings (by cases m <;> trivial)

theorem secTrays (h : HoldsAt m s) (th limit : Option Nat) : HoldsAt m (secTrays th limit s).1 := by
  unfold Machine.secTrays
  exact ((h.withCfg).eachStation fun st h => h.trayLimits st).storeSettings (by cases m <;> trivial)

theorem secSessions (h : HoldsAt m s) (idle auto : Option Nat) : HoldsAt m (secSessions idle auto s).1 := by
  unfold Machine.secSessions
  extract_lets src c
  have hi : 30 ≤ s.cfg.idleTimeout → 30 ≤ c.idleTimeout := by
    intro h
    unfold c
    cases idle with
    | some v => exact le_clamp 30 1800 v
    | none => exact h
  have ht : HoldsAt m { s with cfg := c } := h.withCfg rfl hi
  have hv : CtlOk m (.settings (.sessions c.idleTimeout c.autoDelay)) := by
    cases m with
    | sessions => exact hi h.yard.timeout
    | _ => trivial
  exact (ht.setYard fun h => h.dropAuto c.autoDelay).storeSettings hv

theorem secFire (h : HoldsAt m s) (a b c d : Option Nat) : HoldsAt m (secFire a b c d s).1 := by
  unfold Machine.secFire
  exact (h.withCfg).storeSettings (by cases m <;> trivial)

theorem slotItem (h : HoldsAt m s) (hw : m.Whole) (i : SlotItem) : HoldsAt m (slotItem i s).1 := by
  unfold Machine.slotItem
  split
  · exact h
  next k _ =>
    split
    · exact h
    · extract_lets old new t moved
      have ht : HoldsAt m t := h.modSweep _
      dsimp only
      split
      · exact ht.zonesSync hw k
      · exact ht

theorem slotItems (hw : m.Whole) (l : List SlotItem) (h : HoldsAt m s) : HoldsAt m (slotItems l s).1 := by
  induction l generalizing s with
  | nil => exact h
  | cons i t ih => exact ih (h.slotItem hw i)

theorem settledNotices (h : HoldsAt m s) (ms : List Settled) : HoldsAt m (settledNotices ms s) :=
  h.foldl _ fun _ i h => by
    split
    · exact h.noticeStage ..
    · exact h

theorem secSweep (h : HoldsAt m s) (hw : m.Whole) (r : Option (Nat × Nat)) (items : List SlotItem) :
    HoldsAt m (secSweep r items s).1 := by
  unfold Machine.secSweep
  split
  · exact h
  extract_lets busy rc t
  have ht : HoldsAt m t := by
    unfold t
    split
    · split
      · exact h
      · exact h.modSweep _
    · exact h
  have hu := (slotItems hw items ht).settledNotices (Machine.slotItems items t).2.2
  dsimp only
  split
  · exact hu.storeSettings (by cases m <;> trivial)
  · exact hu

/-! ## The request -/

theorem applySection (h : HoldsAt m s) (hw : m.Whole) (c : CfgSection) : HoldsAt m (applySection c s).1 := by
  cases c with
  | geometry a b l => exact h.secGeometry a b l
  | cells l => exact h.secCells l
  | profiles p => exact h.secProfiles p
  | aisleAssign l => exact h.secAssign l
  | stations l => exact h.secStations l
  | dispatch a p => exact h.secDispatch a p
  | trays t l => exact h.secTrays t l
  | sessions i a => exact h.secSessions i a
  | sweep r l => exact h.secSweep hw r l
  | fire a b c d => exact h.secFire a b c d

theorem applySections (hw : m.Whole) (l : List CfgSection) (h : HoldsAt m s) : HoldsAt m (applySections l s).1 := by
  induction l generalizing s with
  | nil => exact h
  | cons c t ih =>
    refine ih ?_
    have hc := h.applySection hw c
    split
    · exact hc
    · exact hc.onYard fun h => h.evalOrders

/-- A Configure request keeps the invariants of the yard. -/
theorem configureAct (h : HoldsAt m s) (hw : m.Whole) (l : List CfgSection) : HoldsAt m (configureAct l s).1 := by
  unfold Machine.configureAct
  split
  · exact applySections hw l h
  · exact h

end HoldsAt
end Sys2Proof.Machine
end

