-- ==== Sys2Proof/Proofs/FlashKept.lean ====
section
/-! PROOF. What the invariants ask of flash, and the writes that keep it (R16, R24). -/

namespace Sys2Proof.Machine

open Sys2Proof

-- Default arguments given by tactics wait for the kernel: one theorem at a time, so that few wait at once.
set_option Elab.async false

variable {m : Kind} {e : Env} {y : Yard} {s : State} {f : Flash}

/-- Flash lists its cells, attributes and fills in canonical form, and stores no geometry beyond the limits of R1. -/
structure FlashLists (f : Flash) : Prop where
  cells : KSorted f.cells
  attrs : KSorted f.attrs
  fills : KSorted f.fills
  geometry : ∀ g, f.settings.geometry = some g → GeometryFits g

/-- What an invariant asks of flash. -/
def FlashOk : Kind → Flash → Prop
  | .lists, f | .places _ _, f => FlashLists f
  | .numbers, f => ∀ b t, kget f.attrs b = some t → binOk b = true
  | .sessions, f => ∀ v, f.settings.sessions = some v → 30 ≤ v.1

/-- What an invariant asks of a write for flash: a control write has values in their ranges, and attributes are of a bin
with a number that bins can have. -/
def WriteOk (m : Kind) : Writing → Prop
  | .ctl w => CtlOk m w
  | .entry e _ => ∀ b, e.key = .attr b → KeyOk m (.attr b)

theorem FlashLists.putSettings (h : FlashLists f) {v : SettingsVal} (hv : WriteFits (.settings v)) :
    FlashLists (putCtl f (.settings v)) := by
  refine ⟨h.cells, h.attrs, h.fills, fun g hg => ?_⟩
  cases v with
  | geometry g' => cases hg; exact hv
  | _ => exact h.geometry g hg

theorem FlashLists.putCtl (h : FlashLists f) {w : CtlWrite} (hw : WriteFits w) : FlashLists (putCtl f w) := by
  cases w with
  | settings v => exact h.putSettings hw
  | _ => exact ⟨h.cells, h.attrs, h.fills, h.geometry⟩

theorem FlashLists.putEntry (h : FlashLists f) (x : JEntry) : FlashLists (putEntry f x) := by
  unfold Machine.putEntry
  split
  · exact ⟨KSorted_kdel _ _ h.cells, h.attrs, h.fills, h.geometry⟩
  · exact ⟨KSorted_kput _ _ _ h.cells, h.attrs, h.fills, h.geometry⟩
  · exact ⟨h.cells, h.attrs, KSorted_kput _ _ _ h.fills, h.geometry⟩
  · exact ⟨h.cells, KSorted_kput _ _ _ h.attrs, h.fills, h.geometry⟩
  · exact h

theorem putCtl_attrs (f : Flash) (w : CtlWrite) : (putCtl f w).attrs = f.attrs := by cases w <;> rfl

theorem putEntry_settings (f : Flash) (x : JEntry) : (putEntry f x).settings = f.settings := by
  unfold putEntry
  split <;> rfl

/-- A timeout stored in flash is the one a write brought, or one of before. -/
theorem putCtl_sessions {w : CtlWrite} {v : Nat × Nat} (h : (putCtl f w).settings.sessions = some v) :
    f.settings.sessions = some v ∨ w = .settings (.sessions v.1 v.2) := by
  cases w with
  | settings x =>
    cases x with
    | sessions i a => cases h; exact .inr rfl
    | _ => exact .inl h
  | _ => exact .inl h

/-- Attributes stored in flash are what an entry brought, or what stood there before. -/
theorem putEntry_attrs {x : JEntry} {b : Nat} {t : BinAttr} (h : kget (putEntry f x).attrs b = some t) :
    kget f.attrs b = some t ∨ x.key = .attr b := by
  unfold putEntry at h
  split at h
  · exact .inl h
  · exact .inl h
  · exact .inl h
  next d _ hkey _ =>
    by_cases hbd : b = d
    · exact .inr (hbd ▸ hkey)
    · exact .inl ((kget_kput_other _ _ _ _ hbd).symm.trans h)
  · exact .inl h

namespace FlashOk

/-- A write that the invariant allows keeps what it asks of flash. -/
theorem putWriting (h : FlashOk m f) {w : Writing} (hw : WriteOk m w) : FlashOk m (putWriting f w) := by
  have lists : (∀ c, w = .ctl c → WriteFits c) → FlashLists f → FlashLists (Machine.putWriting f w) := fun hw h => by
    cases w with
    | ctl c => exact h.putCtl (hw c rfl)
    | entry x r => exact h.putEntry x
  cases m with
  | lists => exact lists (fun c hc => by subst hc; exact hw) h
  | places => exact lists (fun c hc => by subst hc; exact hw) h
  | numbers =>
    intro b t hb
    cases w with
    | ctl c => exact h b t (putCtl_attrs f c ▸ hb)
    | entry x r => exact (putEntry_attrs hb).elim (h b t) (hw b)
  | sessions =>
    intro v hv
    cases w with
    | ctl c =>
      rcases putCtl_sessions hv with hv | rfl
      · exact h v hv
      · exact hw
    | entry x r => exact h v (putEntry_settings f x ▸ hv)

theorem foldl (h : FlashOk m f) (l : List Writing) (hl : ∀ w ∈ l, WriteOk m w) : FlashOk m (l.foldl Machine.putWriting f) := by
  induction l generalizing f with
  | nil => exact h
  | cons w t ih => exact ih (h.putWriting (hl w List.mem_cons_self)) fun x hx => hl x (List.mem_cons_of_mem _ hx)

end FlashOk

namespace JHolds

variable {j : Journal}

/-- The write in flight is one that the invariant allows. -/
theorem writeOk (h : JHolds m j) {w : Writing} (hw : j.writing = some w) : WriteOk m w := by
  cases w with
  | ctl c => exact h.writingOk hw
  | entry x r =>
    intro b hb
    cases m with
    | numbers => exact hb ▸ h.writing x r hw
    | _ => trivial

/-- A record that the warm restart's flush takes is one that the invariant allows. -/
theorem orderedOk (h : JHolds m j) {k : JKey} (hk : k ∈ orderedKeys j) : KeyOk m k := by
  have hfits := keyFits_of_ordered hk
  cases k with
  | cell a => exact keyOk_of_fits hfits m
  | fill b => exact keyOk_fill m b
  | attr b =>
    refine h.markOk ?_
    simp only [orderedKeys, List.mem_append, List.mem_filterMap, Option.map_eq_some_iff, reduceCtorEq, and_false, exists_false,
      false_or, List.mem_flatMap] at hk
    obtain ⟨d, -, hd | hd⟩ := hk
    · split at hd
      next hm => cases List.mem_singleton.1 hd; simpa using hm
      next => cases hd
    · split at hd
      next => cases List.mem_singleton.1 hd
      next => cases hd

end JHolds

/-- The writes of the flush before a warm restart are ones that the invariant allows. -/
theorem restartWrites_ok (h : JHolds m y.journal) (clean : Bool) : ∀ w ∈ restartWrites e clean y, WriteOk m w := by
  have hclean : ∀ v, WriteOk m (.ctl (.clean v)) := fun v => Plain.ok (fun _ => by simp) m
  have hentry : ∀ x ∈ y.journal.entries ++ (orderedKeys y.journal).map (fun k => ⟨k, currentVal e k y⟩),
      WriteOk m (.entry x false) := by
    intro x hx b hb
    rcases List.mem_append.1 hx with hx | hx
    · exact hb ▸ h.keyOk (mem_keys hx)
    · obtain ⟨k, hk, rfl⟩ := List.mem_map.1 hx
      exact hb ▸ h.orderedOk hk
  intro w hw
  unfold restartWrites at hw
  extract_lets j keep ctl c entries pre at hw
  have hctl : ∀ w ∈ ctl, CtlOk m w := by
    intro w hw
    unfold ctl at hw
    split at hw
    next c _ t hc hl =>
      rcases List.mem_cons.1 hw with rfl | hw
      · exact h.writingOk hc
      · exact h.ctlOk (hl ▸ List.mem_cons_of_mem _ (List.mem_of_mem_filter hw))
    next => exact h.ctlOk (List.mem_of_mem_filter hw)
  simp only [List.mem_append, List.mem_map, List.mem_singleton] at hw
  rcases hw with ((⟨c, hc, rfl⟩ | hw) | ⟨x, hx, rfl⟩) | rfl
  · exact hctl c hc
  · unfold pre at hw
    split at hw
    · rw [List.mem_singleton.1 hw]; exact hclean false
    · cases hw
  · exact hentry x hx
  · exact hclean true

/-- The flush before a warm restart keeps what an invariant asks of flash. -/
theorem FlashOk.restartFlush (h : FlashOk m f) (hj : JHolds m y.journal) (error : Option Nat) :
    FlashOk m (restartFlush e error f y) := by
  unfold Machine.restartFlush
  refine h.foldl _ fun w hw => restartWrites_ok (e := e) hj f.clean w ?_
  split at hw
  · exact List.mem_of_mem_take hw
  · exact hw

namespace HoldsAt

/-! ## A write that completes (R16, R21) -/

theorem flushWrote (h : HoldsAt m s) (k : JKey) : HoldsAt m (flushWrote k s) := by
  unfold Machine.flushWrote
  extract_lets ws done y z
  have hy : Holds m (envOf s) y := Holds.modJournal h fun hj => hj.light {}
  have hz : HoldsAt m { s with yard := z } := by
    show Holds m (envOf s) z
    unfold z
    split
    · exact hy
    · exact hy.modJournal fun hj => hj.flushEnded _
  exact hz.foldl _ fun _ w h => h.answer w.id .ok []

theorem writeDone (h : HoldsAt m s) : HoldsAt m (writeDone s) := by
  unfold Machine.writeDone
  split
  · exact h
  · refine Holds.modJournal (f := fun j => { j with ctl := j.ctl.drop 1, writing := none, errors := 0 }) h fun hj => ?_
    exact hj.light { ctl := fun w hw => .inl (List.mem_of_mem_drop hw), writing := fun x hx => by cases hx }
  next x replaced _ =>
    extract_lets t
    have ht : HoldsAt m t := by
      refine Holds.modJournal (f := fun j => holdOffOf { j with
        entries := if replaced then j.entries else j.entries.drop 1, writing := none, errors := 0 }) h fun hj => (hj.light { entries := ?_, writing := fun x hx => by cases hx }).holdOffOf
      dsimp only
      split
      · exact .refl _
      · exact (List.drop_sublist _ _).map _
    split
    · exact ht
    · exact ht.flushWrote _

theorem flashDone (h : HoldsAt m s) : HoldsAt m (flashDone s) := by
  unfold Machine.flashDone
  split
  · exact (h.writeDone.closeJournal false).enterSealed .done
  · exact h.writeDone

end HoldsAt

/-- A completed write leaves in flash what stood there, with the write in flight stored. -/
theorem flashDone_flash (s : State) :
    (flashDone s).flash = (s.yard.journal.writing.elim s.flash (putWriting s.flash)) := by
  have hw : (writeDone s).flash = s.yard.journal.writing.elim s.flash (putWriting s.flash) := by
    unfold writeDone
    split
    next h => rw [h]; rfl
    next h => rw [h]; rfl
    next h =>
      rw [h]
      extract_lets t
      split
      · rfl
      · exact (keeps_flushWrote _ t).flash
  unfold flashDone
  split
  · exact ((keeps_closeJournal _ _).trans (keeps_enterSealed _ _)).flash.trans hw
  · exact hw

/-- A completed write keeps what an invariant asks of flash. -/
theorem FlashOk.flashDone (h : FlashOk m s.flash) (hs : HoldsAt m s) : FlashOk m (flashDone s).flash := by
  rw [flashDone_flash]
  cases hw : s.yard.journal.writing with
  | none => exact h
  | some w => exact h.putWriting (hs.journal.writeOk hw)

end Sys2Proof.Machine
end

