-- ==== Sys2Proof/Proofs/LoadKept.lean ====
section
/-! PROOF. What the load of the map makes of flash (R23): canonical tables, cells within the geometry, and the bin of
each Occupied cell Stored there. -/

namespace Sys2Proof.Machine

open Sys2Proof

-- Default arguments given by tactics wait for the kernel: one theorem at a time, so that few wait at once.
set_option Elab.async false

variable {m : Kind} {g : Geometry} {f : Flash} {l : Loading}

theorem jHolds_reset (m : Kind) : JHolds m .reset := by
  cases m with
  | lists => exact ⟨listsSafe_reset.journal, geometrySafe_reset.waiting, geometrySafe_reset.writing⟩
  | places => exact ⟨listsSafe_reset.journal, geometrySafe_reset.waiting, geometrySafe_reset.writing⟩
  | numbers => constructor <;> simp [Journal.reset]
  | sessions => constructor <;> simp [Journal.reset]

/-- Keeping some entries of a table, with other contents, keeps its canonical form. -/
theorem KSorted_filterMap {α β : Type} {l : List (Nat × α)} {φ : Nat × α → Option (Nat × β)}
    (hφ : ∀ p q, φ p = some q → q.1 = p.1) (h : KSorted l) : KSorted (l.filterMap φ) := by
  refine List.Pairwise.sublist ?_ h
  clear h
  induction l with
  | nil => exact .slnil
  | cons p t ih =>
    rw [List.filterMap_cons]
    split
    · exact ih.cons _
    next q hq =>
      rw [List.map_cons, List.map_cons, hφ p q hq]
      exact ih.cons_cons _

/-! ## Tables, cells within the geometry, and bins in no place -/

/-- The tables being loaded are canonical, list cells within the geometry, and bins that stand in no place. -/
structure LoadLists (g : Geometry) (l : Loading) : Prop where
  cells : KSorted l.cells
  bins : KSorted l.bins
  within : ∀ k c, kget l.cells k = some c → ∃ a, cellOfCode k = some a ∧ inGeometry g a = true
  records : ∀ b r, kget l.bins b = some r → r.live = none ∧ inPlace r = false

/-- What an invariant asks of a map being loaded. -/
structure Loaded (m : Kind) (g : Geometry) (l : Loading) : Prop where
  journal : JHolds m l.journal
  lists : IfLists m (LoadLists g l)
  numbers : m = .numbers → ∀ b r, kget l.bins b = some r → binOk b = true

/-- A stored cell that is loaded keeps its code, and its address lies within the geometry. -/
theorem storedCells_within {k : Nat} {c : Cell} (h : kget (storedCells g f) k = some c) :
    ∃ a, cellOfCode k = some a ∧ inGeometry g a = true := by
  have hk := mem_of_kget _ _ _ h
  simp only [storedCells, List.mem_filterMap] at hk
  obtain ⟨⟨k', c'⟩, -, hc⟩ := hk
  dsimp only at hc
  split at hc
  next a ha =>
    split at hc
    next hin => cases hc; exact ⟨a, ha, hin.1⟩
    next => cases hc
  next => cases hc

theorem KSorted_storedCells (h : KSorted f.cells) : KSorted (storedCells g f) := by
  refine KSorted_filterMap ?_ h
  rintro ⟨k, c⟩ q hq
  dsimp only at hq
  split at hq
  · rw [Option.ite_none_right_eq_some] at hq
    exact (Option.some.inj hq.2) ▸ rfl
  · cases hq

/-- The record of a bin before the cells place it. -/
theorem kget_loadBin (b : Nat) : kget (f.attrs.map (loadBin f)) b = (kget f.attrs b).map fun t => (loadBin f (b, t)).2 :=
  kget_map f.attrs (fun b t => (loadBin f (b, t)).2) b

namespace Loaded

/-- What is loaded from flash, before the settings and the cells correct it. -/
theorem start (h : FlashOk m f) : Loaded m g ⟨storedCells g f, f.attrs.map (loadBin f), .reset⟩ where
  journal := jHolds_reset m
  lists := by
    have lists : FlashLists f → LoadLists g ⟨storedCells g f, f.attrs.map (loadBin f), .reset⟩ := fun h => by
      refine ⟨KSorted_storedCells h.cells, KSorted_map _ _ (fun _ => rfl) h.attrs, fun k c => storedCells_within,
        fun b r hr => ?_⟩
      obtain ⟨t, -, rfl⟩ := Option.map_eq_some_iff.1 ((kget_loadBin b).symm.trans hr)
      refine ⟨rfl, ?_⟩
      cases hret : t.retired <;> simp [loadBin, inPlace, hret]
    cases m with
    | lists => exact lists h
    | places => exact lists h
    | numbers => trivial
    | sessions => trivial
  numbers hm b r hr := by
    subst hm
    obtain ⟨t, ht, -⟩ := Option.map_eq_some_iff.1 ((kget_loadBin b).symm.trans hr)
    exact h b t ht

theorem foldl {α : Type} {φ : Loading → α → Loading} (h : Loaded m g l) (xs : List α)
    (hφ : ∀ l x, Loaded m g l → Loaded m g (φ l x)) : Loaded m g (xs.foldl φ l) := by
  induction xs generalizing l with
  | nil => exact h
  | cons x t ih => exact ih (hφ l x h)

theorem putCell (h : Loaded m g l) {k : Nat} (c : Cell)
    (hk : IfLists m (LoadLists g l → ∃ a, cellOfCode k = some a ∧ inGeometry g a = true)) :
    Loaded m g { l with cells := kput l.cells k c } := by
  refine ⟨h.journal, ?_, h.numbers⟩
  have lists : (LoadLists g l → ∃ a, cellOfCode k = some a ∧ inGeometry g a = true) → LoadLists g l →
      LoadLists g { l with cells := kput l.cells k c } := fun hk h => by
    refine ⟨KSorted_kput _ _ _ h.cells, h.bins, fun j x hj => ?_, h.records⟩
    by_cases hjk : j = k
    · exact hjk ▸ hk h
    · exact h.within j x ((kget_kput_other _ _ _ _ hjk).symm.trans hj)
  cases m with
  | lists => exact lists hk h.lists
  | places => exact lists hk h.lists
  | numbers => trivial
  | sessions => trivial

/-- A cell that is listed takes another content. -/
theorem overCell (h : Loaded m g l) {k : Nat} {x : Cell} (c : Cell) (hk : kget l.cells k = some x) :
    Loaded m g { l with cells := kput l.cells k c } := h.putCell c (.of fun hl => hl.within k x hk)

theorem delCell (h : Loaded m g l) (k : Nat) : Loaded m g { l with cells := kdel l.cells k } := by
  refine ⟨h.journal, h.lists.map fun h => ⟨KSorted_kdel _ _ h.cells, h.bins, fun j x hj => ?_, h.records⟩, h.numbers⟩
  by_cases hjk : j = k
  · rw [hjk, kget_kdel_same _ _ h.cells] at hj
    cases hj
  · exact h.within j x ((kget_kdel_other _ _ _ hjk).symm.trans hj)

/-- A bin of the table takes another record, of a bin that stands in no place. -/
theorem putBin (h : Loaded m g l) {b : Nat} {r q : Bin} (hr : kget l.bins b = some r) (hlive : q.live = r.live)
    (hq : inPlace q = false) : Loaded m g { l with bins := kput l.bins b q } := by
  refine ⟨h.journal, h.lists.map fun h => ⟨h.cells, KSorted_kput _ _ _ h.bins, h.within, fun d x hd => ?_⟩, fun hm d x hd => ?_⟩
  · by_cases hdb : d = b
    · rw [hdb, kget_kput_same] at hd
      cases hd
      exact ⟨hlive.trans (h.records b r hr).1, hq⟩
    · exact h.records d x ((kget_kput_other _ _ _ _ hdb).symm.trans hd)
  · by_cases hdb : d = b
    · exact hdb ▸ h.numbers hm b r hr
    · exact h.numbers hm d x ((kget_kput_other _ _ _ _ hdb).symm.trans hd)

theorem withJournal (h : Loaded m g l) {j : Journal} (hj : JHolds m j) : Loaded m g { l with journal := j } :=
  ⟨hj, h.lists.map fun h => ⟨h.cells, h.bins, h.within, h.records⟩, h.numbers⟩

/-! ## The steps of the load -/

theorem loadUnlisted (h : Loaded m g l) (listed : List CellAddr) (k : Nat) : Loaded m g (loadUnlisted listed l k) := by
  unfold Machine.loadUnlisted
  split
  next a ha =>
    split
    · exact (h.delCell k).withJournal (h.journal.change _ (keyOk_of_fits (keyFits_of_code ha) m))
    · exact h
  · exact h

theorem loadListed (h : Loaded m g l) (hg : IfLists m (GeometryFits g)) (a : CellAddr) : Loaded m g (loadListed g l a) := by
  unfold Machine.loadListed
  split
  next hin =>
    have hcode : IfLists m (LoadLists g l → ∃ x, cellOfCode (cellCode a) = some x ∧ inGeometry g x = true) := by
      refine hg.map fun hg _ => ⟨a, ?_, hin.1⟩
      obtain ⟨h1, h2, h3⟩ := keyFits_of_in hg hin.1
      exact cellOfCode_cellCode a h1 h2 h3
    exact (h.putCell .disabled hcode).withJournal (h.journal.change _ (keyOk_of_in hg hin.1))
  next => exact h

theorem loadDisabled (h : Loaded m g l) (hg : IfLists m (GeometryFits g)) (cells : Option (List CellAddr)) :
    Loaded m g (loadDisabled g cells l) := by
  unfold Machine.loadDisabled
  split
  · exact h
  next listed =>
    extract_lets l₁ l₂ kept now
    have h₁ : Loaded m g l₁ := h.foldl _ fun _ k h => h.loadUnlisted listed k
    have h₂ : Loaded m g l₂ := h₁.foldl _ fun _ a h => h.loadListed hg a
    split
    · refine h₂.withJournal (h₂.journal.withCtl _ fun w hw => ?_)
      rcases List.mem_append.1 hw with hw | hw
      · exact h₂.journal.ctlOk hw
      · rw [List.mem_singleton.1 hw]
        cases m <;> trivial
    · exact h₂

theorem loadPlace (h : Loaded m g l) (k : Nat) : Loaded m g (loadPlace l k) := by
  unfold Machine.loadPlace
  split
  next a b _ hk =>
    split
    next r hr =>
      split
      · exact h.overCell _ hk
      · split
        · exact h.overCell _ hk
        · exact h.putBin hr rfl rfl
    next => exact h.overCell _ hk
  next b _ hk =>
    split
    · split
      · exact h.overCell _ hk
      · exact h
    · exact h.overCell _ hk
  · exact h

theorem loadLast (h : Loaded m g l) (k : Nat) : Loaded m g (loadLast l k) := by
  unfold Machine.loadLast
  split
  · split
    next r hr =>
      split
      next hst => exact h.putBin hr rfl (by simp [inPlace, hst.1])
      next => exact h
    next => exact h
  · exact h

end Loaded

/-- The map that is loaded satisfies what the invariant asks of it. -/
theorem loaded_loadMap (h : FlashOk m f) (hg : IfLists m (GeometryFits g)) (cells : Option (List CellAddr)) :
    Loaded m g (loadMap g cells f) := by
  have h₁ : Loaded m g (loadDisabled g cells ⟨storedCells g f, f.attrs.map (loadBin f), .reset⟩) :=
    (Loaded.start h).loadDisabled hg cells
  exact (h₁.foldl _ fun _ k h => h.loadPlace k).foldl _ fun _ k h => h.loadLast k

/-! ## The bins of Occupied cells (R23) -/

/-- The cell of a code, where it is Occupied, holds a bin that is recorded Stored in it. -/
def StoredAt (l : Loading) (k : Nat) : Prop :=
  ∀ b, kget l.cells k = some (.occupied b) →
    ∃ r a, kget l.bins b = some r ∧ r.st = .stored ∧ r.cell = some a ∧ cellOfCode k = some a

/-- A cell's content changes to one that is not Occupied. -/
theorem StoredAt.putCell {j : Nat} (h : j ≠ k → StoredAt l j) {c : Cell} (hc : ∀ b, c ≠ .occupied b) :
    StoredAt { l with cells := kput l.cells k c } j := by
  intro b hb
  by_cases hjk : j = k
  · rw [hjk, kget_kput_same] at hb
    exact absurd (Option.some.inj hb) (hc b)
  · exact h hjk b ((kget_kput_other _ _ _ _ hjk).symm.trans hb)

/-- The cell in turn is settled, and those settled before stay so: a bin that becomes Stored was not before. -/
theorem StoredAt.loadPlace {j : Nat} (h : j ≠ k → StoredAt l j) (hcode : (cellOfCode k).isSome ∨ kget l.cells k = none) :
    StoredAt (loadPlace l k) j := by
  have hsame : (∀ b, kget l.cells k ≠ some (.occupied b)) → StoredAt l j := fun hk => by
    by_cases hjk : j = k
    · exact fun b hb => absurd (hjk ▸ hb) (hk b)
    · exact h hjk
  unfold Machine.loadPlace
  split
  next a b ha hk =>
    split
    next r hr =>
      split
      · exact .putCell h (by simp)
      · split
        · exact .putCell h (by simp)
        next hns =>
          intro d hd
          by_cases hjk : j = k
          · subst hjk
            cases hk.symm.trans hd
            exact ⟨_, a, kget_kput_same _ _ _, rfl, rfl, ha⟩
          · obtain ⟨q, x, hq, hst, hrest⟩ := h hjk d hd
            have hdb : d ≠ b := by
              rintro rfl
              cases hr.symm.trans hq
              exact hns hst
            exact ⟨q, x, (kget_kput_other _ _ _ _ hdb).trans hq, hst, hrest⟩
    next => exact .putCell h (by simp)
  next b _ hk =>
    split
    · split
      · exact .putCell h (by simp)
      · exact hsame fun d hd => by simp [hk] at hd
    · exact .putCell h (by simp)
  next hno _ =>
    refine hsame fun b hb => ?_
    rcases hcode with hc | hc
    · obtain ⟨a, ha⟩ := Option.isSome_iff_exists.1 hc
      exact hno a b ha hb
    · rw [hb] at hc
      cases hc

/-- The placing of bins settles every cell in its turn. -/
theorem storedAt_foldl_loadPlace (keys : List Nat) {j : Nat} (hl : Loaded .lists g l) (h : j ∉ keys → StoredAt l j) :
    StoredAt (keys.foldl loadPlace l) j := by
  induction keys generalizing l with
  | nil => exact h (by simp)
  | cons k t ih =>
    refine ih (hl.loadPlace k) fun hj => .loadPlace (fun hjk => h (by simp [hjk, hj])) ?_
    cases hk : kget l.cells k with
    | none => exact .inr rfl
    | some c =>
      obtain ⟨a, ha, -⟩ := hl.lists.within k c hk
      exact .inl (by simp [ha])

/-- The last known cells change no bin that is Stored. -/
theorem StoredAt.loadLast {j : Nat} (h : StoredAt l j) : StoredAt (loadLast l k) j := by
  unfold Machine.loadLast
  split
  next a b _ _ =>
    split
    next r hr =>
      split
      next hun =>
        intro d hd
        obtain ⟨q, x, hq, hst, hrest⟩ := h d hd
        have hdb : d ≠ b := by
          rintro rfl
          cases hr.symm.trans hq
          rw [hun.1] at hst
          cases hst
        exact ⟨q, x, (kget_kput_other _ _ _ _ hdb).trans hq, hst, hrest⟩
      next => exact h
    next => exact h
  next => exact h

theorem storedAt_foldl_loadLast (keys : List Nat) {j : Nat} (h : StoredAt l j) : StoredAt (keys.foldl loadLast l) j := by
  induction keys generalizing l with
  | nil => exact h
  | cons k t ih => exact ih h.loadLast

theorem storedAt_loadMap (h : FlashLists f) (hg : GeometryFits g) (cells : Option (List CellAddr)) (j : Nat) :
    StoredAt (loadMap g cells f) j := by
  unfold loadMap
  extract_lets l keys
  have hl : Loaded .lists g l := (Loaded.start (m := .lists) h).loadDisabled hg cells
  have hplaced : StoredAt (keys.foldl loadPlace l) j := by
    refine storedAt_foldl_loadPlace keys hl fun hj b hb => ?_
    exact absurd (List.mem_map_of_mem (f := Prod.fst) (mem_of_kget _ _ _ hb)) hj
  exact storedAt_foldl_loadLast keys hplaced

end Sys2Proof.Machine
end

