-- ==== Sys2Proof/Proofs/StartsKept.lean ====
section
/-! PROOF. A start and the passage of time keep the invariants of the yard (R119 to R121, R212, R213). -/

namespace Sys2Proof.Machine

open Sys2Proof

-- Default arguments given by tactics wait for the kernel: one theorem at a time, so that few wait at once.
set_option Elab.async false

variable {m : Kind} {e : Env} {y : Yard} {s : State} {f : Flash}

/-! ## The yard at a start -/

/-- The settings that are loaded have a geometry and an idle timeout within their ranges. -/
theorem loadSettings_ok (h : FlashOk m f) (bad : List Nat) :
    IfLists m (GeometryFits (loadSettings (goodSettings bad f.settings)).geometry)
    ∧ (m = .sessions → 30 ≤ (loadSettings (goodSettings bad f.settings)).idleTimeout) := by
  have geometry : FlashLists f → GeometryFits (loadSettings (goodSettings bad f.settings)).geometry := fun h => by
    have hdflt : GeometryFits .dflt := ⟨by decide, by decide⟩
    show GeometryFits ((f.settings.geometry.filter _).getD .dflt)
    cases hg : f.settings.geometry with
    | none => exact hdflt
    | some g =>
      simp only [Option.filter]
      split
      · exact h.geometry g hg
      · exact hdflt
  have timeout : FlashOk .sessions f → 30 ≤ (loadSettings (goodSettings bad f.settings)).idleTimeout := fun h => by
    show 30 ≤ ((f.settings.sessions.filter _).map (·.1)).getD 300
    cases hv : f.settings.sessions with
    | none => simp
    | some v =>
      simp only [Option.filter]
      split
      · exact h v hv
      · simp
  refine ⟨?_, fun hm => by subst hm; exact timeout h⟩
  cases m with
  | lists => exact geometry h
  | places => exact geometry h
  | numbers => trivial
  | sessions => trivial

/-- A yard with empty lists, and no bin in any place. -/
structure EmptyYard (y : Yard) : Prop where
  orders : y.orders = []
  outbox : y.post.outbox = []
  trays : ∀ st : Station, y.trays[st].items = []
  sessions : ∀ st : Station, y.stations[st].session = none
  nowhere : ∀ b p, ¬At b p y

/-- The yard at a start is empty but for the map, the bins and what their corrections ask of the journal. -/
theorem emptyYard_start (warm : Bool) (c : Settings) (dflts : List Nat) (clean : Bool) (l : Loading) (segNos : Vector Nat 6)
    (delNo retNo : Nat) : EmptyYard (startYard warm c dflts clean l segNos delNo retNo) := by
  unfold startYard
  extract_lets car lin rec y
  have hy : EmptyYard y := by
    have hstation : ∀ st : Station, y.stations[st] = .start c.stations[st].role := fun st => vmap_get ..
    have hcarrier : ∀ a : Aisle, y.carriers[a].load = none := fun a => congrArg Carrier.load (vmap_get _ _ a)
    refine ⟨rfl, rfl, fun st => congrArg Tray.items (Vector.getElem_replicate st.isLt), fun st => congrArg StationRec.session (hstation st), fun b p hp => ?_⟩
    cases p with
    | fork a => rw [at_fork, hcarrier] at hp; cases hp
    | delivery => cases at_delivery.1 hp
    | ret => cases at_ret.1 hp
    | inbound a =>
      have : y.lines.inbound[a] = none := by
        show #v[none, none, none, none, none, none][a] = none
        fin_cases a <;> rfl
      rw [at_inbound, this] at hp; cases hp
    | next st => rw [at_next, hstation] at hp; cases hp
    | present st => rw [at_present, hstation] at hp; cases hp
  clear_value y
  generalize aisles = xs
  induction xs generalizing y with
  | nil => exact hy
  | cons a t ih =>
    exact ih _ ⟨hy.orders, hy.outbox, hy.trays, hy.sessions, fun b p hp => hy.nowhere b p (by cases p <;> exact hp)⟩

/-- The map, the bins and the journal of the yard at a start are the ones loaded. -/
theorem startYard_loaded (warm : Bool) (c : Settings) (dflts : List Nat) (clean : Bool) (l : Loading) (segNos : Vector Nat 6)
    (delNo retNo : Nat) : (⟨(startYard warm c dflts clean l segNos delNo retNo).cells,
      (startYard warm c dflts clean l segNos delNo retNo).bins,
      (startYard warm c dflts clean l segNos delNo retNo).journal⟩ : Loading) = l := by
  unfold startYard
  extract_lets car lin rec y
  have hy : (⟨y.cells, y.bins, y.journal⟩ : Loading) = l := rfl
  clear_value y
  generalize aisles = xs
  induction xs generalizing y with
  | nil => exact hy
  | cons a t ih => exact ih _ hy

/-- An empty yard over a loaded map satisfies the invariants. -/
theorem EmptyYard.holds (h : EmptyYard y) (hw : m.Whole) (hl : Loaded m e.cfg.geometry ⟨y.cells, y.bins, y.journal⟩)
    (hst : IfPlaces m fun _ _ => ∀ k, StoredAt ⟨y.cells, y.bins, y.journal⟩ k)
    (hg : IfLists m (GeometryFits e.cfg.geometry)) (hi : m = .sessions → 30 ≤ e.cfg.idleTimeout) : Holds m e y := by
  have tables : GeometryFits e.cfg.geometry → LoadLists e.cfg.geometry ⟨y.cells, y.bins, y.journal⟩ → Tables e y := fun hg hl =>
    { cells := hl.cells, bins := hl.bins, geometry := hg, outbox := by simp [h.outbox]
      orders := ⟨by simp [h.orders], by simp [h.orders], by simp [h.orders], by simp [h.orders],
        fun b r hr _ => (hl.records b r hr).1⟩
      trays := fun st => by rw [h.trays]; exact Nat.zero_le _
      placements := fun st x hx => by rw [h.sessions] at hx; cases hx }
  refine ⟨hl.journal, ?_⟩
  cases m with
  | lists => exact tables hg hl.lists
  | places may kept =>
    have hp := hl.lists
    have hnil : ∀ {p : Place} {l : List Nat}, (∀ b ∈ l, At b p y) → l.Nodup := fun {p l} hl => by
      rw [List.eq_nil_iff_forall_not_mem.2 fun b hb => h.nowhere b p (hl b hb)]
      exact .nil
    exact ⟨tables hg hp,
      { delivery := hnil fun b hb => at_delivery.2 hb, returns := hnil fun b hb => at_ret.2 hb
        one := fun b p q hb => absurd hb (h.nowhere b p)
        there := fun b hb => (hb.elim (hw.2 b) fun ⟨p, hb⟩ => h.nowhere b p hb).elim
        noCell := fun b r hr hin => by simp [(hp.records b r hr).2] at hin
        stored := fun k b hk => hst k b hk
        within := hp.within, allowed := fun b p hb => absurd hb (h.nowhere b p) }⟩
  | numbers => exact hl.numbers rfl
  | sessions => exact ⟨hi rfl, fun _ st x hx => by rw [h.sessions] at hx; cases hx⟩

theorem holds_startYard (hf : FlashOk m f) (hw : m.Whole) (warm : Bool) (bad : List Nat) (segNos : Vector Nat 6)
    (delNo retNo : Nat) (he : e.cfg = loadSettings (goodSettings bad f.settings)) :
    Holds m e (startYard warm e.cfg (defaulted (goodSettings bad f.settings)) f.clean
      (loadMap e.cfg.geometry (goodSettings bad f.settings).cells f) segNos delNo retNo) := by
  obtain ⟨hg, hi⟩ := loadSettings_ok hf bad
  rw [← he] at hg hi
  refine (emptyYard_start ..).holds hw ?_ ?_ hg hi
  · rw [startYard_loaded]
    exact loaded_loadMap hf hg _
  · rw [startYard_loaded]
    cases m with
    | places => exact storedAt_loadMap hf hg _
    | _ => trivial

/-! ## Starts -/

namespace HoldsAt

theorem startState (hf : FlashOk m f) (hw : m.Whole) (warm : Bool) (bad : List Nat) (k : Link) (left : Option Nat)
    (segNos : Vector Nat 6) (delNo retNo : Nat) (pending : List Instr) :
    HoldsAt m (startState warm f bad k left segNos delNo retNo pending) :=
  holds_startYard (e := envOf (Machine.startState warm f bad k left segNos delNo retNo pending)) hf hw warm bad segNos delNo retNo rfl

theorem withBus (h : HoldsAt m s) (l : List BusMsg) : HoldsAt m { s with yard := { s.yard with bus := l } } :=
  Holds.light h { places := fun _ p hx => by cases p <;> exact hx }

theorem startEnds (h : HoldsAt m s) (hw : m.Whole) (p : Panel) : HoldsAt m (startEnds p s) := by
  have ht : HoldsAt m (takePanel p s) := h.foldl _ fun t i h => by
    split
    · exact h.panelArrives hw i true
    · exact h
  exact ht.withBus _

theorem coldStart (hf : FlashOk m s.flash) (hw : m.Whole) (k : Straps) (p : Panel) (bad : List Nat) :
    HoldsAt m (coldStart k p bad s) := (startState hf hw ..).startEnds hw p

theorem warmRestart (h : HoldsAt m s) (hf : FlashOk m s.flash) (hw : m.Whole) (error : Option Nat) (p : Panel)
    (bad : List Nat) : HoldsAt m (warmRestart error p bad s) := by
  unfold Machine.warmRestart
  split
  · extract_lets f t y u
    have ht : HoldsAt m t := startState (hf.restartFlush h.journal error) hw ..
    exact ((ht.withBus (restartHalts s.yard)).modSweep startConv).startEnds hw p
  · exact h

end HoldsAt

/-- A start leaves in flash what it loads from. -/
theorem FlashOk.start (hf : FlashOk m s.flash) (hs : HoldsAt m s) :
    (∀ k p bad, FlashOk m (coldStart k p bad s).flash) ∧ ∀ error p bad, FlashOk m (warmRestart error p bad s).flash := by
  refine ⟨fun k p bad => ?_, fun error p bad => ?_⟩
  · exact (keeps_startEnds p _).flash.symm ▸ hf
  · unfold warmRestart
    split
    · extract_lets f t y u
      exact (keeps_startEnds p _).flash.symm ▸ hf.restartFlush hs.journal error
    · exact hf

/-! ## A decisecond passes -/

/-- The timers in deciseconds are none that an invariant speaks of. -/
theorem Holds.countYard (h : Holds m e y) : Holds m e (countYard y) := by
  have hlight : Light e y { Machine.countYard y with journal := y.journal } := by
    refine { places := fun b p hp => ?_ }
    cases p with
    | fork a =>
      rw [at_fork] at hp ⊢
      have : (Machine.countYard y).carriers[a] = countCarrier y.carriers[a] := vmap_get ..
      rw [this] at hp
      exact hp
    | _ => exact hp
  exact (h.light hlight).modJournal (f := fun j => { j with retryLeft := countDown j.retryLeft }) fun hj => hj.light {}

/-- A session's timers stand still in Standby (R121). -/
theorem HoldsAt.countSeconds (h : HoldsAt m s) : HoldsAt m (countSeconds s) := by
  refine Holds.light (e := envOf s) h ?_
  have hstation : ∀ st : Station, (Machine.countSeconds s).yard.stations[st]
      = { s.yard.stations[st] with session := s.yard.stations[st].session.map (countSession s.wing.st) } := fun st => vmap_get ..
  refine { sessions := fun st x hx => ?_, places := fun b p hp => ?_ }
  · rw [hstation] at hx
    obtain ⟨w, hw, rfl⟩ := Option.map_eq_some_iff.1 hx
    unfold countSession
    split
    next hn =>
      have hst : (envOf s).wing ≠ .standby := fun hs => by
        rw [show (envOf s).wing = s.wing.st from rfl, hn] at hs
        cases hs
      exact ⟨.inr ⟨w, hw, le_rfl⟩, fun h => absurd h hst, fun h => absurd h hst⟩
    next => exact .same hw
  · cases p with
    | next st => rw [at_next, hstation] at hp; exact at_next.2 hp
    | present st => rw [at_present, hstation] at hp; exact at_present.2 hp
    | _ => exact hp

/-- A decisecond's passage keeps the invariants of the yard. -/
theorem HoldsAt.tick (h : HoldsAt m s) : HoldsAt m (tick s) := by
  unfold Machine.tick
  extract_lets yard wing sweep link t
  have hy : Holds m (envOf s) (Machine.countYard { s.yard with bus := [] }) := Holds.countYard (h.withBus [])
  have ht : HoldsAt m t := hy.env rfl id id
  split
  · exact ht.countSeconds
  · exact ht

theorem tick_flash (s : State) : (tick s).flash = s.flash := by
  unfold tick
  dsimp only
  split <;> rfl

end Sys2Proof.Machine
end

