-- ==== Sys2Proof/Proofs/StepsKeep.lean ====
section
/-! PROOF. Every step keeps the tables, the lists, the timers of sessions, the numbers of bins and their places: the
invariants of the statements are those of the yard with those of flash, and each command keeps both. -/

namespace Sys2Proof.Machine

open Sys2Proof

-- Default arguments given by tactics wait for the kernel: one theorem at a time, so that few wait at once.
set_option Elab.async false

variable {m : Kind} {s t : State}

/-- An invariant holds of the yard and of flash. -/
structure Kept (m : Kind) (s : State) : Prop where
  yard : HoldsAt m s
  flash : FlashOk m s.flash

/-! ## Steps -/

/-- Every command keeps the invariants of the yard and of flash. -/
theorem Kept.exec (h : Kept m s) (hw : m.Whole) (c : Instr) (ht : exec c s = .next t) : Kept m t := by
  cases hs : isStart c with
  | true =>
    obtain ⟨hcold, hwarm⟩ := h.flash.start h.yard
    have ends : ∀ u, HoldsAt m u → FlashOk m u.flash → Kept m (finish u) := fun u hu hf =>
      ⟨hu.finish hw, (keeps_finish u).flash.symm ▸ hf⟩
    cases c with
    | coldStart k p bad =>
      cases ht
      exact ends _ (.coldStart h.flash hw k p bad) (hcold k p bad)
    | warmRestart error p bad =>
      by_cases hdue : s.link.restart = .due
      · simp only [Machine.exec, execWarmRestart, hdue, if_true] at ht
        cases ht
        exact ends _ (h.yard.warmRestart h.flash hw error p bad) (hwarm error p bad)
      · simp only [Machine.exec, execWarmRestart, hdue, if_false] at ht
        cases ht
        exact ⟨h.yard.withBus [], h.flash⟩
    | _ => cases hs
  | false =>
    obtain ⟨u, hu, hyard⟩ := (HoldsAt.steady hw).exec (HoldsAt.requests hw) (HoldsAt.events hw) c hs
      (fun _ l _ h => h.configureAct hw l) (fun _ _ h => h.flashDone) s
    cases ht.symm.trans hu
    refine ⟨hyard h.yard, ?_⟩
    by_cases hc : c = .flashWriteComplete
    · subst hc
      cases ht
      refine (keeps_finish _).flash.symm ▸ FlashOk.flashDone (s := clearBus s) h.flash (h.yard.withBus [])
    · obtain ⟨u, hu, hflash⟩ := exec_component (·.flash) (fun _ _ h => h.flash) c hs (fun _ _ _ h => h.flash)
        (fun h => absurd h hc) s
      cases ht.symm.trans hu
      exact hflash ▸ h.flash

/-- Every step keeps the invariants of the yard and of flash. -/
theorem Kept.step (h : Kept m s) (hw : m.Whole) (ht : step s = .next t) : Kept m t := by
  unfold Machine.step at ht
  split at ht
  next c rest _ =>
    have hs : Kept m { s with pending := rest } := ⟨h.yard, h.flash⟩
    exact hs.exec hw c ht
  next =>
    cases ht
    exact ⟨h.yard.tick, tick_flash s ▸ h.flash⟩

/-! ## The invariants of the statements -/

theorem tables_iff : TablesSorted s ∧ GeometrySafe s ∧ ListsSafe s.yard ↔ Kept .lists s := by
  constructor
  · rintro ⟨hs, hg, hl⟩
    exact ⟨⟨⟨hl.journal, hg.waiting, hg.writing⟩,
      ⟨hs.cells, hs.bins, hg.records, hl.outbox, hl.orders, hl.trays, hl.placements⟩⟩,
      ⟨hs.flashCells, hs.flashAttrs, hs.flashFills, hg.flash⟩⟩
  · rintro ⟨⟨hj, hy⟩, hf⟩
    exact ⟨⟨hy.cells, hy.bins, hf.cells, hf.attrs, hf.fills⟩, ⟨hy.geometry, hf.geometry, hj.waiting, hj.writing⟩,
      ⟨hj.safe, hy.outbox, hy.orders, hy.trays, hy.placements⟩⟩

theorem idleFits_iff {w : CtlWrite} : IdleFits w ↔ ∀ idle auto, w = .settings (.sessions idle auto) → 30 ≤ idle := by
  unfold IdleFits
  split
  next idle auto => exact ⟨fun h i a hi => by cases hi; exact h, fun h => h _ _ rfl⟩
  next hno => exact ⟨fun _ i a hi => absurd hi (hno i a), fun _ => trivial⟩

theorem sessionsSafe_iff : SessionsSafe s ↔ Kept .sessions s := by
  constructor
  · intro h
    exact ⟨⟨⟨fun w hw => idleFits_iff.2 fun i a hi => h.waiting i a (hi ▸ hw), fun w hw => idleFits_iff.2 fun i a hi => h.writing i a (hi ▸ hw)⟩,
      ⟨h.records, h.rest⟩⟩, h.flash⟩
  · rintro ⟨⟨hj, hy⟩, hf⟩
    exact ⟨hy.timeout, hf, fun i a hw => idleFits_iff.1 (hj.waiting _ hw) i a rfl, fun i a hw => idleFits_iff.1 (hj.writing _ hw) i a rfl, hy.rest⟩

theorem binsNumbered_iff : BinsNumbered s ↔ Kept .numbers s := by
  constructor
  · intro h
    refine ⟨⟨⟨fun k hk => ?_, h.marks, h.writing⟩, h.records⟩, h.flash⟩
    obtain ⟨e, he, rfl⟩ := List.mem_map.1 hk
    exact h.entries e he
  · rintro ⟨⟨hj, hy⟩, hf⟩
    exact ⟨hy, hf, fun e he => hj.entries _ (mem_keys he), hj.marks, hj.writing⟩

/-- The places of bins without the parameters that only reports need. -/
def everyPlace : Kind := .places (fun _ _ => True) fun _ => False

theorem placed_iff : (TablesSorted s ∧ GeometrySafe s ∧ ListsSafe s.yard) ∧ BinsPlaced s ↔ Kept everyPlace s := by
  rw [tables_iff]
  constructor
  · rintro ⟨⟨⟨hj, hy⟩, hf⟩, hp⟩
    obtain ⟨hd, hr, hone⟩ := nodup_placedBins.1 hp.once
    exact ⟨⟨hj, hy, hd, hr, hone, fun b hb => hp.there b (mem_placedBins.2 (hb.resolve_left id)), hp.noCell, hp.stored,
      hp.within, fun _ _ _ => trivial⟩, hf⟩
  · rintro ⟨⟨hj, hy, hp⟩, hf⟩
    exact ⟨⟨⟨hj, hy⟩, hf⟩, nodup_placedBins.2 ⟨hp.delivery, hp.returns, hp.one⟩,
      fun b hb => hp.there b (.inr (mem_placedBins.1 hb)), hp.noCell, hp.stored, hp.within⟩

/-- Settles O7: each of the three invariants is one of the family that every step keeps. -/
theorem tablesAndListsStaySafe : Obligations.TablesAndListsStaySafe := by
  refine ⟨fun s t hs hg hl ht => ?_, fun s t h ht => ?_, fun s t h ht => ?_⟩
  · exact tables_iff.2 ((tables_iff.1 ⟨hs, hg, hl⟩).step trivial ht)
  · exact sessionsSafe_iff.2 ((sessionsSafe_iff.1 h).step trivial ht)
  · exact binsNumbered_iff.2 ((binsNumbered_iff.1 h).step trivial ht)

/-- Settles O8: the places of bins are kept with the tables and lists they rest on. -/
theorem binsStandInOnePlace : Obligations.BinsStandInOnePlace := by
  intro s t hs hg hl hp ht
  have hkept : Kept everyPlace s := placed_iff.1 ⟨⟨hs, hg, hl⟩, hp⟩
  exact (placed_iff.2 (hkept.step ⟨fun _ _ => trivial, fun _ => id⟩ ht)).2

end Sys2Proof.Machine
end

