-- ==== Sys2Proof/Proofs/Induct.lean ====
section
/-! PROOF. Induct (R10). -/

namespace Sys2Proof.Machine

open Sys2Proof

variable {e : Env} {y : Yard}

/-- Attributes for the journal change the journal alone. -/
theorem attrChange_frame (b : Nat) (y : Yard) : attrChange b y = { y with journal := (attrChange b y).journal } := by
  unfold attrChange
  split <;> rfl

theorem getBin_attrChange (b d : Nat) (y : Yard) : getBin d (attrChange b y) = getBin d y := by
  rw [attrChange_frame]; rfl

/-- The aisle a bin of the return line is assigned when Induct brings it (R98). -/
def inductAisle (e : Env) (b c f : Nat) (y : Yard) : Aisle :=
  assignAisle e none (putBin b ⟨c, f, .onReturn, none, none, none, false, false, none⟩ y)

/-- An inducted bin joins the return line; bins and journal change, and nothing else. -/
theorem inductBin_frame (b c f : Nat) : ∃ l j, inductBin e b c f y =
    { y with bins := l, journal := j, lines := { y.lines with returns := y.lines.returns ++ [⟨b, inductAisle e b c f y⟩] } } := by
  refine ⟨(inductBin e b c f y).bins, (inductBin e b c f y).journal, ?_⟩
  unfold inductBin joinReturn
  dsimp only
  rw [attrChange_frame, modBin_frame]
  rfl

theorem getBin_inductBin (b c f d : Nat) : getBin d (inductBin e b c f y)
    = if d = b then some ⟨c, f, .onReturn, none, some (inductAisle e b c f y), none, false, false, none⟩ else getBin d y := by
  unfold inductBin
  show getBin d (attrChange b _) = _
  rw [getBin_attrChange, joinReturn]
  split
  next hd => subst hd; rw [getBin_modBin_same]; simp [modLines, getBin, putBin, placed, inductAisle]
  next hd => rw [getBin_modBin_other _ _ _ _ hd]; exact getBin_putBin_other _ _ _ _ hd

theorem binInWing_iff (b : Nat) (y : Yard) : binInWing b y = true ↔ ∃ r, getBin b y = some r ∧ r.st ≠ .retired := by
  unfold binInWing
  split
  next r hr => simp [hr]
  next hn => simp [hn]

/-- Settles O21: an Induct that is taken, and its grounds of refusal in their order. -/
theorem inductPutsBinOnReturnLine : Obligations.InductPutsBinOnReturnLine := by
  intro h b cap fill s hT
  have hbin : binOk b = false ↔ b = 0 ∨ 20480 < b := by simp only [binOk, decide_eq_false_iff_not]; omega
  have hknown := binInWing_iff b (entered (reqCode .induct) h s).yard
  have refused : ∀ code, inductAct b cap fill (entered (reqCode .induct) h s) = refuse code (entered (reqCode .induct) h s) →
      Completes (.induct h b cap fill) s { clearBus s with link := answeredLink 0x0B h code [] s.link } :=
    fun code ha => request_refused (k := .induct) hT ha
  refine ⟨fun hform hk hroom hst => ?_, fun hform => refused _ ?_, fun hform hk => refused _ ?_,
    fun hform hk hroom => refused _ ?_, fun hform hk hroom hdown => refused _ ?_⟩
  · intro c f
    have hroom' : ¬12 ≤ returnCommitted (entered (reqCode .induct) h s).yard := Nat.not_le.2 hroom
    have htaken : inductTaken s.wing.st = true := by rcases hst with h | h | h | h <;> rw [h] <;> rfl
    let y : Yard := { s.yard with bus := [] }
    have hact : inductAct b cap fill (entered (reqCode .induct) h s) =
        ({ entered (reqCode .induct) h s with yard := inductBin (envOf s) b c f y }, some (.ok, [.u2 c, .u2 f])) := by
      simp only [inductAct, hbin, hform, if_false, hknown.not.2 hk, hroom', entered_wing, htaken, replyWith]
      rfl
    obtain ⟨l, j, hframe⟩ := inductBin_frame (e := envOf s) (y := y) b c f
    have hget := getBin_inductBin (e := envOf s) (y := y) b c f
    refine ⟨_, inductAisle (envOf s) b c f y, request_answered (k := .induct) hT hact rfl, ⟨rfl, rfl, rfl, rfl, rfl, rfl⟩, rfl,
      ?_, (hget b).trans (if_pos rfl), fun x hx => (hget x).trans (if_neg hx), ?_⟩
    · exact congrArg (·.lines.returns) hframe
    · dsimp only
      rw [hframe]
      exact ⟨rfl, ⟨rfl, rfl, rfl⟩, rfl, rfl, rfl⟩
  · simp only [inductAct, hbin, hform, if_true]
  · simp only [inductAct, hbin, hform, if_false, hknown.2 hk, if_true]
  · have hfull : 12 ≤ returnCommitted (entered (reqCode .induct) h s).yard := Nat.not_lt.1 hroom
    simp only [inductAct, hbin, hform, if_false, hknown.not.2 hk, Bool.false_eq_true, hfull, if_true]
  · have hroom' : ¬12 ≤ returnCommitted (entered (reqCode .induct) h s).yard := Nat.not_le.2 hroom
    have htaken : inductTaken s.wing.st = false := by rcases hdown with h | h | h | h <;> rw [h] <;> rfl
    simp only [inductAct, hbin, hform, if_false, hknown.not.2 hk, hroom', entered_wing, htaken]
    rfl

end Sys2Proof.Machine
end

