-- ==== Sys2Proof/Proofs/ResumeRestart.lean ====
section
/-! PROOF. Resume (R195) and Restart (R213). -/

namespace Sys2Proof.Machine

open Sys2Proof

variable (s : State)

/-- The incident record once its incident is closed (R195). -/
def closedIncident (now : Nat) (r : Incident) : Incident :=
  if r.isOpen then { r with isOpen := false, resume := some now } else r

/-- The closing of the incident touches its record and the notices. -/
theorem closeIncident_frame : closeIncident s = { s with
    wing := { s.wing with incident := s.wing.incident.map (closedIncident s.clock.sec) }
    yard := { s.yard with post := (closeIncident s).yard.post } } := by
  unfold closeIncident
  split
  next hr =>
    have hmap : s.wing.incident.map (closedIncident s.clock.sec) = s.wing.incident := by rw [hr]; rfl
    rw [hmap]
  next r hr =>
    split
    next ho =>
      have hmap : s.wing.incident.map (fun r => { r with isOpen := false, resume := some s.clock.sec })
          = s.wing.incident.map (closedIncident s.clock.sec) := by simp [hr, closedIncident, ho]
      rw [← hmap]
      rfl
    next ho =>
      have hmap : s.wing.incident.map (closedIncident s.clock.sec) = s.wing.incident := by simp [hr, closedIncident, ho]
      rw [hmap]

/-- The state that Restarting is entered from: the incident closed, the journal open, shutters open and drives powered. -/
def toRestarting (s : State) : State :=
  modWing (fun w => { dropTimers w with shutClose := false, drvPwr := true, restartTimer := some s.cfg.fire.restartDelay })
    { closeIncident s with yard := openJournal (closeIncident s).yard }

theorem enterRestarting_eq : enterRestarting s = onYard (fun e y => { y with
    carriers := y.carriers.map fun c => { c with reported := false }
    disc := { y.disc with asked := [.delivery, .ret] }, bus := y.bus ++ askReports e.cfg }) (setWing .restarting (toRestarting s)) := by
  unfold enterRestarting toRestarting
  rw [closeIncident_frame]

theorem enterRestarting_wing : (enterRestarting s).wing = { dropTimers s.wing with
    incident := s.wing.incident.map (closedIncident s.clock.sec), st := .restarting
    shutClose := false, drvPwr := true, restartTimer := some s.cfg.fire.restartDelay } := by
  rw [enterRestarting_eq, onYard_wing, setWing_wing, toRestarting, modWing_wing, closeIncident_frame]
  rfl

theorem enterRestarting_yard : ∃ p, (enterRestarting s).yard = { openJournal s.yard with
    post := p, carriers := s.yard.carriers.map fun c => { c with reported := false }
    disc := { s.yard.disc with asked := [.delivery, .ret] }, bus := s.yard.bus ++ askReports s.cfg } := by
  have hcfg : (setWing .restarting (toRestarting s)).cfg = s.cfg := by
    rw [(keeps_setWing _ _).cfg, toRestarting, modWing_cfg, closeIncident_frame]
  refine ⟨(setWing .restarting (toRestarting s)).yard.post, ?_⟩
  rw [enterRestarting_eq, onYard_yard, setWing_yard]
  rw [show (envOf (setWing .restarting (toRestarting s))).cfg = s.cfg from hcfg, toRestarting, modWing_yard, closeIncident_frame]
  rfl

theorem enterRestarting_link (h : s.sweep.run ≠ .stopping) : (enterRestarting s).link = s.link := by
  rw [enterRestarting_eq, onYard_link, setWing_link, toRestarting, modWing_link, closeIncident_frame]
  rw [toRestarting, modWing_sweep, closeIncident_frame]
  exact h

/-- Settles O42: Resume that is taken, its refusals in their order, and Restart's reply. -/
theorem resumeAndRestartAct : Obligations.ResumeAndRestartAct := by
  intro h n s hT
  have refused : ∀ code, resumeAct n (entered (reqCode .resume) h s) = refuse code (entered (reqCode .resume) h s) →
      Completes (.resume h n) s { clearBus s with link := answeredLink 0x05 h code [] s.link } :=
    fun code ha => request_refused (k := .resume) hT ha
  refine ⟨fun hst hn hno hc => ?_, fun hn => refused _ ?_, fun hn hst => refused _ ?_, fun hn hst hno => refused _ ?_,
    fun hn hst hno hc => refused _ ?_, fun hst => ?_, fun hst => ?_⟩
  · let t := enterRestarting (entered (reqCode .resume) h s)
    have hact : resumeAct n (entered (reqCode .resume) h s) = (t, some (.ok, [])) := by
      simp only [resumeAct, if_neg hn, entered_wing, hst, ← hno, hc, ne_eq, not_true_eq_false, if_false, replyWith, t]
    have hwing : t.wing = _ := enterRestarting_wing _
    obtain ⟨p, hyard⟩ := enterRestarting_yard (entered (reqCode .resume) h s)
    have hyard' : t.yard = _ := hyard
    have hkeeps : Keeps (entered (reqCode .resume) h s) t := keeps_enterRestarting _
    refine ⟨answer s.link.nextId .ok [] t, request_answers (k := .resume) hT hact, ?_⟩
    simp only [answer_wing, answer_yard, answer_cfg, answer_flash, answer_clock, answer_pending, hwing, hyard']
    refine ⟨trivial, trivial, trivial, rfl, rfl, rfl, rfl, rfl, fun r hr ho => ?_, ?_, fun a => vmap_get .., ⟨rfl, rfl, rfl⟩, ⟨rfl, rfl, rfl⟩, rfl, rfl,
      rfl, hkeeps.cfg, hkeeps.flash, hkeeps.clock, hkeeps.pending, fun hrun => ?_⟩
    · simp [hr, closedIncident, ho]
    · show (openJournal s.yard).journal = _
      unfold openJournal modJournal
      split
      next hc => simp [hc]
      next hc => simp [hc]
    · have hlink : t.link = waitingLink (reqCode .resume) h s.link := enterRestarting_link _ hrun
      rw [answer_entered _ h _ _ s.link t hT.safe.ids hlink]
      rfl
  · simp [resumeAct, hn]
  · simp [resumeAct, hn, hst]
  · simp [resumeAct, hn, hst, hno]
  · simp [resumeAct, hn, hst, ← hno, hc]
  · let t : State := { entered (reqCode .restart) h s with
      link := { waitingLink (reqCode .restart) h s.link with restart := .taken s.link.nextId } }
    have hact : restartAct s.link.nextId (entered (reqCode .restart) h s) = (t, some (.ok, [])) := by
      rw [restartAct, entered_wing, if_neg hst]
      rfl
    have hanswer := answer_entered (reqCode .restart) h .ok [] s.link (entered (reqCode .restart) h s) hT.safe.ids rfl
    have hwith : answer s.link.nextId .ok [] t = { answer s.link.nextId .ok [] (entered (reqCode .restart) h s) with
        link := { (answer s.link.nextId .ok [] (entered (reqCode .restart) h s)).link with restart := .taken s.link.nextId } } := rfl
    rw [hanswer] at hwith
    have hcompletes := request_answers (k := .restart) hT hact
    rw [hwith] at hcompletes
    exact hcompletes
  · exact request_refused (k := .restart) hT (by simp [restartAct, hst])

end Sys2Proof.Machine
end

