-- ==== Sys2Proof/Proofs/JournalWrites.lean ====
section
/-! PROOF. Changes for the journal, and the writes of flash that complete and fail (R15 to R21). -/

namespace Sys2Proof.Machine

open Sys2Proof

variable {s : State} {j : Journal} {α : Type}

/-! ## Several requests answered at once -/

/-- Answers change the link and nothing else. -/
theorem answers_frame (f : α → Nat) (c : ReplyCode) (xs : List α) (s : State) :
    xs.foldl (fun s w => answer (f w) c [] s) s = { s with link := (xs.foldl (fun s w => answer (f w) c [] s) s).link } := by
  induction xs generalizing s with
  | nil => rfl
  | cons x t ih => exact ih (answer (f x) c [] s)

/-- A request that is not waiting, or that none of the numbers names, stays as it is. -/
theorem answers_stays {f : α → Nat} {c : ReplyCode} {xs : List α} {q : InboxEntry} (hq : q ∈ s.link.inbox)
    (h : q.reply ≠ none ∨ ∀ x ∈ xs, f x ≠ q.id) : q ∈ (xs.foldl (fun s w => answer (f w) c [] s) s).link.inbox := by
  induction xs generalizing s with
  | nil => exact hq
  | cons x t ih =>
    have hx : q.id ≠ f x ∨ q.reply ≠ none := h.symm.imp_left fun h => (h x List.mem_cons_self).symm
    exact ih (answer_mem_other _ c [] s q hq hx) (h.imp_right fun h z hz => h z (List.mem_cons_of_mem _ hz))

/-- Among several requests answered, each that waits has its reply ready. -/
theorem answers_mem {f : α → Nat} {c : ReplyCode} {xs : List α} {q : InboxEntry} (hq : q ∈ s.link.inbox)
    (hr : q.reply = none) (hid : ∃ x ∈ xs, f x = q.id) :
    { q with reply := some ⟨q.kind + 0x40, q.tag, c, []⟩ } ∈ (xs.foldl (fun s w => answer (f w) c [] s) s).link.inbox := by
  induction xs generalizing s with
  | nil => obtain ⟨x, hx, -⟩ := hid; cases hx
  | cons x t ih =>
    by_cases hx : q.id = f x
    · exact answers_stays (s := answer (f x) c [] s) (answer_mem (f x) c [] s q hq hx hr) (.inl (by simp))
    · refine ih (answer_mem_other _ c [] s q hq (.inl hx)) ?_
      obtain ⟨z, hz, hzq⟩ := hid
      rcases List.mem_cons.1 hz with rfl | hz
      · exact absurd hzq.symm hx
      · exact ⟨z, hz, hzq⟩

/-! ## A change for the journal (R15, R17, R18) -/

theorem any_key_iff {k : JKey} : (j.entries.any fun e => decide (e.key = k)) = true ↔ k ∈ j.entries.map (·.key) := by
  simp [List.any_eq_true]

/-- A change joins the tail of a list that is open: hold-off begins with the sixty-fourth entry. -/
theorem journalChange_joins {k : JKey} {v : JVal} (hk : k ∉ j.entries.map (·.key)) (hm : marked j k = false)
    (hc : j.closed = false) (hs : j.sealing = none) (hl : j.entries.length < 64) : journalChange k v j = { j with
      entries := j.entries ++ [⟨k, v⟩]
      holdOff := if j.entries.length = 63 then true else if j.entries.length ≤ 47 then false else j.holdOff } := by
  have hshut : (j.closed || j.sealing.isSome || decide (64 ≤ j.entries.length)) = false := by simp [hc, hs, hl]
  rw [journalChange, if_neg (any_key_iff.not.2 hk), if_neg (by simp [hm]), if_neg (by simp [hshut])]
  have h64 : (j.entries ++ [(⟨k, v⟩ : JEntry)]).length ≥ 64 ↔ j.entries.length = 63 := by simp; omega
  have h48 : (j.entries ++ [(⟨k, v⟩ : JEntry)]).length ≤ 48 ↔ j.entries.length ≤ 47 := by simp; omega
  simp only [holdOffOf, h64, h48]

/-- A change that finds the list shut marks the record. -/
theorem journalChange_marks {k : JKey} {v : JVal} (hk : k ∉ j.entries.map (·.key)) (hm : marked j k = false)
    (hshut : j.closed = true ∨ j.sealing.isSome ∨ j.entries.length = 64) : journalChange k v j = mark j k := by
  have : (j.closed || j.sealing.isSome || decide (64 ≤ j.entries.length)) = true := by
    rcases hshut with h | h | h <;> simp [h]
  rw [journalChange, if_neg (any_key_iff.not.2 hk), if_neg (by simp [hm]), if_pos this]

theorem marked_mark_of_marked {k x : JKey} (h : marked j x = true) : marked (mark j k) x = true := by
  cases k <;> cases x <;> simp_all [marked, mark, mem_ninsert]

/-! ## A write that completes (R16, R19, R20, R21) -/

/-- Whether a Flush that ends asks for the clean marker (R20, R22). -/
def asksClean (clean : Bool) (j : Journal) : Bool :=
  j.entries.isEmpty && !anyMark j && !j.closed && j.sealing.isNone && !(clean && j.ctl.isEmpty)

theorem flushEnded_eq (clean : Bool) (j : Journal) :
    flushEnded clean j = { j with ctl := if asksClean clean j then j.ctl ++ [.clean true] else j.ctl } := by
  unfold flushEnded
  show (if asksClean clean j = true then _ else _) = _
  split <;> rfl

/-- The Flush requests that wait after the write of a key. -/
def flushesAfter (k : JKey) (l : List FlushWait) : List FlushWait :=
  (l.map fun w => { w with keys := w.keys.filter fun x => x ≠ k }).filter fun w => !w.keys.isEmpty

/-- The Flush requests that a key's write ends. -/
def flushesDone (k : JKey) (l : List FlushWait) : List FlushWait :=
  (l.map fun w => { w with keys := w.keys.filter fun x => x ≠ k }).filter fun w => w.keys.isEmpty

/-- The control writes after a key's write: the clean marker asked for where a Flush has ended and nothing is left. -/
def ctlAfter (clean : Bool) (k : JKey) (j : Journal) : List CtlWrite :=
  if !(flushesDone k j.flushes).isEmpty && asksClean clean j then j.ctl ++ [.clean true] else j.ctl

theorem flushWrote_eq (k : JKey) (s : State) : flushWrote k s = (flushesDone k s.yard.journal.flushes).foldl
    (fun s w => answer w.id .ok [] s) { s with yard := { s.yard with journal := { s.yard.journal with
      flushes := flushesAfter k s.yard.journal.flushes, ctl := ctlAfter s.flash.clean k s.yard.journal } } } := by
  have hy : ∀ z : Journal, (if (flushesDone k s.yard.journal.flushes).isEmpty then { s.yard with journal := z }
      else modJournal (flushEnded s.flash.clean) { s.yard with journal := z }) = { s.yard with journal := { z with
        ctl := if !(flushesDone k s.yard.journal.flushes).isEmpty && asksClean s.flash.clean z then z.ctl ++ [.clean true]
          else z.ctl } } := by
    intro z
    cases hd : (flushesDone k s.yard.journal.flushes).isEmpty with
    | true => rfl
    | false => exact congrArg (fun j => { s.yard with journal := j }) (flushEnded_eq _ z)
  exact congrArg (fun y => (flushesDone k s.yard.journal.flushes).foldl (fun s w => answer w.id .ok [] s) { s with yard := y })
    (hy { s.yard.journal with flushes := flushesAfter k s.yard.journal.flushes })

/-- The journal after a write that completes, but for the sealing flush's own end. -/
def journalWritten (clean : Bool) (w : Writing) (j : Journal) : Journal :=
  match w with
  | .ctl _ => { j with ctl := j.ctl.drop 1, writing := none, errors := 0 }
  | .entry e replaced =>
    let z := holdOffOf { j with entries := if replaced then j.entries else j.entries.drop 1, writing := none, errors := 0 }
    if replaced then z else { z with flushes := flushesAfter e.key j.flushes, ctl := ctlAfter clean e.key z }

theorem putEntry_clean (f : Flash) (e : JEntry) : (putEntry f e).clean = f.clean := by
  unfold putEntry
  split <;> rfl

/-- A write that completes is stored, changes the journal, and may answer Flush requests. -/
theorem writeDone_eq {w : Writing} (h : s.yard.journal.writing = some w) : writeDone s = { s with
    flash := putWriting s.flash w
    yard := { s.yard with journal := journalWritten s.flash.clean w s.yard.journal }
    link := (writeDone s).link } := by
  unfold writeDone
  rw [h]
  cases w with
  | ctl c => rfl
  | entry e replaced =>
    cases replaced with
    | true => rfl
    | false =>
      dsimp only
      rw [if_neg Bool.false_ne_true, flushWrote_eq, answers_frame]
      simp only [modJournal, putEntry_clean]
      rfl

/-- Outside the sealing flush's own last write, the end of a write is all that a completion does. -/
theorem flashDone_of_not_last (h : sealingLast s.yard.journal = false ∨ s.wing.st ≠ .sealing) : flashDone s = writeDone s := by
  unfold flashDone
  rcases h with h | h
  · simp [h]
  · simp [h]

/-! ## The end of the sealing flush (R21, R194) -/

/-- The journal that the sealing flush leaves. -/
def journalClosed (failed : Bool) (j : Journal) : Journal :=
  { j with sealing := none, closed := true, writing := none, retryLeft := none, flushes := []
           ctl := if failed then abandon j.ctl else j.ctl }

theorem closeJournal_eq (failed : Bool) (s : State) : closeJournal failed s = s.yard.journal.flushes.foldl
    (fun s w => answer w.id .busy [] s) { s with yard := { s.yard with journal := journalClosed failed s.yard.journal } } := by
  unfold closeJournal flushBusy
  simp [modJournal, journalClosed]

/-- The wing is Sealed: of the yard the notices change, of the wing the state and the incident's flush result. -/
theorem enterSealed_eq (r : FlushResult) (s : State) :
    (enterSealed r s).wing = { s.wing with st := .sealed, incident := s.wing.incident.map fun i => { i with flush := some r } }
    ∧ (∃ p, (enterSealed r s).yard = { s.yard with post := p }) ∧ (enterSealed r s).flash = s.flash := by
  unfold enterSealed
  refine ⟨by rw [setWing_wing]; rfl, ⟨_, by rw [setWing_yard]; rfl⟩, (keeps_setWing _ _).flash⟩

/-- What the end of the sealing flush does to the wing, the yard and flash. -/
theorem sealed_eq (r : FlushResult) (failed : Bool) (s : State) :
    (enterSealed r (closeJournal failed s)).wing
      = { s.wing with st := .sealed, incident := s.wing.incident.map fun i => { i with flush := some r } }
    ∧ (∃ p, (enterSealed r (closeJournal failed s)).yard = { s.yard with journal := journalClosed failed s.yard.journal, post := p })
    ∧ (enterSealed r (closeJournal failed s)).flash = s.flash := by
  have hclose := closeJournal_eq failed s
  rw [answers_frame] at hclose
  obtain ⟨hwing, ⟨p, hyard⟩, hflash⟩ := enterSealed_eq r (closeJournal failed s)
  rw [hwing, hyard, hflash, hclose]
  exact ⟨rfl, ⟨p, rfl⟩, rfl⟩

/-! ## A completion, as a whole -/

/-- The last write of the sealing flush is a control write. -/
theorem sealingLast_eq_false {w : Writing} (h : j.writing = some w) (hw : w ≠ .ctl (.clean true)) : sealingLast j = false := by
  simp [sealingLast, h, hw]

/-- A completed write changes the journal, the notices and, by the sealing flush's end, the wing. -/
theorem flashDone_yard (s : State) : ∃ j p, (flashDone s).yard = { s.yard with journal := j, post := p } := by
  have hw : ∃ j, (writeDone s).yard = { s.yard with journal := j } := by
    cases h : s.yard.journal.writing with
    | none => exact ⟨s.yard.journal, by rw [writeDone, h]⟩
    | some w => exact ⟨_, by rw [writeDone_eq h]⟩
  obtain ⟨j, hj⟩ := hw
  unfold flashDone
  split
  · obtain ⟨-, ⟨p, hy⟩, -⟩ := sealed_eq .done false (writeDone s)
    rw [hy, hj]
    exact ⟨_, p, rfl⟩
  · exact ⟨j, s.yard.post, hj⟩

/-! ## A write that fails (R19, R22) -/

/-- Whether a Flush waits for the record a write is of. -/
def waitsFor (w : Writing) (f : FlushWait) : Bool :=
  match w with
  | .entry e _ => f.keys.contains e.key
  | .ctl _ => false

/-- The state a failed write leaves before Flush requests are answered. -/
def writeLeft (w : Writing) (s : State) : State :=
  { s with yard := { s.yard with
      post := if s.yard.journal.errors = 0 then (notify (envOf s) .journalFault (writeFlds w) s.yard).post else s.yard.post
      journal := { s.yard.journal with
        writing := none, errors := bump s.yard.journal.errors, retryLeft := some 50
        flushes := s.yard.journal.flushes.filter fun f => !waitsFor w f } } }

theorem writeFailed_eq {w : Writing} (h : s.yard.journal.writing = some w) : writeFailed s =
    (s.yard.journal.flushes.filter (waitsFor w)).foldl (fun s f => answer f.id .busy [] s) (writeLeft w s) := by
  have hpost : (if s.yard.journal.errors = 0 then notifyS .journalFault (writeFlds w) s else s) = { s with yard := { s.yard with
      post := if s.yard.journal.errors = 0 then (notify (envOf s) .journalFault (writeFlds w) s.yard).post else s.yard.post } } := by
    split
    · rfl
    · rfl
  unfold writeFailed
  rw [h]
  dsimp only
  rw [hpost]
  cases w with
  | entry e r => rfl
  | ctl c =>
    have hnone : s.yard.journal.flushes.filter (waitsFor (.ctl c)) = [] := by simp [waitsFor]
    have hall : s.yard.journal.flushes.filter (fun f => !waitsFor (.ctl c) f) = s.yard.journal.flushes := by simp [waitsFor]
    rw [hnone, writeLeft, hall]
    rfl

theorem writeFailed_frame {w : Writing} (h : s.yard.journal.writing = some w) :
    writeFailed s = { writeLeft w s with link := (writeFailed s).link } := by
  have heq := writeFailed_eq h
  rw [answers_frame] at heq
  rw [heq]

/-- During the sealing flush an error ends it. -/
theorem flashFailed_sealing (hst : s.wing.st = .sealing) (hs : s.yard.journal.sealing.isSome) (hw : s.yard.journal.writing.isSome) :
    flashFailed s = enterSealed .failed (closeJournal true (writeFailed s)) := by
  simp [flashFailed, hst, hs, hw]

theorem flashFailed_else (h : ¬(s.wing.st = .sealing ∧ s.yard.journal.sealing.isSome)) : flashFailed s = writeFailed s := by
  unfold flashFailed
  rw [if_neg]
  simp only [Bool.and_eq_true, decide_eq_true_eq, not_and]
  exact fun hb => absurd hb h

theorem mem_abandon {l : List CtlWrite} {w : CtlWrite} (h : w ∈ l) (hw : (∃ v, w = .settings v) ∨ ∃ n, w = .incident n) :
    w ∈ abandon l := by
  refine List.mem_filter.2 ⟨h, ?_⟩
  rcases hw with ⟨v, rfl⟩ | ⟨n, rfl⟩ <;> rfl

/-! ## What a completion leaves, by the write -/

/-- An entry's write that completes. -/
theorem flashDone_entry {e : JEntry} {r : Bool} (h : s.yard.journal.writing = some (.entry e r)) : flashDone s = { s with
    flash := putEntry s.flash e
    yard := { s.yard with journal := journalWritten s.flash.clean (.entry e r) s.yard.journal }
    link := (writeDone s).link } :=
  (flashDone_of_not_last (.inl (sealingLast_eq_false h (by simp)))).trans (writeDone_eq h)

/-- A control write that completes leaves the head of its line, whether or not it ends the sealing flush. -/
theorem flashDone_ctl {w : CtlWrite} (h : s.yard.journal.writing = some (.ctl w)) :
    (flashDone s).yard.journal.entries = s.yard.journal.entries ∧ (flashDone s).yard.journal.writing = none
    ∧ (flashDone s).yard.journal.ctl = s.yard.journal.ctl.drop 1 ∧ (flashDone s).yard.journal.errors = 0 := by
  have hw : (writeDone s).yard.journal = journalWritten s.flash.clean (.ctl w) s.yard.journal := by rw [writeDone_eq h]
  unfold flashDone
  split
  · obtain ⟨-, ⟨p, hy⟩, -⟩ := sealed_eq .done false (writeDone s)
    rw [hy, hw]
    exact ⟨rfl, rfl, rfl, rfl⟩
  · rw [hw]
    exact ⟨rfl, rfl, rfl, rfl⟩

/-- The write that ends the sealing flush closes the journal and seals the wing. -/
theorem flashDone_sealing {keys : List JKey} (hst : s.wing.st = .sealing) (h : s.yard.journal.writing = some (.ctl (.clean true)))
    (hs : s.yard.journal.sealing = some (keys, true)) :
    flashDone s = enterSealed .done (closeJournal false (writeDone s)) := by
  simp [flashDone, hst, sealingLast, h, hs]

/-! ## The statement -/

/-- Settles O19: a change by where it finds its key, and the writes of flash by their kind and end. -/
theorem journalTakesChange : Obligations.JournalTakesChange := by
  refine ⟨fun k v j hl => ⟨fun hk => journalChange_listed k v j hk, fun hk hm => ?_, journalChange_joins, fun hk hm hshut => ?_⟩,
    fun s => ?_, fun s hwr => ?_, fun s => ⟨_, rfl, ⟨rfl, rfl, rfl, rfl, rfl, rfl⟩, rfl, rfl⟩, fun clean j hw hr hc => ?_⟩
  · rw [journalChange, if_neg (any_key_iff.not.2 hk), if_pos hm]
  · rw [journalChange_marks hk hm hshut]
    exact ⟨rfl, marked_mark j k, fun x => marked_mark_of_marked⟩
  · obtain ⟨hcfg, hclock, hpending⟩ := keepsSettings_flashDone (clearBus s)
    obtain ⟨j, p, hyard⟩ := flashDone_yard (clearBus s)
    have hflash := flashDone_flash (clearBus s)
    have hsame : SameStock s.yard (flashDone (clearBus s)).yard ∧ SameMotion s.yard (flashDone (clearBus s)).yard
        ∧ SameDesks s.yard (flashDone (clearBus s)).yard ∧ (flashDone (clearBus s)).yard.orders = s.yard.orders := by
      rw [hyard]
      exact ⟨⟨rfl, rfl, rfl⟩, ⟨rfl, rfl, rfl⟩, ⟨rfl, rfl, rfl⟩, rfl⟩
    obtain ⟨hstock, hmotion, hdesks, horders⟩ := hsame
    refine ⟨_, rfl, hcfg, hclock, hpending, hstock, hmotion, hdesks, horders, fun e he => ?_, fun e he => ?_, fun w hw => ?_,
      fun hst hw ⟨keys, hs⟩ => ?_, fun hw hst => ?_⟩
    · rw [flashDone_entry (s := clearBus s) he]
      exact ⟨rfl, rfl, rfl, rfl, rfl, rfl⟩
    · rw [flashDone_entry (s := clearBus s) he]
      exact ⟨rfl, rfl, rfl, rfl, rfl⟩
    · refine ⟨?_, flashDone_ctl (s := clearBus s) hw⟩
      rw [hflash, show (clearBus s).yard.journal.writing = _ from hw]
      rfl
    · have hclean : (flashDone (clearBus s)).flash.clean = true := by
        rw [hflash, show (clearBus s).yard.journal.writing = _ from hw]
        rfl
      refine ⟨?_, ?_, ?_, hclean, ?_⟩
      all_goals
        rw [flashDone_sealing (s := clearBus s) hst hw hs]
        obtain ⟨hwing, ⟨p, hy⟩, -⟩ := sealed_eq .done false (writeDone (clearBus s))
      · rw [hwing]
      · rw [hy]; rfl
      · rw [hy]; rfl
      · rw [hwing, writeDone_eq (s := clearBus s) hw, Option.map_map]
        rfl
    · rw [flashDone_of_not_last (s := clearBus s) (.inr hst), writeDone, show (clearBus s).yard.journal.writing = none from hw]
  · obtain ⟨w, hw⟩ := Option.isSome_iff_exists.1 hwr
    have hkeeps : Keeps (clearBus s) (flashFailed (clearBus s)) := keeps_flashFailed _
    have hwf := writeFailed_frame (s := clearBus s) hw
    have hy : ∃ j p, (flashFailed (clearBus s)).yard = { s.yard with bus := [], journal := j, post := p }
        ∧ j.entries = s.yard.journal.entries ∧ j.writing = none := by
      by_cases hseal : s.wing.st = .sealing ∧ s.yard.journal.sealing.isSome
      · rw [flashFailed_sealing (s := clearBus s) hseal.1 hseal.2 hwr]
        obtain ⟨-, ⟨p, hy⟩, -⟩ := sealed_eq .failed true (writeFailed (clearBus s))
        rw [hy, hwf]
        exact ⟨_, p, rfl, rfl, rfl⟩
      · rw [flashFailed_else (s := clearBus s) hseal, hwf]
        exact ⟨_, _, rfl, rfl, rfl⟩
    obtain ⟨j, p, hyard, hentries, hnone⟩ := hy
    refine ⟨_, rfl, hkeeps.flash, hkeeps.cfg, hkeeps.clock, hkeeps.pending, ?_, ?_, ?_, ?_, ?_, ?_, fun hst => ?_, fun hst hs => ?_⟩
    · rw [hyard]; exact ⟨rfl, rfl, rfl⟩
    · rw [hyard]; exact ⟨rfl, rfl, rfl⟩
    · rw [hyard]; exact ⟨rfl, rfl, rfl⟩
    · rw [hyard]
    · rw [hyard]; exact hentries
    · rw [hyard]; exact hnone
    · rw [flashFailed_else (s := clearBus s) fun h => hst h.1, hwf]
      exact ⟨rfl, rfl, rfl, rfl⟩
    · rw [flashFailed_sealing (s := clearBus s) hst hs hwr]
      obtain ⟨hwing, ⟨p, hy⟩, -⟩ := sealed_eq .failed true (writeFailed (clearBus s))
      rw [hwing, hy, hwf]
      exact ⟨rfl, rfl, rfl, rfl, fun v hv => mem_abandon hv (.inl ⟨v, rfl⟩), fun n hn => mem_abandon hn (.inr ⟨n, rfl⟩), Option.map_map ..⟩
  · have hfree : (j.writing.isSome || j.retryLeft.isSome || j.closed) = false := by simp [hw, hr, hc]
    refine ⟨fun w l hctl => ?_, fun e l hctl hentries => ⟨?_, ?_⟩⟩
    · simp [beginWrite, hfree, hctl]
    · simp [beginWrite, hfree, hctl, hentries]
    · simp [beginWrite, hfree, hctl, hentries]

end Sys2Proof.Machine
end

