-- ==== Sys2Proof/Proofs/Flush.lean ====
section
/-! PROOF. The Flush request and the writes it waits for (R21, R22). -/

namespace Sys2Proof.Machine

open Sys2Proof

variable {s : State}

/-! ## The requests that a write answers -/

/-- The requests of the Flushes that satisfy a condition are answered with a code; of the others each stays as it is, and
where no Flush satisfies it nothing changes. -/
structure FlushesAnswered (l : List FlushWait) (code : ReplyCode) (p : FlushWait → Prop) (k z : Link) : Prop where
  ready : ∀ w ∈ l, p w → ∀ q ∈ k.inbox, q.id = w.id → q.reply = none →
    { q with reply := some ⟨q.kind + 0x40, q.tag, code, []⟩ } ∈ z.inbox
  silent : (∀ w ∈ l, ¬p w) → z = k
  kept : ∀ q ∈ k.inbox, (q.reply ≠ none ∨ ∀ w ∈ l, p w → w.id ≠ q.id) → q ∈ z.inbox

/-- Answering a list of Flushes, those of another list that satisfy a condition. -/
theorem flushesAnswered_foldl {l xs : List FlushWait} {code : ReplyCode} {p : FlushWait → Prop} {k : Link}
    (hs : s.link = k) (hmem : ∀ w ∈ l, p w → ∃ x ∈ xs, x.id = w.id) (hfrom : ∀ x ∈ xs, ∃ w ∈ l, p w ∧ w.id = x.id) :
    FlushesAnswered l code p k (xs.foldl (fun s w => answer w.id code [] s) s).link := by
  subst hs
  refine ⟨fun w hw hp q hq hid hr => ?_, fun h => ?_, fun q hq hno => ?_⟩
  · obtain ⟨x, hx, hxw⟩ := hmem w hw hp
    exact answers_mem (f := FlushWait.id) hq hr ⟨x, hx, hxw.trans hid.symm⟩
  · have hnil : xs = [] := List.eq_nil_iff_forall_not_mem.2 fun x hx => by
      obtain ⟨w, hw, hp, -⟩ := hfrom x hx
      exact h w hw hp
    rw [hnil]; rfl
  · refine answers_stays (f := FlushWait.id) hq (hno.imp_right fun hno x hx => ?_)
    obtain ⟨w, hw, hp, hid⟩ := hfrom x hx
    exact hid ▸ hno w hw hp

/-- Some Flushes are answered, and then all the others. -/
theorem FlushesAnswered.all {l : List FlushWait} {code : ReplyCode} {p : FlushWait → Bool} {k z z' : Link}
    (h : FlushesAnswered l code (fun w => p w = true) k z)
    (h' : FlushesAnswered (l.filter fun w => !p w) code (fun _ => True) z z') : FlushesAnswered l code (fun _ => True) k z' := by
  have rest : ∀ {w}, w ∈ l → ¬p w = true → w ∈ l.filter fun w => !p w := fun hw hp => List.mem_filter.2 ⟨hw, by simp [hp]⟩
  refine ⟨fun w hw _ q hq hid hr => ?_, fun hno => ?_, fun q hq hk => ?_⟩
  · by_cases hx : ∃ x ∈ l, p x = true ∧ x.id = q.id
    · obtain ⟨x, hx, hp, hxq⟩ := hx
      exact h'.kept _ (h.ready x hx hp q hq hxq.symm hr) (.inl (by simp))
    · have hstays : q ∈ z.inbox := h.kept q hq (.inr fun x hxl hp hxq => hx ⟨x, hxl, hp, hxq⟩)
      exact h'.ready w (rest hw fun hp => hx ⟨w, hw, hp, hid.symm⟩) trivial q hstays hid hr
  · rw [h'.silent fun w hw _ => hno w (List.mem_of_mem_filter hw) trivial, h.silent fun w hw _ => hno w hw trivial]
  · refine h'.kept q (h.kept q hq (hk.imp_right fun hk w hw _ => hk w hw trivial)) (hk.imp_right fun hk w hw _ => ?_)
    exact hk w (List.mem_of_mem_filter hw) trivial

/-- The Flushes that a key's write ends are those that wait for no other. -/
theorem mem_flushesDone {k : JKey} {l : List FlushWait} {x : FlushWait} :
    x ∈ flushesDone k l ↔ ∃ w ∈ l, (∀ y ∈ w.keys, y = k) ∧ x = ⟨w.id, []⟩ := by
  have hnil : ∀ w : FlushWait, (w.keys.filter fun y => y ≠ k) = [] ↔ ∀ y ∈ w.keys, y = k := fun w => by
    simp [List.filter_eq_nil_iff]
  simp only [flushesDone, List.mem_filter, List.mem_map, List.isEmpty_iff]
  constructor
  · rintro ⟨⟨w, hw, rfl⟩, hkeys⟩
    exact ⟨w, hw, (hnil w).1 hkeys, congrArg (FlushWait.mk w.id) hkeys⟩
  · rintro ⟨w, hw, hkeys, rfl⟩
    exact ⟨⟨w, hw, congrArg (FlushWait.mk w.id) ((hnil w).2 hkeys)⟩, rfl⟩

theorem flushesDone_isEmpty {k : JKey} {l : List FlushWait} :
    (flushesDone k l).isEmpty = false ↔ ∃ w ∈ l, ∀ y ∈ w.keys, y = k := by
  rw [← Bool.not_eq_true, List.isEmpty_iff, List.eq_nil_iff_forall_not_mem, not_forall_not]
  simp only [mem_flushesDone]
  exact ⟨fun ⟨_, w, hw, hk, _⟩ => ⟨w, hw, hk⟩, fun ⟨w, hw, hk⟩ => ⟨_, w, hw, hk, rfl⟩⟩

theorem anyMark_eq_false {j : Journal} : anyMark j = false ↔ j.cellMarks = [] ∧ j.fillMarks = [] ∧ j.attrMarks = [] := by
  simp [anyMark, and_assoc]

/-! ## The end of the sealing flush -/

/-- The end of the sealing flush answers every Flush BUSY, beside what leaving a stopping sweep answers. -/
theorem sealed_flushes (r : FlushResult) (failed : Bool) (s : State) :
    (enterSealed r (closeJournal failed s)).yard.journal.flushes = []
    ∧ (s.sweep.run ≠ .stopping →
      FlushesAnswered s.yard.journal.flushes .busy (fun _ => True) s.link (enterSealed r (closeJournal failed s)).link) := by
  obtain ⟨-, ⟨p, hy⟩, -⟩ := sealed_eq r failed s
  refine ⟨by rw [hy]; rfl, fun hrun => ?_⟩
  have hclose := closeJournal_eq failed s
  have hsweep : (closeJournal failed s).sweep = s.sweep := by rw [hclose, answers_frame]
  have hlink : (enterSealed r (closeJournal failed s)).link = (closeJournal failed s).link := by
    unfold enterSealed
    rw [setWing_link]
    · rfl
    · show (closeJournal failed s).sweep.run ≠ .stopping
      rw [hsweep]
      exact hrun
  rw [hlink, hclose]
  exact flushesAnswered_foldl rfl (fun w hw _ => ⟨w, hw, rfl⟩) fun w hw => ⟨w, hw, trivial, rfl⟩

/-! ## Notices of a failed write -/

theorem setWing_outbox (st : WingSt) (s : State) (h : s.yard.post.outbox.length < 32) :
    ∃ n, (setWing st s).yard.post.outbox = s.yard.post.outbox ++ [n] := by
  unfold setWing
  extract_lets before ids withdrawn t
  have ht : ∃ n, t.yard.post.outbox = s.yard.post.outbox ++ [n] := ⟨_, notify_room _ _ _ s.yard h⟩
  split
  · rw [answers_frame (fun n => n)]
    exact ht
  · exact ht

/-- The end of the sealing flush raises its notices after those there are. -/
theorem sealed_outbox (r : FlushResult) (failed : Bool) (s : State) (h : s.yard.post.outbox.length < 31) :
    ∃ l, (enterSealed r (closeJournal failed s)).yard.post.outbox = s.yard.post.outbox ++ l := by
  have hpost : (closeJournal failed s).yard.post = s.yard.post := by rw [closeJournal_eq, answers_frame]
  generalize closeJournal failed s = t at hpost
  rw [← hpost] at h ⊢
  unfold enterSealed
  extract_lets no
  generalize ([.u4 no, _] : List Fld) = items
  have hupdate : (incidentUpdate items (modIncident (fun i => { i with flush := some r }) t)).yard.post.outbox = t.yard.post.outbox ++ [_] :=
    notify_room _ .incidentUpdate items t.yard (by omega)
  obtain ⟨n, hn⟩ := setWing_outbox .sealed (incidentUpdate items (modIncident (fun i => { i with flush := some r }) t)) (by
    rw [hupdate, List.length_append]
    exact Nat.succ_lt_succ h)
  exact ⟨_, hn.trans (by rw [hupdate, List.append_assoc])⟩

/-- The notice of a failed write is its kind and key (R19). -/
theorem writeLeft_outbox {w : Writing} (h : s.yard.post.outbox.length < 32) (he : s.yard.journal.errors = 0) :
    (writeLeft w s).yard.post.outbox = s.yard.post.outbox ++ [⟨.journalFault, s.clock.sec, s.yard.post.seq, writeFlds w⟩] := by
  unfold writeLeft
  rw [if_pos he]
  exact notify_room _ _ _ s.yard h

/-! ## The statement -/

/-- The Flush request, by what it covers and whether the journal is closed. -/
theorem flush_taken {h : ReqHdr} (hT : Taken h s) : ∃ u, Completes (.flush h) s u ∧ SameElse s u ∧ SameStock s.yard u.yard
    ∧ SameMotion s.yard u.yard ∧ SameDesks s.yard u.yard ∧ u.yard.orders = s.yard.orders
    ∧ u.yard.journal.entries = s.yard.journal.entries
    ∧ (coveredKeys s.yard.journal = [] → u.link = answeredLink 0x06 h .ok [] s.link)
    ∧ (coveredKeys s.yard.journal ≠ [] → s.yard.journal.closed = true → u.link = answeredLink 0x06 h .busy [] s.link)
    ∧ (coveredKeys s.yard.journal ≠ [] → s.yard.journal.closed = false → u.link = waitingLink 0x06 h s.link
        ∧ u.yard.journal = { s.yard.journal with
            flushes := s.yard.journal.flushes ++ [⟨s.link.nextId, coveredKeys s.yard.journal⟩] }) := by
  let t := entered (reqCode .flush) h s
  by_cases hk : coveredKeys s.yard.journal = []
  · have hact : flushAct s.link.nextId t
        = ({ t with yard := modJournal (flushEnded s.flash.clean) t.yard }, some (.ok, [])) := by
      simp [flushAct, t, hk, replyWith]
    refine ⟨_, request_answered (k := .flush) hT hact rfl, ⟨rfl, rfl, rfl, rfl, rfl, rfl⟩, ⟨rfl, rfl, rfl⟩, ⟨rfl, rfl, rfl⟩,
      ⟨rfl, rfl, rfl⟩, rfl, ?_, fun _ => rfl, fun h => absurd hk h, fun h => absurd hk h⟩
    show (flushEnded s.flash.clean s.yard.journal).entries = _
    rw [flushEnded_eq]
  · cases hc : s.yard.journal.closed with
    | true =>
      have hact : flushAct s.link.nextId t = refuse .busy t := by simp [flushAct, t, hk, hc]
      exact ⟨_, request_refused (k := .flush) hT hact, ⟨rfl, rfl, rfl, rfl, rfl, rfl⟩, ⟨rfl, rfl, rfl⟩, ⟨rfl, rfl, rfl⟩,
        ⟨rfl, rfl, rfl⟩, rfl, rfl, fun h => absurd h hk, fun _ _ => rfl, fun _ h => by cases h⟩
    | false =>
      have hact : flushAct s.link.nextId t = ({ t with yard := modJournal (fun j =>
          { j with flushes := j.flushes ++ [⟨s.link.nextId, coveredKeys s.yard.journal⟩] }) t.yard }, none) := by
        simp [flushAct, t, hk, hc]
      exact ⟨_, request_waits (k := .flush) hT hact, ⟨rfl, rfl, rfl, rfl, rfl, rfl⟩, ⟨rfl, rfl, rfl⟩, ⟨rfl, rfl, rfl⟩,
        ⟨rfl, rfl, rfl⟩, rfl, rfl, fun h => absurd h hk, fun _ h => (by cases h), fun _ _ => ⟨rfl, rfl⟩⟩

/-- The link after an entry's write that completes: the Flushes it ends are answered OK. -/
theorem flashDone_answers {e : JEntry} (h : s.yard.journal.writing = some (.entry e false)) :
    FlushesAnswered s.yard.journal.flushes .ok (fun w => ∀ k ∈ w.keys, k = e.key) s.link (flashDone s).link := by
  rw [flashDone_of_not_last (.inl (sealingLast_eq_false h (by simp))), writeDone, h]
  dsimp only
  rw [if_neg Bool.false_ne_true, flushWrote_eq]
  refine flushesAnswered_foldl rfl (fun w hw hk => ⟨_, mem_flushesDone.2 ⟨w, hw, hk, rfl⟩, rfl⟩) fun x hx => ?_
  obtain ⟨w, hw, hk, rfl⟩ := mem_flushesDone.1 hx
  exact ⟨w, hw, hk, rfl⟩

/-- The clean marker is asked for where a Flush has ended with nothing left to write or marked. -/
theorem ctlAfter_iff (clean : Bool) (k : JKey) (j : Journal) {C : Prop} [Decidable C]
    (hC : C ↔ (∃ w ∈ j.flushes, ∀ y ∈ w.keys, y = k) ∧ j.entries = [] ∧ j.cellMarks = [] ∧ j.fillMarks = [] ∧ j.attrMarks = []
      ∧ j.closed = false ∧ j.sealing = none ∧ (clean = false ∨ j.ctl ≠ [])) :
    ctlAfter clean k j = if C then j.ctl ++ [.clean true] else j.ctl := by
  unfold ctlAfter
  refine if_congr ?_ rfl rfl
  rw [hC, Bool.and_eq_true, Bool.not_eq_true', flushesDone_isEmpty]
  refine and_congr_right fun _ => ?_
  have hanyMark := anyMark_eq_false (j := j)
  simp only [asksClean, Bool.and_eq_true, Bool.not_eq_true', hanyMark, List.isEmpty_iff, Option.isNone_iff_eq_none,
    Bool.and_eq_false_iff, List.isEmpty_eq_false_iff, and_assoc]

/-- The link after a failed write: the Flushes that wait for its record are answered BUSY. -/
theorem writeFailed_answers {w : Writing} (h : s.yard.journal.writing = some w) :
    FlushesAnswered s.yard.journal.flushes .busy (fun f => waitsFor w f = true) s.link (writeFailed s).link := by
  rw [writeFailed_eq h]
  refine flushesAnswered_foldl rfl (fun f hf hw => ⟨f, List.mem_filter.2 ⟨hf, hw⟩, rfl⟩) fun f hf => ?_
  obtain ⟨hf, hw⟩ := List.mem_filter.1 hf
  exact ⟨f, hf, hw, rfl⟩

/-- Settles O20: the request by itself, and the Flushes that the end of a write answers by its kind. -/
theorem flushWaitsForItsWrites : Obligations.FlushWaitsForItsWrites := by
  refine ⟨fun h s hT => flush_taken hT, fun s => ?_⟩
  intro j sealing answered
  refine ⟨fun e he => ⟨_, rfl, ?_⟩, fun e he => ⟨_, rfl, ?_, ?_⟩, fun hst hw ⟨keys, hs⟩ => ?_, fun w hw => ?_⟩
  · have hanswered := flashDone_answers (s := clearBus s) he
    have hctl : (flashDone (clearBus s)).yard.journal.ctl = if (∃ w ∈ j.flushes, ∀ k ∈ w.keys, k = e.key) ∧ j.entries.drop 1 = []
        ∧ j.cellMarks = [] ∧ j.fillMarks = [] ∧ j.attrMarks = [] ∧ j.closed = false ∧ j.sealing = none
        ∧ (s.flash.clean = false ∨ j.ctl ≠ []) then j.ctl ++ [.clean true] else j.ctl := by
      rw [flashDone_entry (s := clearBus s) he]
      exact ctlAfter_iff s.flash.clean e.key _ Iff.rfl
    have hflushes : (flashDone (clearBus s)).yard.journal.flushes = flushesAfter e.key j.flushes := by
      rw [flashDone_entry (s := clearBus s) he]
      rfl
    rw [hflushes]
    refine List.filter_congr fun w _ => ?_
    rw [Bool.eq_iff_iff, decide_eq_true_iff, Bool.not_eq_true', List.isEmpty_eq_false_iff]
    exact ⟨fun h => ⟨h, ⟨hanswered.ready, hanswered.silent⟩, hctl⟩, And.left⟩
  · rw [flashDone_of_not_last (s := clearBus s) (.inl (sealingLast_eq_false he (by simp))), writeDone,
      show (clearBus s).yard.journal.writing = _ from he]
    rfl
  · rw [flashDone_entry (s := clearBus s) he]
    rfl
  · have hwrote := writeDone_eq (s := clearBus s) hw
    have hlink : (writeDone (clearBus s)).link = s.link := by
      rw [writeDone, show (clearBus s).yard.journal.writing = _ from hw]
      rfl
    obtain ⟨hflushes, hbusy⟩ := sealed_flushes .done false (writeDone (clearBus s))
    refine ⟨_, rfl, ?_, fun hrun => ?_⟩
    · rw [flashDone_sealing (s := clearBus s) hst hw hs]
      exact hflushes
    · rw [flashDone_sealing (s := clearBus s) hst hw hs]
      have hall := hbusy (by rw [hwrote]; exact hrun)
      rw [hlink, show (writeDone (clearBus s)).yard.journal.flushes = j.flushes by rw [hwrote]; rfl] at hall
      exact ⟨hall.ready, hall.silent⟩
  · have hframe := writeFailed_frame (s := clearBus s) hw
    have hanswers := writeFailed_answers (s := clearBus s) hw
    by_cases hseal : sealing
    · have hu := flashFailed_sealing (s := clearBus s) hseal.1 hseal.2 (Option.isSome_iff_exists.2 ⟨w, hw⟩)
      obtain ⟨hflushes, hbusy⟩ := sealed_flushes .failed true (writeFailed (clearBus s))
      refine ⟨_, rfl, fun h => absurd hseal h, fun _ => ⟨?_, fun hrun => ?_⟩, fun _ h => absurd hseal h, fun he hroom => ?_⟩
      · rw [hu]
        exact hflushes
      · rw [hu]
        have hrest := hbusy (by rw [hframe]; exact hrun)
        rw [show (writeFailed (clearBus s)).yard.journal.flushes = j.flushes.filter fun f => !waitsFor w f by rw [hframe]; rfl] at hrest
        have hall := hanswers.all hrest
        exact ⟨hall.ready, hall.silent⟩
      · rw [hu]
        have hleft := writeLeft_outbox (s := clearBus s) (w := w) (lt_trans hroom (by decide)) he
        have hpost : (writeFailed (clearBus s)).yard.post = (writeLeft w (clearBus s)).yard.post := by rw [hframe]
        obtain ⟨l, hl⟩ := sealed_outbox .failed true (writeFailed (clearBus s)) (by
          rw [hpost, hleft, List.length_append]
          exact Nat.succ_lt_succ hroom)
        refine ⟨⟨.journalFault, s.clock.sec, s.yard.post.seq, writeFlds w⟩, l, ?_, rfl, fun h => absurd hseal h, rfl⟩
        rw [hl, hpost, hleft, List.append_assoc]
        rfl
    · have hu := flashFailed_else (s := clearBus s) hseal
      refine ⟨_, rfl, fun _ => ⟨fun e r hwe => ⟨?_, ?_⟩, fun c hwc => ⟨?_, ?_⟩⟩, fun h => absurd h hseal, fun he _ => ?_, fun he hroom => ?_⟩
      · rw [hu, hframe, hwe]
        exact List.filter_congr fun f _ => by simp [waitsFor]
      · rw [hu]
        have hwaits : ∀ f : FlushWait, waitsFor w f = true ↔ e.key ∈ f.keys := fun f => by simp [hwe, waitsFor]
        exact ⟨fun f hf hk => hanswers.ready f hf ((hwaits f).2 hk), fun hno => hanswers.silent fun f hf hk => hno f hf ((hwaits f).1 hk)⟩
      · rw [hu, hframe, hwc]
        simp [writeLeft, waitsFor, j]
      · rw [hu]
        exact hanswers.silent fun f _ => by simp [hwc, waitsFor]
      · rw [hu, hframe, writeLeft, if_neg (show ¬(clearBus s).yard.journal.errors = 0 from he)]
        rfl
      · rw [hu, hframe]
        exact ⟨_, [], writeLeft_outbox (s := clearBus s) (lt_trans hroom (by decide)) he, rfl, fun _ => rfl, rfl⟩

end Sys2Proof.Machine
end

