-- ==== Sys2Proof/Proofs/Scans.lean ====
section
/-! PROOF. Scans and the Absent button at a station (R114, R115, R133). -/

namespace Sys2Proof.Machine

open Sys2Proof

variable {e : Env} {y : Yard} {st : Station} {x : Session}

/-! ## The parts of a scan -/

/-- An act of the staff resets the idle timer of an Open session (R120). -/
theorem staffAct_open (hs : y.stations[st].session = some x) (hr : x.releasing = false) : staffAct e st y = { y with
    stations := y.stations.set st { y.stations[st] with session := some { x with idle := some e.cfg.idleTimeout } } } := by
  unfold staffAct modSession modStation
  dsimp only
  rw [hs, Option.map_some, if_neg (by simp [hr])]

theorem lowerFill_frame (b n : Nat) (y : Yard) :
    lowerFill b n y = { y with bins := (lowerFill b n y).bins, journal := (lowerFill b n y).journal } := by
  unfold lowerFill
  split
  · exact setFill_frame ..
  · rfl

theorem raiseFill_frame (b n : Nat) (y : Yard) :
    raiseFill b n y = { y with bins := (raiseFill b n y).bins, journal := (raiseFill b n y).journal } := by
  unfold raiseFill
  split
  · exact setFill_frame ..
  · rfl

theorem getBin_setFill {b n d : Nat} {r : Bin} (hr : getBin b y = some r) :
    getBin d (setFill b n y) = if d = b then some { r with fill := n } else getBin d y := by
  split
  next h => rw [h, getBin_setFill_same, hr]; rfl
  next h => exact getBin_setFill_other _ _ _ _ h

/-- A fill is lowered by the width, not below 0. -/
theorem getBin_lowerFill {b n d : Nat} {r : Bin} (hr : getBin b y = some r) :
    getBin d (lowerFill b n y) = if d = b then some { r with fill := if n ≤ r.fill then r.fill - n else 0 } else getBin d y := by
  rw [show (if n ≤ r.fill then r.fill - n else 0) = r.fill - n by split <;> omega, ← getBin_setFill hr, lowerFill, hr]

/-- A fill is raised by the width, not above the capacity. -/
theorem getBin_raiseFill {b n d : Nat} {r : Bin} (hr : getBin b y = some r) : getBin d (raiseFill b n y)
    = if d = b then some { r with fill := if r.fill + n ≤ r.capacity then r.fill + n else r.capacity } else getBin d y := by
  rw [show (if r.fill + n ≤ r.capacity then r.fill + n else r.capacity) = min r.capacity (r.fill + n) by split <;> omega,
    ← getBin_setFill hr, raiseFill, hr]

theorem modTray_same {f : Tray → Tray} (h : f y.trays[st] = y.trays[st]) : modTray st f y = y := by
  unfold modTray
  rw [h]
  exact congrArg (fun v => { y with trays := v }) (Vector.set_getElem_self _)

theorem modTray_get (f : Tray → Tray) (y : Yard) (d : Station) :
    (modTray st f y).trays[d] = if st = d then f y.trays[d] else y.trays[d] := by
  show (y.trays.set st (f y.trays[st]))[d] = _
  rw [vset_get]
  split
  next h => rw [h]
  next => rfl

/-- A placement that counts toward a demand changes its station's tray, but for the items (R137). -/
theorem placementCounts_eq (e : Env) (st : Station) (y : Yard) :
    ∃ f : Tray → Tray, (∀ t, (f t).items = t.items) ∧ placementCounts e st y = modTray st f y := by
  unfold placementCounts
  split
  · extract_lets z
    split
    · exact ⟨fun t => { t with placed := t.placed + 1, demand := false }, fun _ => rfl, by simp [z, demandEnd, modTray]⟩
    · exact ⟨fun t => { t with placed := t.placed + 1 }, fun _ => rfl, rfl⟩
  · exact ⟨id, fun _ => rfl, (modTray_same rfl).symm⟩

/-- A notice finds room where the outbox had some. -/
theorem notify_kind (e : Env) (k : NoticeKind) (l : List Fld) (y : Yard) (h : y.post.outbox.length < 32) :
    ∃ n, (notify e k l y).post.outbox = y.post.outbox ++ [n] ∧ n.kind = k := ⟨_, notify_room e k l y h, rfl⟩

/-! ## What a scan and the Absent button come to -/

/-- A scan of an Open pick's item, by the order and the pick it finds (R114). -/
theorem scanned_pick {c : ItemCode} {no : Nat} {o : Order} {p : Pick} (hs : y.stations[st].session = some x) (hr : x.releasing = false)
    (hno : x.order = some no) (ho : orderOf no y = some o) (hp : o.picks.find? (fun p => p.st = .opened ∧ p.item = c) = some p) :
    scanned e st c y = pickScanned e st x o p (staffAct e st y) := by
  have hpick : scannedPick x c (staffAct e st y) = some (o, p) := by
    rw [staffAct_open hs hr]
    show (sessionOrder x y).bind _ = _
    rw [sessionOrder, hno, Option.bind_some, ho, Option.bind_some, hp, Option.map_some]
  rw [scanned, hs]
  dsimp only
  rw [if_neg (by simp [hr]), hpick]

/-- A scan of a placement's item (R133). -/
theorem scanned_placement {c : ItemCode} {p : Placement} (hs : y.stations[st].session = some x) (hr : x.releasing = false)
    (hpick : scannedPick x c y = none) (hp : x.placements.find? (fun p => p.item = c) = some p) :
    scanned e st c y = placementScanned e st x p (staffAct e st y) := by
  have hno : scannedPick x c (staffAct e st y) = none := by
    rw [staffAct_open hs hr]
    exact hpick
  rw [scanned, hs]
  dsimp only
  rw [if_neg (by simp [hr]), hno]
  dsimp only
  rw [hp]

/-- The Absent button at a session with an Open pick (R115). -/
theorem absentPressed_pick {no : Nat} {o : Order} {p : Pick} (hs : y.stations[st].session = some x) (hr : x.releasing = false)
    (hno : x.order = some no) (ho : orderOf no y = some o) (hp : o.picks.find? (fun p => p.st = .opened) = some p) :
    absentPressed e st y = notify e .pickAbsent [.u1 (stationNo st), .u2 x.bin, .u2 o.no, .u4 p.slip]
      (modOrder o.no (fun o => { o with picks := settlePick (fun _ => true) .absent o.picks }) (staffAct e st y)) := by
  have horder : sessionOrder x (staffAct e st y) = some o := by
    rw [staffAct_open hs hr]
    show x.order.bind (fun no => orderOf no y) = _
    rw [hno, Option.bind_some, ho]
  rw [absentPressed, hs]
  dsimp only
  rw [if_neg (by simp [hr]), horder]
  dsimp only
  rw [hp]

theorem orderOf_no {no : Nat} {o : Order} (h : orderOf no y = some o) : o.no = no := by simpa using List.find?_some h

theorem scanned_none {c : ItemCode} (hs : y.stations[st].session = none) : scanned e st c y = strayScan e st c 3 y := by
  rw [scanned, hs]

/-- The yard with a placement's item out of its tray and its session (R133). -/
def placementOut (st : Station) (c : ItemCode) (y : Yard) : Yard :=
  modSession st (fun x => { x with placements := x.placements.filter fun q => q.item ≠ c })
    (modTray st (fun t => { t with items := t.items.filter fun i => i.item ≠ c }) y)

theorem placementOut_trays (c : ItemCode) (y : Yard) (d : Station) : (placementOut st c y).trays[d]
    = if st = d then { y.trays[d] with items := y.trays[d].items.filter fun i => i.item ≠ c } else y.trays[d] :=
  modTray_get (fun t => { t with items := t.items.filter fun i => i.item ≠ c }) y d

theorem placementOut_stations {v : Vector StationRec 4} {w : StationRec} (c : ItemCode) (h : y.stations = v.set st { w with session := some x }) :
    (placementOut st c y).stations
    = v.set st { w with session := some { x with placements := x.placements.filter fun q => q.item ≠ c } } := by
  show y.stations.set st { y.stations[st] with session := y.stations[st].session.map _ } = _
  rw [h]
  simp

/-- A placement's scan: the item leaves the tray and the session, the fill rises, and the demand may count it (R133). -/
theorem placementScanned_eq (p : Placement) (y : Yard) : ∃ f : Tray → Tray, ∃ n, (∀ t, (f t).items = t.items)
    ∧ placementScanned e st x p y = { modTray st f (raiseFill x.bin p.width (placementOut st p.item y)) with post := n } := by
  obtain ⟨f, hf, hcounts⟩ := placementCounts_eq e st (raiseFill x.bin p.width (placementOut st p.item y))
  exact ⟨f, _, hf, congrArg
    (fun z => notify e .placeDone [.u1 (stationNo st), .u2 x.bin, .item p.item, .u1 p.width, .u2 (fillOf x.bin z)] z) hcounts⟩

theorem placementScanned_spec {r : Bin} (p : Placement) (hb : getBin x.bin y = some r) :
    let z := placementScanned e st x p y
    SameMotion y z ∧ z.cells = y.cells ∧ z.lines = y.lines ∧ z.orders = y.orders
    ∧ z.trays[st].items = y.trays[st].items.filter (fun i => i.item ≠ p.item)
    ∧ (∀ d : Station, d ≠ st → z.trays[d] = y.trays[d])
    ∧ z.stations = (placementOut st p.item y).stations
    ∧ ∀ d, getBin d z = if d = x.bin then
        some { r with fill := if r.fill + p.width ≤ r.capacity then r.fill + p.width else r.capacity } else getBin d y := by
  intro z
  obtain ⟨f, n, hf, heq⟩ := placementScanned_eq (e := e) (st := st) (x := x) p y
  have hframe := raiseFill_frame x.bin p.width (placementOut st p.item y)
  have htrays (d : Station) : z.trays[d] = if st = d then
      f { y.trays[d] with items := y.trays[d].items.filter fun i => i.item ≠ p.item } else y.trays[d] := by
    show (placementScanned e st x p y).trays[d] = _
    rw [heq]
    show (modTray st f (raiseFill x.bin p.width (placementOut st p.item y))).trays[d] = _
    rw [modTray_get, congrArg Yard.trays hframe]
    show (if st = d then f (placementOut st p.item y).trays[d] else (placementOut st p.item y).trays[d]) = _
    rw [placementOut_trays]
    split <;> rfl
  refine ⟨⟨?_, ?_, ?_⟩, ?_, ?_, ?_, ?_, fun d hd => ?_, ?_, fun d => ?_⟩
  · exact (congrArg Yard.carriers heq).trans (congrArg Yard.carriers hframe :)
  · exact (congrArg Yard.arbs heq).trans (congrArg Yard.arbs hframe :)
  · exact (congrArg Yard.est heq).trans (congrArg Yard.est hframe :)
  · exact (congrArg Yard.cells heq).trans (congrArg Yard.cells hframe :)
  · exact (congrArg Yard.lines heq).trans (congrArg Yard.lines hframe :)
  · exact (congrArg Yard.orders heq).trans (congrArg Yard.orders hframe :)
  · rw [htrays, if_pos rfl, hf]
  · rw [htrays, if_neg fun h => hd h.symm]
  · exact (congrArg Yard.stations heq).trans (congrArg Yard.stations hframe :)
  · exact (congrArg (getBin d) heq).trans (getBin_raiseFill (y := placementOut st p.item y) hb)

/-- What neither a pick's scan nor its mark as Absent touches. -/
structure DesksKept (y z : Yard) : Prop extends SameMotion y z where
  cells : z.cells = y.cells
  lines : z.lines = y.lines
  trays : z.trays = y.trays
  stations : z.stations = y.stations

/-- A pick's scan: it is Done, and the bin's fill falls (R114). -/
theorem pickScanned_spec {o : Order} {r : Bin} (p : Pick) (hb : getBin x.bin y = some r) :
    let z := pickScanned e st x o p y
    DesksKept y z
    ∧ z.orders = (modOrder o.no (fun o => { o with picks := settlePick (fun q => q.slip = p.slip) .done o.picks }) y).orders
    ∧ (∀ d, getBin d z = if d = x.bin then some { r with fill := if p.width ≤ r.fill then r.fill - p.width else 0 } else getBin d y)
    ∧ (y.post.outbox.length < 32 → ∃ n, z.post.outbox = y.post.outbox ++ [n] ∧ n.kind = .pickDone) := by
  intro z
  let y' := modOrder o.no (fun o => { o with picks := settlePick (fun q => q.slip = p.slip) .done o.picks }) y
  have hframe := lowerFill_frame x.bin p.width y'
  refine ⟨⟨⟨(congrArg Yard.carriers hframe :), (congrArg Yard.arbs hframe :), (congrArg Yard.est hframe :)⟩, (congrArg Yard.cells hframe :),
    (congrArg Yard.lines hframe :), (congrArg Yard.trays hframe :), (congrArg Yard.stations hframe :)⟩, (congrArg Yard.orders hframe :),
    fun d => getBin_lowerFill (y := y') hb, fun hroom => ?_⟩
  have hpost : (lowerFill x.bin p.width y').post = y.post := (congrArg Yard.post hframe :)
  obtain ⟨n, hn, hk⟩ := notify_kind e .pickDone [.u1 (stationNo st), .u2 x.bin, .u2 o.no, .u4 p.slip, .item p.item,
    .u2 (fillOf x.bin (lowerFill x.bin p.width y'))] (lowerFill x.bin p.width y') (by rwa [hpost])
  exact ⟨n, hn.trans (by rw [hpost]), hk⟩

/-! ## The statement -/

/-- Settles O55, by what a scan comes to: an Open pick, a placement, or a stray scan. -/
theorem scansSettlePicks : Obligations.ScansSettlePicks := by
  intro st c s
  refine ⟨?pick, ?placement, fun hs => ?stray⟩
  case pick =>
    intro x o p r no hs hr hno ho hb kept
    have hact := congrArg Yard.stations (staffAct_open (e := envOf s) (y := (clearBus s).yard) hs hr)
    have hone := orderOf_no ho
    refine ⟨fun hp => ⟨_, rfl, ?_⟩, fun hp => ⟨_, rfl, ?_⟩⟩
    · rw [onYard, scanned_pick (y := (clearBus s).yard) hs hr hno ho hp]
      obtain ⟨⟨⟨hcar, harbs, hest⟩, hcells, hlines, htrays, hst⟩, horders, hbins, hpost⟩ :=
        pickScanned_spec (e := envOf s) (st := st) (o := o) (y := staffAct (envOf s) st (clearBus s).yard) p hb
      refine ⟨⟨⟨rfl, rfl, rfl, rfl, rfl, rfl⟩, rfl, hcells, ⟨hcar, harbs, hest⟩, hlines, htrays, hst.trans hact⟩, ?_,
        (hbins x.bin).trans (if_pos rfl), fun b hne => (hbins b).trans (if_neg hne), hpost⟩
      rw [← hone]
      exact horders
    · rw [onYard, absentPressed_pick (y := (clearBus s).yard) hs hr hno ho hp]
      refine ⟨⟨⟨rfl, rfl, rfl, rfl, rfl, rfl⟩, rfl, rfl, ⟨rfl, rfl, rfl⟩, rfl, rfl, hact⟩, rfl, ?_,
        fun hroom => notify_kind _ .pickAbsent _ _ hroom⟩
      rw [← hone]
      rfl
  case placement =>
    intro x p r hs hr hpick hp hb
    have hitem : p.item = c := by simpa using List.find?_some hp
    have hact := congrArg Yard.stations (staffAct_open (e := envOf s) (y := (clearBus s).yard) hs hr)
    refine ⟨_, rfl, ?_⟩
    rw [onYard, scanned_placement (y := (clearBus s).yard) hs hr hpick hp]
    obtain ⟨hmotion, hcells, hlines, horders, hitems, htrays, hst, hbins⟩ :=
      placementScanned_spec (e := envOf s) (st := st) (y := staffAct (envOf s) st (clearBus s).yard) p hb
    rw [hitem] at hitems hst
    exact ⟨⟨rfl, rfl, rfl, rfl, rfl, rfl⟩, rfl, hcells, ⟨hmotion.carriers, hmotion.arbs, hmotion.est⟩, hlines, horders, hitems,
      htrays, hst.trans (placementOut_stations c hact), (hbins x.bin).trans (if_pos rfl), fun b hne => (hbins b).trans (if_neg hne)⟩
  case stray =>
    refine ⟨_, rfl, ?_⟩
    rw [onYard, scanned_none (y := (clearBus s).yard) hs]
    exact ⟨⟨rfl, rfl, rfl, rfl, rfl, rfl⟩, rfl, rfl, fun hroom => notify_kind _ .strayScan _ _ hroom⟩

end Sys2Proof.Machine
end

