-- ==== Sys2Proof/Proofs/Strokes.lean ====
section
/-! PROOF. Completed strokes under Hold: the bin, its cell and the carrier (R48, R49). -/

namespace Sys2Proof.Machine

open Sys2Proof

variable {e : Env} {y : Yard} {a : Aisle} {s : State}

/-! ## The carrier's updates -/

theorem modCarrier_get (f : Carrier → Carrier) (y : Yard) (d : Aisle) :
    (modCarrier a f y).carriers[d] = if a = d then f y.carriers[d] else y.carriers[d] := by
  show (y.carriers.set a (f y.carriers[a]))[d] = _
  rw [vset_get]
  split
  next h => rw [h]
  next => rfl

/-- Updates of one aisle's carrier leave every other as it was. -/
theorem modCarrier_set_other {f : Carrier → Carrier} {c : Carrier} {d : Aisle} (hd : d ≠ a) :
    ((modCarrier a f y).carriers.set a c)[d] = y.carriers[d] := by
  rw [vset_get, if_neg fun h => hd h.symm, modCarrier_get, if_neg fun h => hd h.symm]

theorem modCarrier_same {f : Carrier → Carrier} (h : f y.carriers[a] = y.carriers[a]) : modCarrier a f y = y := by
  unfold modCarrier
  rw [h]
  exact congrArg (fun v => { y with carriers := v }) (Vector.set_getElem_self _)

theorem setTask_same (a : Aisle) (y : Yard) : setTask a y.carriers[a].task y = y := modCarrier_same rfl

/-- The plan after a taken bin differs in the task only. -/
theorem tookBin_eq (a : Aisle) (y : Yard) : ∃ t, tookBin a y = setTask a t y := by
  unfold tookBin
  split
  · exact ⟨_, rfl⟩
  · exact ⟨_, rfl⟩
  · exact ⟨_, rfl⟩
  · exact ⟨_, (setTask_same a y).symm⟩

/-- The plan after a placed bin differs in the task only. -/
theorem putBinDown_eq (a : Aisle) (y : Yard) : ∃ t, putBinDown a y = setTask a t y := by
  unfold putBinDown
  split
  · exact ⟨_, rfl⟩
  · exact ⟨_, rfl⟩
  · exact ⟨_, rfl⟩
  · exact ⟨_, (setTask_same a y).symm⟩

/-- Under Hold and Clearing a carrier whose segment has ended is Held, or Idle when freed (R59, R85). -/
theorem advance_held (hw : wingHeld e.wing = true) :
    advance e a y = setSt a (if y.carriers[a].freed then .idle else .held) y := by
  cases h : e.wing <;> simp_all [wingHeld, advance]

/-- A segment's end outside a Pending aisle clears the segment only (R28). -/
theorem segEnded_eq (h : y.est[a].st ≠ .pending) : segEnded e a y = modCarrier a (fun c => { c with seg := none }) y := by
  rw [segEnded]
  exact if_neg h

theorem leavesOff_eq_false (h : y.est[a].st ≠ .pending) : leavesOff e a y = false := by
  rw [leavesOff, decide_eq_false h, Bool.false_and, Bool.false_and]

/-- A completion report of the segment in flight, other than a Halt's, in an aisle that is not Pending (R48). -/
theorem segmentReported_eq {g : Segment} {r : SegReport} (hseg : s.yard.carriers[a].seg = some g) (hk : g.kind ≠ .halt)
    (hp : s.yard.est[a].st ≠ .pending) : segmentReported a g.no r s
      = { s with yard := segReported (envOf s) a g r (modCarrier a (fun c => { c with seg := none }) s.yard) } := by
  have hsome : segOf a g.no s.yard = some g := by rw [segOf, hseg, Option.filter_some, if_pos (decide_eq_true rfl)]
  rw [segmentReported, hsome]
  dsimp only
  rw [stopObstructs, if_neg fun h => hk h.1, onYard, segDone, leavesOff_eq_false hp, segEnded_eq hp]
  rfl

/-! ## A bin taken from its cell -/

theorem modBin_carriers (b : Nat) (f : Bin → Bin) (y : Yard) : (modBin b f y).carriers = y.carriers := by rw [modBin_frame]

theorem setCell_carriers (x : CellAddr) (c : Cell) (y : Yard) : (setCell e x c y).carriers = y.carriers := by rw [setCell_frame]

theorem getBin_modBin {b d : Nat} {f : Bin → Bin} {r : Bin} (hr : getBin b y = some r) :
    getBin d (modBin b f y) = if d = b then some (f r) else getBin d y := by
  split
  next h => rw [h, getBin_modBin_same, hr]; rfl
  next h => exact getBin_modBin_other _ _ _ _ h

/-- A ForkIn of the bin expected, Stored in its cell, under Hold. -/
theorem forkInCell_taken {x : CellAddr} {b : Nat} {r : Bin} (hw : wingHeld e.wing = true) (hr : getBin b y = some r)
    (hst : r.st = .stored) (hc : r.cell = some x) : ∃ t, forkInCell e a x b (.bin b) y
      = setSt a (if y.carriers[a].freed then .idle else .held) (setTask a t (onFork a b (setCell e x .empty y))) := by
  have hr' : getBin b (setCell e x .empty y) = some r := (getBin_setCell ..).trans hr
  have hleave : leaveOther e b x (setCell e x .empty y) = setCell e x .empty y := by
    rw [leaveOther, storedCell, hr']
    simp [hst, hc]
  have htakes : forkTakes e a b (setCell e x .empty y) = onFork a b (setCell e x .empty y) := by
    rw [forkTakes, hr']
    simp [inPlace, hst, ensureBin, hr']
  obtain ⟨t, ht⟩ := tookBin_eq a (onFork a b (setCell e x .empty y))
  refine ⟨t, ?_⟩
  rw [forkInCell]
  dsimp only
  rw [if_pos rfl, hleave, htakes, ht, advance_held hw]
  simp [setTask, onFork, modBin_carriers, setCell_carriers]

/-- What a bin taken under Hold leaves of the yard. -/
theorem taken_frame (st : CarrierSt) (t : Option Task) (b : Nat) (x : CellAddr) (y : Yard) :
    let w := setCell e x .empty y
    let z := setSt a st (setTask a t (onFork a b w))
    z = { y with
      cells := w.cells, journal := w.journal, bins := z.bins
      carriers := y.carriers.set a { y.carriers[a] with load := some b, task := t, st := st } } := by
  intro w z
  have hw : w = _ := setCell_frame e x .empty y
  have hfork : onFork a b w = _ := modBin_frame b _ (modCarrier a (fun c => { c with load := some b }) w)
  simp only [z, setSt, setTask]
  rw [hfork]
  simp only [modCarrier, Vector.set_set, Vector.getElem_set_self, Fin.getElem_fin]
  rw [hw]

/-- Settles O25, by the yard that the stroke leaves. -/
theorem forkInTakesExpectedBin : Obligations.ForkInTakesExpectedBin := by
  intro a g x b r s hnum hw hseg hk ht hexp hp hs hcell hr hst hc
  let y := modCarrier a (fun c => { c with seg := none }) (clearBus s).yard
  obtain ⟨t, hfork⟩ := forkInCell_taken (e := envOf s) (a := a) (y := y) hw hr hst hc
  have hrep : segReported (envOf s) a g (.tag (.bin b)) y = forkInCell (envOf s) a x b (.bin b) y := by
    simp only [segReported, hk, ht, hexp, Option.getD_some, tagRead, hnum.records b r hr, if_true]
  have hbins (d : Nat) : getBin d (onFork a b (setCell (envOf s) x .empty y))
      = if d = b then some { r with st := .onCarrier, cell := none, aisle := none, station := none }
        else getBin d s.yard :=
    (getBin_modBin (y := modCarrier a _ (setCell (envOf s) x .empty y)) ((getBin_setCell b x .empty y).trans hr)).trans
      (by rw [show getBin d (modCarrier a _ (setCell (envOf s) x .empty y)) = _ from getBin_setCell d x .empty y]; rfl)
  have hframe := taken_frame (e := envOf s) (a := a) (if y.carriers[a].freed then .idle else .held) t b x y
  refine ⟨_, rfl, ?_⟩
  rw [segmentReported_eq (s := clearBus s) hseg (by rw [hk]; decide) hp]
  dsimp only
  rw [show segReported (envOf (clearBus s)) a g (.tag (.bin b)) y = _ from hrep.trans (hfork.trans hframe)]
  refine ⟨⟨rfl, rfl, rfl, rfl, rfl, rfl⟩, rfl, ?_, fun k hk => kget_setCell_other _ _ _ y k hk, (hbins b).trans (if_pos rfl),
    fun d hd => (hbins d).trans (if_neg hd), ?_, ?_, ?_, ?_, fun d hd => ?_, ⟨rfl, rfl, rfl⟩, rfl⟩
  · exact getCell_setCell_same _ x _ y hs (by rw [show getCell _ x y = _ from hcell]; simp) (by simp)
  · simp
  · simp [y]
  · simp [y]
  · simp [y]
  · exact modCarrier_set_other hd

/-! ## A bin put into its cell -/

/-- What a bin put down under Hold leaves of the yard. -/
theorem stored_frame (st : CarrierSt) (t : Option Task) (b : Nat) (x : CellAddr) (y : Yard) :
    let w := setCell e x (.occupied b) (modCarrier a (fun c => { c with load := none }) y)
    let z := setSt a st (setTask a t (binStored b x w))
    z = { y with
      cells := w.cells, journal := w.journal, bins := z.bins
      carriers := y.carriers.set a { y.carriers[a] with load := none, task := t, st := st } } := by
  intro w z
  have hw : w = _ := setCell_frame e x (.occupied b) (modCarrier a (fun c => { c with load := none }) y)
  have hstored : binStored b x w = _ := modBin_frame b _ w
  simp only [z, setSt, setTask]
  rw [hstored]
  simp only [modCarrier]
  rw [hw]
  simp only [modCarrier, Vector.set_set, Vector.getElem_set_self, Fin.getElem_fin]

/-- A ForkOut of a carried bin under Hold, up to what a put-away brings. -/
theorem forkOutDone_stored {x : CellAddr} {b : Nat} (hw : wingHeld e.wing = true) (hl : y.carriers[a].load = some b) :
    ∃ t, forkOutDone e a x y = putawayEnds e y.carriers[a].task (setSt a (if y.carriers[a].freed then .idle else .held)
      (setTask a t (binStored b x (setCell e x (.occupied b) (modCarrier a (fun c => { c with load := none }) y))))) := by
  obtain ⟨t, ht⟩ := putBinDown_eq a (binStored b x (setCell e x (.occupied b) (modCarrier a (fun c => { c with load := none }) y)))
  refine ⟨t, ?_⟩
  rw [forkOutDone, hl]
  dsimp only
  rw [ht, advance_held hw]
  simp [setTask, binStored, modBin_carriers, setCell_carriers]

/-- A bin put into a cell of the geometry is read there. -/
theorem getCell_setCell_occupied {x : CellAddr} {b : Nat} (hg : inGeometry e.cfg.geometry x = true) (ha : getCell e x y ≠ .absent) :
    getCell e x (setCell e x (.occupied b) y) = .occupied b := by
  have hput : getCell e x (putCell x (.occupied b) y) = .occupied b := by
    rw [getCell, if_pos hg]
    simp [putCell]
  unfold setCell
  extract_lets old z
  split
  next h => exact h.resolve_left ha
  next =>
    split
    · exact hput
    · exact hput

/-- Settles O26, by the yard that the stroke leaves. -/
theorem forkOutStoresCarriedBin : Obligations.ForkOutStoresCarriedBin := by
  intro a g x b r s hw hseg hk ht hload hp hin hcell hr
  let y := modCarrier a (fun c => { c with seg := none }) (clearBus s).yard
  have hcar : y.carriers[a] = { s.yard.carriers[a] with seg := none } := by simp [y]
  obtain ⟨t, hfork⟩ := forkOutDone_stored (e := envOf s) (a := a) (x := x) (y := y) hw (by rw [hcar]; exact hload)
  have hrep : segReported (envOf s) a g .done y = forkOutDone (envOf s) a x y := by simp only [segReported, hk, ht]
  let w := setCell (envOf s) x (.occupied b) (modCarrier a (fun c => { c with load := none }) y)
  have hbins (d : Nat) : getBin d (binStored b x w)
      = if d = b then some { r with st := .stored, cell := some x, aisle := some x.aisle, station := none }
        else getBin d s.yard :=
    (getBin_modBin (y := w) ((getBin_setCell b x _ _).trans hr)).trans
      (by rw [show getBin d w = _ from getBin_setCell d x _ _]; rfl)
  have hframe := stored_frame (e := envOf s) (a := a) (if y.carriers[a].freed then .idle else .held) t b x y
  refine ⟨{ clearBus s with yard := setSt a (if y.carriers[a].freed then .idle else .held) (setTask a t (binStored b x w)) },
    ?_, ⟨rfl, rfl, rfl, rfl, rfl, rfl⟩, rfl, ?_, ?_, (hbins b).trans (if_pos rfl), fun d hd => (hbins d).trans (if_neg hd), ?_⟩
  · show Host.Outcome.next (finish (segmentReported a g.no .done (clearBus s))) = _
    rw [segmentReported_eq (s := clearBus s) hseg (by rw [hk]; decide) hp]
    dsimp only
    rw [show segReported (envOf (clearBus s)) a g .done y = _ from hrep.trans hfork, hcar]
  all_goals dsimp only; rw [hframe]
  · exact getCell_setCell_occupied hin hcell
  · exact fun k hk => kget_setCell_other _ _ _ _ k hk
  · refine ⟨?_, ?_, ?_, fun d hd => ?_, ⟨rfl, rfl, rfl⟩, rfl⟩
    · simp
    · simp [y]
    · simp [y]
    · exact modCarrier_set_other hd

end Sys2Proof.Machine
end

