-- ==== Sys2Proof/Proofs/RetireCourse.lean ====
section
/-! PROOF. The Retire course (R11): its orders, their stations and their bins. -/

namespace Sys2Proof.Machine

open Sys2Proof

variable {e : Env} {y z : Yard} {st : Station}

/-! ## The largest measure -/

theorem argmax_eq_none {α : Type} (f : α → Int) (l : List α) : argmax f l = none ↔ l = [] := by
  cases l with
  | nil => simp [argmax]
  | cons x t => simp only [argmax]; split <;> (try split) <;> simp

/-- Of a rising list, the first of the largest measure is the lowest of the largest. -/
theorem argmax_spec {f : Station → Int} {l : List Station} {x : Station} (hl : l.Pairwise (· < ·)) (h : argmax f l = some x) :
    x ∈ l ∧ ∀ d ∈ l, f d < f x ∨ f d = f x ∧ x ≤ d := by
  induction l generalizing x with
  | nil => simp [argmax] at h
  | cons w t ih =>
    obtain ⟨hw, ht⟩ := List.pairwise_cons.1 hl
    rw [argmax] at h
    split at h
    next q hq =>
      obtain ⟨hmem, hmax⟩ := ih ht hq
      split at h
      next hge =>
        obtain rfl : w = x := Option.some.inj h
        refine ⟨List.mem_cons_self, fun d hd => ?_⟩
        rcases List.mem_cons.1 hd with rfl | hd
        · exact .inr ⟨rfl, le_refl _⟩
        · have hle : f d ≤ f q := by rcases hmax d hd with h | h <;> omega
          exact (lt_or_eq_of_le (hle.trans hge)).imp_right fun heq => ⟨heq, le_of_lt (hw d hd)⟩
      next hlt =>
        obtain rfl : q = x := Option.some.inj h
        refine ⟨List.mem_cons_of_mem _ hmem, fun d hd => ?_⟩
        rcases List.mem_cons.1 hd with rfl | hd
        · exact .inl (not_le.1 hlt)
        · exact hmax d hd
    next hq =>
      obtain rfl : w = x := Option.some.inj h
      rw [argmax_eq_none] at hq
      subst hq
      exact ⟨List.mem_cons_self, fun d hd => by rw [List.mem_singleton.1 hd]; exact .inr ⟨rfl, le_refl _⟩⟩

/-! ## What the course reads -/

/-- An order's outcome goes by its bin's record, and by neither the queue nor the rest of the bin table (R80). -/
theorem orderOutcome_congr {o : Order} {bins : List (Nat × Bin)} {orders : List Order} {n : Nat}
    (h : getBin o.bin { y with bins := bins, orders := orders, nextOrder := n } = getBin o.bin y) :
    orderOutcome e o { y with bins := bins, orders := orders, nextOrder := n } = orderOutcome e o y := by
  unfold orderOutcome
  rw [h]
  rfl

/-- An evaluation gives no order to a carrier. -/
theorem orderOutcome_ne_assigned (e : Env) (o : Order) (y : Yard) : orderOutcome e o y ≠ .assigned := by
  unfold orderOutcome
  split
  · simp
  · split
    · simp
    · split
      · split
        · simp
        · split <;> simp
      · simp

/-- The yard after the course has asked for an order for a bin. -/
def retireAsked (e : Env) (st : Station) (b : Nat) (y : Yard) : Yard := (createOrder e .staff b st [] true none y).1

/-- The order the course asks for. -/
def retireOrder (e : Env) (st : Station) (b : Nat) (y : Yard) : Order :=
  let o : Order := ⟨freeNo y.orders 97 y.nextOrder, b, st, .staff, e.now, .queued, false, [], true, none⟩
  { o with st := orderOutcome e o y }

theorem retireAsked_orders (b : Nat) : (retireAsked e st b y).orders = y.orders ++ [retireOrder e st b y] := by
  unfold retireAsked createOrder
  dsimp only
  rw [modBin_frame]
  rfl

theorem getBin_retireAsked (b d : Nat) : getBin d (retireAsked e st b y)
    = if d = b then (getBin b y).map fun r => { r with live := some (retireOrder e st b y).no } else getBin d y := by
  unfold retireAsked createOrder
  dsimp only
  split
  next h => rw [h, getBin_modBin_same]; rfl
  next h => rw [getBin_modBin_other _ _ _ _ h]; rfl

/-- An order asked for counts at no station until it is assigned (R82). -/
theorem freeAdmission_retireAsked (b : Nat) (d : Station) : freeAdmission e d (retireAsked e st b y) = freeAdmission e d y := by
  have hframe : retireAsked e st b y = _ := createOrder_frame e .staff b st [] true none y
  have hno : ¬((retireOrder e st b y).station = d ∧ (retireOrder e st b y).st = .assigned) :=
    fun h => orderOutcome_ne_assigned _ _ _ h.2
  unfold freeAdmission committed
  rw [retireAsked_orders, List.filter_append, List.filter_cons_of_neg (by simpa using hno), List.filter_nil, List.append_nil, hframe]

theorem retireStation_retireAsked (b : Nat) : retireStation e (retireAsked e st b y) = retireStation e y := by
  have hframe : retireAsked e st b y = _ := createOrder_frame e .staff b st [] true none y
  unfold retireStation
  simp only [freeAdmission_retireAsked]
  rw [hframe]

theorem orderOutcome_retireAsked {b : Nat} {o : Order} (h : o.bin ≠ b) :
    orderOutcome e o (retireAsked e st b y) = orderOutcome e o y := by
  have hframe : retireAsked e st b y = _ := createOrder_frame e .staff b st [] true none y
  have hget : getBin o.bin (retireAsked e st b y) = getBin o.bin y := by rw [getBin_retireAsked, if_neg h]
  rw [hframe] at hget ⊢
  exact orderOutcome_congr hget

/-! ## The course -/

/-- The course over the bins that want an order. -/
def retireBins (e : Env) (l : List Nat) (y : Yard) : Yard :=
  l.foldl (fun y b =>
    match retireStation e y with
    | some st => if queueFull y then y else retireAsked e st b y
    | none => y) y

theorem retireCourse_eq (e : Env) (y : Yard) :
    retireCourse e y = retireBins e ((y.bins.filter fun p => wantsRetire p.2).map (·.1)) y := by
  rw [retireBins, List.foldl_map]
  rfl

theorem retireBins_none {l : List Nat} (h : retireStation e y = none) : retireBins e l y = y := by
  induction l with
  | nil => rfl
  | cons b t ih => rw [retireBins, List.foldl_cons, h]; exact ih

theorem retireBins_full {l : List Nat} (h : queueFull y = true) : retireBins e l y = y := by
  induction l with
  | nil => rfl
  | cons b t ih =>
    rw [retireBins, List.foldl_cons]
    split
    · rw [if_pos h]; exact ih
    · exact ih

theorem retireBins_room {b : Nat} {l : List Nat} (hst : retireStation e y = some st) (h : queueFull y = false) :
    retireBins e (b :: l) y = retireBins e l (retireAsked e st b y) := by
  rw [retireBins, List.foldl_cons, hst]
  dsimp only
  rw [if_neg (by rw [h]; decide)]
  rfl

/-- Orders `l` have been asked for at the station `st`, one for each bin of a list while the queue had room. -/
structure Asked (e : Env) (st : Station) (bins : List Nat) (l : List Order) (y z : Yard) : Prop where
  orders : z.orders = y.orders ++ l
  bins : l.map (·.bin) = bins.take (96 - y.orders.length)
  numbers : (y.orders.map (·.no)).Nodup → (z.orders.map (·.no)).Nodup
  each : ∀ o ∈ l, o = ⟨o.no, o.bin, st, .staff, e.now, orderOutcome e o y, false, [], true, none⟩
    ∧ getBin o.bin z = (getBin o.bin y).map fun r => { r with live := some o.no }
  others : ∀ b, (∀ o ∈ l, o.bin ≠ b) → getBin b z = getBin b y

theorem queueFull_eq_true (h : 96 ≤ y.orders.length) : queueFull y = true := decide_eq_true h

/-- One order more ahead of those asked for. -/
theorem Asked.cons {b : Nat} {bins : List Nat} {l : List Order} (h : Asked e st bins l (retireAsked e st b y) z)
    (hb : b ∉ bins) (hroom : y.orders.length < 96) : Asked e st (b :: bins) (retireOrder e st b y :: l) y z := by
  have hlen : (retireAsked e st b y).orders.length = y.orders.length + 1 := by rw [retireAsked_orders]; simp
  have hne (o : Order) (ho : o ∈ l) : o.bin ≠ b := fun heq =>
    hb (heq ▸ List.mem_of_mem_take (h.bins ▸ List.mem_map_of_mem ho))
  refine ⟨?_, ?_, fun hy => h.numbers ?_, fun o ho => ?_, fun d hd => ?_⟩
  · rw [h.orders, retireAsked_orders, List.append_assoc, List.singleton_append]
  · rw [List.map_cons, h.bins, hlen, show 96 - y.orders.length = (96 - (y.orders.length + 1)) + 1 by omega, List.take_succ_cons]
    rfl
  · rw [retireAsked_orders, List.map_append, List.nodup_append]
    refine ⟨hy, by simp, fun n hn m hm heq => ?_⟩
    rw [heq, List.mem_singleton.1 hm] at hn
    exact freeNo_not_mem _ _ (le_of_lt hroom) hn
  · rcases List.mem_cons.1 ho with rfl | ho
    · refine ⟨?_, ?_⟩
      · rw [orderOutcome_bin e (retireOrder e st b y) ⟨freeNo y.orders 97 y.nextOrder, b, st, .staff, e.now, .queued, false, [], true, none⟩ y rfl]
        rfl
      · exact (h.others b hne).trans ((getBin_retireAsked b b).trans (if_pos rfl))
    · obtain ⟨heq, hget⟩ := h.each o ho
      rw [orderOutcome_retireAsked (hne o ho)] at heq
      rw [getBin_retireAsked, if_neg (hne o ho)] at hget
      exact ⟨heq, hget⟩
  · rw [h.others d fun o ho => hd o (List.mem_cons_of_mem _ ho), getBin_retireAsked,
      if_neg fun heq => hd _ List.mem_cons_self heq.symm]

/-- With a station to go to, the course asks for an order for each bin while the queue has room. -/
theorem retireBins_asked {bins : List Nat} (hn : bins.Nodup) (hst : retireStation e y = some st) :
    ∃ l, Asked e st bins l y (retireBins e bins y) := by
  induction bins generalizing y with
  | nil => exact ⟨[], by simp [retireBins], by simp, fun h => h, by simp, fun _ _ => rfl⟩
  | cons b t ih =>
    obtain ⟨hb, ht⟩ := List.nodup_cons.1 hn
    by_cases hroom : y.orders.length < 96
    · rw [retireBins_room hst (decide_eq_false (not_le.2 hroom))]
      obtain ⟨l, hl⟩ := ih ht ((retireStation_retireAsked b).trans hst)
      exact ⟨_, hl.cons hb hroom⟩
    · rw [retireBins_full (queueFull_eq_true (not_lt.1 hroom))]
      exact ⟨[], by simp, by rw [Nat.sub_eq_zero_of_le (not_lt.1 hroom)]; simp, fun h => h, by simp, fun _ _ => rfl⟩

/-- The station the course chooses: the lowest of largest free admission among those neither Closed nor Closing. -/
theorem retireStation_spec (h : retireStation e y = some st) :
    (y.stations[st].role ≠ .closed ∧ y.stations[st].role ≠ .closing)
    ∧ ∀ d : Station, y.stations[d].role ≠ .closed ∧ y.stations[d].role ≠ .closing →
      freeAdmission e d y < freeAdmission e st y ∨ freeAdmission e d y = freeAdmission e st y ∧ st ≤ d := by
  have hall : ∀ d : Station, d ∈ stationList := by decide
  have hrise : stationList.Pairwise (· < ·) := by decide
  obtain ⟨hmem, hmax⟩ := argmax_spec (hrise.filter _) h
  exact ⟨of_decide_eq_true (List.mem_filter.1 hmem).2, fun d hd => hmax d (List.mem_filter.2 ⟨hall d, decide_eq_true hd⟩)⟩

theorem retireStation_eq_none (h : retireStation e y = none) (st : Station) :
    ¬(y.stations[st].role ≠ .closed ∧ y.stations[st].role ≠ .closing) := by
  have hall : ∀ d : Station, d ∈ stationList := by decide
  rw [retireStation, argmax_eq_none, List.filter_eq_nil_iff] at h
  exact fun hst => h st (hall st) (decide_eq_true hst)

/-- The Retire course, as R11 says it. -/
theorem retireCourse_spec (e : Env) (y : Yard) (hs : KSorted y.bins) :
    let wants := (y.bins.filter fun p =>
      decide (p.2.st = .stored) && p.2.retirePending && decide (p.2.live = none)).map (·.1)
    let opens := fun st : Station => y.stations[st].role ≠ .closed ∧ y.stations[st].role ≠ .closing
    let z := retireCourse e y
    z = { y with orders := z.orders, bins := z.bins, nextOrder := z.nextOrder }
    ∧ ∃ l, z.orders = y.orders ++ l
      ∧ ((∀ st, ¬opens st) → l = [])
      ∧ ((∃ st, opens st) → l.map (·.bin) = wants.take (96 - y.orders.length))
      ∧ ((y.orders.map (·.no)).Nodup → (z.orders.map (·.no)).Nodup)
      ∧ (∀ o ∈ l, o = ⟨o.no, o.bin, o.station, .staff, e.now, orderOutcome e o y, false, [], true, none⟩
        ∧ opens o.station
        ∧ (∀ st, opens st → freeAdmission e st y < freeAdmission e o.station y
            ∨ freeAdmission e st y = freeAdmission e o.station y ∧ o.station ≤ st)
        ∧ getBin o.bin z = (getBin o.bin y).map fun r => { r with live := some o.no })
      ∧ ∀ b, (∀ o ∈ l, o.bin ≠ b) → getBin b z = getBin b y := by
  intro wants opens z
  refine ⟨retireCourse_frame e y, ?_⟩
  have hwants : (y.bins.filter fun p => wantsRetire p.2).map (·.1) = wants := by
    refine congrArg (List.map _) (List.filter_congr fun p _ => ?_)
    cases h : p.2.live <;> simp [wantsRetire, h]
  have hz : z = retireBins e wants y := (retireCourse_eq e y).trans (by rw [hwants])
  rw [hz]
  cases hst : retireStation e y with
  | none =>
    rw [retireBins_none hst]
    exact ⟨[], by simp, fun _ => rfl, fun ⟨st, h⟩ => absurd h (retireStation_eq_none hst st), fun h => h, by simp, fun _ _ => rfl⟩
  | some st =>
    obtain ⟨hopen, hbest⟩ := retireStation_spec hst
    have hnodup : wants.Nodup := (hs.imp ne_of_lt).sublist (List.Sublist.map _ List.filter_sublist)
    obtain ⟨l, hl⟩ := retireBins_asked hnodup hst
    refine ⟨l, hl.orders, fun h => absurd hopen (h st), fun _ => hl.bins, hl.numbers, fun o ho => ?_, hl.others⟩
    obtain ⟨heq, hget⟩ := hl.each o ho
    have hat : o.station = st := by rw [heq]
    rw [hat]
    exact ⟨heq, hopen, hbest, hget⟩

end Sys2Proof.Machine
end

