-- ==== Sys2Proof/Proofs/HandBack.lean ====
section
/-! PROOF. What the trays' choices and the hand-back of placements do (R134, R140 to R142), said once. -/

namespace Sys2Proof.Machine

open Sys2Proof

variable {e : Env} {w y z : Yard} {st : Station}

/-! ## Space orders -/

/-- From `y` to `z` the bins differ in their live orders only. -/
def LiveOnly (y z : Yard) : Prop := ∀ b, ∃ q : Bin → Option Nat, getBin b z = (getBin b y).map fun r => { r with live := q r }

theorem LiveOnly.of_eq (hb : z.bins = y.bins) : LiveOnly y z := fun b => ⟨(·.live), by rw [getBin_congr hb b]; simp⟩

theorem LiveOnly.trans (h : LiveOnly w y) (g : LiveOnly y z) : LiveOnly w z := by
  intro b
  obtain ⟨p, hp⟩ := h b
  obtain ⟨q, hq⟩ := g b
  exact ⟨fun r => q { r with live := p r }, by rw [hq, hp, Option.map_map]; rfl⟩

/-- An update of one bin's live order. -/
theorem liveOnly_modBin (b : Nat) (f : Bin → Option Nat) (y : Yard) : LiveOnly y (modBin b (fun r => { r with live := f r }) y) := by
  intro d
  by_cases hd : d = b
  · rw [hd, getBin_modBin_same]
    exact ⟨f, rfl⟩
  · rw [getBin_modBin_other _ _ _ _ hd]
    exact ⟨(·.live), by simp⟩

/-- From `y` to `z` the queue and the bins differ by new Space orders without picks at the tail, and the outbox by
TrayNoSpace notices there. -/
structure Chosen (y z : Yard) : Prop where
  orders : ∃ l, z.orders = y.orders ++ l ∧ ∀ o ∈ l, o.cls = .space ∧ o.picks = [] ∧ o.retire = false ∧ o.closing = false
  live : LiveOnly y z
  outbox : ∃ l, z.post.outbox = y.post.outbox ++ l ∧ ∀ n ∈ l, n.kind = .trayNoSpace

namespace Chosen

theorem of_eq (ho : z.orders = y.orders) (hb : z.bins = y.bins) (hp : z.post = y.post) : Chosen y z :=
  ⟨⟨[], by rw [ho, List.append_nil], by simp⟩, .of_eq hb,
    ⟨[], by rw [hp, List.append_nil], by simp⟩⟩

theorem refl (y : Yard) : Chosen y y := of_eq rfl rfl rfl

theorem trans (h : Chosen w y) (g : Chosen y z) : Chosen w z := by
  obtain ⟨l, hl, hall⟩ := h.orders
  obtain ⟨m, hm, mall⟩ := g.orders
  obtain ⟨n, hn, nall⟩ := h.outbox
  obtain ⟨k, hk, kall⟩ := g.outbox
  exact ⟨⟨l ++ m, by rw [hm, hl, List.append_assoc], fun o ho => (List.mem_append.1 ho).elim (hall o) (mall o)⟩, h.live.trans g.live,
    ⟨n ++ k, by rw [hk, hn, List.append_assoc], fun o ho => (List.mem_append.1 ho).elim (nall o) (kall o)⟩⟩

theorem then_eq (h : Chosen w y) (ho : z.orders = y.orders) (hb : z.bins = y.bins) (hp : z.post = y.post) : Chosen w z :=
  h.trans (of_eq ho hb hp)

end Chosen

/-- A TrayNoSpace notice joins the outbox or is lost: its area displaces none (R207). -/
theorem notify_trayNoSpace (e : Env) (l : List Fld) (y : Yard) :
    ∃ m, (notify e .trayNoSpace l y).post.outbox = y.post.outbox ++ m ∧ ∀ n ∈ m, n.kind = .trayNoSpace := by
  by_cases h : y.post.outbox.length < 32
  · obtain ⟨n, hn, hk⟩ := notify_kind e .trayNoSpace l y h
    exact ⟨[n], hn, by simpa using hk⟩
  · exact ⟨[], by simp [notify, postPut, h, urgent, noticeArea], by simp⟩

/-- What a Space order made leaves in queue and bins. -/
theorem chosen_createOrder (b : Nat) : Chosen y (createOrder e .space b st [] false none y).1 := by
  have hframe := createOrder_frame e .space b st [] false none y
  refine ⟨?_, (LiveOnly.of_eq rfl).trans (liveOnly_modBin b _ _), ⟨[], by rw [hframe, List.append_nil], by simp⟩⟩
  unfold createOrder
  dsimp only
  rw [modBin_frame]
  exact ⟨_, rfl, by simp⟩

/-- A space-bin choice makes at most a Space order, and says in a notice that it finds none. -/
theorem chosen_spaceChoice (e : Env) (st : Station) (y : Yard) : Chosen y (spaceChoice e st y) := by
  unfold spaceChoice
  extract_lets t
  split
  · split
    next c _ =>
      split
      · exact .of_eq rfl rfl rfl
      · exact (chosen_createOrder c.bin).then_eq rfl rfl rfl
    next =>
      split
      · exact .refl y
      · obtain ⟨m, hm, hall⟩ := notify_trayNoSpace e [.u1 (stationNo st), .u2 (waitingCount t), .u2 (trayNeed t),
          .u1 ((smallestWidth t).getD 0)] (modTray st (fun t => { t with noSpace := true }) y)
        exact ⟨⟨[], (List.append_nil _).symm, by simp⟩, .of_eq rfl, m, hm, hall⟩
  · exact .refl y

/-- A choice changes a tray in its Space order and its two marks, and no other tray. -/
theorem spaceChoice_trays (e : Env) (st : Station) (y : Yard) :
    ∃ n m f, (spaceChoice e st y).trays = y.trays.set st { y.trays[st] with spaceOrder := n, noSpace := m, refusedFull := f } := by
  have hsame : y.trays = y.trays.set st y.trays[st] := (Vector.set_getElem_self _).symm
  unfold spaceChoice
  extract_lets t
  split
  · split
    next c _ =>
      split
      · exact ⟨_, _, _, rfl⟩
      · have hframe := congrArg Yard.trays (createOrder_frame e .space c.bin st [] false none y)
        exact ⟨_, _, _, congrArg (fun v : Vector Tray 4 => v.set st { v[st] with
          spaceOrder := some (createOrder e .space c.bin st [] false none y).2, noSpace := false, refusedFull := false }) hframe⟩
    · split
      · exact ⟨_, _, _, hsame⟩
      · exact ⟨_, _, _, rfl⟩
  · exact ⟨_, _, _, hsame⟩

/-! ## A station's tray through a hand-back -/

/-- What a tray's hand-backs keep: the list's items but for states that become Waiting, the other trays, and of queue and
bins all but new Space orders; with demand active or out of Normal, those too. -/
structure Handed (e : Env) (st : Station) (y z : Yard) : Prop where
  chosen : Chosen y z
  contents : z.trays[st].items.map (fun i => (i.item, i.width, i.stamp)) = y.trays[st].items.map fun i => (i.item, i.width, i.stamp)
  others : ∀ d : Station, d ≠ st → z.trays[d] = y.trays[d]
  waits : ∀ i ∈ z.trays[st].items, i.st = .waiting ∨ ∃ j ∈ y.trays[st].items, j.item = i.item ∧ j.st = i.st
  idle : e.wing ≠ .normal ∨ y.trays[st].demand = true →
    z.orders = y.orders ∧ z.bins = y.bins ∧ z.trays[st].demand = y.trays[st].demand

namespace Handed

theorem of_eq (ht : z.trays = y.trays) (ho : z.orders = y.orders) (hb : z.bins = y.bins) (hp : z.post = y.post) : Handed e st y z :=
  ⟨.of_eq ho hb hp, by rw [ht], fun _ _ => by rw [ht], fun i hi => .inr ⟨i, by rwa [← ht], rfl, rfl⟩, fun _ => ⟨ho, hb, by rw [ht]⟩⟩

theorem refl (y : Yard) : Handed e st y y := of_eq rfl rfl rfl rfl

theorem trans (h : Handed e st w y) (g : Handed e st y z) : Handed e st w z := by
  refine ⟨h.chosen.trans g.chosen, g.contents.trans h.contents, fun d hd => (g.others d hd).trans (h.others d hd), fun i hi => ?_,
    fun hi => ?_⟩
  · rcases g.waits i hi with hw | ⟨j, hj, hitem, hst⟩
    · exact .inl hw
    · rcases h.waits j hj with hw | ⟨k, hk, hitem', hst'⟩
      · exact .inl (hst ▸ hw)
      · exact .inr ⟨k, hk, hitem'.trans hitem, hst'.trans hst⟩
  · obtain ⟨ho, hb, hd⟩ := h.idle hi
    obtain ⟨ho', hb', hd'⟩ := g.idle (hi.imp_right (hd.trans ·))
    exact ⟨ho'.trans ho, hb'.trans hb, hd'.trans hd⟩

/-- An item found Waiting stays so. -/
theorem waiting (h : Handed e st y z) {c : ItemCode} (hc : ∀ i ∈ y.trays[st].items, i.item = c → i.st = .waiting) :
    ∀ i ∈ z.trays[st].items, i.item = c → i.st = .waiting := by
  intro i hi hitem
  rcases h.waits i hi with hw | ⟨j, hj, hitem', hst⟩
  · exact hw
  · exact hst ▸ hc j hj (hitem'.trans hitem)

end Handed

/-- An update of a tray that keeps the items, but for states that become Waiting, and the demand. -/
theorem handed_modItem {c : ItemCode} {f : TrayItem → TrayItem} (hf : ∀ i, (f i).item = i.item ∧ (f i).width = i.width ∧ (f i).stamp = i.stamp)
    (hst : ∀ i, (f i).st = .waiting ∨ (f i).st = i.st) : Handed e st y (modItem st c f y) := by
  have ht : (modItem st c f y).trays[st] = { y.trays[st] with items := y.trays[st].items.map fun i => if i.item = c then f i else i } :=
    (modTray_get _ y st).trans (if_pos rfl)
  refine ⟨.of_eq rfl rfl rfl, ?_, fun d hd => (modTray_get _ y d).trans (if_neg fun h => hd h.symm), fun i hi => ?_,
    fun _ => ⟨rfl, rfl, by rw [ht]⟩⟩
  · rw [ht, List.map_map]
    refine List.map_congr_left fun i _ => ?_
    obtain ⟨h1, h2, h3⟩ := hf i
    simp only [Function.comp]
    split
    · rw [h1, h2, h3]
    · rfl
  · rw [ht] at hi
    obtain ⟨j, hj, rfl⟩ := List.mem_map.1 hi
    split
    · exact (hst j).imp_right fun h => ⟨j, hj, (hf j).1.symm, h.symm⟩
    · exact .inr ⟨j, hj, rfl, rfl⟩

theorem handed_demandEdge (e : Env) (st : Station) (y : Yard) : Handed e st y (demandEdge e st y) := by
  unfold demandEdge
  split
  next hedge =>
    obtain ⟨n, m, f, ht⟩ := spaceChoice_trays e st (beginDemand st y)
    have hitems : (spaceChoice e st (beginDemand st y)).trays[st].items = y.trays[st].items := by
      rw [ht]
      simp [beginDemand]
    refine ⟨(Chosen.of_eq rfl rfl rfl : Chosen y (beginDemand st y)).trans (chosen_spaceChoice e st _), by rw [hitems], fun d hd => ?_,
      fun i hi => .inr ⟨i, by rwa [← hitems], rfl, rfl⟩, fun hidle => ?_⟩
    · rw [ht, vset_get, if_neg fun h => hd h.symm]
      exact (modTray_get _ y d).trans (if_neg fun h => hd h.symm)
    · rw [edgeTaken] at hedge
      simp only [Bool.and_eq_true, decide_eq_true_eq, Bool.not_eq_true'] at hedge
      exact (hidle.elim (fun h => h hedge.1.1) fun h => Bool.noConfusion (h.symm.trans hedge.2)).elim
  next => exact .refl y

theorem handed_showStation (d : Station) (y : Yard) : Handed e st y (showStation d y) := by
  rw [showStation_frame]
  exact .of_eq rfl rfl rfl rfl

theorem handed_markLimit (e : Env) (st : Station) (c : ItemCode) (y : Yard) : Handed e st y (markLimit e st c y) := by
  have hmark : Handed e st y (modItem st c (fun i => { i with mark := true }) y) :=
    handed_modItem (fun _ => ⟨rfl, rfl, rfl⟩) fun _ => .inr rfl
  exact hmark.trans (handed_demandEdge e st _)

/-- The parts of the yard that an edge of demand can touch. -/
def EdgeOnly (y z : Yard) : Prop := ∃ b o n t p, z = { y with bins := b, orders := o, nextOrder := n, trays := t, post := p }

theorem EdgeOnly.trans (h : EdgeOnly w y) (g : EdgeOnly y z) : EdgeOnly w z := by
  obtain ⟨_, _, _, _, _, rfl⟩ := h
  obtain ⟨b, o, n, t, p, rfl⟩ := g
  exact ⟨b, o, n, t, p, rfl⟩

theorem EdgeOnly.refl (y : Yard) : EdgeOnly y y := ⟨_, _, _, _, _, rfl⟩

theorem edgeOnly_modItem (c : ItemCode) (f : TrayItem → TrayItem) (y : Yard) : EdgeOnly y (modItem st c f y) := ⟨_, _, _, _, _, rfl⟩

theorem edgeOnly_demandEdge (e : Env) (st : Station) (y : Yard) : EdgeOnly y (demandEdge e st y) := by
  unfold demandEdge
  split
  · exact ⟨_, _, _, _, _, spaceChoice_frame e st (beginDemand st y)⟩
  · exact .refl y

theorem edgeOnly_markLimit (e : Env) (st : Station) (c : ItemCode) (y : Yard) : EdgeOnly y (markLimit e st c y) :=
  (edgeOnly_modItem c _ y).trans (edgeOnly_demandEdge e st _)

/-- The first placement of a session leaves it, and its item waits again. -/
def placementBack (st : Station) (p : Placement) (y : Yard) : Yard :=
  modItem st p.item (fun i => { i with st := .waiting })
    (modSession st (fun s => { s with placements := s.placements.drop 1 }) y)

/-- The demand test that a hand-back ends with. -/
def backEdges (e : Env) (st : Station) (p : Placement) (before : Nat) (y : Yard) : Yard :=
  let z := if (y.trays[st].items.any fun i => i.item = p.item && !i.mark && waitedLimit e i) then markLimit e st p.item y else y
  if countRose e before z.trays[st] then demandEdge e st z else z

theorem handBack_eq (e : Env) (st : Station) (p : Placement) (y : Yard) :
    handBack e st p y = backEdges e st p (waitingCount y.trays[st]) (showStation st (placementBack st p y)) := rfl

/-- The demand test touches what an edge touches, and keeps what a hand-back keeps. -/
theorem backEdges_keeps (e : Env) (st : Station) (p : Placement) (n : Nat) (y : Yard) :
    Handed e st y (backEdges e st p n y) ∧ EdgeOnly y (backEdges e st p n y) := by
  unfold backEdges
  extract_lets z
  have hz : Handed e st y z ∧ EdgeOnly y z := by
    unfold z
    split
    · exact ⟨handed_markLimit .., edgeOnly_markLimit ..⟩
    · exact ⟨.refl y, .refl y⟩
  split
  · exact ⟨hz.1.trans (handed_demandEdge ..), hz.2.trans (edgeOnly_demandEdge ..)⟩
  · exact hz

theorem handed_placementBack (e : Env) (st : Station) (p : Placement) (y : Yard) : Handed e st y (placementBack st p y) := by
  have hsession : Handed e st y (modSession st (fun s => { s with placements := s.placements.drop 1 }) y) := .of_eq rfl rfl rfl rfl
  exact hsession.trans (handed_modItem (fun _ => ⟨rfl, rfl, rfl⟩) fun _ => .inl rfl)

theorem handed_handBack (e : Env) (st : Station) (p : Placement) (y : Yard) : Handed e st y (handBack e st p y) := by
  rw [handBack_eq]
  exact ((handed_placementBack e st p y).trans (handed_showStation st _)).trans (backEdges_keeps ..).1

/-- The item of a placement handed back waits. -/
theorem handBack_waits (e : Env) (st : Station) (p : Placement) (y : Yard) :
    ∀ i ∈ (handBack e st p y).trays[st].items, i.item = p.item → i.st = .waiting := by
  have ht : (placementBack st p y).trays[st].items = y.trays[st].items.map fun i => if i.item = p.item then { i with st := .waiting } else i :=
    congrArg Tray.items ((modTray_get (fun t => { t with items := t.items.map fun i => if i.item = p.item then { i with st := .waiting } else i })
      y st).trans (if_pos rfl))
  have hback : ∀ i ∈ (placementBack st p y).trays[st].items, i.item = p.item → i.st = .waiting := by
    rw [ht]
    intro i hi hitem
    obtain ⟨j, -, rfl⟩ := List.mem_map.1 hi
    by_cases h : j.item = p.item
    · rw [if_pos h]
    · rw [if_neg h] at hitem
      exact absurd hitem h
  rw [handBack_eq]
  exact (backEdges_keeps ..).1.waiting ((handed_showStation (e := e) st _).waiting hback)

/-! ## Every placement handed back -/

theorem handed_handBacks (l : List Placement) (y : Yard) : Handed e st y (l.foldl (fun y p => handBack e st p y) y)
    ∧ ∀ p ∈ l, ∀ i ∈ (l.foldl (fun y p => handBack e st p y) y).trays[st].items, i.item = p.item → i.st = .waiting := by
  induction l generalizing y with
  | nil => exact ⟨.refl y, by simp⟩
  | cons p t ih =>
    obtain ⟨hrest, hwaits⟩ := ih (handBack e st p y)
    refine ⟨(handed_handBack e st p y).trans hrest, fun q hq => ?_⟩
    rcases List.mem_cons.1 hq with rfl | hq
    · exact hrest.waiting (handBack_waits e st q y)
    · exact hwaits q hq

/-- A display's update changes what its station shows. -/
theorem showStation_stations (st : Station) (y : Yard) :
    (showStation st y).stations = y.stations.set st { y.stations[st] with shown := displayOf st y } := by
  unfold showStation
  split
  next h =>
    rw [h]
    exact (Vector.set_getElem_self _).symm
  next => rfl

/-- What a hand-back at a station changes beside the tray's edges: the session's placements and the display. -/
structure BackOnly (st : Station) (y z : Yard) : Prop where
  frame : z = { y with bins := z.bins, orders := z.orders, nextOrder := z.nextOrder, trays := z.trays, post := z.post
                       stations := z.stations, bus := z.bus }
  station : ∀ (v : Vector StationRec 4) (w : StationRec) (x : Session), y.stations = v.set st { w with session := some x } →
    ∃ d, z.stations = v.set st { w with session := some { x with placements := x.placements.drop 1 }, shown := d }

theorem backOnly_handBack (e : Env) (st : Station) (p : Placement) (y : Yard) : BackOnly st y (handBack e st p y) := by
  rw [handBack_eq]
  obtain ⟨b, o, n, t, q, heq⟩ := (backEdges_keeps e st p (waitingCount y.trays[st]) (showStation st (placementBack st p y))).2
  rw [heq]
  refine ⟨?_, fun v w x hy => ⟨displayOf st (placementBack st p y), ?_⟩⟩
  · rw [showStation_frame]
    rfl
  · show (showStation st (placementBack st p y)).stations = _
    have hback : (placementBack st p y).stations = v.set st { w with session := some { x with placements := x.placements.drop 1 } } := by
      show y.stations.set st { y.stations[st] with session := y.stations[st].session.map _ } = _
      rw [hy]
      simp
    rw [showStation_stations, hback]
    simp

theorem backOnly_handBacks (l : List Placement) (y : Yard) {v : Vector StationRec 4} {w : StationRec} {x : Session}
    (hy : y.stations = v.set st { w with session := some x }) :
    let z := l.foldl (fun y p => handBack e st p y) y
    z = { y with bins := z.bins, orders := z.orders, nextOrder := z.nextOrder, trays := z.trays, post := z.post
                 stations := z.stations, bus := z.bus }
    ∧ ∃ d, z.stations = v.set st { w with session := some { x with placements := x.placements.drop l.length }, shown := d }
      ∧ (l = [] → d = w.shown) := by
  induction l generalizing y w x with
  | nil => exact ⟨rfl, w.shown, hy, fun _ => rfl⟩
  | cons p t ih =>
    obtain ⟨hframe, hst⟩ := backOnly_handBack e st p y
    obtain ⟨d, hd⟩ := hst v w x hy
    obtain ⟨hrest, d', hd', -⟩ := ih (handBack e st p y) (w := { w with shown := d }) hd
    refine ⟨?_, d', ?_, fun h => absurd h (by simp)⟩
    · rw [List.foldl_cons, hrest, hframe]
    · rw [List.foldl_cons, hd', List.drop_drop, List.length_cons, Nat.add_comm]

end Sys2Proof.Machine
end

