-- ==== Sys2Proof/Proofs/Retire.lean ====
section
/-! PROOF. Retire (R11): the mark, the flag of the live order, and the bin's session (R124). -/

namespace Sys2Proof.Machine

open Sys2Proof

variable {e : Env} {y z : Yard} {st : Station} {x : Session} {s : State}

/-! ## An order's close -/

theorem edgeOnly_trayOrderLeft (e : Env) (no : Nat) (st : Station) (y : Yard) : EdgeOnly y (trayOrderLeft e no st y) :=
  ⟨_, _, _, _, _, trayOrderLeft_frame e no st y⟩

theorem chosen_trayOrderLeft (e : Env) (no : Nat) (st : Station) (y : Yard) : Chosen y (trayOrderLeft e no st y) := by
  unfold trayOrderLeft
  split
  · exact (Chosen.of_eq rfl rfl rfl : Chosen y (modTray st (fun t => { t with spaceOrder := none }) y)).trans (chosen_spaceChoice ..)
  · split
    · exact chosen_spaceChoice ..
    · exact .refl y

/-- With no demand a tray that hears of an order's leaving chooses nothing. -/
theorem trayOrderLeft_noDemand (no : Nat) (hd : ∀ d : Station, y.trays[d].demand = false) :
    (trayOrderLeft e no st y).orders = y.orders ∧ ∀ d : Station, (trayOrderLeft e no st y).trays[d].demand = false := by
  have hidle (w : Yard) (hw : w.trays[st].demand = false) : spaceChoice e st w = w :=
    spaceChoice_idle e st w fun h => by rw [hw] at h; cases h
  have hclear (d : Station) : (modTray st (fun t => { t with spaceOrder := none }) y).trays[d].demand = false := by
    rw [modTray_get]
    split
    · exact hd d
    · exact hd d
  unfold trayOrderLeft
  split
  · rw [hidle _ (hclear st)]
    exact ⟨rfl, hclear⟩
  · split
    · rw [hidle y (hd st)]
      exact ⟨rfl, hd⟩
    · exact ⟨rfl, hd⟩

/-- What the trays do upon an order's leaving. -/
theorem traysOrderLeft_spec (e : Env) (no : Nat) (y : Yard) : EdgeOnly y (traysOrderLeft e no y) ∧ Chosen y (traysOrderLeft e no y)
    ∧ ((∀ d : Station, y.trays[d].demand = false) → (traysOrderLeft e no y).orders = y.orders) := by
  unfold traysOrderLeft
  induction stationList generalizing y with
  | nil => exact ⟨.refl y, .refl y, fun _ => rfl⟩
  | cons st t ih =>
    obtain ⟨hedge, hchosen, hnone⟩ := ih (trayOrderLeft e no st y)
    refine ⟨(edgeOnly_trayOrderLeft ..).trans hedge, (chosen_trayOrderLeft ..).trans hchosen, fun hd => ?_⟩
    obtain ⟨ho, hd'⟩ := trayOrderLeft_noDemand (e := e) (st := st) no hd
    exact (hnone hd').trans ho

theorem liveOnly_dropOrder (no : Nat) (y : Yard) : LiveOnly y (dropOrder no y) := by
  unfold dropOrder
  extract_lets w
  have hw : LiveOnly y w := by
    unfold w
    split
    next o _ =>
      have hf : (fun r : Bin => if r.live = some no then { r with live := none } else r)
          = fun r => { r with live := if r.live = some no then none else r.live } := by
        funext r
        split <;> rfl
      rw [hf]
      exact liveOnly_modBin _ _ y
    next => exact .of_eq rfl
  exact hw.trans (.of_eq rfl)

/-- The yard with an order counted and out of the queue (R88). -/
def orderClosed (no : Nat) (o : Order) (y : Yard) : Yard :=
  dropOrder no (modOrder no (fun q => { q with counts := some (pickCounts o.picks) }) y)

theorem closeOrder_eq {no : Nat} {o : Order} (e : Env) (ho : orderOf no y = some o) : ∃ items,
    closeOrder e no y = traysOrderLeft e no (notify e .orderDone items (orderClosed no o y)) :=
  ⟨_, by rw [closeOrder, ho]; rfl⟩

theorem orderClosed_orders (no : Nat) (o : Order) (y : Yard) :
    (orderClosed no o y).orders = y.orders.filter fun z => z.no ≠ no := by
  rw [orderClosed, dropOrder_orders]
  show (y.orders.map _).filter _ = _
  induction y.orders with
  | nil => rfl
  | cons q t ih => by_cases hq : q.no = no <;> simp_all

/-- An order that closes leaves the queue with OrderDone, and then the trays choose (R88, R141). -/
theorem closeOrder_spec {no : Nat} {o : Order} (ho : orderOf no y = some o) :
    EdgeOnly y (closeOrder e no y) ∧ LiveOnly y (closeOrder e no y)
    ∧ (∃ l, (closeOrder e no y).orders = y.orders.filter (fun z => z.no ≠ no) ++ l ∧ ∀ z ∈ l, z.cls = .space ∧ z.picks = [])
    ∧ ((∀ d : Station, y.trays[d].demand = false) → (closeOrder e no y).orders = y.orders.filter fun z => z.no ≠ no)
    ∧ (y.post.outbox.length < 32 → ∃ n l, (closeOrder e no y).post.outbox = y.post.outbox ++ n :: l
        ∧ n.kind = .orderDone ∧ ∀ m ∈ l, m.kind = .trayNoSpace) := by
  obtain ⟨items, hclose⟩ := closeOrder_eq e ho
  let w := orderClosed no o y
  have hframe : w = { y with bins := w.bins, orders := w.orders } := by
    simp only [w, orderClosed]
    rw [dropOrder_frame]
    rfl
  have hedge : EdgeOnly y w := ⟨_, _, _, _, _, hframe⟩
  have hlive : LiveOnly y w := LiveOnly.trans (.of_eq rfl) (liveOnly_dropOrder no _)
  have horders : w.orders = y.orders.filter fun z => z.no ≠ no := orderClosed_orders no o y
  obtain ⟨hleft, ⟨⟨l, hl, hspace⟩, hlive', m, hm, hkind⟩, hnone⟩ := traysOrderLeft_spec e no (notify e .orderDone items w)
  rw [hclose]
  refine ⟨hedge.trans (EdgeOnly.trans ⟨_, _, _, _, _, notify_frame e .orderDone items w⟩ hleft), (hlive.trans (.of_eq rfl)).trans hlive',
    ⟨l, ?_, fun z hz => ⟨(hspace z hz).1, (hspace z hz).2.1⟩⟩, fun hd => ?_, fun hroom => ?_⟩
  · rw [hl, ← horders]
    rfl
  · rw [← horders]
    refine hnone fun d => ?_
    show w.trays[d].demand = false
    rw [hframe]
    exact hd d
  · have hpost : w.post = y.post := by rw [hframe]
    obtain ⟨n, hn, hk⟩ := notify_kind e .orderDone items w (by rwa [hpost])
    exact ⟨n, m, by rw [hm, hn, hpost, List.append_assoc]; rfl, hk, hkind⟩

theorem closeOrder_only (e : Env) (no : Nat) (y : Yard) : EdgeOnly y (closeOrder e no y) ∧ LiveOnly y (closeOrder e no y) := by
  cases ho : orderOf no y with
  | none =>
    rw [closeOrder, ho]
    exact ⟨.refl y, .of_eq rfl⟩
  | some o => exact ⟨(closeOrder_spec ho).1, (closeOrder_spec ho).2.1⟩

/-! ## What Retire marks -/

/-- The yard with a bin marked for retirement and its live order flagged (R11, R78). -/
def retireMarked (b : Nat) (r : Bin) (y : Yard) : Yard :=
  { putBin b { r with retirePending := true } y with
    orders := y.orders.map fun o => if r.live = some o.no then { o with retire := true } else o }

theorem retireMarked_eq (b : Nat) (r : Bin) (y : Yard) :
    (match r.live with
      | some no => modOrder no (fun o => { o with retire := true }) (putBin b { r with retirePending := true } y)
      | none => putBin b { r with retirePending := true } y) = retireMarked b r y := by
  unfold retireMarked
  cases r.live with
  | none => simp [putBin]
  | some no => simp only [modOrder, Option.some.injEq, eq_comm (a := no)]; rfl

theorem getBin_retireMarked (b d : Nat) (r : Bin) (y : Yard) :
    getBin d (retireMarked b r y) = if d = b then some { r with retirePending := true } else getBin d y := by
  split
  next h => rw [h]; exact getBin_putBin_same ..
  next h => exact getBin_putBin_other _ _ _ _ h

/-- Live orders aside, a bin marked for retirement is all that changes in the bin table. -/
theorem LiveOnly.upToMark {b : Nat} {r : Bin} (hr : getBin b y = some r) (h : LiveOnly (retireMarked b r y) z) :
    ∀ d, ∃ q, getBin d z = (getBin d y).map fun r => { r with
      retirePending := if d = b then true else r.retirePending, live := q } := by
  intro d
  obtain ⟨q, hq⟩ := h d
  rw [hq, getBin_retireMarked]
  by_cases hd : d = b
  · rw [if_pos hd, hd, hr]
    exact ⟨q { r with retirePending := true }, by simp⟩
  · rw [if_neg hd]
    cases hget : getBin d y with
    | none => exact ⟨none, rfl⟩
    | some t => exact ⟨q t, by simp [hd]⟩

/-- The order of a number is found, flagged or not, in the marked yard. -/
theorem orderOf_retireMarked {b no : Nat} {r : Bin} {o : Order} (h : orderOf no y = some o) :
    ∃ q, orderOf no (retireMarked b r y) = some q := by
  refine Option.isSome_iff_exists.1 ?_
  rw [orderOf, List.find?_isSome]
  obtain ⟨hmem, hno⟩ := orderOf_mem h
  refine ⟨_, List.mem_map_of_mem hmem, ?_⟩
  split <;> simpa using hno

/-! ## The bin's session -/

theorem displayOf_showStation (st : Station) (y : Yard) : displayOf st (showStation st y) = displayOf st y := by
  have h : (showStation st y).stations[st].present = y.stations[st].present
      ∧ (showStation st y).stations[st].session = y.stations[st].session := by
    rw [showStation_stations]
    simp
  have hframe := showStation_frame st y
  unfold displayOf
  rw [h.1, h.2, hframe]
  rfl

theorem station_eq (hs : y.stations[st].session = some x) :
    y.stations = y.stations.set st { y.stations[st] with session := some x } := by
  rw [← hs]
  exact (Vector.set_getElem_self _).symm

/-- An Open session hands its placements back and is armed (R124, R134). -/
theorem retireSession_open (hs : y.stations[st].session = some x) (hr : x.releasing = false) :
    retireSession e st y = armSession st (x.placements.foldl (fun y p => handBack e st p y) y) := by
  rw [retireSession, hs]
  dsimp only
  rw [if_neg (by simp [hr]), handBackAll, hs]

theorem armSession_stations {v : Vector StationRec 4} {w : StationRec} (h : y.stations = v.set st { w with session := some x }) :
    (armSession st y).stations = v.set st { w with session := some { x with armed := true } } := by
  show y.stations.set st { y.stations[st] with session := y.stations[st].session.map _ } = _
  rw [h]
  simp

theorem retireSession_inFlight (hs : y.stations[st].session = some x) (hr : x.releasing = true) (hl : st ∉ y.lines.releaseList) :
    retireSession e st y = { y with stations := y.stations.set st { y.stations[st] with session := some { x with armed := true } } } := by
  rw [retireSession, hs]
  dsimp only
  rw [if_pos hr, if_neg (by simpa using hl)]
  unfold armSession modSession modStation
  dsimp only
  rw [hs]
  rfl

/-- The yard without a session, its station out of the release list. -/
def sessionOut (st : Station) (y : Yard) : Yard := modStation st (fun r => { r with session := none }) (leaveRelease st y)

/-- The bin's session has closed without a transfer: its order, if it has one, closes. -/
def sessionClosed (e : Env) (st : Station) (x : Session) (y : Yard) : Yard :=
  match x.order with
  | some no => closeOrder e no (sessionOut st y)
  | none => sessionOut st y

theorem sessionClosed_only (e : Env) (st : Station) (x : Session) (y : Yard) :
    EdgeOnly (sessionOut st y) (sessionClosed e st x y) ∧ LiveOnly (sessionOut st y) (sessionClosed e st x y) := by
  unfold sessionClosed
  split
  · exact closeOrder_only ..
  · exact ⟨.refl _, .of_eq rfl⟩

theorem retireSession_waiting (hs : y.stations[st].session = some x) (hr : x.releasing = true) (hl : st ∈ y.lines.releaseList) :
    retireSession e st y = showStation st (sessionClosed e st x y) := by
  rw [retireSession, hs]
  dsimp only
  rw [if_pos hr, if_pos (by simpa using hl), closeSession]
  rw [show (leaveRelease st y).stations[st].session = some x from hs]
  rfl

/-! ## The statement -/

/-- Retire marks the bin and then acts on its session (R11, R124). -/
theorem retireAct_marks {b : Nat} {r : Bin} (hr : getBin b s.yard = some r) (hst : r.st ≠ .retired) (hp : r.retirePending = false) :
    retireAct b s = ({ s with yard := match sessionOfBin b s.yard with
      | some st => retireSession (envOf s) st (retireMarked b r s.yard)
      | none => retireMarked b r s.yard }, some (.ok, [])) := by
  rw [retireAct, hr]
  dsimp only
  rw [if_neg hst, if_neg (by simp [hp])]
  exact congrArg (fun y => replyWith .ok [] { s with yard := match sessionOfBin b y with
    | some st => retireSession (envOf s) st y
    | none => y }) (retireMarked_eq b r s.yard)

theorem retire_completes {h : ReqHdr} {b : Nat} {y : Yard} (hT : Taken h s)
    (hact : retireAct b (entered (reqCode .retire) h s) = ({ entered (reqCode .retire) h s with yard := y }, some (.ok, []))) :
    Completes (.retire h b) s { clearBus s with yard := y, link := answeredLink 0x0A h .ok [] s.link } :=
  request_answered (k := .retire) (t := { entered (reqCode .retire) h s with yard := y }) hT hact rfl

/-- Settles O22: Retire by the bin's record and its session, and the Retire course. -/
theorem retireSetsPending : Obligations.RetireSetsPending := by
  refine ⟨fun h b s hT => ⟨?taken, fun r hr hst hp => ?again, fun hno => ?unknown⟩, retireCourse_spec⟩
  case again =>
    refine request_answered (k := .retire) (t := entered (reqCode .retire) h s) hT ?_ rfl
    rw [retireAct, show getBin b (entered (reqCode .retire) h s).yard = some r from hr]
    dsimp only
    rw [if_neg hst, if_pos hp]
    rfl
  case unknown =>
    refine request_refused (k := .retire) hT ?_
    rw [retireAct]
    cases hget : getBin b (entered (reqCode .retire) h s).yard with
    | none => rfl
    | some r => exact if_pos (hno r hget)
  case taken =>
    intro r hr hst hp flagged done marked added upToLive
    let y : Yard := { s.yard with bus := [] }
    have hr' : getBin b y = some r := hr
    have hact := retireAct_marks (s := entered (reqCode .retire) h s) hr hst hp
    have hmarks : ∀ d, getBin d (retireMarked b r y) = if d = b then some { r with retirePending := true } else getBin d s.yard :=
      fun d => getBin_retireMarked b d r y
    have hcompletes (z : Yard) (hz : (match sessionOfBin b s.yard with
        | some st => retireSession (envOf s) st (retireMarked b r y)
        | none => retireMarked b r y) = z) :
        Completes (.retire h b) s { clearBus s with yard := z, link := answeredLink 0x0A h .ok [] s.link } :=
      retire_completes hT (hact.trans (by rw [← hz]; rfl))
    constructor
    · intro hnone
      exact ⟨_, ⟨hcompletes (retireMarked b r y) (by rw [hnone]), ⟨rfl, rfl, rfl, rfl, rfl, rfl⟩, rfl, rfl, ⟨rfl, rfl, rfl⟩⟩,
        ⟨(hmarks b).trans (if_pos rfl), fun d hd => (hmarks d).trans (if_neg hd)⟩, rfl, ⟨rfl, rfl, rfl⟩, rfl⟩
    intro st x hses hs becomes
    have hsession (z : Yard) (hz : retireSession (envOf s) st (retireMarked b r y) = z) :
        Completes (.retire h b) s { clearBus s with yard := z, link := answeredLink 0x0A h .ok [] s.link } :=
      hcompletes z (by rw [hses]; exact hz)
    have hs' : (retireMarked b r y).stations[st].session = some x := hs
    refine ⟨fun hrel => ?_, fun hrel hlist => ?_, fun hrel hlist => ?_⟩
    · obtain ⟨hframe, d, hd, hsame⟩ := backOnly_handBacks (e := envOf s) x.placements (retireMarked b r y) (station_eq hs')
      obtain ⟨hhanded, hwaits⟩ := handed_handBacks (e := envOf s) (st := st) x.placements (retireMarked b r y)
      rw [List.drop_length] at hd
      refine ⟨_, d, ⟨hsession _ (retireSession_open hs' hrel), ⟨rfl, rfl, rfl, rfl, rfl, rfl⟩, rfl, (congrArg Yard.cells hframe :),
        ⟨(congrArg Yard.carriers hframe :), (congrArg Yard.arbs hframe :), (congrArg Yard.est hframe :)⟩⟩,
        hhanded.chosen.orders, hhanded.chosen.live.upToMark hr', (congrArg Yard.lines hframe :), ?_, fun hidle => ?_, hsame, hwaits,
        hhanded.contents, hhanded.others⟩
      · exact armSession_stations (w := { s.yard.stations[st] with shown := d }) hd
      · have hkept : (x.placements.foldl (fun y p => handBack (envOf s) st p y) (retireMarked b r y)).orders = flagged
            ∧ (x.placements.foldl (fun y p => handBack (envOf s) st p y) (retireMarked b r y)).bins = (retireMarked b r y).bins := by
          rcases hidle with hnil | hidle
          · rw [hnil]
            exact ⟨rfl, rfl⟩
          · obtain ⟨ho, hb, -⟩ := hhanded.idle hidle
            exact ⟨ho, hb⟩
        exact ⟨⟨(getBin_congr hkept.2 b).trans ((hmarks b).trans (if_pos rfl)),
          fun d hd => (getBin_congr hkept.2 d).trans ((hmarks d).trans (if_neg hd))⟩, hkept.1⟩
    · exact ⟨_, ⟨hsession _ (retireSession_inFlight hs' hrel hlist), ⟨rfl, rfl, rfl, rfl, rfl, rfl⟩, rfl, rfl, ⟨rfl, rfl, rfl⟩⟩,
        ⟨(hmarks b).trans (if_pos rfl), fun d hd => (hmarks d).trans (if_neg hd)⟩, rfl, rfl, rfl, rfl⟩
    · let z := sessionClosed (envOf s) st x (retireMarked b r y)
      obtain ⟨⟨bins, orders, n, trays, post, hz⟩, hlive⟩ := sessionClosed_only (envOf s) st x (retireMarked b r y)
      have hshow := showStation_frame st z
      have hzst : z.stations = s.yard.stations.set st { s.yard.stations[st] with session := none } := (congrArg Yard.stations hz :)
      refine ⟨_, ⟨hsession _ (retireSession_waiting hs' hrel hlist), ⟨rfl, rfl, rfl, rfl, rfl, rfl⟩, rfl, ?_, ⟨?_, ?_, ?_⟩⟩, ?_, ?_, ?_,
        fun hnone => ?_, fun no o hno ho => ?_⟩
      · exact (congrArg Yard.cells hshow :).trans (congrArg Yard.cells hz :)
      · exact (congrArg Yard.carriers hshow :).trans (congrArg Yard.carriers hz :)
      · exact (congrArg Yard.arbs hshow :).trans (congrArg Yard.arbs hz :)
      · exact (congrArg Yard.est hshow :).trans (congrArg Yard.est hz :)
      · show (showStation st z).stations = s.yard.stations.set st { s.yard.stations[st] with
          session := none, shown := displayOf st (showStation st z) }
        rw [displayOf_showStation, showStation_stations, hzst]
        simp
      · exact (congrArg Yard.lines hshow :).trans (congrArg Yard.lines hz :)
      · refine LiveOnly.upToMark hr' (LiveOnly.trans (LiveOnly.trans (.of_eq rfl) hlive) ?_)
        exact .of_eq (congrArg Yard.bins hshow :)
      · have hout : z = sessionOut st (retireMarked b r y) := by simp only [z, sessionClosed, hnone]
        exact ⟨(congrArg Yard.orders hshow :).trans (congrArg Yard.orders hout :),
          (congrArg Yard.trays hshow :).trans (congrArg Yard.trays hout :),
          (congrArg Yard.post hshow :).trans (congrArg Yard.post hout :)⟩
      · have hclose : z = closeOrder (envOf s) no (sessionOut st (retireMarked b r y)) := by simp only [z, sessionClosed, hno]
        obtain ⟨q, hq⟩ := orderOf_retireMarked (b := b) (r := r) (y := y) ho
        obtain ⟨-, -, hleft, hnone, hpost⟩ := closeOrder_spec (e := envOf s) (y := sessionOut st (retireMarked b r y)) hq
        rw [← hclose] at hleft hnone hpost
        have ho : (showStation st z).orders = z.orders := (congrArg Yard.orders hshow :)
        have hp : (showStation st z).post = z.post := (congrArg Yard.post hshow :)
        rw [← ho] at hleft hnone
        rw [← hp] at hpost
        exact ⟨hleft, hnone, hpost⟩

end Sys2Proof.Machine
end

