-- ==== Sys2Proof/Proofs/Beside.lean ====
section
/-! PROOF. What goes on beside a report: orders return to evaluation, tasks and sessions end, trays choose (R81, R85,
R126). None of it moves a bin. -/

namespace Sys2Proof.Machine

open Sys2Proof

variable {e : Env} {w y z : Yard}

/-- From `y` to `z` no bin moves: records differ in live orders only, the lines, the loads and the station places hold the
bins they held, and no cell changes but one that was Reserved. -/
structure Beside (e : Env) (y z : Yard) : Prop where
  live : LiveOnly y z
  disc : z.disc = y.disc
  lines : z.lines = { y.lines with mergeList := z.lines.mergeList, releaseList := z.lines.releaseList }
  loads : ∀ a : Aisle, z.carriers[a].load = y.carriers[a].load
  next : ∀ st : Station, z.stations[st].next = y.stations[st].next
  present : ∀ st : Station, z.stations[st].present = y.stations[st].present
  sorted : KSorted y.cells → KSorted z.cells
  settled : ∀ x, (∀ b p, getCell e x y ≠ .reserved b p) → getCell e x z = getCell e x y

namespace Beside

theorem refl (y : Yard) : Beside e y y :=
  ⟨.of_eq rfl, rfl, rfl, fun _ => rfl, fun _ => rfl, fun _ => rfl, id, fun _ _ => rfl⟩

theorem trans (h : Beside e w y) (g : Beside e y z) : Beside e w z where
  live := h.live.trans g.live
  disc := g.disc.trans h.disc
  lines := by rw [g.lines, h.lines]
  loads a := (g.loads a).trans (h.loads a)
  next st := (g.next st).trans (h.next st)
  present st := (g.present st).trans (h.present st)
  sorted hs := g.sorted (h.sorted hs)
  settled x hx := (g.settled x fun b p => by rw [h.settled x hx]; exact hx b p).trans (h.settled x hx)

/-- What neither map, lines, carriers nor stations show. -/
theorem of_live (hb : LiveOnly y z) (hd : z.disc = y.disc) (hl : z.lines = y.lines) (hc : z.carriers = y.carriers)
    (hs : z.stations = y.stations) (hcells : z.cells = y.cells) : Beside e y z where
  live := hb
  disc := hd
  lines := by rw [hl]
  loads _ := by rw [hc]
  next _ := by rw [hs]
  present _ := by rw [hs]
  sorted h := by rwa [hcells]
  settled _ _ := by unfold getCell; rw [hcells]

/-- What an edge of demand can touch, with live orders only in the bins. -/
theorem of_edge (h : EdgeOnly y z) (hb : LiveOnly y z) : Beside e y z := by
  obtain ⟨_, _, _, _, _, rfl⟩ := h
  exact of_live hb rfl rfl rfl rfl rfl

/-- An update of a station that keeps its places. -/
theorem modStation {st : Station} {f : StationRec → StationRec} (hf : ∀ r, (f r).next = r.next ∧ (f r).present = r.present) :
    Beside e y (modStation st f y) where
  live := .of_eq rfl
  disc := rfl
  lines := rfl
  loads _ := rfl
  next d := by
    show (y.stations.set st (f y.stations[st]))[d].next = _
    rw [vset_get]
    split
    next h => rw [← h]; exact (hf _).1
    next => rfl
  present d := by
    show (y.stations.set st (f y.stations[st]))[d].present = _
    rw [vset_get]
    split
    next h => rw [← h]; exact (hf _).2
    next => rfl
  sorted := id
  settled _ _ := rfl

theorem showStation (st : Station) (y : Yard) : Beside e y (showStation st y) := by
  unfold Machine.showStation
  split
  · exact refl y
  · exact (modStation (f := fun r => { r with shown := displayOf st y }) fun _ => ⟨rfl, rfl⟩).trans (of_live (.of_eq rfl) rfl rfl rfl rfl rfl)

theorem modSession (st : Station) (f : Session → Session) (y : Yard) : Beside e y (modSession st f y) :=
  modStation fun _ => ⟨rfl, rfl⟩

theorem modOrder (no : Nat) (f : Order → Order) (y : Yard) : Beside e y (modOrder no f y) := of_live (.of_eq rfl) rfl rfl rfl rfl rfl

theorem modLists (f : Lines → Lines) (hf : f y.lines = { y.lines with mergeList := (f y.lines).mergeList, releaseList := (f y.lines).releaseList }) :
    Beside e y (modLines f y) :=
  ⟨.of_eq rfl, rfl, hf, fun _ => rfl, fun _ => rfl, fun _ => rfl, id, fun _ _ => rfl⟩

theorem modCarrier {a : Aisle} {f : Carrier → Carrier} (hf : ∀ c, (f c).load = c.load) : Beside e y (modCarrier a f y) where
  live := .of_eq rfl
  disc := rfl
  lines := rfl
  loads d := by
    rw [modCarrier_get]
    split
    · exact hf _
    · rfl
  next _ := rfl
  present _ := rfl
  sorted := id
  settled _ _ := rfl

theorem foldl {α : Type} (l : List α) {f : Yard → α → Yard} (hf : ∀ y a, Beside e y (f y a)) : Beside e y (l.foldl f y) := by
  induction l generalizing y with
  | nil => exact refl y
  | cons a t ih => exact (hf y a).trans ih

/-! ## Orders and trays -/

theorem closeOrder (no : Nat) (y : Yard) : Beside e y (closeOrder e no y) :=
  of_edge (closeOrder_only e no y).1 (closeOrder_only e no y).2

theorem removeOrder (no : Nat) (y : Yard) : Beside e y (removeOrder e no y) := by
  obtain ⟨hedge, hchosen, -⟩ := traysOrderLeft_spec e no (dropOrder no y)
  have hdrop : Beside e y (dropOrder no y) := of_edge ⟨_, _, _, _, _, dropOrder_frame no y⟩ (liveOnly_dropOrder no y)
  exact hdrop.trans (of_edge hedge hchosen.live)

theorem evalOrder (no : Nat) (y : Yard) : Beside e y (evalOrder e no y) := by
  unfold Machine.evalOrder
  split
  · exact refl y
  · split
    · extract_lets st n
      have hn : Beside e y n := of_live (.of_eq rfl) rfl rfl rfl rfl rfl
      split
      · exact refl y
      · split
        · exact hn.trans (removeOrder no n)
        · exact hn
    · exact refl y

theorem evalOrders (y : Yard) : Beside e y (evalOrders e y) := foldl _ fun y no => evalOrder no y

/-! ## A task taken from its carrier (R85) -/

/-- A released reservation concerns no other record: two addresses of one code read the same. -/
theorem releaseCell (a : CellAddr) (y : Yard) : Beside e y (releaseCell e a y) := by
  unfold Machine.releaseCell
  split
  next hres =>
    have hframe := setCell_frame e a .empty y
    refine ⟨.of_eq (by rw [hframe]), by rw [hframe], by rw [hframe], fun _ => by rw [hframe], fun _ => by rw [hframe],
      fun _ => by rw [hframe], KSorted_setCell e a .empty y, fun x hx => ?_⟩
    by_cases hin : inGeometry e.cfg.geometry x = true
    · have hne : cellCode x ≠ cellCode a := by
        intro heq
        have hina : inGeometry e.cfg.geometry a = true := by
          by_contra h
          simp [getCell, h] at hres
        rw [getCell, if_pos hina] at hres
        rw [getCell, if_pos hin, heq, hres] at hx
        exact hx _ _ rfl
      rw [getCell, getCell, if_pos hin, if_pos hin, kget_setCell_other _ _ _ _ _ hne]
    · rw [getCell, getCell, if_neg hin, if_neg hin]
  next => exact refl y

theorem releaseTask (a : Aisle) (t : Option Task) (y : Yard) : Beside e y (releaseTask e a t y) := by
  unfold Machine.releaseTask
  split
  · split
    · exact refl y
    · exact releaseCell _ y
  · exact refl y

theorem dropRetrieve (no : Nat) (a : Aisle) (y : Yard) : Beside e y (dropRetrieve e no a y) := by
  unfold Machine.dropRetrieve
  extract_lets c
  split
  · refine ((releaseTask a _ y).trans (modLists _ rfl)).trans (modCarrier fun c => ?_)
    rw [freeCarrier_load]
  · split
    · refine (releaseTask a _ y).trans (modCarrier fun c => ?_)
      rw [freeCarrier_load]
    · exact refl y

theorem orderToQueue (no : Nat) (y : Yard) : Beside e y (orderToQueue no y) := modOrder no _ y

theorem reportedOrder (b : Nat) (y : Yard) : Beside e y (reportedOrder e b y) := by
  unfold Machine.reportedOrder
  split
  · exact refl y
  · extract_lets kept w
    have hw : Beside e y w := by
      unfold w
      split
      · exact modOrder _ _ y
      · exact orderToQueue _ y
    exact hw.trans (foldl _ fun y a => dropRetrieve _ a y)

/-! ## A session that ends (R126) -/

theorem handBackAll (st : Station) (y : Yard) : Beside e y (handBackAll e st y) := by
  unfold Machine.handBackAll
  split
  · exact refl y
  · refine foldl _ fun y p => ?_
    rw [handBack_eq]
    have hback : Beside e y (placementBack st p y) := (modSession st _ y).trans (of_live (.of_eq rfl) rfl rfl rfl rfl rfl)
    obtain ⟨hhanded, hedge⟩ := backEdges_keeps e st p (waitingCount y.trays[st]) (Machine.showStation st (placementBack st p y))
    exact (hback.trans (showStation st _)).trans (of_edge hedge hhanded.chosen.live)

theorem unserveEach (st : Station) (no n : Nat) (y : Yard) : Beside e y (unserveEach st no n y) := by
  induction n generalizing y with
  | zero => exact refl y
  | succ n ih => exact ((modOrder no _ y).trans (showStation st _)).trans (ih _)

theorem closeSession (st : Station) (y : Yard) : Beside e y (closeSession e st y) := by
  unfold Machine.closeSession
  split
  · exact refl y
  · extract_lets z
    have hz : Beside e y z := modStation fun _ => ⟨rfl, rfl⟩
    split
    · exact hz.trans (closeOrder _ z)
    · exact hz

theorem removeSession (st : Station) (y : Yard) : Beside e y (removeSession e st y) := by
  unfold Machine.removeSession
  split
  · exact refl y
  next s _ =>
    have hwork : Beside e y (dropWork e st s y) := by
      unfold dropWork
      split
      · exact (unserveEach st _ _ y).trans (handBackAll st _)
      · exact handBackAll st y
    exact (hwork.trans (modLists _ rfl)).trans (closeSession st _)

end Beside

end Sys2Proof.Machine
end

