-- ==== Sys2Proof/Proofs/Reported.lean ====
section
/-! PROOF. What a reported bin leaves in the records: of its own, and of the others (R25, R102). -/

namespace Sys2Proof.Machine

open Sys2Proof

variable {e : Env} {b c : Nat} {w y z : Yard}

/-! ## Relations between the yards before and after -/

/-- A bin's record is as it was but for its live order. -/
def LiveAt (b : Nat) (y z : Yard) : Prop := ∃ q : Bin → Option Nat, getBin b z = (getBin b y).map fun r => { r with live := q r }

theorem LiveAt.trans (h : LiveAt b w y) (g : LiveAt b y z) : LiveAt b w z := by
  obtain ⟨p, hp⟩ := h
  obtain ⟨q, hq⟩ := g
  exact ⟨fun r => q { r with live := p r }, by rw [hq, hp, Option.map_map]; rfl⟩

theorem LiveAt.of_eq (h : getBin b z = getBin b y) : LiveAt b y z := ⟨(·.live), by rw [h]; simp⟩

/-- A recorded bin has come to a place of the state `st`: of its record nothing else changes, but that one Retired may have
RetirePending set (R25). -/
def Becomes (b : Nat) (st : BinSt) (aisle : Option Aisle) (station : Option Station) (y z : Yard) : Prop :=
  ∀ r, getBin b y = some r → ∃ l p, (r.st ≠ .retired → p = r.retirePending)
    ∧ getBin b z = some { r with st := st, cell := none, aisle := aisle, station := station, live := l, retirePending := p }

section

variable {st : BinSt} {aisle : Option Aisle} {station : Option Station}

theorem Becomes.before (g : Becomes b st aisle station y z) (h : LiveAt b w y) : Becomes b st aisle station w z := by
  intro r hr
  obtain ⟨p, hp⟩ := h
  exact g { r with live := p r } (by rw [hp, hr]; rfl)

theorem Becomes.after (g : Becomes b st aisle station w y) (h : LiveAt b y z) : Becomes b st aisle station w z := by
  intro r hr
  obtain ⟨l, p, hp, hq⟩ := g r hr
  obtain ⟨f, hf⟩ := h
  exact ⟨_, p, hp, by rw [hf, hq]; rfl⟩

/-- The record a bin has come to, as the obligation says it. -/
theorem Becomes.record (h : Becomes b st aisle station y z) : ∀ r, getBin b y = some r → ∃ q, getBin b z = some q
    ∧ q = { r with
      st := st, cell := none, aisle := aisle, station := station, live := q.live
      retirePending := if r.st = .retired then q.retirePending else r.retirePending } := by
  intro r hr
  obtain ⟨l, p, hp, hq⟩ := h r hr
  refine ⟨_, hq, ?_⟩
  by_cases hst : r.st = .retired
  · simp [hst]
  · simp [hst, hp hst]

end

/-- A bin is no longer where it was, and no other bin has moved. -/
structure Away (e : Env) (y z : Yard) : Prop where
  live : LiveOnly y z
  disc : z.disc = y.disc
  del : z.lines.del = y.lines.del
  ret : z.lines.ret = y.lines.ret
  places : ∀ c p, At c p z → At c p y
  sorted : KSorted y.cells → KSorted z.cells
  settled : ∀ x, (∀ b p, getCell e x y ≠ .reserved b p) → getCell e x z = getCell e x y

theorem Away.trans (h : Away e w y) (g : Away e y z) : Away e w z where
  live := h.live.trans g.live
  disc := g.disc.trans h.disc
  del := g.del.trans h.del
  ret := g.ret.trans h.ret
  places c p hp := h.places c p (g.places c p hp)
  sorted hs := g.sorted (h.sorted hs)
  settled x hx := (g.settled x fun b p => by rw [h.settled x hx]; exact hx b p).trans (h.settled x hx)

theorem Away.refl (y : Yard) : Away e y y := ⟨.of_eq rfl, rfl, rfl, rfl, fun _ _ => id, id, fun _ _ => rfl⟩

theorem Beside.away (h : Beside e y z) : Away e y z where
  live := h.live
  disc := h.disc
  del := by rw [h.lines]
  ret := by rw [h.lines]
  places c p hp := by
    cases p with
    | fork a => rw [at_fork, h.loads] at hp; exact at_fork.2 hp
    | delivery => rw [at_delivery, h.lines] at hp; exact at_delivery.2 hp
    | ret => rw [at_ret, h.lines] at hp; exact at_ret.2 hp
    | inbound a => rw [at_inbound, h.lines] at hp; exact at_inbound.2 hp
    | next st => rw [at_next, h.next] at hp; exact at_next.2 hp
    | present st => rw [at_present, h.present] at hp; exact at_present.2 hp
  sorted := h.sorted
  settled := h.settled

/-- Only one bin has been found, taken or placed. -/
structure Elsewhere (b : Nat) (y z : Yard) : Prop where
  live : ∀ c, c ≠ b → LiveAt c y z
  found : ∀ c, c ≠ b → foundAt c z = foundAt c y
  disc : z.disc = { y.disc with found := z.disc.found, conflicts := z.disc.conflicts }
  del : z.lines.del = y.lines.del
  ret : z.lines.ret = y.lines.ret
  places : ∀ c, c ≠ b → ∀ p, At c p z → At c p y

theorem Elsewhere.trans (h : Elsewhere b w y) (g : Elsewhere b y z) : Elsewhere b w z where
  live c hc := (h.live c hc).trans (g.live c hc)
  found c hc := (g.found c hc).trans (h.found c hc)
  disc := by rw [g.disc, h.disc]
  del := g.del.trans h.del
  ret := g.ret.trans h.ret
  places c hc p hp := h.places c hc p (g.places c hc p hp)

theorem Elsewhere.refl (y : Yard) : Elsewhere b y y :=
  ⟨fun _ _ => .of_eq rfl, fun _ _ => rfl, rfl, rfl, rfl, fun _ _ _ => id⟩

theorem Away.elsewhere (h : Away e y z) : Elsewhere b y z where
  live c _ := h.live c
  found c _ := by rw [foundAt, foundAt, h.disc]
  disc := by rw [h.disc]
  del := h.del
  ret := h.ret
  places c _ := h.places c

/-- A report conflicts only with a place where the bin still stands. -/
theorem reportConflict_mono {p : Place} (hlive : LiveAt c y z) (hfound : foundAt c z = foundAt c y) (hleft : z.disc.left = y.disc.left)
    (hsilent : z.disc.silent = y.disc.silent) (hplaces : ∀ q, At c q z → At c q y) (hy : reportConflict c p y = false) :
    reportConflict c p z = false := by
  have hstart : startReport p z = startReport p y := by rw [startReport, startReport, discovering, discovering, hleft, hsilent]
  rw [reportConflict, hstart, hfound]
  rw [reportConflict] at hy
  revert hy
  cases startReport p y with
  | false => exact fun _ => rfl
  | true =>
    cases foundAt c y with
    | none => exact fun _ => rfl
    | some q =>
      obtain ⟨f, hf⟩ := hlive
      simp only [Bool.true_and, standsAt, hf]
      cases hplace : placeHolds c z q with
      | false => simp
      | true =>
        rw [hplaces q hplace]
        cases getBin c y with
        | none => exact id
        | some r => exact id

/-- A report of another bin makes no conflict. -/
theorem Elsewhere.conflict (h : Elsewhere b y z) (hc : c ≠ b) {p : Place} (hy : reportConflict c p y = false) :
    reportConflict c p z = false :=
  reportConflict_mono (h.live c hc) (h.found c hc) (by rw [h.disc]) (by rw [h.disc]) (h.places c hc) hy

/-! ## A bin taken from its places -/

theorem away_modStation {st : Station} {b : Nat} (y : Yard) :
    Away e y (modStation st (fun r => { r with next := emptyPlace b r.next, present := emptyPlace b r.present }) y) where
  live := .of_eq rfl
  disc := rfl
  del := rfl
  ret := rfl
  places c p hp := by
    cases p with
    | next d =>
      rw [at_next] at hp ⊢
      simp only [modStation, vset_get] at hp
      split at hp
      next h => rw [← h]; exact (emptyPlace_bin hp).1
      next => exact hp
    | present d =>
      rw [at_present] at hp ⊢
      simp only [modStation, vset_get] at hp
      split at hp
      next h => rw [← h]; exact (emptyPlace_bin hp).1
      next => exact hp
    | _ => exact hp
  sorted := id
  settled _ _ := rfl

/-- Of the lines a bin's leaving a station touches the arbiters' lists. -/
def ListsKept (y z : Yard) : Prop := z.lines = { y.lines with mergeList := z.lines.mergeList, releaseList := z.lines.releaseList }

theorem ListsKept.trans (h : ListsKept w y) (g : ListsKept y z) : ListsKept w z := by
  unfold ListsKept at *
  rw [g, h]

theorem takeFromStation_away (b : Nat) (st : Station) (y : Yard) :
    Away e y (takeFromStation e b st y) ∧ ListsKept y (takeFromStation e b st y) := by
  unfold takeFromStation
  extract_lets y1 was y2
  have h1 : Beside e y y1 := by
    unfold y1
    split
    · split
      · exact .removeSession st y
      · exact .refl y
    · exact .refl y
  have h2 : Away e y y2 := h1.away.trans (away_modStation y1)
  have l2 : ListsKept y y2 := h1.lines
  split
  · exact ⟨h2, l2⟩
  · have h3 : Beside e y2 (showStation st y2) := .showStation st y2
    exact ⟨h2.trans h3.away, l2.trans h3.lines⟩

/-- The yard with a bin off its forks and out of the lines' lists. -/
def offLines (b : Nat) (y : Yard) : Yard :=
  modLines (fun l => { l with
    delivery := l.delivery.filter (fun p => p.bin ≠ b), returns := l.returns.filter (fun p => p.bin ≠ b)
    inbound := l.inbound.map fun p => if p = some b then none else p })
    { y with carriers := y.carriers.map fun c => if c.load = some b then { c with load := none } else c }

theorem offLines_away (b : Nat) (y : Yard) : Away e y (offLines b y) where
  live := .of_eq rfl
  disc := rfl
  del := rfl
  ret := rfl
  places c p hp := by
    cases p with
    | fork a =>
      rw [at_fork] at hp ⊢
      simp only [offLines, modLines, vmap_get] at hp
      split at hp
      · cases hp
      · exact hp
    | delivery => rw [at_delivery] at hp ⊢; exact (List.filter_sublist.map _).subset hp
    | ret => rw [at_ret] at hp ⊢; exact (List.filter_sublist.map _).subset hp
    | inbound a =>
      rw [at_inbound] at hp ⊢
      simp only [offLines, modLines, vmap_get] at hp
      split at hp
      · cases hp
      · exact hp
    | _ => exact hp
  sorted := id
  settled _ _ := rfl

/-- A bin taken from every place: it leaves the lines' lists, and no other bin moves. -/
theorem takeFromPlaces_away (b : Nat) (y : Yard) :
    Away e y (takeFromPlaces e b y) ∧ ListsKept (offLines b y) (takeFromPlaces e b y) := by
  have hfold : ∀ (l : List Station) (w : Yard), Away e w (l.foldl (fun y st => takeFromStation e b st y) w)
      ∧ ListsKept w (l.foldl (fun y st => takeFromStation e b st y) w) := by
    intro l
    induction l with
    | nil => exact fun w => ⟨.refl w, rfl⟩
    | cons st t ih =>
      intro w
      obtain ⟨h1, l1⟩ := takeFromStation_away (e := e) b st w
      obtain ⟨h2, l2⟩ := ih (takeFromStation e b st w)
      exact ⟨h1.trans h2, l1.trans l2⟩
  obtain ⟨h, l⟩ := hfold stationList (offLines b y)
  exact ⟨(offLines_away b y).trans h, l⟩

/-! ## A bin placed -/

theorem ensureBin_frame (b : Nat) (y : Yard) :
    ensureBin b y = { y with bins := (ensureBin b y).bins, journal := (ensureBin b y).journal } := by
  unfold ensureBin
  dsimp only
  split
  · rw [attrChange_frame]
    rfl
  · split
    · rw [attrChange_frame]
      rfl
    · rfl

theorem getBin_ensureBin_other (h : c ≠ b) (y : Yard) : getBin c (ensureBin b y) = getBin c y := by
  unfold ensureBin
  split
  · exact (getBin_attrChange b c _).trans (getBin_putBin_other _ _ _ _ h)
  · split
    · exact (getBin_attrChange b c _).trans (getBin_putBin_other _ _ _ _ h)
    · rfl

theorem getBin_ensureBin_some {r : Bin} (h : getBin b y = some r) : getBin b (ensureBin b y)
    = some (if r.st = .retired then
        { r with st := .unverified, cell := none, aisle := none, station := none, retirePending := true } else r) := by
  unfold ensureBin
  rw [h]
  dsimp only
  split
  · exact (getBin_attrChange b b _).trans (getBin_putBin_same _ _ _)
  · exact h

theorem leaveCell_frame (b : Nat) (c : Cell) (y : Yard) :
    leaveCell e b c y = { y with cells := (leaveCell e b c y).cells, journal := (leaveCell e b c y).journal } := by
  unfold leaveCell
  split
  · exact setCell_frame ..
  · rfl

/-- A bin that has left its places has its record made: its cell no longer names it as standing there, and the record takes
the new place. -/
def recordAt (e : Env) (b : Nat) (st : BinSt) (aisle : Option Aisle) (station : Option Station) (y : Yard) : Yard :=
  modBin b (fun r => placed r st none aisle station) (ensureBin b (leaveCell e b (.unverified (some b)) y))

theorem placeReported_eq (b : Nat) (p : Place) (st : BinSt) (aisle : Option Aisle) (station : Option Station) (put : Yard → Yard)
    (y : Yard) : placeReported e b p st aisle station put y
      = evalOrders e (noteFound b p (reportedOrder e b (put (recordAt e b st aisle station (takeFromPlaces e b y))))) := rfl

theorem getBin_leaveCell (b d : Nat) (c : Cell) (y : Yard) : getBin d (leaveCell e b c y) = getBin d y := by
  rw [leaveCell_frame]
  rfl

section

variable {st : BinSt} {aisle : Option Aisle} {station : Option Station}

/-- Making a record touches bins, cells and journal. -/
theorem recordAt_frame (b : Nat) (st : BinSt) (aisle : Option Aisle) (station : Option Station) (y : Yard) :
    ∃ bins cells journal, recordAt e b st aisle station y = { y with bins := bins, cells := cells, journal := journal } := by
  have hleave : ∃ c j, leaveCell e b (.unverified (some b)) y = { y with cells := c, journal := j } := ⟨_, _, leaveCell_frame ..⟩
  unfold recordAt
  obtain ⟨c, j, hleave⟩ := hleave
  rw [hleave]
  have hensure : ∃ l j', ensureBin b { y with cells := c, journal := j } = { y with cells := c, bins := l, journal := j' } :=
    ⟨_, _, ensureBin_frame ..⟩
  obtain ⟨l, j', hensure⟩ := hensure
  rw [hensure]
  exact ⟨_, _, _, modBin_frame ..⟩

theorem recordAt_elsewhere : Elsewhere b y (recordAt e b st aisle station y) := by
  obtain ⟨bins, cells, journal, hframe⟩ := recordAt_frame (e := e) b st aisle station y
  refine ⟨fun c hc => .of_eq ?_, fun c _ => by rw [hframe]; rfl, by rw [hframe], by rw [hframe], by rw [hframe], fun c _ p hp => ?_⟩
  · unfold recordAt
    rw [getBin_modBin_other _ _ _ _ hc, getBin_ensureBin_other hc, getBin_leaveCell]
  · rw [hframe] at hp
    cases p <;> exact hp

theorem recordAt_becomes : Becomes b st aisle station y (recordAt e b st aisle station y) := by
  intro r hr
  have hget : getBin b (leaveCell e b (.unverified (some b)) y) = some r := (getBin_leaveCell ..).trans hr
  unfold recordAt
  rw [getBin_modBin_same, getBin_ensureBin_some hget]
  split
  next hret => exact ⟨r.live, true, fun h => absurd hret h, rfl⟩
  next => exact ⟨r.live, r.retirePending, fun _ => rfl, rfl⟩

/-- The cell that a reported bin was Stored in no longer names it as standing there. -/
theorem recordAt_cell {x : CellAddr} (hst : storedCell b y = some x) (hs : KSorted y.cells) (hx : getCell e x y = .occupied b) :
    getCell e x (recordAt e b st aisle station y) = .unverified (some b) := by
  have hcells : (recordAt e b st aisle station y).cells = (setCell e x (.unverified (some b)) y).cells := by
    unfold recordAt
    rw [modBin_frame]
    dsimp only
    rw [ensureBin_cells, leaveCell, hst]
  unfold getCell
  rw [hcells]
  exact getCell_setCell_same e x (.unverified (some b)) y hs (by rw [hx]; simp) (by simp)

end

/-- The cell a bin is Stored in, by a record that differs in its live order. -/
theorem LiveAt.storedCell (h : LiveAt b y z) : storedCell b z = storedCell b y := by
  obtain ⟨q, hq⟩ := h
  unfold Machine.storedCell
  rw [hq]
  cases getBin b y <;> rfl

/-! ## A bin found -/

theorem foundAt_noteFound (p : Place) (hc : c ≠ b) (y : Yard) : foundAt c (noteFound b p y) = foundAt c y := by
  unfold noteFound
  split
  · show ((withFound b p y.disc.found).find? fun q => q.1 = c).map (·.2) = _
    unfold withFound
    split
    · rw [foundAt]
      induction y.disc.found with
      | nil => rfl
      | cons q t ih =>
        by_cases hq : q.1 = c
        · have hqb : q.1 ≠ b := hq ▸ hc
          rw [List.map_cons, if_neg hqb, List.find?_cons_of_pos (by simpa using hq), List.find?_cons_of_pos (by simpa using hq)]
        · have hq' : ¬(if q.1 = b then (b, p) else q).1 = c := by
            split
            · exact hc.symm
            · exact hq
          rw [List.map_cons, List.find?_cons_of_neg (by simpa using hq'), List.find?_cons_of_neg (a := q) (by simpa using hq)]
          exact ih
    · rw [List.find?_append]
      simp [hc.symm, foundAt]
  · rfl

theorem noteFound_elsewhere (b : Nat) (p : Place) (y : Yard) : Elsewhere b y (noteFound b p y) := by
  have hframe : ∃ l, noteFound b p y = { y with disc := { y.disc with found := l } } := by
    unfold noteFound
    split
    · exact ⟨_, rfl⟩
    · exact ⟨_, rfl⟩
  obtain ⟨l, hl⟩ := hframe
  refine ⟨fun c _ => .of_eq (by rw [hl]; rfl), fun c hc => foundAt_noteFound p hc y, by rw [hl], by rw [hl], by rw [hl], fun c _ q hq => ?_⟩
  rw [hl] at hq
  cases q <;> exact hq

/-- What follows the place's record keeps what the record says: the order, the note, the evaluations. -/
theorem settled_report (b : Nat) (p : Place) (y : Yard) :
    let z := evalOrders e (noteFound b p (reportedOrder e b y))
    Elsewhere b y z ∧ LiveAt b y z ∧ ListsKept y z ∧ ∀ x, (∀ b p, getCell e x y ≠ .reserved b p) → getCell e x z = getCell e x y := by
  intro z
  have hv : Beside e y (reportedOrder e b y) := .reportedOrder b _
  generalize hv' : reportedOrder e b y = v at hv
  have hnote : ∃ l, noteFound b p v = { v with disc := { v.disc with found := l } } := by
    unfold noteFound
    split
    · exact ⟨_, rfl⟩
    · exact ⟨_, rfl⟩
  obtain ⟨l, hl⟩ := hnote
  have hz : Beside e (noteFound b p v) z := by
    have := Beside.evalOrders (e := e) (noteFound b p v)
    rwa [← hv'] at this ⊢
  refine ⟨(hv.away.elsewhere.trans (noteFound_elsewhere b p v)).trans hz.away.elsewhere,
    LiveAt.trans (hv.live b) (LiveAt.trans (.of_eq (by rw [hl]; rfl)) (hz.live b)), ?_, fun x hx => ?_⟩
  · have hlines := hz.lines
    rw [hl] at hlines
    exact ListsKept.trans (y := v) hv.lines hlines
  · have hxv := hv.settled x hx
    have hxn : getCell e x (noteFound b p v) = getCell e x y := by rw [hl]; exact hxv
    exact (hz.settled x fun c q => by rw [hxn]; exact hx c q).trans hxn

/-- What a report that places a bin leaves, the place recorded by an update of the lines' lists. -/
theorem placeReported_spec (b : Nat) (p : Place) (st : BinSt) (aisle : Option Aisle) (station : Option Station) (f : Lines → Lines)
    (y : Yard) (hf : ∀ w : Yard, Elsewhere b w (modLines f w)) :
    let z := placeReported e b p st aisle station (modLines f) y
    Elsewhere b y z ∧ Becomes b st aisle station y z
    ∧ (∃ w : Yard, ListsKept (offLines b y) w ∧ ListsKept (modLines f w) z)
    ∧ ∀ x, storedCell b y = some x → KSorted y.cells → getCell e x y = .occupied b → getCell e x z = .unverified (some b) := by
  intro z
  obtain ⟨htake, hlists⟩ := takeFromPlaces_away (e := e) b y
  obtain ⟨v, hv⟩ : ∃ v, v = takeFromPlaces e b y := ⟨_, rfl⟩
  rw [← hv] at htake hlists
  have hrec : Elsewhere b v (recordAt e b st aisle station v) := recordAt_elsewhere
  obtain ⟨hafter, hlive, hkept, hcell⟩ := settled_report (e := e) b p (modLines f (recordAt e b st aisle station v))
  have hz : z = evalOrders e (noteFound b p (reportedOrder e b (modLines f (recordAt e b st aisle station v)))) := by
    rw [hv]
    exact placeReported_eq ..
  rw [← hz] at hafter hlive hkept hcell
  refine ⟨((htake.elsewhere.trans hrec).trans (hf _)).trans hafter,
    ((recordAt_becomes.before (htake.live b)).after (.of_eq rfl)).after hlive, ⟨recordAt e b st aisle station v, ?_, hkept⟩,
    fun x hst hs hx => ?_⟩
  · obtain ⟨_, _, _, hframe⟩ := recordAt_frame (e := e) b st aisle station v
    rw [hframe]
    exact hlists
  · have hx' : getCell e x v = .occupied b := (htake.settled x (by rw [hx]; simp)).trans hx
    have hw : getCell e x (modLines f (recordAt e b st aisle station v)) = .unverified (some b) :=
      recordAt_cell ((LiveAt.storedCell (htake.live b)).trans hst) (htake.sorted hs) hx'
    exact (hcell x (by rw [hw]; simp)).trans hw

end Sys2Proof.Machine
end

