-- ==== Sys2Proof/Proofs/DeliveryReported.lean ====
section
/-! PROOF. The delivery drive's contents report (R102). -/

namespace Sys2Proof.Machine

open Sys2Proof

variable {e : Env} {b c : Nat} {w y z : Yard}

/-! ## Before the bins: transfers cut, the list empty -/

/-- Cut transfers give stations back to the release list, and nothing else (R94, R99). -/
theorem cutTransfers_frame (l : LineId) (y : Yard) : ∃ r, cutTransfers l y
    = modLines (fun n => { n with releaseList := r }) (modLine l (fun r => { r with transfers := [] }) y) := by
  unfold cutTransfers
  extract_lets ts
  generalize modLine l (fun r => { r with transfers := [] }) y = w
  induction ts generalizing w with
  | nil => exact ⟨w.lines.releaseList, rfl⟩
  | cons t ts ih =>
    have hcut : ∃ r, cutTransfer t w = modLines (fun n => { n with releaseList := r }) w := by
      unfold cutTransfer
      split
      · split
        · split
          · exact ⟨_, rfl⟩
          · exact ⟨w.lines.releaseList, rfl⟩
        · exact ⟨w.lines.releaseList, rfl⟩
      · exact ⟨w.lines.releaseList, rfl⟩
    obtain ⟨r, hr⟩ := hcut
    obtain ⟨r', hr'⟩ := ih (cutTransfer t w)
    exact ⟨r', by rw [List.foldl_cons, hr', hr]; rfl⟩

/-! ## Bins lost -/

/-- What a bin's loss leaves (R102). -/
theorem loseBin_spec (b : Nat) (y : Yard) :
    Elsewhere b y (loseBin e b y) ∧ Becomes b .unverified none none y (loseBin e b y) ∧ ListsKept y (loseBin e b y)
    ∧ ∀ x, (∀ b p, getCell e x y ≠ .reserved b p) → getCell e x (loseBin e b y) = getCell e x y := by
  have hafter : Beside e (binLost b none y) (loseBin e b y) := .reportedOrder b _
  have hlost : ∃ l, binLost b none y = { y with bins := l } := ⟨_, modBin_frame ..⟩
  have hbefore : Elsewhere b y (binLost b none y) := by
    refine ⟨fun c hc => .of_eq (getBin_modBin_other _ _ _ _ hc), ?_, ?_, ?_, ?_, ?_⟩
    all_goals obtain ⟨l, hl⟩ := hlost; rw [hl]
    · exact fun _ _ => rfl
    · exact fun _ _ p hp => by cases p <;> exact hp
  have hbecomes : Becomes b .unverified none none y (binLost b none y) := by
    intro r hr
    unfold binLost
    rw [getBin_modBin_same, hr]
    exact ⟨r.live, r.retirePending, fun _ => rfl, rfl⟩
  refine ⟨hbefore.trans hafter.away.elsewhere, hbecomes.after (hafter.live b), ?_, fun x hx => ?_⟩
  · have hlines := hafter.lines
    obtain ⟨l, hl⟩ := hlost
    rw [hl] at hlines
    exact hlines
  · obtain ⟨l, hl⟩ := hlost
    have hsame : getCell e x (binLost b none y) = getCell e x y := by rw [hl]; rfl
    exact (hafter.settled x fun c p => by rw [hsame]; exact hx c p).trans hsame

/-- A bin lost twice is lost. -/
theorem Becomes.trans_unverified (h : Becomes b .unverified none none w y) (g : Becomes b .unverified none none y z) :
    Becomes b .unverified none none w z := by
  intro r hr
  obtain ⟨l, p, hp, hq⟩ := h r hr
  obtain ⟨l', p', hp', hq'⟩ := g _ hq
  exact ⟨l', p', fun hst => (hp' (by simp)).trans (hp hst), hq'⟩

/-- Bins lost in turn. -/
structure Lost (e : Env) (bins : List Nat) (y z : Yard) : Prop where
  others : ∀ c, c ∉ bins → LiveAt c y z
  each : ∀ c ∈ bins, Becomes c .unverified none none y z
  lists : ListsKept y z
  disc : z.disc = { y.disc with found := z.disc.found, conflicts := z.disc.conflicts }
  settled : ∀ x, (∀ b p, getCell e x y ≠ .reserved b p) → getCell e x z = getCell e x y

theorem loseEach (l : List Nat) (y : Yard) : Lost e l y (l.foldl (fun y b => loseBin e b y) y) := by
  induction l generalizing y with
  | nil => exact ⟨fun _ _ => .of_eq rfl, by simp, rfl, rfl, fun _ _ => rfl⟩
  | cons b t ih =>
    obtain ⟨helse, hlost, hlists, hsettled⟩ := loseBin_spec (e := e) b y
    have hrest := ih (loseBin e b y)
    rw [List.foldl_cons]
    refine ⟨fun c hc => ?_, fun c hc => ?_, hlists.trans hrest.lists, by rw [hrest.disc, helse.disc], fun x hx => ?_⟩
    · obtain ⟨hcb, hct⟩ := not_or.1 (List.mem_cons.not.1 hc)
      exact (helse.live c hcb).trans (hrest.others c hct)
    · by_cases hct : c ∈ t
      · by_cases hcb : c = b
        · subst hcb
          exact hlost.trans_unverified (hrest.each c hct)
        · exact (hrest.each c hct).before (helse.live c hcb)
      · obtain rfl : c = b := (List.mem_cons.1 hc).resolve_right hct
        exact hlost.after (hrest.others c hct)
    · exact (hrest.settled x fun b p => by rw [hsettled x hx]; exact hx b p).trans (hsettled x hx)

/-! ## One bin of the report -/

theorem elsewhere_modDelivery {p : DeliveryPlace} (hp : p.bin = b) (y : Yard) :
    Elsewhere b y (modLines (fun l => { l with delivery := l.delivery ++ [p] }) y) where
  live _ _ := .of_eq rfl
  found _ _ := rfl
  disc := rfl
  del := rfl
  ret := rfl
  places c hc q hq := by
    cases q with
    | delivery =>
      rw [at_delivery] at hq ⊢
      simp only [modLines, List.map_append, List.mem_append, List.map_cons, List.map_nil, List.mem_singleton] at hq
      exact hq.resolve_right fun h => hc (h.trans hp)
    | _ => exact hq

theorem noteFound_frame (b : Nat) (p : Place) (y : Yard) : ∃ l, noteFound b p y = { y with disc := { y.disc with found := l } } := by
  unfold noteFound
  split
  · exact ⟨_, rfl⟩
  · exact ⟨_, rfl⟩

/-- A bin of the report joins the list at its tail: with the place it had, or as new. -/
theorem deliveryReported_spec (old : List DeliveryPlace) (hok : binOk b = true) (hno : b ∉ y.lines.delivery.map (·.bin))
    (hconflict : reportConflict b .delivery y = false) :
    let z := deliveryReported e old b y
    ∃ p, z.lines.delivery = y.lines.delivery ++ [p] ∧ p.bin = b ∧ Elsewhere b y z
      ∧ (old.find? (fun q => q.bin = b) = some p
        ∨ old.find? (fun q => q.bin = b) = none ∧ p = ⟨b, deliveryStation e b y, reportSource b y⟩
          ∧ Becomes b .onDelivery none (some p.station) y z
          ∧ ∀ x, storedCell b y = some x → KSorted y.cells → getCell e x y = .occupied b → getCell e x z = .unverified (some b)) := by
  intro z
  have hany : (y.lines.delivery.any fun p => p.bin = b) = false := by
    rw [List.any_eq_false]
    exact fun p hp h => hno (List.mem_map.2 ⟨p, hp, of_decide_eq_true h⟩)
  have hz : z = deliveryReported e old b y := rfl
  unfold deliveryReported at hz
  rw [hok, hany, if_neg (by simp)] at hz
  cases hfind : old.find? (fun q => q.bin = b) with
  | some p =>
    rw [hfind] at hz
    have hpb : p.bin = b := by simpa using List.find?_some hfind
    obtain ⟨l, hl⟩ := noteFound_frame b .delivery (modLines (fun l => { l with delivery := l.delivery ++ [p] }) y)
    refine ⟨p, by rw [hz]; dsimp only; rw [hl]; rfl, hpb, ?_, .inl rfl⟩
    rw [hz]
    exact (elsewhere_modDelivery hpb y).trans (noteFound_elsewhere b .delivery _)
  | none =>
    rw [hfind] at hz
    dsimp only at hz
    rw [hconflict, if_neg (by simp)] at hz
    obtain ⟨helse, hbecomes, ⟨v, hv, hlists⟩, hcell⟩ := placeReported_spec (e := e) b .delivery .onDelivery none (some (deliveryStation e b y))
      (fun l => { l with delivery := l.delivery ++ [⟨b, deliveryStation e b y, reportSource b y⟩] }) y (elsewhere_modDelivery rfl)
    rw [← hz] at helse hbecomes hlists hcell
    refine ⟨_, ?_, rfl, helse, .inr ⟨rfl, rfl, hbecomes, hcell⟩⟩
    have hd : z.lines.delivery = v.lines.delivery ++ [⟨b, deliveryStation e b y, reportSource b y⟩] :=
      (congrArg Lines.delivery hlists :)
    have hvd : v.lines.delivery = y.lines.delivery.filter fun p => p.bin ≠ b := (congrArg Lines.delivery hv :)
    rw [hd, hvd, List.filter_eq_self.2 fun p hp => by simpa using fun h => hno (List.mem_map.2 ⟨p, hp, h⟩)]

/-! ## Every bin of the report -/

/-- Where the report stands after some of its bins. -/
structure DeliveryDone (old : List DeliveryPlace) (done : List Nat) (y z : Yard) : Prop where
  bins : z.lines.delivery.map (·.bin) = done
  each : ∀ p ∈ z.lines.delivery, old.find? (fun q => q.bin = p.bin) = some p
    ∨ old.find? (fun q => q.bin = p.bin) = none ∧ Becomes p.bin .onDelivery none (some p.station) y z ∧ p.source = reportSource p.bin y
  others : ∀ c, c ∉ done → LiveAt c y z
  conflicts : ∀ c, c ∉ done → reportConflict c .delivery y = false → reportConflict c .delivery z = false
  disc : z.disc = { y.disc with found := z.disc.found, conflicts := z.disc.conflicts }
  del : z.lines.del = y.lines.del
  ret : z.lines.ret = y.lines.ret

theorem DeliveryDone.step {old : List DeliveryPlace} {done : List Nat} (h : DeliveryDone old done y w) (hok : binOk b = true)
    (hb : b ∉ done) (hconflict : reportConflict b .delivery y = false) :
    DeliveryDone old (done ++ [b]) y (deliveryReported e old b w) := by
  obtain ⟨p, hd, hpb, helse, hp⟩ := deliveryReported_spec (e := e) old hok (by rw [h.bins]; exact hb) (h.conflicts b hb hconflict)
  have hnot (c : Nat) (hc : c ∉ done ++ [b]) : c ∉ done ∧ c ≠ b := by simpa using hc
  refine ⟨?_, fun q hq => ?_, fun c hc => ?_, fun c hc hcc => ?_, by rw [helse.disc, h.disc], helse.del.trans h.del,
    helse.ret.trans h.ret⟩
  · rw [hd, List.map_append, h.bins, List.map_singleton, hpb]
  · rw [hd] at hq
    rcases List.mem_append.1 hq with hq | hq
    · have hqb : q.bin ≠ b := fun heq => hb (heq ▸ h.bins ▸ List.mem_map_of_mem hq)
      exact (h.each q hq).imp_right fun ⟨hnone, hbec, hsrc⟩ => ⟨hnone, hbec.after (helse.live _ hqb), hsrc⟩
    · rw [List.mem_singleton.1 hq, hpb]
      refine hp.imp_right fun ⟨hnone, heq, hbec, _⟩ => ⟨hnone, hbec.before (h.others b hb), ?_⟩
      rw [heq, reportSource, reportSource, (h.others b hb).storedCell]
  · obtain ⟨hcd, hcb⟩ := hnot c hc
    exact (h.others c hcd).trans (helse.live c hcb)
  · obtain ⟨hcd, hcb⟩ := hnot c hc
    exact helse.conflict hcb (h.conflicts c hcd hcc)

theorem deliveryFold {old : List DeliveryPlace} {done : List Nat} (bins : List Nat) (h : DeliveryDone old done y w)
    (hn : (done ++ bins).Nodup) (hok : ∀ b ∈ bins, binOk b = true) (hconflict : ∀ b ∈ bins, reportConflict b .delivery y = false) :
    DeliveryDone old (done ++ bins) y (bins.foldl (fun y b => deliveryReported e old b y) w) := by
  induction bins generalizing done w with
  | nil => simpa using h
  | cons b t ih =>
    have hassoc : done ++ b :: t = done ++ [b] ++ t := by simp
    have hb : b ∉ done := fun hmem => (List.nodup_append.1 hn).2.2 b hmem b List.mem_cons_self rfl
    rw [List.foldl_cons, hassoc]
    exact ih (h.step (hok b List.mem_cons_self) hb (hconflict b List.mem_cons_self)) (hassoc ▸ hn)
      (fun c hc => hok c (List.mem_cons_of_mem _ hc)) (fun c hc => hconflict c (List.mem_cons_of_mem _ hc))

end Sys2Proof.Machine
end

