-- ==== Sys2Proof/Proofs/ReturnReported.lean ====
section
/-! PROOF. The return drive's contents report (R102). -/

namespace Sys2Proof.Machine

open Sys2Proof

variable {e : Env} {a : Aisle} {b c : Nat} {v w y z : Yard}

/-! ## One bin of the line -/

theorem elsewhere_modReturns {p : ReturnPlace} (hp : p.bin = b) (y : Yard) :
    Elsewhere b y (modLines (fun l => { l with returns := l.returns ++ [p] }) y) where
  live _ _ := .of_eq rfl
  found _ _ := rfl
  disc := rfl
  del := rfl
  ret := rfl
  places c hc q hq := by
    cases q with
    | ret =>
      rw [at_ret] at hq ⊢
      simp only [modLines, List.map_append, List.mem_append, List.map_cons, List.map_nil, List.mem_singleton] at hq
      exact hq.resolve_right fun h => hc (h.trans hp)
    | _ => exact hq

theorem elsewhere_modBin (f : Bin → Bin) (y : Yard) : Elsewhere b y (modBin b f y) := by
  have hframe : ∃ l, modBin b f y = { y with bins := l } := ⟨_, modBin_frame ..⟩
  refine ⟨fun c hc => .of_eq (getBin_modBin_other _ _ _ _ hc), ?_, ?_, ?_, ?_, ?_⟩
  all_goals obtain ⟨l, hl⟩ := hframe; rw [hl]
  · exact fun _ _ => rfl
  · exact fun _ _ p hp => by cases p <;> exact hp

/-- A bin new on the return line is placed as by any other report, with the aisle it is assigned. -/
theorem returnReported_new (b : Nat) (src : Option Aisle) (y : Yard) : ∃ a,
    evalOrders e (noteFound b .ret (reportedOrder e b
      (joinReturn e b src (ensureBin b (leaveCell e b (.unverified (some b)) (takeFromPlaces e b y))))))
    = placeReported e b .ret .onReturn (some a) none (modLines fun l => { l with returns := l.returns ++ [⟨b, a⟩] }) y := by
  obtain ⟨v, hv⟩ : ∃ v, v = ensureBin b (leaveCell e b (.unverified (some b)) (takeFromPlaces e b y)) := ⟨_, rfl⟩
  refine ⟨assignAisle e src v, ?_⟩
  rw [placeReported_eq, recordAt, ← hv]
  exact congrArg (fun w => evalOrders e (noteFound b .ret (reportedOrder e b w)))
    (modBin_comm b (fun r => placed r .onReturn none (some (assignAisle e src v)) none)
      (modLines fun l => { l with returns := l.returns ++ [⟨b, assignAisle e src v⟩] }) v)

/-- A bin of the report joins the return line at its tail. -/
theorem returnReported_spec (old : List ReturnPlace) (hok : binOk b = true) (hno : b ∉ y.lines.returns.map (·.bin))
    (hconflict : reportConflict b .ret y = false) :
    let z := returnReported e old b y
    ∃ p, z.lines.returns = y.lines.returns ++ [p] ∧ p.bin = b ∧ Elsewhere b y z ∧ Becomes b .onReturn (some p.aisle) none y z
      ∧ ((∀ a : Aisle, y.lines.inbound[a] = none) → ∀ a : Aisle, z.lines.inbound[a] = none)
      ∧ (old.find? (fun q => q.bin = b) = some p ∨ old.find? (fun q => q.bin = b) = none) := by
  intro z
  have hany : (y.lines.returns.any fun p => p.bin = b) = false := by
    rw [List.any_eq_false]
    exact fun p hp h => hno (List.mem_map.2 ⟨p, hp, of_decide_eq_true h⟩)
  have hz : z = returnReported e old b y := rfl
  unfold returnReported at hz
  rw [hok, hany, if_neg (by simp)] at hz
  cases hfind : old.find? (fun q => q.bin = b) with
  | some p =>
    rw [hfind] at hz
    dsimp only at hz
    have hpb : p.bin = b := by simpa using List.find?_some hfind
    let w := modLines (fun l => { l with returns := l.returns ++ [p] }) y
    obtain ⟨l, hl⟩ := noteFound_frame b .ret (modBin b (fun r => placed r .onReturn none (some p.aisle) none) w)
    have hmod : modBin b (fun r => placed r .onReturn none (some p.aisle) none) w = _ := modBin_frame b _ w
    have helse : Elsewhere b y z := by
      rw [hz]
      exact ((elsewhere_modReturns hpb y).trans (elsewhere_modBin _ w)).trans (noteFound_elsewhere b .ret _)
    rw [hl] at hz
    refine ⟨p, by rw [hz]; dsimp only; rw [hmod]; rfl, hpb, helse, ?_, ?_, .inl rfl⟩
    · intro r hr
      have hget : getBin b z = some (placed r .onReturn none (some p.aisle) none) := by
        rw [hz]
        show getBin b (modBin b _ w) = _
        rw [getBin_modBin_same, show getBin b w = some r from hr]
        rfl
      exact ⟨r.live, r.retirePending, fun _ => rfl, hget⟩
    · rw [hz]
      dsimp only
      rw [hmod]
      exact id
  | none =>
    rw [hfind] at hz
    dsimp only at hz
    rw [hconflict, if_neg (by simp)] at hz
    obtain ⟨a, ha⟩ := returnReported_new (e := e) b (reportSource b y) y
    rw [ha] at hz
    obtain ⟨helse, hbecomes, ⟨v, hv, hlists⟩, -⟩ := placeReported_spec (e := e) b .ret .onReturn (some a) none
      (fun l => { l with returns := l.returns ++ [⟨b, a⟩] }) y (elsewhere_modReturns rfl)
    rw [← hz] at helse hbecomes hlists
    refine ⟨⟨b, a⟩, ?_, rfl, helse, hbecomes, fun hnone d => ?_, .inr rfl⟩
    · have hd : z.lines.returns = v.lines.returns ++ [⟨b, a⟩] := (congrArg Lines.returns hlists :)
      have hvd : v.lines.returns = y.lines.returns.filter fun p => p.bin ≠ b := (congrArg Lines.returns hv :)
      rw [hd, hvd, List.filter_eq_self.2 fun p hp => by simpa using fun h => hno (List.mem_map.2 ⟨p, hp, h⟩)]
    · have hd : z.lines.inbound = v.lines.inbound := (congrArg Lines.inbound hlists :)
      have hvd : v.lines.inbound = y.lines.inbound.map fun p => if p = some b then none else p := (congrArg Lines.inbound hv :)
      rw [hd, hvd, vmap_get, hnone d]
      rfl

/-! ## Every bin of the line -/

/-- Where the report stands after some bins of the line. -/
structure ReturnsDone (old : List ReturnPlace) (done : List Nat) (y z : Yard) : Prop where
  bins : z.lines.returns.map (·.bin) = done
  each : ∀ p ∈ z.lines.returns, Becomes p.bin .onReturn (some p.aisle) none y z
    ∧ (old.find? (fun q => q.bin = p.bin) = some p ∨ old.find? (fun q => q.bin = p.bin) = none)
  inbound : ∀ a : Aisle, z.lines.inbound[a] = none
  others : ∀ c, c ∉ done → LiveAt c y z
  conflicts : ∀ c p, c ∉ done → reportConflict c p y = false → reportConflict c p z = false
  disc : z.disc = { y.disc with found := z.disc.found, conflicts := z.disc.conflicts }
  del : z.lines.del = y.lines.del
  ret : z.lines.ret = y.lines.ret

theorem ReturnsDone.step {old : List ReturnPlace} {done : List Nat} (h : ReturnsDone old done y w) (hok : binOk b = true)
    (hb : b ∉ done) (hconflict : reportConflict b .ret y = false) :
    ReturnsDone old (done ++ [b]) y (returnReported e old b w) := by
  obtain ⟨p, hd, hpb, helse, hbec, hin, hp⟩ :=
    returnReported_spec (e := e) old hok (by rw [h.bins]; exact hb) (h.conflicts b .ret hb hconflict)
  have hnot (c : Nat) (hc : c ∉ done ++ [b]) : c ∉ done ∧ c ≠ b := by simpa using hc
  refine ⟨?_, fun q hq => ?_, hin h.inbound, fun c hc => ?_, fun c p hc hcc => ?_, by rw [helse.disc, h.disc], helse.del.trans h.del,
    helse.ret.trans h.ret⟩
  · rw [hd, List.map_append, h.bins, List.map_singleton, hpb]
  · rw [hd] at hq
    rcases List.mem_append.1 hq with hq | hq
    · have hqb : q.bin ≠ b := fun heq => hb (heq ▸ h.bins ▸ List.mem_map_of_mem hq)
      exact ⟨(h.each q hq).1.after (helse.live _ hqb), (h.each q hq).2⟩
    · rw [List.mem_singleton.1 hq, hpb]
      exact ⟨hbec.before (h.others b hb), hp⟩
  · obtain ⟨hcd, hcb⟩ := hnot c hc
    exact (h.others c hcd).trans (helse.live c hcb)
  · obtain ⟨hcd, hcb⟩ := hnot c hc
    exact helse.conflict hcb (h.conflicts c p hcd hcc)

theorem returnsFold {old : List ReturnPlace} {done : List Nat} (bins : List Nat) (h : ReturnsDone old done y w)
    (hn : (done ++ bins).Nodup) (hok : ∀ b ∈ bins, binOk b = true) (hconflict : ∀ b ∈ bins, reportConflict b .ret y = false) :
    ReturnsDone old (done ++ bins) y (bins.foldl (fun y b => returnReported e old b y) w) := by
  induction bins generalizing done w with
  | nil => simpa using h
  | cons b t ih =>
    have hassoc : done ++ b :: t = done ++ [b] ++ t := by simp
    have hb : b ∉ done := fun hmem => (List.nodup_append.1 hn).2.2 b hmem b List.mem_cons_self rfl
    rw [List.foldl_cons, hassoc]
    exact ih (h.step (hok b List.mem_cons_self) hb (hconflict b List.mem_cons_self)) (hassoc ▸ hn)
      (fun c hc => hok c (List.mem_cons_of_mem _ hc)) (fun c hc => hconflict c (List.mem_cons_of_mem _ hc))

/-! ## The inbound places -/

theorem elsewhere_modInbound (a : Aisle) (b : Nat) (y : Yard) :
    Elsewhere b y (modLines (fun l => { l with inbound := l.inbound.set a (some b) }) y) where
  live _ _ := .of_eq rfl
  found _ _ := rfl
  disc := rfl
  del := rfl
  ret := rfl
  places c hc q hq := by
    cases q with
    | inbound d =>
      rw [at_inbound] at hq ⊢
      simp only [modLines, vset_get] at hq
      split at hq
      · exact absurd (Option.some.inj hq).symm hc
      · exact hq
    | _ => exact hq

theorem listConflict_frame (b : Nat) (p : Place) (y : Yard) :
    ∃ l, listConflict b p y = { y with disc := { y.disc with conflicts := l } } := by
  unfold listConflict
  split
  · split
    · exact ⟨_, rfl⟩
    · exact ⟨_, rfl⟩
  · exact ⟨_, rfl⟩

/-- Where the report stands after some inbound places; `rep` is what it says of each. -/
structure InboundDone (rep : Aisle → Option Nat) (done : List Aisle) (y z : Yard) : Prop where
  returns : z.lines.returns = y.lines.returns
  rest : ∀ a : Aisle, a ∉ done → z.lines.inbound[a] = none
  each : ∀ (a : Aisle) (b : Nat), z.lines.inbound[a] = some b →
    rep a = some b ∧ b ∉ y.lines.returns.map (·.bin) ∧ Becomes b .inbound (some a) none y z
  others : ∀ c, (∀ a : Aisle, z.lines.inbound[a] ≠ some c) → LiveAt c y z
  conflicts : ∀ c p, (∀ a : Aisle, z.lines.inbound[a] ≠ some c) → reportConflict c p y = false → reportConflict c p z = false
  placed : ∀ a ∈ done, ∀ b, rep a = some b → binOk b = true → b ∉ y.lines.returns.map (·.bin) → (∀ d, d < a → rep d ≠ some b) →
    reportConflict b (.inbound a) y = false → z.lines.inbound[a] = some b
  disc : z.disc = { y.disc with found := z.disc.found, conflicts := z.disc.conflicts }
  del : z.lines.del = y.lines.del
  ret : z.lines.ret = y.lines.ret

/-- A report that places no bin in the place leaves it empty. -/
theorem InboundDone.skip {rep : Aisle → Option Nat} {done : List Aisle} (h : InboundDone rep done y w)
    (hno : ∀ b, rep a = some b → binOk b = true → b ∉ y.lines.returns.map (·.bin) → (∀ d, d < a → rep d ≠ some b) →
      reportConflict b (.inbound a) y = true) : InboundDone rep (done ++ [a]) y w where
  returns := h.returns
  rest d hd := h.rest d fun hm => hd (List.mem_append_left _ hm)
  each := h.each
  others := h.others
  conflicts := h.conflicts
  placed d hd b hrep hok hret hfirst hc := by
    rcases List.mem_append.1 hd with hd | hd
    · exact h.placed d hd b hrep hok hret hfirst hc
    · obtain rfl := List.mem_singleton.1 hd
      exact absurd (hno b hrep hok hret hfirst) (by rw [hc]; decide)
  disc := h.disc
  del := h.del
  ret := h.ret

/-- What a yard says of the lines and the bins is the same with another list of conflicts. -/
theorem InboundDone.listed {rep : Aisle → Option Nat} {done : List Aisle} (h : InboundDone rep done y w)
    (l : List (Nat × Place × Place)) : InboundDone rep done y { w with disc := { w.disc with conflicts := l } } where
  returns := h.returns
  rest := h.rest
  each := h.each
  others := h.others
  conflicts c p hc hcc := by
    have := h.conflicts c p hc hcc
    cases p <;> exact this
  placed := h.placed
  disc := by rw [h.disc]
  del := h.del
  ret := h.ret

theorem InboundDone.step {rep : Aisle → Option Nat} {done : List Aisle} (h : InboundDone rep done y w) (ha : a ∉ done)
    (hlt : ∀ d ∈ done, d < a) : InboundDone rep (done ++ [a]) y (inboundReported e a (rep a) w) := by
  unfold inboundReported
  cases hrep : (rep a).filter binOk with
  | none =>
    refine h.skip fun b hb hok => ?_
    rw [hb, Option.filter_some, if_pos hok] at hrep
    cases hrep
  | some b =>
    obtain ⟨hb, hok⟩ := Option.filter_eq_some_iff.1 hrep
    dsimp only
    split
    next hany =>
      refine h.skip fun c hc _ hret hfirst => ?_
      obtain rfl : b = c := Option.some.inj (hb.symm.trans hc)
      rw [Bool.or_eq_true, List.any_eq_true, List.any_eq_true] at hany
      rcases hany with ⟨d, -, hd⟩ | ⟨p, hp, hpb⟩
      · have hd' := of_decide_eq_true hd
        have hdone : d ∈ done := by
          by_contra hnot
          rw [h.rest d hnot] at hd'
          cases hd'
        exact absurd (h.each d b hd').1 (hfirst d (hlt d hdone))
      · rw [h.returns] at hp
        exact absurd (List.mem_map.2 ⟨p, hp, of_decide_eq_true hpb⟩) hret
    next hany =>
      rw [Bool.or_eq_true, not_or, Bool.not_eq_true, Bool.not_eq_true, List.any_eq_false, List.any_eq_false] at hany
      have hin : ∀ d : Aisle, w.lines.inbound[d] ≠ some b := fun d hd => hany.1 d (mem_aisles d) (decide_eq_true hd)
      have hret : b ∉ w.lines.returns.map (·.bin) := fun hm => by
        obtain ⟨p, hp, hpb⟩ := List.mem_map.1 hm
        exact hany.2 p hp (decide_eq_true hpb)
      split
      next hconflict =>
        obtain ⟨l, hl⟩ := listConflict_frame b (.inbound a) w
        rw [hl]
        refine (h.skip fun c hc _ _ _ => ?_).listed l
        obtain rfl : b = c := Option.some.inj (hb.symm.trans hc)
        by_contra hno
        exact absurd (h.conflicts b _ hin (Bool.eq_false_iff.2 hno)) (by rw [hconflict]; decide)
      next hconflict =>
        obtain ⟨helse, hbec, ⟨v, hv, hlists⟩, -⟩ := placeReported_spec (e := e) b (.inbound a) .inbound (some a) none
          (fun l => { l with inbound := l.inbound.set a (some b) }) w (elsewhere_modInbound a b)
        generalize placeReported e b (.inbound a) .inbound (some a) none
          (modLines fun l => { l with inbound := l.inbound.set a (some b) }) w = z at helse hbec hlists ⊢
        have hzr : z.lines.returns = w.lines.returns := by
          have hd : z.lines.returns = v.lines.returns := (congrArg Lines.returns hlists :)
          have hvd : v.lines.returns = w.lines.returns.filter fun p => p.bin ≠ b := (congrArg Lines.returns hv :)
          rw [hd, hvd, List.filter_eq_self.2 fun p hp => by simpa using fun h => hret (List.mem_map.2 ⟨p, hp, h⟩)]
        have hzi (d : Aisle) : z.lines.inbound[d] = if a = d then some b else w.lines.inbound[d] := by
          have hd : z.lines.inbound = v.lines.inbound.set a (some b) := (congrArg Lines.inbound hlists :)
          have hvd : v.lines.inbound = w.lines.inbound.map fun p => if p = some b then none else p := (congrArg Lines.inbound hv :)
          rw [hd, hvd, vset_get, vmap_get, if_neg (hin d)]
        have hza (d : Aisle) (hd : a ≠ d) : z.lines.inbound[d] = w.lines.inbound[d] := (hzi d).trans (if_neg hd)
        have hback (c : Nat) (hc : ∀ d : Aisle, z.lines.inbound[d] ≠ some c) : c ≠ b ∧ ∀ d : Aisle, w.lines.inbound[d] ≠ some c := by
          refine ⟨fun heq => hc a ((hzi a).trans (by rw [if_pos rfl, heq])), fun d hd => ?_⟩
          by_cases hda : a = d
          · rw [← hda, h.rest a ha] at hd
            cases hd
          · exact hc d ((hza d hda).trans hd)
        refine ⟨hzr.trans h.returns, fun d hd => ?_, fun d c hdc => ?_, fun c hc => ?_, fun c p hc hcc => ?_, fun d hd c hc hok' hret' hfirst hcc => ?_,
          by rw [helse.disc, h.disc], helse.del.trans h.del, helse.ret.trans h.ret⟩
        · obtain ⟨hdn, hda⟩ := not_or.1 (List.mem_append.not.1 hd)
          rw [hza d fun heq => hda (List.mem_singleton.2 heq.symm)]
          exact h.rest d hdn
        · rw [hzi] at hdc
          split at hdc
          next hda =>
            obtain rfl := Option.some.inj hdc
            rw [← hda]
            exact ⟨hb, h.returns ▸ hret, hbec.before (h.others b hin)⟩
          next =>
            obtain ⟨hr, hnr, hbe⟩ := h.each d c hdc
            exact ⟨hr, hnr, hbe.after (helse.live c fun heq => hin d (heq ▸ hdc))⟩
        · obtain ⟨hcb, hcw⟩ := hback c hc
          exact (h.others c hcw).trans (helse.live c hcb)
        · obtain ⟨hcb, hcw⟩ := hback c hc
          exact helse.conflict hcb (h.conflicts c p hcw hcc)
        · rcases List.mem_append.1 hd with hd | hd
          · rw [hza d fun heq => ha (heq ▸ hd)]
            exact h.placed d hd c hc hok' hret' hfirst hcc
          · obtain rfl := List.mem_singleton.1 hd
            rw [hzi, if_pos rfl, ← hb, hc]

theorem inboundFold {rep : Aisle → Option Nat} {done : List Aisle} (rest : List Aisle) (h : InboundDone rep done y w)
    (hs : (done ++ rest).Pairwise (· < ·)) :
    InboundDone rep (done ++ rest) y (rest.foldl (fun y a => inboundReported e a (rep a) y) w) := by
  induction rest generalizing done w with
  | nil => simpa using h
  | cons a t ih =>
    have hassoc : done ++ a :: t = done ++ [a] ++ t := by simp
    have hlt : ∀ d ∈ done, d < a := fun d hd => (List.pairwise_append.1 hs).2.2 d hd a List.mem_cons_self
    rw [List.foldl_cons, hassoc]
    exact ih (h.step (fun hm => lt_irrefl a (hlt a hm)) hlt) (hassoc ▸ hs)

/-! ## The bins no longer reported -/

/-- A bin's state is as it was where its live order alone has changed. -/
theorem LiveAt.states (h : LiveAt c y z) (P : BinSt → Prop) (hp : ∀ r, getBin c y = some r → P r.st) :
    ∀ r, getBin c z = some r → P r.st := by
  obtain ⟨f, hf⟩ := h
  intro r hr
  rw [hf] at hr
  obtain ⟨q, hq, rfl⟩ := Option.map_eq_some_iff.1 hr
  exact hp q hq

/-- Whether a bin's record says that it is on the return line or in an inbound place. -/
def OnReturnSide (c : Nat) (y : Yard) : Prop := ∀ r, getBin c y = some r → r.st = .onReturn ∨ r.st = .inbound

/-- Bins lost in turn, each where its record says that it was on the line. -/
structure Unlisted (e : Env) (bins : List Nat) (y z : Yard) : Prop where
  others : ∀ c, c ∉ bins → LiveAt c y z
  kept : ∀ c, (∀ r, getBin c y = some r → ¬(r.st = .onReturn ∨ r.st = .inbound)) → LiveAt c y z
  each : ∀ c ∈ bins, OnReturnSide c y → Becomes c .unverified none none y z
  lists : ListsKept y z
  disc : z.disc = { y.disc with found := z.disc.found, conflicts := z.disc.conflicts }

/-- A bin is lost where its record says that it was on the line. -/
def loseListed (e : Env) (y : Yard) (b : Nat) : Yard :=
  match getBin b y with
  | some r => if r.st = .onReturn ∨ r.st = .inbound then loseBin e b y else y
  | none => y

theorem loseListed_spec (b : Nat) (y : Yard) : Unlisted e [b] y (loseListed e y b) := by
  unfold loseListed
  split
  next r hr =>
    split
    next hst =>
      obtain ⟨helse, hlost, hlists, -⟩ := loseBin_spec (e := e) b y
      refine ⟨fun c hc => helse.live c fun h => hc (List.mem_singleton.2 h), fun c hc => helse.live c ?_, fun c hc _ => ?_, hlists, helse.disc⟩
      · rintro rfl
        exact hc r hr hst
      · rw [List.mem_singleton.1 hc]
        exact hlost
    next hst =>
      refine ⟨fun _ _ => .of_eq rfl, fun _ _ => .of_eq rfl, fun c hc hside => ?_, rfl, rfl⟩
      rw [List.mem_singleton.1 hc] at hside
      exact absurd (hside r hr) hst
  next hr =>
    refine ⟨fun _ _ => .of_eq rfl, fun _ _ => .of_eq rfl, fun c hc _ r hrc => ?_, rfl, rfl⟩
    rw [List.mem_singleton.1 hc, hr] at hrc
    cases hrc

theorem loseListed_each (l : List Nat) (y : Yard) : Unlisted e l y (l.foldl (loseListed e) y) := by
  induction l generalizing y with
  | nil => exact ⟨fun _ _ => .of_eq rfl, fun _ _ => .of_eq rfl, by simp, rfl, rfl⟩
  | cons b t ih =>
    have hone := loseListed_spec (e := e) b y
    have hrest := ih (loseListed e y b)
    rw [List.foldl_cons]
    refine ⟨fun c hc => ?_, fun c hc => ?_, fun c hc hs => ?_, hone.lists.trans hrest.lists, by rw [hrest.disc, hone.disc]⟩
    · obtain ⟨hcb, hct⟩ := not_or.1 (List.mem_cons.not.1 hc)
      exact (hone.others c fun h => hcb (List.mem_singleton.1 h)).trans (hrest.others c hct)
    · have hl := hone.kept c hc
      exact hl.trans (hrest.kept c (hl.states (fun st => ¬(st = .onReturn ∨ st = .inbound)) hc))
    · by_cases hcb : c = b
      · have hlost := hone.each c (List.mem_singleton.2 hcb) hs
        intro r hr
        refine hlost.after (hrest.kept c fun q hq => ?_) r hr
        obtain ⟨l, p, -, hnow⟩ := hlost r hr
        rw [hnow] at hq
        obtain rfl := Option.some.inj hq
        simp
      · have hl := hone.others c fun h => hcb (List.mem_singleton.1 h)
        exact (hrest.each c ((List.mem_cons.1 hc).resolve_left hcb) (hl.states (fun st => st = .onReturn ∨ st = .inbound) hs)).before hl

end Sys2Proof.Machine
end

