-- ==== Sys2Proof/Proofs/Contents.lean ====
section
/-! PROOF. A line drive's contents report as a whole (R102, R105). -/

namespace Sys2Proof.Machine

open Sys2Proof

variable {e : Env} {b : Nat} {y z : Yard}

/-! ## The delivery drive's report -/

/-- The delivery line before the report's bins: its transfers cut and its list empty. -/
theorem deliveryStart_frame (y : Yard) : ∃ r, modLines (fun l => { l with delivery := [] }) (cutTransfers .delivery y)
    = { y with lines := { y.lines with del := { y.lines.del with transfers := [] }, delivery := [], releaseList := r } } := by
  obtain ⟨r, hr⟩ := cutTransfers_frame .delivery y
  exact ⟨r, by rw [hr]; rfl⟩

/-- What the delivery drive's report leaves of list, drive and bins. -/
structure DeliverySet (e : Env) (bins : List Nat) (y z : Yard) : Prop where
  list : z.lines.delivery.map (·.bin) = bins
  del : z.lines.del = { y.lines.del with transfers := [] }
  disc : z.disc = { y.disc with found := z.disc.found, conflicts := z.disc.conflicts }
  each : ∀ p ∈ z.lines.delivery, y.lines.delivery.find? (fun q => q.bin = p.bin) = some p
    ∨ y.lines.delivery.find? (fun q => q.bin = p.bin) = none ∧ Becomes p.bin .onDelivery none (some p.station) y z
      ∧ p.source = reportSource p.bin y
  lost : ∀ p ∈ y.lines.delivery, p.bin ∉ bins → Becomes p.bin .unverified none none y z
  single : ∀ b, bins = [b] → (∀ p ∈ y.lines.delivery, p.bin ≠ b) →
    (∃ p ∈ z.lines.delivery, p.bin = b ∧ p.station = deliveryStation e b y)
    ∧ ∀ x, storedCell b y = some x → KSorted y.cells → getCell e x y = .occupied b → getCell e x z = .unverified (some b)

theorem deliveryReport_spec {bins : List Nat} (hn : bins.Nodup) (hok : ∀ b ∈ bins, binOk b = true)
    (hconflict : ∀ b ∈ bins, reportConflict b .delivery y = false) : DeliverySet e bins y (deliveryReport e bins y) := by
  obtain ⟨r, hr⟩ := deliveryStart_frame y
  let y0 : Yard := { y with lines := { y.lines with del := { y.lines.del with transfers := [] }, delivery := [], releaseList := r } }
  let old := y.lines.delivery
  have hlive : ∀ c, LiveAt c y y0 := fun c => .of_eq rfl
  have hconflict0 : ∀ b ∈ bins, reportConflict b .delivery y0 = false := fun b hb =>
    reportConflict_mono (hlive b) rfl rfl rfl (fun q hq => by
      cases q with
      | delivery => rw [at_delivery] at hq; cases hq
      | _ => exact hq) (hconflict b hb)
  have hstart : DeliveryDone old [] y0 y0 := ⟨rfl, by simp [y0], fun _ _ => .of_eq rfl, fun _ _ => id, rfl, rfl, rfl⟩
  have hdone := deliveryFold (e := e) bins hstart hn hok hconflict0
  let w := bins.foldl (fun y b => deliveryReported e old b y) y0
  let gone := (old.filter fun p => !bins.contains p.bin).map (·.bin)
  have hlost := loseEach (e := e) gone w
  have hz : deliveryReport e bins y = gone.foldl (fun y b => loseBin e b y) w := by
    have hreport : deliveryReport e bins y = (old.filter fun p => !bins.contains p.bin).foldl (fun y p => loseBin e p.bin y)
        (bins.foldl (fun y b => deliveryReported e old b y) (modLines (fun l => { l with delivery := [] }) (cutTransfers .delivery y))) := rfl
    rw [hreport, hr, List.foldl_map]
  rw [hz]
  generalize gone.foldl (fun y b => loseBin e b y) w = z at hlost
  have hlist : z.lines.delivery = w.lines.delivery := (congrArg Lines.delivery hlost.lists :)
  have hdel : z.lines.del = w.lines.del := (congrArg Lines.del hlost.lists :)
  have hbins : w.lines.delivery.map (·.bin) = bins := hdone.bins
  have hkept (c : Nat) (hc : c ∈ bins) : LiveAt c w z := hlost.others c fun hm => by
    obtain ⟨p, hp, rfl⟩ := List.mem_map.1 hm
    simpa [hc] using (List.mem_filter.1 hp).2
  refine ⟨by rw [hlist, hbins], by rw [hdel, hdone.del], by rw [hlost.disc, hdone.disc], fun p hp => ?_, fun p hp hpb => ?_, fun b hb hnew => ?_⟩
  · rw [hlist] at hp
    have hpb : p.bin ∈ bins := hbins ▸ List.mem_map_of_mem hp
    exact (hdone.each p hp).imp_right fun ⟨hnone, hbec, hsrc⟩ => ⟨hnone, (hbec.before (hlive p.bin)).after (hkept p.bin hpb), hsrc⟩
  · have hgone : p.bin ∈ gone := List.mem_map.2 ⟨p, List.mem_filter.2 ⟨hp, by simpa using hpb⟩, rfl⟩
    exact (hlost.each p.bin hgone).before ((hlive p.bin).trans (hdone.others p.bin (by simpa using hpb)))
  · subst hb
    have hbm : b ∈ [b] := List.mem_singleton_self b
    obtain ⟨p, hd, hpb, -, hp⟩ := deliveryReported_spec (e := e) (y := y0) old (hok b hbm) (by simp [y0]) (hconflict0 b hbm)
    rcases hp with hfind | ⟨-, heq, -, hcell⟩
    · exact absurd hpb (hnew p (List.mem_of_find?_eq_some hfind))
    · refine ⟨⟨p, ?_, hpb, by rw [heq]; rfl⟩, fun x hst hs hx => ?_⟩
      · rw [hlist, show w = deliveryReported e old b y0 from rfl, hd]
        exact List.mem_append_right _ (List.mem_singleton_self p)
      · have hw : getCell e x w = .unverified (some b) := hcell x hst hs hx
        exact (hlost.settled x (by rw [hw]; simp)).trans hw

/-- A bin of the report that was on the line keeps its place's record. -/
theorem DeliverySet.find {bins : List Nat} {p : DeliveryPlace} (h : DeliverySet e bins y z) (hb : b ∈ bins)
    (hp : y.lines.delivery.find? (fun q => q.bin = b) = some p) : p ∈ z.lines.delivery := by
  rw [← h.list] at hb
  obtain ⟨q, hq, rfl⟩ := List.mem_map.1 hb
  rcases h.each q hq with hfind | ⟨hnone, -⟩
  · rw [hfind] at hp
    rwa [← Option.some.inj hp]
  · rw [hnone] at hp
    cases hp

/-- A bin of the report that was not on the line is new there. -/
theorem DeliverySet.new {bins : List Nat} (h : DeliverySet e bins y z) (hb : b ∈ bins) (hno : ∀ p ∈ y.lines.delivery, p.bin ≠ b) :
    ∃ p ∈ z.lines.delivery, p.bin = b ∧ Becomes b .onDelivery none (some p.station) y z ∧ p.source = reportSource b y := by
  rw [← h.list] at hb
  obtain ⟨q, hq, rfl⟩ := List.mem_map.1 hb
  rcases h.each q hq with hfind | ⟨-, hbec, hsrc⟩
  · exact absurd rfl (hno q (List.mem_of_find?_eq_some hfind))
  · exact ⟨q, hq, rfl, hbec, hsrc⟩

/-! ## The return drive's report -/

/-- What the return drive's report leaves of list, places, drive and bins. -/
structure ReturnSet (bins : List Nat) (rep : Aisle → Option Nat) (y z : Yard) : Prop where
  list : z.lines.returns.map (·.bin) = bins
  ret : z.lines.ret = { y.lines.ret with transfers := [] }
  disc : z.disc = { y.disc with found := z.disc.found, conflicts := z.disc.conflicts }
  each : ∀ p ∈ z.lines.returns, Becomes p.bin .onReturn (some p.aisle) none y z
    ∧ (y.lines.returns.find? (fun q => q.bin = p.bin) = some p ∨ y.lines.returns.find? (fun q => q.bin = p.bin) = none)
  empty : ∀ a : Aisle, rep a = none → z.lines.inbound[a] = none
  placed : ∀ (a : Aisle) (b : Nat), rep a = some b → binOk b = true → b ∉ bins → (∀ d, d < a → rep d ≠ some b) →
    reportConflict b (.inbound a) y = false → z.lines.inbound[a] = some b ∧ Becomes b .inbound (some a) none y z
  lost : ∀ b, b ∉ bins → (∀ a : Aisle, z.lines.inbound[a] ≠ some b) →
    ((∃ p ∈ y.lines.returns, p.bin = b) ∨ ∃ a : Aisle, y.lines.inbound[a] = some b) → OnReturnSide b y → Becomes b .unverified none none y z

theorem returnReport_spec {bins : List Nat} (inbound : List (Option Nat)) (hn : bins.Nodup) (hok : ∀ b ∈ bins, binOk b = true)
    (hconflict : ∀ b ∈ bins, reportConflict b .ret y = false) :
    ReturnSet bins (fun a => inbound.getD a.val none) y (returnReport e bins inbound y) := by
  let rep : Aisle → Option Nat := fun a => inbound.getD a.val none
  obtain ⟨r, hr⟩ := cutTransfers_frame .ret y
  let y0 : Yard := { y with lines := { y.lines with
    ret := { y.lines.ret with transfers := [] }, returns := [], inbound := #v[none, none, none, none, none, none], releaseList := r } }
  let old := returnRecorded y
  have hlive : ∀ c, LiveAt c y y0 := fun c => .of_eq rfl
  have hempty : ∀ a : Aisle, (#v[none, none, none, none, none, none] : Vector (Option Nat) 6)[a] = none := by decide
  have hnone : ∀ a : Aisle, y0.lines.inbound[a] = none := hempty
  have hconflict0 (c : Nat) (p : Place) (hc : reportConflict c p y = false) : reportConflict c p y0 = false :=
    reportConflict_mono (hlive c) rfl rfl rfl (fun q hq => by
      cases q with
      | ret => rw [at_ret] at hq; cases hq
      | inbound a => rw [at_inbound, hnone a] at hq; cases hq
      | _ => exact hq) hc
  have hstart : ReturnsDone y.lines.returns [] y0 y0 :=
    ⟨rfl, by simp [y0], hnone, fun _ _ => .of_eq rfl, fun _ _ _ => id, rfl, rfl, rfl⟩
  have hdone := returnsFold (e := e) bins hstart hn hok fun b hb => hconflict0 b .ret (hconflict b hb)
  let w1 := bins.foldl (fun z b => returnReported e y.lines.returns b z) y0
  have hbins : w1.lines.returns.map (·.bin) = bins := hdone.bins
  have hfree : ∀ a : Aisle, w1.lines.inbound[a] = none := hdone.inbound
  have hbegin : InboundDone rep [] w1 w1 := by
    refine ⟨rfl, fun a _ => hfree a, fun a b h => ?_, fun _ _ => .of_eq rfl, fun _ _ _ => id, by simp, rfl, rfl, rfl⟩
    rw [hfree a] at h
    cases h
  have hrise : aisles.Pairwise (· < ·) := by decide
  have hin := inboundFold (e := e) aisles hbegin hrise
  let w2 := aisles.foldl (fun z a => inboundReported e a (rep a) z) w1
  let gone := (old.filter fun p => !((returnRecorded w2).any fun q => q.bin = p.bin)).map (·.bin)
  have hlost := loseListed_each (e := e) gone w2
  have hz : returnReport e bins inbound y = gone.foldl (loseListed e) w2 := by
    have hreport : returnReport e bins inbound y = (fun w : Yard => (old.filter fun p => !((returnRecorded w).any fun q => q.bin = p.bin)).foldl
        (fun y p => loseListed e y p.bin) w) (aisles.foldl (fun z a => inboundReported e a (rep a) z)
          (bins.foldl (fun z b => returnReported e y.lines.returns b z)
            (modLines (fun l => { l with returns := [], inbound := #v[none, none, none, none, none, none] }) (cutTransfers .ret y)))) := rfl
    rw [hreport, hr, List.foldl_map]
    rfl
  rw [hz]
  generalize gone.foldl (loseListed e) w2 = z at hlost
  have hlist : z.lines.returns = w1.lines.returns := ((congrArg Lines.returns hlost.lists :) : z.lines.returns = w2.lines.returns).trans hin.returns
  have hinbound : z.lines.inbound = w2.lines.inbound := (congrArg Lines.inbound hlost.lists :)
  have hret : z.lines.ret = w2.lines.ret := (congrArg Lines.ret hlost.lists :)
  have hkept (c : Nat) (hc : c ∈ (returnRecorded w2).map (·.bin)) : LiveAt c w2 z := hlost.others c fun hm => by
    obtain ⟨p, hp, rfl⟩ := List.mem_map.1 hm
    obtain ⟨q, hq, hqp⟩ := List.mem_map.1 hc
    have hnone := (List.mem_filter.1 hp).2
    rw [Bool.not_eq_true', List.any_eq_false] at hnone
    exact hnone q hq (decide_eq_true hqp)
  refine ⟨by rw [hlist, hbins], by rw [hret, hin.ret, hdone.ret], by rw [hlost.disc, hin.disc, hdone.disc], fun p hp => ?_, fun a ha => ?_,
    fun a b hrep hokb hb hfirst hc => ?_, fun b hb hno hwas hside => ?_⟩
  · rw [hlist] at hp
    have hpb : p.bin ∈ w1.lines.returns.map (·.bin) := List.mem_map_of_mem hp
    have hthrough : LiveAt p.bin w1 w2 := hin.others p.bin fun a ha => (hin.each a p.bin ha).2.1 hpb
    have hnow : p.bin ∈ (returnRecorded w2).map (·.bin) := mem_returnRecorded.2 (.inl (at_ret.2 (by rw [hin.returns]; exact hpb)))
    exact ⟨(((hdone.each p hp).1.before (hlive _)).after hthrough).after (hkept _ hnow), (hdone.each p hp).2⟩
  · rw [hinbound]
    cases hget : w2.lines.inbound[a] with
    | none => rfl
    | some b => exact absurd ((hin.each a b hget).1.symm.trans ha) (by simp)
  · have hplaced : w2.lines.inbound[a] = some b := hin.placed a (mem_aisles a) b hrep hokb (by rw [hbins]; exact hb) hfirst
      (hdone.conflicts b _ (by simpa using hb) (hconflict0 b _ hc))
    have hnow : b ∈ (returnRecorded w2).map (·.bin) := mem_returnRecorded.2 (.inr ⟨a, at_inbound.2 hplaced⟩)
    exact ⟨by rw [hinbound]; exact hplaced,
      ((hin.each a b hplaced).2.2.before ((hlive b).trans (hdone.others b (by simpa using hb)))).after (hkept b hnow)⟩
  · rw [hinbound] at hno
    have hthrough : LiveAt b y w2 := ((hlive b).trans (hdone.others b (by simpa using hb))).trans (hin.others b hno)
    have hgone : b ∈ gone := by
      have hold : b ∈ old.map (·.bin) := mem_returnRecorded.2 (hwas.imp
        (fun ⟨p, hp, hpb⟩ => at_ret.2 (List.mem_map.2 ⟨p, hp, hpb⟩)) fun ⟨a, ha⟩ => ⟨a, at_inbound.2 ha⟩)
      obtain ⟨p, hp, rfl⟩ := List.mem_map.1 hold
      refine List.mem_map.2 ⟨p, List.mem_filter.2 ⟨hp, ?_⟩, rfl⟩
      rw [Bool.not_eq_true', List.any_eq_false]
      intro q hq hqp
      have hnow : p.bin ∈ (returnRecorded w2).map (·.bin) := List.mem_map.2 ⟨q, hq, of_decide_eq_true hqp⟩
      rcases mem_returnRecorded.1 hnow with hat | ⟨a, hat⟩
      · rw [at_ret, hin.returns, hbins] at hat
        exact hb hat
      · exact hno a (at_inbound.1 hat)
    exact (hlost.each b hgone (hthrough.states (fun st => st = .onReturn ∨ st = .inbound) hside)).before hthrough

/-- A bin of the report that was on the line keeps its place's record. -/
theorem ReturnSet.find {bins : List Nat} {rep : Aisle → Option Nat} {p : ReturnPlace} (h : ReturnSet bins rep y z) (hb : b ∈ bins)
    (hp : y.lines.returns.find? (fun q => q.bin = b) = some p) : p ∈ z.lines.returns := by
  rw [← h.list] at hb
  obtain ⟨q, hq, rfl⟩ := List.mem_map.1 hb
  rcases (h.each q hq).2 with hfind | hnone
  · rw [hfind] at hp
    rwa [← Option.some.inj hp]
  · rw [hnone] at hp
    cases hp

/-! ## The end of the report -/

theorem deviceReported_frame (e : Env) (d : Device) (y : Yard) : ∃ n post, deviceReported e d y = { y with
    post := post
    disc := { y.disc with
      left := n, expected := y.disc.expected.filter fun x => x ≠ d, silent := y.disc.silent.filter fun x => x ≠ d } } := by
  unfold deviceReported discoverySync endDiscovery
  dsimp only
  split
  · split
    · exact ⟨_, _, rfl⟩
    · exact ⟨_, _, rfl⟩
  · exact ⟨_, _, rfl⟩

/-- What ends a contents report: the line's state, the LineClear that waits for it, and discovery. -/
def contentsEnd (l : LineId) (fault : Bool) (e : Env) (y : Yard) : Yard :=
  let y := modLine l (fun r => { r with clear := r.clear.map fun w => { w with driveDone := true } }) (lineReported l fault y)
  deviceReported e (.line l) { y with disc := { y.disc with asked := y.disc.asked.filter fun x => x ≠ l } }

theorem contentsEnd_frame (l : LineId) (fault : Bool) (e : Env) (y : Yard) : ∃ n post,
    contentsEnd l fault e y = { modLine l (fun r => { r with
        st := if fault then .faulted else .running, fault := if fault then some .driveFault else none
        clear := r.clear.map fun w => { w with driveDone := true } }) y with
      post := post
      disc := { y.disc with
        left := n, expected := y.disc.expected.filter (fun x => x ≠ .line l)
        silent := y.disc.silent.filter (fun x => x ≠ .line l), asked := y.disc.asked.filter fun x => x ≠ l } } := by
  unfold contentsEnd
  extract_lets w
  have hw : w = modLine l (fun r => { r with
      st := if fault then .faulted else .running, fault := if fault then some .driveFault else none
      clear := r.clear.map fun w => { w with driveDone := true } }) y := by
    cases l <;> cases fault <;> rfl
  have hdisc : w.disc = y.disc := by
    rw [hw]
    cases l <;> rfl
  obtain ⟨n, post, hd⟩ := deviceReported_frame e (.line l) { w with disc := { w.disc with asked := w.disc.asked.filter fun x => x ≠ l } }
  refine ⟨n, post, hd.trans ?_⟩
  rw [hdisc, hw]

theorem lineClearSync_none {l : LineId} {s : State} (h : (lineRec l s.yard).clear = none) : lineClearSync l s = s := by
  rw [lineClearSync, h]

/-- What a contents report leaves once its bins are applied, the bins, the map and the lines' lists as they are. -/
structure ContentsEnded (l : LineId) (fault : Bool) (y z : Yard) : Prop where
  bins : z.bins = y.bins
  cells : z.cells = y.cells
  delivery : z.lines.delivery = y.lines.delivery
  returns : z.lines.returns = y.lines.returns
  inbound : z.lines.inbound = y.lines.inbound
  line : lineRec l z = { lineRec l y with
    st := if fault then .faulted else .running, fault := if fault then some .driveFault else none
    clear := (lineRec l y).clear.map fun w => { w with driveDone := true } }
  expected : z.disc.expected = y.disc.expected.filter fun x => x ≠ .line l
  asked : z.disc.asked = y.disc.asked.filter fun x => x ≠ l

theorem contentsEnd_spec (l : LineId) (fault : Bool) (e : Env) (y : Yard) : ContentsEnded l fault y (contentsEnd l fault e y) := by
  obtain ⟨n, post, hend⟩ := contentsEnd_frame l fault e y
  rw [hend]
  cases l
  · exact ⟨rfl, rfl, rfl, rfl, rfl, rfl, rfl, rfl⟩
  · exact ⟨rfl, rfl, rfl, rfl, rfl, rfl, rfl, rfl⟩

/-- A contents report that is owed, with no LineClear waiting, is applied (R102, R105). -/
theorem contents_completes {l : LineId} {bins : List Nat} {inbound : List (Option Nat)} {fault : Bool} {s : State} {y : Yard}
    (hclear : (lineRec l s.yard).clear = none)
    (howed : .line l ∈ s.yard.disc.expected ∨ l ∈ s.yard.disc.asked ∨ s.wing.st = .restarting)
    (hy : applyContents l bins inbound fault (envOf s) { s.yard with bus := [] } = contentsEnd l fault (envOf s) y)
    (hline : lineRec l y = { lineRec l s.yard with transfers := [] }) :
    Completes (.lineContentsReport l bins inbound fault) s { clearBus s with yard := contentsEnd l fault (envOf s) y } := by
  have howed' : contentsOwed l (clearBus s) = true := by
    rw [contentsOwed, Bool.or_eq_true, Bool.or_eq_true, List.contains_iff_mem, List.contains_iff_mem, decide_eq_true_eq, or_assoc]
    exact howed
  have hnone : (lineRec l (contentsEnd l fault (envOf s) y)).clear = none := by
    rw [(contentsEnd_spec l fault (envOf s) y).line, hline, hclear]
    rfl
  show Host.Outcome.next (finish (contentsReported l bins inbound fault (clearBus s))) = _
  rw [contentsReported, if_pos howed', onYard, show envOf (clearBus s) = envOf s from rfl,
    show applyContents l bins inbound fault (envOf s) (clearBus s).yard = _ from hy, lineClearSync_none hnone]

theorem reportSource_eq (b : Nat) (y : Yard) :
    reportSource b y = (getBin b y).bind fun r => if r.st = .stored then r.cell.map (·.aisle) else none := by
  unfold reportSource storedCell
  cases getBin b y with
  | none => rfl
  | some r =>
    dsimp only [Option.bind_some]
    split <;> rfl

theorem deliveryStation_eq (e : Env) (b : Nat) (y : Yard) : deliveryStation e b y
    = ((y.orders.find? fun o => o.bin = b ∧ (o.st = .assigned ∨ o.st = .delivering)).map (·.station)).getD
      ((([0, 1, 2, 3] : List Station).find? fun st => e.cfg.stations[st].role ≠ .closed).getD 0) := by
  unfold deliveryStation
  split
  next h => rw [h]; rfl
  next h => rw [h]; rfl

/-- Settles O51, by what the report of each line leaves. -/
theorem contentsReportSetsLine : Obligations.ContentsReportSetsLine := by
  intro l bins inbound fault s hclear howed hn hok hconflict becomes
  let y : Yard := { s.yard with bus := [] }
  have hok' : ∀ b ∈ bins, binOk b = true := fun b hb => decide_eq_true (hok b hb)
  cases l with
  | delivery =>
    have hset := deliveryReport_spec (e := envOf s) (y := y) hn hok' hconflict
    let z := deliveryReport (envOf s) bins y
    have hend := contentsEnd_spec .delivery fault (envOf s) z
    have hbecomes {b : Nat} {st : BinSt} {aisle : Option Aisle} {station : Option Station} (h : Becomes b st aisle station y z) :
        becomes { clearBus s with yard := contentsEnd .delivery fault (envOf s) z } b st aisle station :=
      (h.after (.of_eq (getBin_congr hend.bins b))).record
    refine ⟨_, contents_completes hclear howed rfl hset.del, ⟨rfl, rfl, rfl, rfl, rfl, rfl⟩, rfl, ?_, ?_, ?_, ?_, ?_, ?_,
      fun _ => ⟨fun b hb p hp => ?_, fun p hp hpb => hbecomes (hset.lost p hp hpb), fun b hb hno => ?_, fun b hb hno => ⟨?_, ?_⟩⟩, nofun⟩
    · exact (congrArg (List.map (·.bin)) hend.delivery).trans hset.list
    · exact congrArg LineRec.st hend.line
    · exact congrArg LineRec.fault hend.line
    · exact (congrArg LineRec.transfers hend.line).trans (congrArg LineRec.transfers hset.del)
    · exact hend.expected.trans (by rw [hset.disc])
    · exact hend.asked.trans (by rw [hset.disc])
    · exact hend.delivery ▸ hset.find hb hp
    · obtain ⟨p, hp, hpb, hbec, hsrc⟩ := hset.new hb hno
      refine ⟨p, hend.delivery ▸ hp, hpb, hbecomes hbec, ?_⟩
      exact hsrc.trans (reportSource_eq b y)
    · obtain ⟨⟨p, hp, hpb, hst⟩, -⟩ := hset.single b hb hno
      exact ⟨p, hend.delivery ▸ hp, hpb, hst.trans (deliveryStation_eq (envOf s) b y)⟩
    · obtain ⟨-, hcell⟩ := hset.single b hb hno
      intro r x hr hst hc hs hx
      refine Eq.trans ?_ (hcell x ((storedCell_of_record hr hst).trans hc) hs hx)
      unfold getCell
      rw [show (contentsEnd .delivery fault (envOf s) z).cells = z.cells from hend.cells]
  | ret =>
    have hset := returnReport_spec (e := envOf s) (y := y) inbound hn hok' hconflict
    let z := returnReport (envOf s) bins inbound y
    have hend := contentsEnd_spec .ret fault (envOf s) z
    have hbecomes {b : Nat} {st : BinSt} {aisle : Option Aisle} {station : Option Station} (h : Becomes b st aisle station y z) :
        becomes { clearBus s with yard := contentsEnd .ret fault (envOf s) z } b st aisle station :=
      (h.after (.of_eq (getBin_congr hend.bins b))).record
    have hinbound (a : Aisle) : (contentsEnd .ret fault (envOf s) z).lines.inbound[a] = z.lines.inbound[a] := by rw [hend.inbound]
    refine ⟨_, contents_completes hclear howed rfl hset.ret, ⟨rfl, rfl, rfl, rfl, rfl, rfl⟩, rfl, ?_, ?_, ?_, ?_, ?_, ?_, nofun,
      fun _ => ⟨fun b hb p hp => ?_, fun p hp => ?_, fun b hb hno hwas hside => ?_, fun a => ⟨fun ha => ?_, fun b ha hlo hhi hb hfirst hc => ?_⟩⟩⟩
    · exact (congrArg (List.map (·.bin)) hend.returns).trans hset.list
    · exact congrArg LineRec.st hend.line
    · exact congrArg LineRec.fault hend.line
    · exact (congrArg LineRec.transfers hend.line).trans (congrArg LineRec.transfers hset.ret)
    · exact hend.expected.trans (by rw [hset.disc])
    · exact hend.asked.trans (by rw [hset.disc])
    · exact hend.returns ▸ hset.find hb hp
    · exact hbecomes (hset.each p (hend.returns ▸ hp)).1
    · exact hbecomes (hset.lost b hb (fun a ha => hno a ((hinbound a).trans ha)) hwas hside)
    · exact (hinbound a).trans (hset.empty a ha)
    · obtain ⟨hat, hbec⟩ := hset.placed a b ha (decide_eq_true ⟨hlo, hhi⟩) hb hfirst hc
      exact ⟨(hinbound a).trans hat, hbecomes hbec⟩

end Sys2Proof.Machine
end

