-- ==== Sys2Proof/Proofs/GeometrySection.lean ====
section
/-! PROOF. The Geometry section of Configure (R1, R150). -/

namespace Sys2Proof.Machine

open Sys2Proof

variable {e : Env} {g : Geometry} {y z : Yard}

/-! ## A Configure of one section (R210) -/

/-- A Configure request of one section is answered as that section is. -/
theorem configure_completes {h : ReqHdr} {c : CfgSection} {s t u : State} {r : SecResult} (hT : Taken h s)
    (ha : applySection c (entered (reqCode .configure) h s) = (t, r)) (ht : t.link = waitingLink (reqCode .configure) h s.link)
    (hu : { t with link := answeredLink 0x02 h (if r.outcome = .ok then .ok else .busy) (secFlds r) s.link } = u) :
    configure h [c] s = .next (finish u) := by
  rw [← hu]
  refine request_answered (k := .configure) (t := t) hT ?_ ht
  have hone : applySections [c] (entered (reqCode .configure) h s) = (t, [r]) := by simp [applySections, ha]
  simp [configureAct, distinctCodes, hone, replyWith]

/-! ## What a geometry may not leave out -/

theorem mem_listedCells {x : CellAddr} {c : Cell} (hs : KSorted y.cells) :
    (x, c) ∈ listedCells y ↔ ∃ k, kget y.cells k = some c ∧ cellOfCode k = some x := by
  simp only [listedCells, List.mem_filterMap]
  constructor
  · rintro ⟨⟨k, c'⟩, hmem, hx⟩
    obtain ⟨a, ha, hp⟩ := Option.map_eq_some_iff.1 hx
    obtain ⟨rfl, rfl⟩ := Prod.mk.inj hp
    exact ⟨k, kget_of_mem _ _ _ hs hmem, ha⟩
  · rintro ⟨k, hk, hx⟩
    exact ⟨(k, c), mem_of_kget _ _ _ hk, by simp [hx]⟩

/-- The code of a cell within a geometry that fits names that cell. -/
theorem cellOfCode_of_inGeometry (hg : GeometryFits g) {x : CellAddr} (hx : inGeometry g x = true) :
    cellOfCode (cellCode x) = some x := by
  obtain ⟨hcols, hlevels⟩ := hg
  simp only [inGeometry, decide_eq_true_eq] at hx
  exact cellOfCode_cellCode x (by omega) (by omega) (by omega)

theorem cellKept_iff {c : Cell} :
    cellKept c = true ↔ (∃ b, c = .occupied b) ∨ (∃ b p, c = .reserved b p) ∨ ∃ b, c = .unverified b := by
  cases c <;> simp [cellKept]

theorem outside_iff {x : CellAddr} (h : 1 ≤ x.col) :
    inGeometry g x = false ↔ g.aisleCount < aisleNo x.aisle ∨ g.columns < x.col ∨ g.levels ≤ x.level := by
  simp only [inGeometry, decide_eq_false_iff_not]
  omega

/-- A listed cell that a geometry would leave out, by the cells' records. -/
theorem cellsBlock_iff (hs : KSorted y.cells) (hf : GeometryFits e.cfg.geometry) :
    ((listedCells y).any fun p => inGeometry e.cfg.geometry p.1 && !inGeometry g p.1 && cellKept p.2) = true
      ↔ ∃ x : CellAddr, (g.aisleCount < aisleNo x.aisle ∨ g.columns < x.col ∨ g.levels ≤ x.level)
        ∧ ((∃ b, getCell e x y = .occupied b) ∨ (∃ b p, getCell e x y = .reserved b p) ∨ ∃ b, getCell e x y = .unverified b) := by
  simp only [List.any_eq_true, Bool.and_eq_true, Bool.not_eq_true', Prod.exists, ← cellKept_iff]
  constructor
  · rintro ⟨x, c, hx, ⟨hin, hout⟩, hc⟩
    obtain ⟨k, hk, ha⟩ := (mem_listedCells hs).1 hx
    have hcol : 1 ≤ x.col := by simp only [inGeometry, decide_eq_true_eq] at hin; omega
    have hget : getCell e x y = c := by simp [getCell, hin, cellCode_of_cellOfCode ha, hk]
    exact ⟨x, (outside_iff hcol).1 hout, hget ▸ hc⟩
  · rintro ⟨x, hout, hc⟩
    have hin : inGeometry e.cfg.geometry x = true :=
      inGeometry_of_getCell_ne_absent (y := y) fun h => by simp [h, cellKept] at hc
    have hcol : 1 ≤ x.col := by simp only [inGeometry, decide_eq_true_eq] at hin; omega
    have hget : getCell e x y = (kget y.cells (cellCode x)).getD .empty := by simp [getCell, hin]
    cases hk : kget y.cells (cellCode x) with
    | none => simp [hget, hk, cellKept] at hc
    | some c =>
      rw [hget, hk] at hc
      exact ⟨x, c, (mem_listedCells hs).2 ⟨_, hk, cellOfCode_of_inGeometry hf hin⟩, ⟨hin, (outside_iff hcol).2 hout⟩, hc⟩

/-- A bin that an aisle left out has in its inbound place or on its fork. -/
theorem binsBlock_iff :
    (aisles.any fun a => decide (g.aisleCount < aisleNo a) && aisleIn e a && (y.lines.inbound[a].isSome || y.carriers[a].load.isSome)) = true
      ↔ ∃ n : Aisle, g.aisleCount < aisleNo n ∧ aisleNo n ≤ e.cfg.geometry.aisleCount
        ∧ (y.lines.inbound[n] ≠ none ∨ y.carriers[n].load ≠ none) := by
  simp [List.any_eq_true, mem_aisles, aisleIn, Option.isSome_iff_ne_none, and_assoc]

theorem runOf_eq_some {t : Option Task} {r : SurveyRun} : runOf t = some r ↔ r.ended = false ∧ t = some (.survey r) := by
  unfold runOf
  split
  next q =>
    have hs : some (Task.survey q) = some (Task.survey r) ↔ q = r := by simp
    rw [hs]
    split
    next he => exact ⟨fun h => (nomatch h), fun ⟨hr, h⟩ => by simp [← h, he] at hr⟩
    next he => exact ⟨fun h => ⟨by simpa [← Option.some.inj h] using he, Option.some.inj h⟩, fun ⟨_, h⟩ => by rw [h]⟩
  next hn => exact ⟨fun h => (nomatch h), fun ⟨_, h⟩ => (hn r h).elim⟩

theorem surveying_iff (a : Aisle) : surveying a y = true ↔ ∃ r : SurveyRun, r.ended = false
    ∧ (y.carriers[a].task = some (.survey r) ∨ y.carriers[a].suspended = some (.survey r)) := by
  simp only [and_or_left, ← runOf_eq_some, exists_or, surveying, surveyOf]
  cases runOf y.carriers[a].task with
  | some r => simp
  | none => simp [Option.isSome_iff_exists]

/-- A survey runs or is requested. -/
theorem surveysBlock_iff : (aisles.any fun a => surveying a y || y.arbs[a].surveyReq.isSome) = true
    ↔ ∃ n : Aisle, y.arbs[n].surveyReq ≠ none ∨ ∃ r : SurveyRun, r.ended = false
        ∧ (y.carriers[n].task = some (.survey r) ∨ y.carriers[n].suspended = some (.survey r)) := by
  simp only [List.any_eq_true, mem_aisles, true_and, Bool.or_eq_true, surveying_iff, Option.isSome_iff_ne_none]
  exact exists_congr fun _ => or_comm

/-! ## A geometry that is taken -/

/-- The aisles that leave the geometry: their carriers and arbiters anew, and their drives out of discovery. -/
theorem aislesLeave_frame (l : List Aisle) (y : Yard) : ∃ carriers arbs disc,
    l.foldl (fun y a => aisleLeaves a y) y = { y with carriers := carriers, arbs := arbs, disc := disc }
      ∧ ∀ n, n ∉ l → carriers[n] = y.carriers[n] := by
  induction l generalizing y with
  | nil => exact ⟨_, _, _, rfl, fun _ _ => rfl⟩
  | cons a t ih =>
    obtain ⟨c, r, d, hz, hc⟩ := ih (aisleLeaves a y)
    refine ⟨c, r, d, hz, fun n hn => ?_⟩
    simp only [List.mem_cons, not_or] at hn
    obtain ⟨hna, hnt⟩ := hn
    rw [hc n hnt]
    exact (vset_get ..).trans (if_neg fun h => hna h.symm)

/-- The aisles that enter the geometry: their drives are asked, and expected while discovery runs. -/
theorem aislesEnter_frame (l : List Aisle) (y : Yard) : ∃ disc bus,
    l.foldl (fun y a => aisleEnters a y) y = { y with disc := disc, bus := bus } := by
  induction l generalizing y with
  | nil => exact ⟨_, _, rfl⟩
  | cons a t ih =>
    obtain ⟨d, b, hz⟩ := ih (aisleEnters a y)
    exact ⟨d, b, hz⟩

theorem discoverySync_frame (e : Env) (y : Yard) : ∃ disc post, discoverySync e y = { y with disc := disc, post := post } := by
  unfold discoverySync endDiscovery
  split
  · split
    · exact ⟨_, _, rfl⟩
    · exact ⟨_, _, rfl⟩
  · exact ⟨_, _, rfl⟩

/-- The settings with a geometry taken: it is valid, and the park column lies within it. -/
def withGeometry (g : Geometry) (c : Settings) : Settings :=
  { c with geometry := g, geomValid := true, fire := { c.fire with parkColumn := min g.columns c.fire.parkColumn } }

/-- The yard once a geometry is taken: the map cut down to it, the write asked for, and beside these only what aisles
that leave or enter have of carriers, arbiters, discovery, bus and notices. -/
structure GeometryTaken (g : Geometry) (y z : Yard) : Prop where
  cells : z.cells = (cellsWithin g y).cells
  bins : z.bins = y.bins
  orders : z.orders = y.orders
  desks : SameDesks y z
  carriers : ∀ n : Aisle, aisleNo n ≤ g.aisleCount → z.carriers[n] = y.carriers[n]
  asked : .settings (.geometry g) ∈ z.journal.ctl

theorem secGeometry_taken {a c l : Nat} {s : State} (hg : g = ⟨clamp 1 6 a, clamp 8 64 c, clamp 4 16 l⟩)
    (hw : s.wing.st = .standby) (hb : geometryBlocked (envOf s) g s.yard = false) :
    ∃ z, GeometryTaken g s.yard z ∧ secGeometry a c l s = ({ s with yard := z, cfg := withGeometry g s.cfg },
        ⟨1, .ok, none, [.u1 g.aisleCount, .u1 g.columns, .u1 g.levels]⟩) := by
  unfold secGeometry
  rw [← hg]
  have hno : ¬ (s.wing.st ≠ .standby ∨ geometryBlocked (envOf s) g s.yard = true) := by simp [hw, hb]
  dsimp only
  rw [if_neg hno]
  obtain ⟨journal, hcut⟩ : ∃ j, cellsChange .empty (cellsBeyond g s.cfg.geometry)
      (cellsChange .absent (cellsBeyond s.cfg.geometry g) (cellsWithin g s.yard)) = { cellsWithin g s.yard with journal := j } := ⟨_, rfl⟩
  obtain ⟨carriers, arbs, disc, hleave, hkept⟩ := aislesLeave_frame
    (aisles.filter fun a => g.aisleCount < aisleNo a ∧ aisleNo a ≤ s.cfg.geometry.aisleCount) { cellsWithin g s.yard with journal := journal }
  rw [hcut, hleave]
  obtain ⟨disc', bus, henter⟩ := aislesEnter_frame
    (aisles.filter fun a => s.cfg.geometry.aisleCount < aisleNo a ∧ aisleNo a ≤ g.aisleCount)
    { cellsWithin g s.yard with journal := journal, carriers := carriers, arbs := arbs, disc := disc }
  rw [henter]
  obtain ⟨disc'', post, hsync⟩ := discoverySync_frame { envOf s with cfg := withGeometry g s.cfg } (ctlRequest (.settings (.geometry g))
    { cellsWithin g s.yard with journal := journal, carriers := carriers, arbs := arbs, disc := disc', bus := bus })
  refine ⟨_, ?_, Prod.ext (congrArg (fun y => ({ s with yard := y, cfg := withGeometry g s.cfg } : State)) hsync) rfl⟩
  exact {
    cells := rfl, bins := rfl, orders := rfl, desks := ⟨rfl, rfl, rfl⟩
    carriers := fun n hn => hkept n fun h => absurd (of_decide_eq_true (List.mem_filter.1 h).2).1 (by omega)
    asked := mem_ctlPut _ _ _ }

/-- A geometry is blocked while a cell, an inbound place or a load would be left out, or a survey stands. -/
theorem geometryBlocked_iff (hs : KSorted y.cells) (hf : GeometryFits e.cfg.geometry) : geometryBlocked e g y = true ↔
    (∃ x : CellAddr, (g.aisleCount < aisleNo x.aisle ∨ g.columns < x.col ∨ g.levels ≤ x.level)
        ∧ ((∃ b, getCell e x y = .occupied b) ∨ (∃ b p, getCell e x y = .reserved b p) ∨ ∃ b, getCell e x y = .unverified b))
      ∨ (∃ n : Aisle, g.aisleCount < aisleNo n ∧ aisleNo n ≤ e.cfg.geometry.aisleCount
        ∧ (y.lines.inbound[n] ≠ none ∨ y.carriers[n].load ≠ none))
      ∨ ∃ n : Aisle, y.arbs[n].surveyReq ≠ none ∨ ∃ r : SurveyRun, r.ended = false
        ∧ (y.carriers[n].task = some (.survey r) ∨ y.carriers[n].suspended = some (.survey r)) := by
  rw [geometryBlocked, Bool.or_eq_true, Bool.or_eq_true, cellsBlock_iff hs hf, binsBlock_iff, surveysBlock_iff, or_assoc]

/-- A Geometry section that nothing holds back takes effect in Standby. -/
theorem configureGeometry_taken {h : ReqHdr} {a c l : Nat} {s : State} (hT : Taken h s)
    (hg : g = ⟨clamp 1 6 a, clamp 8 64 c, clamp 4 16 l⟩) (hw : s.wing.st = .standby)
    (hb : geometryBlocked (envOf s) g s.yard = false) :
    ∃ z, GeometryTaken g s.yard z ∧ Completes (.configureGeometry h a c l []) s
      { s with yard := z, cfg := withGeometry g s.cfg
               link := answeredLink 0x02 h .ok [.u1 1, .u1 0, .u1 g.aisleCount, .u1 g.columns, .u1 g.levels] s.link } := by
  obtain ⟨z, hz, hsec⟩ := secGeometry_taken (s := entered (reqCode .configure) h s) hg hw hb
  have hdone := configure_completes (c := .geometry a c l) hT hsec rfl rfl
  exact ⟨z, ⟨hz.cells, hz.bins, hz.orders, ⟨hz.desks.lines, hz.desks.stations, hz.desks.trays⟩, hz.carriers, hz.asked⟩, hdone⟩

/-- A Geometry section that something holds back, or outside Standby, changes no record. -/
theorem configureGeometry_busy {h : ReqHdr} {a c l : Nat} {s : State} (hT : Taken h s)
    (hb : s.wing.st ≠ .standby ∨ geometryBlocked (envOf s) ⟨clamp 1 6 a, clamp 8 64 c, clamp 4 16 l⟩ s.yard = true) :
    Completes (.configureGeometry h a c l []) s
      { clearBus s with link := answeredLink 0x02 h .busy [.u1 1, .u1 0x10] s.link } := by
  refine configure_completes (t := entered (reqCode .configure) h s) (r := ⟨1, .busy, none, []⟩) hT ?_ rfl rfl
  exact if_pos hb

end Sys2Proof.Machine
end

