-- ==== Sys2Proof/Proofs/CellsSection.lean ====
section
/-! PROOF. The Cells section of Configure (R3, R47). -/

namespace Sys2Proof.Machine

open Sys2Proof

variable {e : Env} {y : Yard} {x : CellAddr} {disable : Bool}

/-- The item that disables a cell, or enables it. -/
def cellOrder (x : CellAddr) (disable : Bool) : CellItem := ⟨cellCode x, if disable then 1 else 2⟩

/-- A front cell is held by a fork segment in flight that is aimed at the deep cell behind it (R47). -/
theorem frontHeld_iff : frontHeld x y = true ↔ ∃ g z, y.carriers[x.aisle].seg = some g
    ∧ (g.kind = .forkIn ∨ g.kind = .forkOut) ∧ g.target = .cell z ∧ z.depth = .deep ∧ x = { z with depth := .front } := by
  unfold frontHeld
  cases hs : y.carriers[x.aisle].seg with
  | none => simp
  | some g =>
    have hseg : ∀ q, some g = some q ↔ q = g := fun q => ⟨fun h => (Option.some.inj h).symm, fun h => h ▸ rfl⟩
    simp only [hseg, exists_and_left, exists_eq_left]
    split
    next a hk ht => exact decide_eq_true_iff.trans (by simp only [hk, ht, atDepth]; simp)
    next a hk ht => exact decide_eq_true_iff.trans (by simp only [hk, ht, atDepth]; simp)
    next hin hout =>
      refine ⟨fun h => (nomatch h), ?_⟩
      rintro ⟨hk | hk, a, ht, -⟩
      · exact (hin a hk ht).elim
      · exact (hout a hk ht).elim

/-! ## One item -/

theorem cellItem_busy (hheld : disable = true → getCell e x y = .empty → frontHeld x y = true)
    (hempty : disable = true ∨ getCell e x y ≠ .empty) (hdis : getCell e x y ≠ .disabled) : cellItem e x disable y = (y, .busy) := by
  unfold cellItem
  split
  next h => rw [if_pos (hheld rfl h)]
  next h => exact absurd h hdis
  next h => exact (hempty.resolve_left (by simp) h).elim
  next h => exact absurd h hdis
  next => rfl

theorem cellItem_done (hc : getCell e x y = if disable then .empty else .disabled) (hheld : disable = true → frontHeld x y = false) :
    cellItem e x disable y = (setCell e x (if disable then .disabled else .empty) y, .ok) := by
  unfold cellItem
  cases disable with
  | true => simp only [if_true] at hc; simp [hc, hheld rfl]
  | false => simp only [Bool.false_eq_true, if_false] at hc; simp [hc]

/-! ## A section of one item -/

/-- The rule for an item of the section: its cell is looked up by its code. -/
def cellRule (e : Env) (i : CellItem) (y : Yard) : Yard × ReplyCode :=
  match cellOfCode i.code with
  | some a => cellItem e a (i.action = 1) y
  | none => (y, .busy)

/-- The state that the items' outcomes leave, with the write asked for when one was taken. -/
def cellsLeft (r : Yard × List ReplyCode) (s : State) : State :=
  if sectionApplied r.2 then storeSettings (.cells (disabledCells r.1)) { s with yard := r.1 } else { s with yard := r.1 }

theorem secCells_eq {items : List CellItem} {s : State}
    (h : ∀ i ∈ items, (cellOfCode i.code).isSome = true ∧ (i.action = 1 ∨ i.action = 2)) :
    secCells items s = (cellsLeft (runItems (envOf s) (cellRule (envOf s)) items s.yard) s,
      let cs := (runItems (envOf s) (cellRule (envOf s)) items s.yard).2
      ⟨2, itemsCode cs, some cs, listFlds (takenItems items cs) fun i => [.u2 i.code, .u1 i.action]⟩) := by
  have hform : ¬(items.any fun i => (cellOfCode i.code).isNone || !(i.action = 1 || i.action = 2)) = true := by
    rw [List.any_eq_true]
    rintro ⟨i, hi, hbad⟩
    obtain ⟨hcode, hact⟩ := h i hi
    rcases hact with hact | hact <;> simp [hact] at hbad <;> simp [hbad] at hcode
  unfold secCells
  rw [if_neg hform]
  rfl

theorem runItems_one {c : ReplyCode} {z : Yard} (hx : cellOfCode (cellCode x) = some x) (hi : cellItem e x disable y = (z, c)) :
    runItems e (cellRule e) [cellOrder x disable] y = (z, [c]) := by
  have hact : decide ((cellOrder x disable).action = 1) = disable := by cases disable <;> rfl
  have hrule : cellRule e (cellOrder x disable) y = (z, c) := by
    rw [cellRule, show cellOfCode (cellOrder x disable).code = some x from hx, hact]
    exact hi
  simp [runItems, hrule]

theorem secCells_one {s : State} {c : ReplyCode} {z : Yard} (hx : cellOfCode (cellCode x) = some x)
    (hi : cellItem (envOf s) x disable s.yard = (z, c)) :
    secCells [cellOrder x disable] s = (cellsLeft (z, [c]) s, ⟨2, itemsCode [c], some [c],
      listFlds (takenItems [cellOrder x disable] [c]) fun i => [.u2 i.code, .u1 i.action]⟩) := by
  rw [secCells_eq, runItems_one hx hi]
  simp only [List.mem_singleton, forall_eq]
  exact ⟨Option.isSome_iff_exists.2 ⟨x, hx⟩, by cases disable <;> simp [cellOrder]⟩

/-! ## The request -/

variable {h : ReqHdr} {s : State}

/-- An item that is refused changes nothing, and the section is BUSY. -/
theorem configureCells_busy (hT : Taken h s) (hx : cellOfCode (cellCode x) = some x)
    (hheld : disable = true → getCell (envOf s) x s.yard = .empty → frontHeld x s.yard = true)
    (hempty : disable = true ∨ getCell (envOf s) x s.yard ≠ .empty) (hdis : getCell (envOf s) x s.yard ≠ .disabled) :
    Completes (.configureCells h [cellOrder x disable] []) s { clearBus s with
      link := answeredLink 0x02 h .busy [.u1 2, .u1 0x10, .u1 1, .u1 0x10, .u1 0] s.link } :=
  configure_completes (c := .cells [cellOrder x disable]) (t := entered (reqCode .configure) h s) hT
    (secCells_one (s := entered (reqCode .configure) h s) hx (cellItem_busy hheld hempty hdis)) rfl rfl

/-- An item that is taken changes its cell's record and asks for the section's write. -/
theorem configureCells_done (hT : Taken h s) (hx : cellOfCode (cellCode x) = some x)
    (hc : getCell (envOf s) x s.yard = if disable then .empty else .disabled) (hheld : disable = true → frontHeld x s.yard = false) :
    ∃ z, z = setCell (envOf s) x (if disable then .disabled else .empty) { s.yard with bus := [] }
      ∧ Completes (.configureCells h [cellOrder x disable] []) s { s with
        yard := ctlRequest (.settings (.cells (disabledCells z))) z
        link := answeredLink 0x02 h .ok
          [.u1 2, .u1 0, .u1 1, .u1 0, .u1 1, .u2 (cellCode x), .u1 (if disable then 1 else 2)] s.link } :=
  ⟨_, rfl, configure_completes (c := .cells [cellOrder x disable]) hT
    (secCells_one (s := entered (reqCode .configure) h s) hx (cellItem_done hc hheld)) rfl rfl⟩

/-- A section without items asks for its write and changes nothing else (R211). -/
theorem configureCells_none (hT : Taken h s) : Completes (.configureCells h [] []) s { s with
    yard := ctlRequest (.settings (.cells (disabledCells s.yard))) { s.yard with bus := [] }
    link := answeredLink 0x02 h .ok [.u1 2, .u1 0, .u1 0, .u1 0] s.link } :=
  configure_completes (c := .cells []) hT (secCells_eq (s := entered (reqCode .configure) h s) (by simp)) rfl rfl

theorem mem_disabledCells (hs : KSorted y.cells) (hx : cellOfCode (cellCode x) = some x) :
    x ∈ disabledCells y ↔ kget y.cells (cellCode x) = some .disabled := by
  simp only [disabledCells, List.mem_filterMap, Prod.exists]
  constructor
  · rintro ⟨a, c, hmem, hp⟩
    split at hp
    next hc =>
      cases hp
      obtain ⟨k, hk, ha⟩ := (mem_listedCells hs).1 hmem
      rw [cellCode_of_cellOfCode ha, hk, show c = .disabled from hc]
    next => cases hp
  · intro hk
    exact ⟨x, .disabled, (mem_listedCells hs).2 ⟨_, hk, hx⟩, if_pos rfl⟩

end Sys2Proof.Machine
end

