-- ==== Sys2Proof/Proofs/StationsSection.lean ====
section
/-! PROOF. The Stations section of Configure (R108), and Closing and Closed by the committed count (R107). -/

namespace Sys2Proof.Machine

open Sys2Proof

variable {e : Env} {st : Station} {w y z : Yard}

/-! ## A change of role -/

/-- What a change of a station's role leaves alone: map, motion, lines and journal, every other station, and, when the
role itself has been set, the role. -/
structure DeskOnly (st : Station) (y z : Yard) : Prop extends SameMotion y z where
  cells : z.cells = y.cells
  lines : z.lines = y.lines
  journal : z.journal = y.journal
  role : z.stations[st].role = y.stations[st].role
  others : ∀ x : Station, x ≠ st → z.stations[x] = y.stations[x]

namespace DeskOnly

theorem refl (y : Yard) : DeskOnly st y y := ⟨⟨rfl, rfl, rfl⟩, rfl, rfl, rfl, rfl, fun _ _ => rfl⟩

theorem trans (h : DeskOnly st w y) (g : DeskOnly st y z) : DeskOnly st w z where
  carriers := g.carriers.trans h.carriers
  arbs := g.arbs.trans h.arbs
  est := g.est.trans h.est
  cells := g.cells.trans h.cells
  lines := g.lines.trans h.lines
  journal := g.journal.trans h.journal
  role := g.role.trans h.role
  others x hx := (g.others x hx).trans (h.others x hx)

theorem of_edge (h : EdgeOnly y z) : DeskOnly st y z := by
  obtain ⟨_, _, _, _, _, rfl⟩ := h
  exact ⟨⟨rfl, rfl, rfl⟩, rfl, rfl, rfl, rfl, fun _ _ => rfl⟩

theorem modStation {f : StationRec → StationRec} (hf : ∀ r, (f r).role = r.role) (y : Yard) : DeskOnly st y (modStation st f y) where
  carriers := rfl
  arbs := rfl
  est := rfl
  cells := rfl
  lines := rfl
  journal := rfl
  role := (congrArg StationRec.role ((vset_get ..).trans (if_pos rfl))).trans (hf _)
  others _ hx := (vset_get ..).trans (if_neg fun h => hx h.symm)

theorem showStation (y : Yard) : DeskOnly st y (showStation st y) := by
  unfold Machine.showStation
  split
  · exact refl y
  · have h : DeskOnly st y (Machine.modStation st _ y) := modStation (f := fun r => { r with shown := displayOf st y }) (fun _ => rfl) y
    exact { h with }

theorem modSession (f : Session → Session) (y : Yard) : DeskOnly st y (modSession st f y) :=
  modStation (f := fun r => { r with session := r.session.map f }) (fun _ => rfl) y

theorem offer (i : TrayItem) (y : Yard) : DeskOnly st y (offer st i y) := by
  unfold Machine.offer
  split
  · exact refl y
  · split
    · exact refl y
    · split
      · exact (modSession _ y).trans (of_edge (edgeOnly_modItem _ _ _))
      · exact refl y

theorem foldl {α : Type} {f : Yard → α → Yard} (hf : ∀ y a, DeskOnly st y (f y a)) (l : List α) (y : Yard) : DeskOnly st y (l.foldl f y) := by
  induction l generalizing y with
  | nil => exact refl y
  | cons a t ih => exact (hf y a).trans (ih _)

theorem firstFit (y : Yard) : DeskOnly st y (firstFit st y) := by
  unfold Machine.firstFit
  extract_lets offered z
  have hz : DeskOnly st y z := (foldl (fun y i => offer i y) offered y).trans (showStation _)
  split
  · split
    · exact hz.trans (of_edge ⟨_, _, _, _, _, rfl⟩)
    · exact hz
  · exact refl y

theorem spaceChoice (e : Env) (y : Yard) : DeskOnly st y (spaceChoice e st y) := of_edge ⟨_, _, _, _, _, spaceChoice_frame e st y⟩

theorem roleOpens (e : Env) (y : Yard) : DeskOnly st y (roleOpens e st y) := by
  unfold Machine.roleOpens
  extract_lets edge z
  have hz : DeskOnly st y z := by
    refine .trans ?_ (firstFit _)
    split
    · exact of_edge ⟨_, _, _, _, _, rfl⟩
    · exact refl y
  split
  · exact hz.trans (spaceChoice e z)
  · exact hz

theorem readdressFold (e : Env) (role : Role) (l : List Order) (y : Yard) :
    DeskOnly st y (l.foldl (fun y o => readdress e st role o y) y) := of_edge ⟨_, _, _, _, _, readdressFold_frame e st role l y⟩

end DeskOnly

/-- The yard with a station's role set and nothing else changed. -/
def withRole (st : Station) (role : Role) (y : Yard) : Yard := modStation st (fun r => { r with role := role }) y

theorem withRole_get (role : Role) (y : Yard) (x : Station) :
    (withRole st role y).stations[x] = if st = x then { y.stations[st] with role := role } else y.stations[x] := vset_get ..

theorem withRole_same {role : Role} (h : y.stations[st].role = role) : withRole st role y = y := by
  have hrec : { y.stations[st] with role := role } = y.stations[st] := by rw [← h]
  have hset : y.stations.set st { y.stations[st] with role := role } = y.stations := by
    rw [hrec]
    simp
  exact congrArg (fun v => { y with stations := v }) hset

/-- A station that takes a role has it, and nothing that the change leaves alone is changed (R89, R107, R137). -/
theorem setRole_only (e : Env) (role : Role) (y : Yard) : DeskOnly st (withRole st role y) (setRole e st role y) := by
  unfold setRole
  split
  next h => rw [withRole_same h]; exact .refl y
  next =>
    dsimp only
    split
    next => exact (DeskOnly.readdressFold e role _ (withRole st role y)).trans (.roleOpens e _)
    next =>
      have hdemand : DeskOnly st (withRole st role y) (demandEnd st (withRole st role y)) := .of_edge ⟨_, _, _, _, _, rfl⟩
      exact hdemand.trans (.readdressFold e role _ _)

/-! ## Closing and Closed (R107) -/

/-- The trays' demand is as it was. -/
def DemandKept (y z : Yard) : Prop := ∀ d : Station, z.trays[d].demand = y.trays[d].demand

namespace DemandKept

theorem refl (y : Yard) : DemandKept y y := fun _ => rfl

theorem trans (h : DemandKept w y) (g : DemandKept y z) : DemandKept w z := fun d => (g d).trans (h d)

theorem modTray (d : Station) {f : Tray → Tray} (hf : ∀ t, (f t).demand = t.demand) (y : Yard) : DemandKept y (modTray d f y) := by
  intro x
  rw [modTray_get]
  split
  next h => exact h ▸ hf _
  next => rfl

theorem spaceChoice (e : Env) (d : Station) (y : Yard) : DemandKept y (spaceChoice e d y) := by
  obtain ⟨n, m, f, h⟩ := spaceChoice_trays e d y
  intro x
  rw [h, vset_get]
  split
  next hx => exact hx ▸ rfl
  next => rfl

theorem trayOrderLeft (e : Env) (no : Nat) (d : Station) (y : Yard) : DemandKept y (trayOrderLeft e no d y) := by
  unfold Machine.trayOrderLeft
  split
  · exact (modTray d (f := fun t => { t with spaceOrder := none }) (fun _ => rfl) y).trans (spaceChoice e d _)
  · split
    · exact spaceChoice e d y
    · exact refl y

theorem foldl {α : Type} {f : Yard → α → Yard} (hf : ∀ y a, DemandKept y (f y a)) (l : List α) (y : Yard) : DemandKept y (l.foldl f y) := by
  induction l generalizing y with
  | nil => exact refl y
  | cons a t ih => exact (hf y a).trans (ih _)

theorem removeOrder (e : Env) (no : Nat) (y : Yard) : DemandKept y (removeOrder e no y) := by
  have hdrop : DemandKept y (dropOrder no y) := by rw [dropOrder_frame]; exact refl y
  exact hdrop.trans (foldl (fun y d => trayOrderLeft e no d y) stationList _)

theorem readdress (e : Env) (role : Role) (o : Order) (y : Yard) : DemandKept y (readdress e st role o y) := by
  unfold Machine.readdress
  split
  · split
    · exact removeOrder e o.no y
    · split
      · exact refl y
      · split
        · exact refl y
        · exact refl y
  · exact refl y

end DemandKept

/-- A station that takes a role without returns has no demand (R137). -/
theorem setRole_noDemand {role : Role} (hr : takesReturns role = false) (h : y.stations[st].role ≠ role) :
    (setRole e st role y).trays[st].demand = false := by
  unfold setRole
  rw [if_neg h]
  simp only [hr, Bool.false_eq_true, if_false]
  rw [DemandKept.foldl (fun y o => DemandKept.readdress e role o y) _ _ st, demandEnd, modTray_get, if_pos rfl]

/-- Closing and Closed follow the committed count of a station configured Closed, and only theirs. -/
theorem syncRole_spec (e : Env) (y : Yard) (st : Station) :
    let role : Role := if committed st y = 0 then .closed else .closing
    let z := syncRole e st y
    ((e.cfg.stations[st].role ≠ .closed ∨ y.stations[st].role = role) → z = y)
    ∧ (e.cfg.stations[st].role = .closed → y.stations[st].role ≠ role →
        z.stations = y.stations.set st { y.stations[st] with role := role } ∧ z.trays[st].demand = false
        ∧ z.lines = y.lines ∧ z.cells = y.cells ∧ SameMotion y z) := by
  intro role z
  constructor
  · intro h
    unfold z syncRole
    split
    next hc => exact if_pos (h.resolve_left fun hn => hn hc)
    next => rfl
  · intro hc hrole
    have hz : z = setRole e st role y := if_pos hc
    have hreturns : takesReturns role = false := by unfold role; split <;> rfl
    have honly := hz ▸ setRole_only e role y
    refine ⟨syncRole_stations e st y hc, ?_, honly.lines, honly.cells, honly.carriers, honly.arbs, honly.est⟩
    rw [hz]
    exact setRole_noDemand hreturns hrole

/-! ## The section -/

theorem stationOf_stationNo (st : Station) : stationOf (stationNo st) = some st := by revert st; decide

variable {h : ReqHdr} {r : Role} {n : Nat} {s : State}

/-- An item that gives a station a role and an allowance. -/
def openOrder (st : Station) (r : Role) (n : Nat) : StationItem := ⟨stationNo st, some (roleCode r), some n⟩

theorem roleOf_roleCode (hr : r = .lending ∨ r = .returns ∨ r = .mixed) : roleOf (roleCode r) = some r := by
  rcases hr with rfl | rfl | rfl <;> rfl

/-- The item opens the station where the others leave room, or it stands open. -/
theorem stationItem_open (hr : r = .lending ∨ r = .returns ∨ r = .mixed) :
    stationItem (openOrder st r n) s
      = if s.yard.stations[st].role ≠ .closed ∨ shareOthers st s ≤ 10 then
          (applyStation st ⟨r, min (min 10 n) (10 - shareOthers st s)⟩ r s, .ok)
        else (s, .busy) := by
  have hrole : (openOrder st r n).role.bind roleOf = some r := roleOf_roleCode hr
  unfold stationItem
  rw [show stationOf (openOrder st r n).station = some st from stationOf_stationNo st]
  dsimp only
  rw [hrole]
  rcases hr with rfl | rfl | rfl <;> simp [openOrder]

/-- The state that the items leave, with the write asked for when one was taken. -/
def stationsLeft (r : State × List (ReplyCode × List Fld)) : State :=
  if sectionApplied (r.2.map (·.1)) then storeSettings (.stations r.1.cfg.stations) r.1 else r.1

theorem secStations_eq {items : List StationItem}
    (h : ∀ i ∈ items, (stationOf i.station).isSome = true ∧ ∀ r, i.role = some r → (roleOf r).isSome = true) :
    secStations items s = (stationsLeft (stationItems items s),
      let rs := (stationItems items s).2
      ⟨5, itemsCode (rs.map (·.1)), some (rs.map (·.1)), listFlds (rs.filter fun r => r.1 = .ok) (·.2)⟩) := by
  unfold secStations
  split
  next hform =>
    obtain ⟨i, hi, hbad⟩ := List.any_eq_true.1 hform
    obtain ⟨hstation, hrole⟩ := h i hi
    cases hr : i.role with
    | none => simp [hr, Option.isSome_iff_ne_none] at hbad hstation; exact absurd hbad hstation
    | some r =>
      have := hrole r hr
      simp only [hr, Bool.or_eq_true, Option.isNone_iff_eq_none] at hbad
      rcases hbad with hbad | hbad <;> simp_all
  next => rfl

theorem stationItems_one {i : StationItem} {t : State} {c : ReplyCode} (hi : stationItem i s = (t, c)) :
    ∃ vals, stationItems [i] s = (t, [(c, vals)]) := ⟨_, by simp only [stationItems, hi]; rfl⟩

theorem secStations_one {t : State} {c : ReplyCode} (hr : r = .lending ∨ r = .returns ∨ r = .mixed)
    (hi : stationItem (openOrder st r n) s = (t, c)) : ∃ vals,
    secStations [openOrder st r n] s = (stationsLeft (t, [(c, vals)]),
      ⟨5, itemsCode [c], some [c], listFlds ([(c, vals)].filter fun r => r.1 = .ok) (·.2)⟩) := by
  obtain ⟨vals, hitems⟩ := stationItems_one hi
  refine ⟨vals, ?_⟩
  rw [secStations_eq, hitems]
  · rfl
  · simp only [List.mem_singleton, forall_eq]
    refine ⟨by rw [openOrder, stationOf_stationNo]; rfl, fun q hq => ?_⟩
    obtain rfl : roleCode r = q := Option.some.inj hq
    rw [roleOf_roleCode hr]
    rfl

/-- A Closed station for which the others leave no room stays Closed, and the section is BUSY. -/
theorem configureStations_busy (hT : Taken h s) (hr : r = .lending ∨ r = .returns ∨ r = .mixed)
    (hclosed : s.yard.stations[st].role = .closed) (hfull : 10 < shareOthers st s) :
    Completes (.configureStations h [openOrder st r n] []) s { clearBus s with
      link := answeredLink 0x02 h .busy [.u1 5, .u1 0x10, .u1 1, .u1 0x10, .u1 0] s.link } := by
  have hno : ¬(s.yard.stations[st].role ≠ .closed ∨ shareOthers st s ≤ 10) := fun h => h.elim (fun hn => hn hclosed) fun hle => by omega
  have hi : stationItem (openOrder st r n) (entered (reqCode .configure) h s) = (entered (reqCode .configure) h s, .busy) :=
    (stationItem_open hr).trans (if_neg hno)
  obtain ⟨vals, hsec⟩ := secStations_one hr hi
  exact configure_completes (c := .stations [openOrder st r n]) hT hsec rfl rfl

/-- The settings once a station has a role, with the allowance that fits beside the others (R108). -/
def openedCfg (st : Station) (r : Role) (n : Nat) (s : State) : Settings :=
  { s.cfg with stations := s.cfg.stations.set st ⟨r, min (min 10 n) (10 - shareOthers st s)⟩ }

/-- A station that the others leave room for takes its role and the allowance that fits. -/
theorem configureStations_done (hT : Taken h s) (hr : r = .lending ∨ r = .returns ∨ r = .mixed) (hroom : shareOthers st s ≤ 10) :
    ∃ z items, DeskOnly st (withRole st r s.yard) z ∧ Completes (.configureStations h [openOrder st r n] []) s { s with
      yard := ctlRequest (.settings (.stations (openedCfg st r n s).stations)) z
      cfg := openedCfg st r n s
      link := answeredLink 0x02 h .ok items s.link } := by
  have hclosed : r ≠ .closed := by rintro rfl; simp at hr
  have honly := setRole_only (st := st) { envOf s with cfg := openedCfg st r n s } r { s.yard with bus := [] }
  generalize hz : setRole { envOf s with cfg := openedCfg st r n s } st r { s.yard with bus := [] } = z at honly
  have happly : applyStation st ⟨r, min (min 10 n) (10 - shareOthers st s)⟩ r (entered (reqCode .configure) h s)
      = { entered (reqCode .configure) h s with cfg := openedCfg st r n s, yard := z } :=
    congrArg (fun y => ({ entered (reqCode .configure) h s with cfg := openedCfg st r n s, yard := y } : State)) ((if_neg hclosed).trans hz)
  have hi : stationItem (openOrder st r n) (entered (reqCode .configure) h s)
      = ({ entered (reqCode .configure) h s with cfg := openedCfg st r n s, yard := z }, .ok) :=
    ((stationItem_open hr).trans (if_pos (.inr hroom))).trans (congrArg (·, ReplyCode.ok) happly)
  obtain ⟨vals, hsec⟩ := secStations_one hr hi
  exact ⟨z, _, { honly with }, configure_completes (c := .stations [openOrder st r n]) hT hsec rfl rfl⟩

/-- A section without items asks for its write and changes nothing else (R211). -/
theorem configureStations_none (hT : Taken h s) : Completes (.configureStations h [] []) s { s with
    yard := ctlRequest (.settings (.stations s.cfg.stations)) { s.yard with bus := [] }
    link := answeredLink 0x02 h .ok [.u1 5, .u1 0, .u1 0, .u1 0] s.link } :=
  configure_completes (c := .stations []) hT (secStations_eq (s := entered (reqCode .configure) h s) (by simp)) rfl rfl

end Sys2Proof.Machine
end

