-- ==== Sys2Proof/Proofs/ConfigurePlaces.lean ====
section
/-! PROOF. Configure's sections of places: Geometry, Cells and Stations. -/

namespace Sys2Proof.Machine

open Sys2Proof

variable {h : ReqHdr} {s : State}

/-- The map cut down to a geometry keeps what is listed within it and nothing else. -/
theorem kget_cellsWithin_eq (g : Geometry) (y : Yard) (k : Nat) : kget (cellsWithin g y).cells k
    = if ((cellOfCode k).map (inGeometry g)).getD false = true then kget y.cells k else none :=
  kget_filter_keys y.cells (fun k => ((cellOfCode k).map (inGeometry g)).getD false) k

/-- What a Cells item that is taken leaves alone. -/
theorem setCell_only (e : Env) (x : CellAddr) (c : Cell) (y : Yard) : (setCell e x c y).bins = y.bins
    ∧ SameMotion y (setCell e x c y) ∧ SameDesks y (setCell e x c y) := by
  have hframe := setCell_frame e x c y
  exact ⟨(congrArg Yard.bins hframe :), ⟨(congrArg Yard.carriers hframe :), (congrArg Yard.arbs hframe :), (congrArg Yard.est hframe :)⟩,
    (congrArg Yard.lines hframe :), (congrArg Yard.stations hframe :), (congrArg Yard.trays hframe :)⟩

/-- Settles O45: each section's effect and refusals, one lemma for each, and the roles that follow the committed count. -/
theorem configureSetsPlaces : Obligations.ConfigureSetsPlaces := by
  refine ⟨fun h s hT => ⟨?_, ?_, ?_, ?_, configureStations_none hT⟩, fun e y => ⟨syncRole_spec e y, rfl⟩⟩
  · intro a c l g kept stands survey hs hf
    have hiff : geometryBlocked (envOf s) g s.yard = true ↔ kept ∨ stands ∨ survey := geometryBlocked_iff hs hf
    constructor
    · intro hw hfree
      obtain ⟨z, hz, hdone⟩ := configureGeometry_taken (g := g) (a := a) (c := c) (l := l) hT rfl hw
        (Bool.eq_false_iff.2 fun hb => hfree (hiff.1 hb))
      exact ⟨_, hdone, rfl, fun k => hz.cells ▸ kget_cellsWithin_eq g s.yard k, hz.bins, hz.orders, hz.desks, rfl, hz.carriers, rfl, hz.asked⟩
    · intro hheld
      exact configureGeometry_busy hT (hheld.imp id hiff.2)
  · intro x disable hs hcol hcols hlevel held
    have hx : cellOfCode (cellCode x) = some x := cellOfCode_cellCode x hcol hcols hlevel
    have hiff : frontHeld x s.yard = true ↔ held := frontHeld_iff
    constructor
    · intro hheld hempty hdis
      exact configureCells_busy hT hx (fun hd he => hiff.2 (hheld hd he)) hempty hdis
    · intro hc hfree
      obtain ⟨z, hz, hdone⟩ := configureCells_done hT hx hc fun hd => Bool.eq_false_iff.2 fun hh => hfree hd (hiff.1 hh)
      obtain ⟨hbins, hmotion, hdesks⟩ := setCell_only (envOf s) x (if disable then .disabled else .empty) { s.yard with bus := [] }
      have hin : getCell (envOf s) x { s.yard with bus := [] } ≠ .absent := by
        rw [show getCell (envOf s) x { s.yard with bus := [] } = _ from hc]
        split <;> simp
      have hset : getCell (envOf s) x z = if disable then .disabled else .empty :=
        hz ▸ getCell_setCell_same (envOf s) x _ _ hs hin (by split <;> simp)
      rw [← hz] at hbins hmotion hdesks
      exact ⟨_, hdone, hset, fun k hk => hz ▸ kget_setCell_other _ _ _ _ k hk, hbins,
        ⟨hmotion.carriers, hmotion.arbs, hmotion.est⟩, ⟨hdesks.lines, hdesks.stations, hdesks.trays⟩, rfl, rfl⟩
  · intro st r n hr others
    constructor
    · exact configureStations_busy hT hr
    · intro hroom
      obtain ⟨z, items, hz, hdone⟩ := configureStations_done (n := n) hT hr hroom
      have hrole : z.stations[st].role = r := by rw [hz.role, withRole_get, if_pos rfl]
      have hothers : ∀ x : Station, x ≠ st → z.stations[x] = s.yard.stations[x] := fun x hx =>
        (hz.others x hx).trans ((withRole_get r s.yard x).trans (if_neg fun hst => hx hst.symm))
      exact ⟨_, hdone, rfl, hrole, hothers, hz.cells, ⟨hz.carriers, hz.arbs, hz.est⟩, hz.lines, mem_ctlPut _ _ _⟩
  · exact ⟨_, configureCells_none hT, fun hs x hcol hcols hlevel => mem_disabledCells hs (cellOfCode_cellCode x hcol hcols hlevel)⟩

end Sys2Proof.Machine
end

