-- ==== Sys2Proof/Proofs/MapLoad.lean ====
section
/-! PROOF. What the steps of the load of the map make of each cell and each bin (R23). -/

namespace Sys2Proof.Machine

open Sys2Proof

variable {g : Geometry} {f : Flash} {l : Loading} {a : CellAddr} {b j k : Nat}

/-! ## The cells place their bins -/

/-- A bin's record once a cell that holds it has placed it: one Retired or placed before stays as it is. -/
def takenBy (o : Option Bin) (h : Option CellAddr) : Option Bin :=
  match o, h with
  | some r, some a => some (if r.st = .retired ∨ r.st = .stored then r else placed r .stored (some a) (some a.aisle) none)
  | o, _ => o

/-- A cell once its bin has been looked up: a bin unknown or Retired is no cell's, and one placed before is another's. -/
def settledCell (bins : Nat → Option Bin) : Option Cell → Option Cell
  | some (.occupied b) =>
    match bins b with
    | none => some (.unverified none)
    | some r => if r.st = .retired then some (.unverified none)
        else if r.st = .stored then some (.unverified (some b)) else some (.occupied b)
  | some (.unverified (some b)) =>
    match bins b with
    | none => some (.unverified none)
    | some r => if r.st = .retired then some (.unverified none) else some (.unverified (some b))
  | c => c

theorem takenBy_none (o : Option Bin) : takenBy o none = o := by cases o <;> rfl

/-- The first cell that holds a bin has it. -/
theorem takenBy_takenBy (o : Option Bin) (a : CellAddr) (h : Option CellAddr) : takenBy (takenBy o (some a)) h = takenBy o (some a) := by
  cases o with
  | none => rfl
  | some r =>
    cases h with
    | none => rfl
    | some x =>
      simp only [takenBy]
      split
      next => rfl
      next => exact congrArg some (if_pos (.inr rfl))

theorem kget_kput (t : List (Nat × α)) (k j : Nat) (x : α) : kget (kput t k x) j = if j = k then some x else kget t j := by
  split
  next h => rw [h, kget_kput_same]
  next h => exact kget_kput_other _ _ _ _ h

/-- A cell's turn settles that cell and places the bin it holds. -/
structure Turn (a : CellAddr) (k : Nat) (l z : Loading) : Prop where
  cells : ∀ j, kget z.cells j = if j = k then settledCell (kget l.bins) (kget l.cells k) else kget l.cells j
  bins : ∀ b, kget z.bins b = if kget l.cells k = some (.occupied b) then takenBy (kget l.bins b) (some a) else kget l.bins b

/-- A turn that gives the cell another content places no bin. -/
theorem Turn.recell {c : Cell} (hc : settledCell (kget l.bins) (kget l.cells k) = some c)
    (hb : ∀ b, kget l.cells k = some (.occupied b) → takenBy (kget l.bins b) (some a) = kget l.bins b) :
    Turn a k l { l with cells := kput l.cells k c } where
  cells j := hc ▸ kget_kput ..
  bins b := by
    split
    next h => exact (hb b h).symm
    next => rfl

/-- A turn that finds nothing to place changes nothing. -/
theorem Turn.same (hc : settledCell (kget l.bins) (kget l.cells k) = kget l.cells k) (hb : ∀ b, kget l.cells k ≠ some (.occupied b)) :
    Turn a k l l where
  cells j := by
    split
    next h => rw [hc, h]
    next => rfl
  bins b := (if_neg (hb b)).symm

theorem loadPlace_turn (ha : cellOfCode k = some a) : Turn a k l (loadPlace l k) := by
  unfold loadPlace
  split
  next a' b ha' hk =>
    obtain rfl : a = a' := Option.some.inj (ha.symm.trans ha')
    have hone : ∀ {o : Option Bin}, kget l.bins b = o → takenBy o (some a) = o →
        ∀ d, kget l.cells k = some (.occupied d) → takenBy (kget l.bins d) (some a) = kget l.bins d := by
      rintro o rfl ho d hd
      cases hk.symm.trans hd
      exact ho
    split
    next r hr =>
      split
      next hst => exact .recell (by simp [hk, settledCell, hr, hst]) (hone hr (by simp [takenBy, hst]))
      next hret =>
        split
        next hst => exact .recell (by simp [hk, settledCell, hr, hst]) (hone hr (by simp [takenBy, hst]))
        next hst =>
          refine ⟨fun j => ?_, fun d => ?_⟩
          · split
            next hj => simp [hj, hk, settledCell, hr, hret, hst]
            next => rfl
          · rw [kget_kput, hk]
            by_cases hd : d = b
            · simp [hd, hr, takenBy, hret, hst]
            · rw [if_neg hd, if_neg fun h => hd (by cases h; rfl)]
    next hr => exact .recell (by simp [hk, settledCell, hr]) (hone hr rfl)
  next b _ hk =>
    have hno : ∀ d, kget l.cells k ≠ some (.occupied d) := fun d => by simp [hk]
    split
    next r hr =>
      split
      next hst => exact .recell (by simp [hk, settledCell, hr, hst]) fun d h => absurd h (hno d)
      next hst => exact .same (by simp [hk, settledCell, hr, hst]) hno
    next hr => exact .recell (by simp [hk, settledCell, hr]) fun d h => absurd h (hno d)
  next hocc hunv =>
    refine .same ?_ fun d => hocc a d ha
    unfold settledCell
    split
    next d h => exact (hocc a d ha h).elim
    next d h => exact (hunv a d ha h).elim
    next => rfl

/-- The first cell, of some, that holds a bin. -/
def holder (cells : List (Nat × Cell)) (b : Nat) (keys : List Nat) : Option CellAddr :=
  (keys.find? fun k => kget cells k = some (.occupied b)).bind cellOfCode

theorem holder_cons (cells : List (Nat × Cell)) (b k : Nat) (t : List Nat) : holder cells b (k :: t)
    = if kget cells k = some (.occupied b) then cellOfCode k else holder cells b t := by
  unfold holder
  rw [List.find?_cons]
  split
  next h => rw [if_pos (of_decide_eq_true h), Option.bind_some]
  next h => rw [if_neg (of_decide_eq_false h)]

/-- The cells' turns give each bin to the first cell that holds it. -/
theorem loadPlaces_bins {keys : List Nat} (hn : keys.Nodup) (hcode : ∀ k ∈ keys, (cellOfCode k).isSome = true) (b : Nat) :
    kget (keys.foldl loadPlace l).bins b = takenBy (kget l.bins b) (holder l.cells b keys) := by
  induction keys generalizing l with
  | nil => exact (takenBy_none _).symm
  | cons k t ih =>
    obtain ⟨a, ha⟩ := Option.isSome_iff_exists.1 (hcode k List.mem_cons_self)
    obtain ⟨hk, ht⟩ := List.nodup_cons.1 hn
    have hturn := loadPlace_turn (l := l) ha
    have hrest : holder (loadPlace l k).cells b t = holder l.cells b t := by
      refine congrArg (·.bind cellOfCode) (List.find?_congr fun j hj => ?_)
      have hjk : j ≠ k := fun h => hk (h ▸ hj)
      rw [hturn.cells j, if_neg hjk]
    rw [List.foldl_cons, ih ht fun j hj => hcode j (List.mem_cons_of_mem _ hj), hrest, hturn.bins, holder_cons]
    split
    next => rw [takenBy_takenBy, ha]
    next => rfl

/-- The cells' turns leave the cells alone that have none. -/
theorem loadPlaces_cells_other {keys : List Nat} (hcode : ∀ k ∈ keys, (cellOfCode k).isSome = true) (hj : j ∉ keys) :
    kget (keys.foldl loadPlace l).cells j = kget l.cells j := by
  induction keys generalizing l with
  | nil => rfl
  | cons k t ih =>
    obtain ⟨a, ha⟩ := Option.isSome_iff_exists.1 (hcode k List.mem_cons_self)
    simp only [List.mem_cons, not_or] at hj
    obtain ⟨hjk, hjt⟩ := hj
    rw [List.foldl_cons, ih (fun i hi => hcode i (List.mem_cons_of_mem _ hi)) hjt, (loadPlace_turn ha).cells, if_neg hjk]

/-- A cell is settled by what the cells before it have made of the bins. -/
theorem loadPlaces_cells {before after : List Nat} (hn : (before ++ k :: after).Nodup)
    (hcode : ∀ j ∈ before ++ k :: after, (cellOfCode j).isSome = true) :
    kget ((before ++ k :: after).foldl loadPlace l).cells k
      = settledCell (fun b => takenBy (kget l.bins b) (holder l.cells b before)) (kget l.cells k) := by
  obtain ⟨hbefore, hafter, hdisjoint⟩ := List.nodup_append.1 hn
  obtain ⟨hk, -⟩ := List.nodup_cons.1 hafter
  have hcode₁ : ∀ j ∈ before, (cellOfCode j).isSome = true := fun j hj => hcode j (List.mem_append_left _ hj)
  have hcode₂ : ∀ j ∈ k :: after, (cellOfCode j).isSome = true := fun j hj => hcode j (List.mem_append_right _ hj)
  obtain ⟨a, ha⟩ := Option.isSome_iff_exists.1 (hcode₂ k List.mem_cons_self)
  rw [List.foldl_append, List.foldl_cons, loadPlaces_cells_other (fun j hj => hcode₂ j (List.mem_cons_of_mem _ hj)) hk,
    (loadPlace_turn ha).cells, if_pos rfl, loadPlaces_cells_other hcode₁ fun h => hdisjoint k h k List.mem_cons_self rfl]
  exact congrArg (settledCell · _) (funext fun b => loadPlaces_bins hbefore hcode₁ b)

/-! ## The last known cells -/

/-- The first cell, of some, that names a bin without holding it. -/
def namer (cells : List (Nat × Cell)) (b : Nat) (keys : List Nat) : Option CellAddr :=
  (keys.find? fun k => kget cells k = some (.unverified (some b))).bind cellOfCode

/-- A bin's record once a cell has named it: an Unverified bin without a cell has it as last known cell. -/
def namedBy (o : Option Bin) (h : Option CellAddr) : Option Bin :=
  match o, h with
  | some r, some a => some (if r.st = .unverified ∧ r.cell = none then { r with cell := some a } else r)
  | o, _ => o

theorem namedBy_none (o : Option Bin) : namedBy o none = o := by cases o <;> rfl

theorem namedBy_namedBy (o : Option Bin) (a : CellAddr) (h : Option CellAddr) : namedBy (namedBy o (some a)) h = namedBy o (some a) := by
  cases o with
  | none => rfl
  | some r =>
    cases h with
    | none => rfl
    | some x =>
      simp only [namedBy]
      split
      next => exact congrArg some (if_neg fun h => by simp at h)
      next => rfl

theorem loadLast_cells : (loadLast l k).cells = l.cells := by
  unfold loadLast
  split
  · split
    · split <;> rfl
    · rfl
  · rfl

theorem loadLast_bins (ha : cellOfCode k = some a) (b : Nat) : kget (loadLast l k).bins b
    = if kget l.cells k = some (.unverified (some b)) then namedBy (kget l.bins b) (some a) else kget l.bins b := by
  unfold loadLast
  split
  next a' d ha' hk =>
    obtain rfl : a = a' := Option.some.inj (ha.symm.trans ha')
    have hd : kget l.cells k = some (.unverified (some b)) ↔ b = d :=
      ⟨fun h => by cases hk.symm.trans h; rfl, fun h => h ▸ hk⟩
    simp only [hd]
    split
    next r hr =>
      split
      next hst =>
        rw [kget_kput]
        split
        next h => rw [h, hr, namedBy, if_pos hst]
        next => rfl
      next hst =>
        split
        next h => rw [h, hr, namedBy, if_neg hst]
        next => rfl
    next hr =>
      split
      next h => rw [h, hr]; rfl
      next => rfl
  next hno => rw [if_neg fun h => hno a b ha h]

theorem namer_cons (cells : List (Nat × Cell)) (b k : Nat) (t : List Nat) : namer cells b (k :: t)
    = if kget cells k = some (.unverified (some b)) then cellOfCode k else namer cells b t := by
  unfold namer
  rw [List.find?_cons]
  split
  next h => rw [if_pos (of_decide_eq_true h), Option.bind_some]
  next h => rw [if_neg (of_decide_eq_false h)]

/-- The cells that name a bin leave the cells alone and give it the first of them as last known cell. -/
theorem loadLasts_spec {keys : List Nat} (hcode : ∀ k ∈ keys, (cellOfCode k).isSome = true) :
    (keys.foldl loadLast l).cells = l.cells
    ∧ ∀ b, kget (keys.foldl loadLast l).bins b = namedBy (kget l.bins b) (namer l.cells b keys) := by
  induction keys generalizing l with
  | nil => exact ⟨rfl, fun b => (namedBy_none _).symm⟩
  | cons k t ih =>
    obtain ⟨a, ha⟩ := Option.isSome_iff_exists.1 (hcode k List.mem_cons_self)
    obtain ⟨hcells, hbins⟩ := ih (l := loadLast l k) fun j hj => hcode j (List.mem_cons_of_mem _ hj)
    refine ⟨hcells.trans loadLast_cells, fun b => ?_⟩
    rw [List.foldl_cons, hbins, loadLast_cells, loadLast_bins ha, namer_cons]
    split
    next => rw [namedBy_namedBy, ha]
    next => rfl

end Sys2Proof.Machine
end

