-- ==== Sys2Proof/Proofs/MapBase.lean ====
section
/-! PROOF. The map before the cells place their bins: what is stored within the geometry, with the Cells section's
word on what is Disabled (R23). -/

namespace Sys2Proof.Machine

open Sys2Proof

variable {g : Geometry} {f : Flash} {l : Loading} {x : CellAddr} {b j k : Nat} {disabled : Option (List CellAddr)}

/-! ## The Cells section governs what is Disabled -/

/-- Whether a code names a cell that the section does not list. -/
def delisted (listed : List CellAddr) (k : Nat) : Bool :=
  match cellOfCode k with
  | some a => !listed.contains a
  | none => false

/-- A cell that the section does not list is not Disabled. -/
def unlistedCell (listed : List CellAddr) (k : Nat) (o : Option Cell) : Option Cell :=
  if o = some .disabled ∧ delisted listed k = true then none else o

theorem unlistedCell_twice (listed : List CellAddr) (k : Nat) (o : Option Cell) :
    unlistedCell listed k (unlistedCell listed k o) = unlistedCell listed k o := by
  unfold unlistedCell
  split
  next => exact if_neg fun h => (nomatch h.1)
  next => rfl

theorem loadUnlisted_spec (listed : List CellAddr) (hs : KSorted l.cells) :
    KSorted (loadUnlisted listed l k).cells ∧ (loadUnlisted listed l k).bins = l.bins
    ∧ ∀ j, kget (loadUnlisted listed l k).cells j = if j = k then unlistedCell listed k (kget l.cells k) else kget l.cells j := by
  have hsame : ¬(kget l.cells k = some .disabled ∧ delisted listed k = true) → ∀ j,
      kget l.cells j = if j = k then unlistedCell listed k (kget l.cells k) else kget l.cells j := fun hno j => by
    split
    next hj => rw [hj, unlistedCell, if_neg hno]
    next => rfl
  unfold loadUnlisted
  split
  next a ha =>
    have hdel : delisted listed k = !listed.contains a := by simp [delisted, ha]
    rw [← hdel]
    split
    next h =>
      refine ⟨KSorted_kdel _ _ hs, rfl, fun j => ?_⟩
      split
      next hj => rw [hj, unlistedCell, if_pos h]; exact kget_kdel_same _ _ hs
      next hj => exact kget_kdel_other _ _ _ hj
    next h => exact ⟨hs, rfl, hsame h⟩
  next ha => exact ⟨hs, rfl, hsame fun h => by simp [delisted, ha] at h⟩

/-- The Disabled cells that the section does not list leave the map. -/
theorem loadUnlisteds_spec (listed : List CellAddr) (keys : List Nat) (hs : KSorted l.cells) :
    (keys.foldl (loadUnlisted listed) l).bins = l.bins
    ∧ ∀ j, kget (keys.foldl (loadUnlisted listed) l).cells j
        = if j ∈ keys then unlistedCell listed j (kget l.cells j) else kget l.cells j := by
  induction keys generalizing l with
  | nil => exact ⟨rfl, fun j => (if_neg List.not_mem_nil).symm⟩
  | cons k t ih =>
    obtain ⟨hs', hbins, hstep⟩ := loadUnlisted_spec (k := k) listed hs
    obtain ⟨hb, hcells⟩ := ih hs'
    refine ⟨hb.trans hbins, fun j => ?_⟩
    rw [List.foldl_cons, hcells, hstep]
    by_cases hjk : j = k
    · subst hjk
      simp only [if_true, List.mem_cons_self, unlistedCell_twice, ite_self]
    · simp only [List.mem_cons, hjk, if_false, false_or]

/-- A cell of the geometry that the section lists is Disabled where nothing else is stored for it. -/
theorem loadListeds_spec (listed : List CellAddr) :
    (listed.foldl (loadListed g) l).bins = l.bins
    ∧ ∀ j, kget (listed.foldl (loadListed g) l).cells j
        = if kget l.cells j = none ∧ ∃ a ∈ listed, inGeometry g a = true ∧ cellCode a = j then some .disabled else kget l.cells j := by
  induction listed generalizing l with
  | nil => exact ⟨rfl, fun j => (if_neg fun h => by simp at h).symm⟩
  | cons a t ih =>
    have hstep : (loadListed g l a).bins = l.bins ∧ ∀ j, kget (loadListed g l a).cells j
        = if kget l.cells j = none ∧ inGeometry g a = true ∧ cellCode a = j then some .disabled else kget l.cells j := by
      unfold loadListed
      split
      next h =>
        refine ⟨rfl, fun j => (kget_kput ..).trans ?_⟩
        by_cases hj : j = cellCode a
        · subst hj
          simp [h]
        · simp [hj, Ne.symm hj]
      next h =>
        refine ⟨rfl, fun j => (if_neg fun hj => h ?_).symm⟩
        obtain ⟨hnone, hin, rfl⟩ := hj
        exact ⟨hin, hnone⟩
    obtain ⟨hb, hcells⟩ := ih (l := loadListed g l a)
    refine ⟨hb.trans hstep.1, fun j => ?_⟩
    rw [List.foldl_cons, hcells, hstep.2]
    by_cases hnow : kget l.cells j = none ∧ inGeometry g a = true ∧ cellCode a = j
    · simp [hnow]
    · rw [if_neg hnow]
      refine if_congr (and_congr_right fun hnone => ?_) rfl rfl
      simp only [List.mem_cons, exists_eq_or_imp]
      exact ⟨.inr, fun h => h.resolve_left fun h => hnow ⟨hnone, h⟩⟩

theorem mem_keys_of_kget {t : List (Nat × α)} {c : α} (h : kget t k = some c) : k ∈ t.map Prod.fst :=
  List.mem_map_of_mem (f := Prod.fst) (mem_of_kget _ _ _ h)

/-- The section first takes cells out and then puts cells in; what else it does concerns the journal. -/
theorem loadDisabled_listed (listed : List CellAddr) : ∃ j, loadDisabled g (some listed) l
    = { listed.foldl (loadListed g) ((l.cells.map Prod.fst).foldl (loadUnlisted listed) l) with journal := j } := by
  unfold loadDisabled
  split
  next h => cases h
  next q h =>
    cases h
    extract_lets l₁ l₂ kept now
    split
    · exact ⟨_, rfl⟩
    · exact ⟨_, rfl⟩

/-- The section's word, where it is loaded: a cell of the geometry that it lists is Disabled unless a bin is stored for
it, and one that it does not list is not. -/
theorem loadDisabled_some (hg : GeometryFits g) (hs : KSorted l.cells) (listed : List CellAddr) :
    (loadDisabled g (some listed) l).bins = l.bins ∧ (inGeometry g x = true →
      kget (loadDisabled g (some listed) l).cells (cellCode x)
        = if kget l.cells (cellCode x) = none ∨ kget l.cells (cellCode x) = some .disabled then
            if x ∈ listed then some .disabled else none
          else kget l.cells (cellCode x)) := by
  obtain ⟨hbins₁, hcells₁⟩ := loadUnlisteds_spec listed (l.cells.map Prod.fst) hs
  obtain ⟨hbins₂, hcells₂⟩ := loadListeds_spec (g := g) (l := (l.cells.map Prod.fst).foldl (loadUnlisted listed) l) listed
  have hl : (loadDisabled g (some listed) l).bins = (listed.foldl (loadListed g) ((l.cells.map Prod.fst).foldl (loadUnlisted listed) l)).bins
      ∧ (loadDisabled g (some listed) l).cells = (listed.foldl (loadListed g) ((l.cells.map Prod.fst).foldl (loadUnlisted listed) l)).cells := by
    obtain ⟨j, h⟩ := loadDisabled_listed (g := g) (l := l) listed
    exact ⟨(congrArg Loading.bins h :), (congrArg Loading.cells h :)⟩
  refine ⟨hl.1.trans (hbins₂.trans hbins₁), fun hx => ?_⟩
  have hcode := cellOfCode_of_inGeometry hg hx
  have hlisted : (∃ a ∈ listed, inGeometry g a = true ∧ cellCode a = cellCode x) ↔ x ∈ listed := by
    constructor
    · rintro ⟨a, ha, hin, hc⟩
      have hsame := cellOfCode_of_inGeometry hg hin
      rw [hc, hcode] at hsame
      exact Option.some.inj hsame ▸ ha
    · exact fun h => ⟨x, h, hx, rfl⟩
  have hleft : kget ((l.cells.map Prod.fst).foldl (loadUnlisted listed) l).cells (cellCode x)
      = unlistedCell listed (cellCode x) (kget l.cells (cellCode x)) := by
    rw [hcells₁]
    split
    next => rfl
    next hk =>
      cases hc : kget l.cells (cellCode x) with
      | none => rfl
      | some c => exact absurd (mem_keys_of_kget hc) hk
  have hdel : delisted listed (cellCode x) = true ↔ x ∉ listed := by simp [delisted, hcode]
  rw [hl.2, hcells₂]
  simp only [hlisted, hleft, unlistedCell, hdel]
  generalize kget l.cells (cellCode x) = o
  by_cases hmem : x ∈ listed
  · simp only [hmem, not_true_eq_false, and_false, if_false, and_true, if_true]
    split
    next h => rw [if_pos (.inl h)]
    next h =>
      split
      next hd => exact hd.resolve_left h
      next => rfl
  · simp only [hmem, not_false_eq_true, and_true, and_false, if_false]
    split
    next h => rw [if_pos (.inr h)]
    next h =>
      split
      next hd => exact hd.resolve_right h
      next => rfl

/-! ## The map before the cells place their bins -/

/-- Reading a table of which some entries are kept, with other contents. -/
theorem kget_filterMap {α β : Type} {t : List (Nat × α)} {φ : Nat × α → Option (Nat × β)} (hφ : ∀ p q, φ p = some q → q.1 = p.1)
    (hs : KSorted t) (k : Nat) : kget (t.filterMap φ) k = (kget t k).bind fun c => (φ (k, c)).map (·.2) := by
  induction t with
  | nil => rfl
  | cons p t ih =>
    obtain ⟨i, c⟩ := p
    simp only [KSorted, List.map_cons, List.pairwise_cons] at hs
    obtain ⟨hlt, ht⟩ := hs
    have hrest := ih ht
    rw [List.filterMap_cons]
    by_cases hik : i = k
    · subst hik
      have hnone : kget t i = none := kget_none_of_lt _ _ fun q hq => hlt q.1 (List.mem_map_of_mem hq)
      rw [hnone] at hrest
      rw [show kget ((i, c) :: t) i = some c from if_pos rfl]
      cases hc : φ (i, c) with
      | none => rw [hrest, Option.bind_some, hc]; rfl
      | some q =>
        have hq : q.1 = i := hφ _ _ hc
        rw [Option.bind_some, hc]
        exact if_pos hq
    · rw [show kget ((i, c) :: t) k = kget t k from if_neg hik, ← hrest]
      cases hc : φ (i, c) with
      | none => rfl
      | some q => exact if_neg fun h => hik ((hφ _ _ hc).symm.trans h)

theorem kget_storedCells (hg : GeometryFits g) (hs : KSorted f.cells) (hx : inGeometry g x = true) :
    kget (storedCells g f) (cellCode x) = (kget f.cells (cellCode x)).bind fun c =>
      if cellOfStored c = .empty then none else some (cellOfStored c) := by
  unfold storedCells
  rw [kget_filterMap _ hs]
  · refine congrArg _ (funext fun c => ?_)
    simp only [cellOfCode_of_inGeometry hg hx, hx, true_and]
    by_cases hc : cellOfStored c = .empty <;> simp [hc]
  · rintro ⟨k, c⟩ q hq
    dsimp only at hq
    split at hq
    · rw [Option.ite_none_right_eq_some] at hq
      exact (Option.some.inj hq.2) ▸ rfl
    · cases hq

/-- The map before the cells place their bins. -/
def mapBase (g : Geometry) (disabled : Option (List CellAddr)) (f : Flash) : Loading :=
  loadDisabled g disabled ⟨storedCells g f, f.attrs.map (loadBin f), .reset⟩

/-- Whether a cell for which no bin is stored is Disabled: by the Cells section, or by its stored content. -/
def disabledBy (disabled : Option (List CellAddr)) (x : CellAddr) (c : Option StoredCell) : Bool :=
  match disabled with
  | some l => l.contains x
  | none => decide (c = some .disabled)

theorem mapBase_lists (hc : KSorted f.cells) (ha : KSorted f.attrs) (hg : GeometryFits g) : LoadLists g (mapBase g disabled f) := by
  have hstart : LoadLists g ⟨storedCells g f, f.attrs.map (loadBin f), .reset⟩ := by
    refine ⟨KSorted_storedCells hc, KSorted_map _ _ (fun _ => rfl) ha, fun k c => storedCells_within, fun b r hr => ?_⟩
    obtain ⟨t, -, rfl⟩ := Option.map_eq_some_iff.1 ((kget_loadBin b).symm.trans hr)
    exact ⟨rfl, by cases hret : t.retired <;> simp [loadBin, inPlace, hret]⟩
  have hl : Loaded .lists g ⟨storedCells g f, f.attrs.map (loadBin f), .reset⟩ := ⟨jHolds_reset _, hstart, fun h => (nomatch h)⟩
  exact (hl.loadDisabled hg disabled).lists

theorem mapBase_bins (hc : KSorted f.cells) (hg : GeometryFits g) : (mapBase g disabled f).bins = f.attrs.map (loadBin f) := by
  cases disabled with
  | none => rfl
  | some listed => exact (loadDisabled_some (x := ⟨0, .north, 0, 0, .front⟩) hg (KSorted_storedCells hc) listed).1

/-- A cell of the geometry keeps the bin that is stored for it, and is else Disabled or Empty. -/
theorem mapBase_get (hc : KSorted f.cells) (hg : GeometryFits g) (hx : inGeometry g x = true) :
    kget (mapBase g disabled f).cells (cellCode x) = match kget f.cells (cellCode x) with
      | some (.occupied b) => some (.occupied b)
      | some (.unverified o) => some (.unverified o)
      | c => if disabledBy disabled x c = true then some .disabled else none := by
  have hstored := kget_storedCells hg hc hx
  cases disabled with
  | none =>
    rw [show mapBase g none f = ⟨storedCells g f, f.attrs.map (loadBin f), .reset⟩ from rfl, hstored]
    cases kget f.cells (cellCode x) with
    | none => rfl
    | some c => cases c <;> rfl
  | some listed =>
    have hget := (loadDisabled_some (l := ⟨storedCells g f, f.attrs.map (loadBin f), .reset⟩) hg (KSorted_storedCells hc) listed).2 hx
    rw [hstored] at hget
    refine hget.trans ?_
    cases kget f.cells (cellCode x) with
    | none => simp [disabledBy]
    | some c => cases c <;> simp [disabledBy, cellOfStored]

end Sys2Proof.Machine
end

