-- ==== Sys2Proof/Proofs/MapRecords.lean ====
section
/-! PROOF. The cells and bins of a loaded map by what flash holds (R23). -/

namespace Sys2Proof.Machine

open Sys2Proof

variable {g : Geometry} {f : Flash} {x : CellAddr} {b k : Nat} {c : StoredCell} {disabled : Option (List CellAddr)}

/-! ## What flash holds -/

/-- A cell of the geometry has a stored content. -/
def InFlash (g : Geometry) (f : Flash) (x : CellAddr) (c : StoredCell) : Prop :=
  inGeometry g x = true ∧ kget f.cells (cellCode x) = some c

/-- The first cell, in address order, with a stored content. -/
def FirstInFlash (g : Geometry) (f : Flash) (x : CellAddr) (c : StoredCell) : Prop :=
  InFlash g f x c ∧ ∀ z, InFlash g f z c → cellCode x ≤ cellCode z

/-- A bin that flash knows and that is not Retired. -/
def KnownBin (f : Flash) (b : Nat) : Prop := ∃ t, kget f.attrs b = some t ∧ t.retired = false

/-- The keys of the map before the cells place their bins. -/
def baseKeys (g : Geometry) (disabled : Option (List CellAddr)) (f : Flash) : List Nat := (mapBase g disabled f).cells.map Prod.fst

theorem loadMap_eq (g : Geometry) (disabled : Option (List CellAddr)) (f : Flash) : loadMap g disabled f
    = (baseKeys g disabled f).foldl loadLast ((baseKeys g disabled f).foldl loadPlace (mapBase g disabled f)) := rfl

/-- In a rising list of codes the least that satisfies a condition is the first found. -/
theorem found_least {keys : List Nat} {p : Nat → Bool} (hs : keys.Pairwise (· < ·)) (hk : k ∈ keys) (hp : p k = true)
    (hmin : ∀ j ∈ keys, p j = true → k ≤ j) (hx : cellOfCode k = some x) : (keys.find? p).bind cellOfCode = some x := by
  have hfind : keys.find? p = some k := by
    obtain ⟨before, after, rfl⟩ := List.append_of_mem hk
    refine List.find?_eq_some_iff_append.2 ⟨hp, before, after, rfl, fun j hj => ?_⟩
    have hlt : j < k := (List.pairwise_append.1 hs).2.2 j hj k List.mem_cons_self
    cases hpj : p j with
    | false => rfl
    | true => exact absurd (hmin j (List.mem_append_left _ hj) hpj) (by omega)
  rw [hfind]
  exact hx

theorem found_none {keys : List Nat} {p : Nat → Bool} (h : ∀ j ∈ keys, p j = false) : (keys.find? p).bind cellOfCode = none := by
  rw [List.find?_eq_none.2 fun j hj => by simp [h j hj]]
  rfl

theorem found_some {keys : List Nat} {p : Nat → Bool} (hcode : ∀ j ∈ keys, (cellOfCode j).isSome = true) (hk : k ∈ keys) (hp : p k = true) :
    ∃ a, (keys.find? p).bind cellOfCode = some a := by
  cases hf : keys.find? p with
  | none => simpa [hp] using List.find?_eq_none.1 hf k hk
  | some j => exact Option.isSome_iff_exists.1 (hcode j (List.mem_of_find?_eq_some hf))

/-! ## The bins as the cells before a code have placed them -/

/-- A bin's record once the cells before a code have had their turns. -/
def binsBefore (g : Geometry) (disabled : Option (List CellAddr)) (f : Flash) (k b : Nat) : Option Bin :=
  takenBy (kget (mapBase g disabled f).bins b) (holder (mapBase g disabled f).cells b ((baseKeys g disabled f).filter (· < k)))

/-- A bin unknown or Retired is not placed. -/
theorem binsBefore_unknown (hc : KSorted f.cells) (hg : GeometryFits g) (h : ¬KnownBin f b) : binsBefore g disabled f k b = none
    ∨ ∃ r, binsBefore g disabled f k b = some r ∧ r.st = .retired := by
  unfold binsBefore
  rw [mapBase_bins hc hg, kget_loadBin]
  generalize holder _ _ _ = o
  cases ht : kget f.attrs b with
  | none => exact .inl rfl
  | some t =>
    have hret : t.retired = true := by
      cases hr : t.retired with
      | true => rfl
      | false => exact (h ⟨t, ht, hr⟩).elim
    refine .inr ⟨(loadBin f (b, t)).2, ?_, by simp [loadBin, hret]⟩
    cases o with
    | none => rfl
    | some a => simp [takenBy, loadBin, hret]

/-- A known bin is Unverified until a cell that holds it has its turn, and then Stored. -/
theorem binsBefore_known (hc : KSorted f.cells) (hg : GeometryFits g) (h : KnownBin f b) : ∃ r, binsBefore g disabled f k b = some r
    ∧ r.st = if (holder (mapBase g disabled f).cells b ((baseKeys g disabled f).filter (· < k))).isSome then .stored else .unverified := by
  obtain ⟨t, ht, hret⟩ := h
  unfold binsBefore
  rw [mapBase_bins hc hg, kget_loadBin, ht]
  generalize holder _ _ _ = o
  cases o with
  | none => exact ⟨_, rfl, by simp [loadBin, hret]⟩
  | some a => exact ⟨_, rfl, by simp [loadBin, hret, placed]⟩

section Map

variable (hc : KSorted f.cells) (ha : KSorted f.attrs) (hg : GeometryFits g)
include hc ha hg

/-! ## The keys and the records before the cells place their bins -/

theorem mem_baseKeys : k ∈ baseKeys g disabled f ↔ ∃ c, kget (mapBase g disabled f).cells k = some c := by
  constructor
  · intro hk
    obtain ⟨⟨i, c⟩, hmem, rfl⟩ := List.mem_map.1 hk
    exact ⟨c, kget_of_mem _ _ _ (mapBase_lists hc ha hg).cells hmem⟩
  · rintro ⟨c, hk⟩
    exact mem_keys_of_kget hk

theorem baseKeys_coded : ∀ k ∈ baseKeys g disabled f, ∃ a, cellOfCode k = some a ∧ inGeometry g a = true := fun k hk => by
  obtain ⟨c, hkc⟩ := (mem_baseKeys hc ha hg).1 hk
  exact (mapBase_lists hc ha hg).within k c hkc

theorem baseKeys_sorted : (baseKeys g disabled f).Pairwise (· < ·) := (mapBase_lists hc ha hg).cells

/-- The cells that hold a bin are those stored so. -/
theorem mapBase_occupied : kget (mapBase g disabled f).cells k = some (.occupied b) ↔ ∃ x, InFlash g f x (.occupied b) ∧ cellCode x = k := by
  constructor
  · intro hk
    obtain ⟨a, hcode, hin⟩ := (mapBase_lists hc ha hg).within k _ hk
    obtain rfl := cellCode_of_cellOfCode hcode
    rw [mapBase_get hc hg hin] at hk
    refine ⟨a, ⟨hin, ?_⟩, rfl⟩
    split at hk
    next h => rw [h]; cases hk; rfl
    next => cases hk
    next => split at hk <;> cases hk
  · rintro ⟨a, ⟨hin, hstored⟩, rfl⟩
    rw [mapBase_get hc hg hin, hstored]

/-- The cells that name a bin without holding it are those stored so. -/
theorem mapBase_unverified {o : Option Nat} :
    kget (mapBase g disabled f).cells k = some (.unverified o) ↔ ∃ x, InFlash g f x (.unverified o) ∧ cellCode x = k := by
  constructor
  · intro hk
    obtain ⟨a, hcode, hin⟩ := (mapBase_lists hc ha hg).within k _ hk
    obtain rfl := cellCode_of_cellOfCode hcode
    rw [mapBase_get hc hg hin] at hk
    refine ⟨a, ⟨hin, ?_⟩, rfl⟩
    split at hk
    next => cases hk
    next h => rw [h]; cases hk; rfl
    next => split at hk <;> cases hk
  · rintro ⟨a, ⟨hin, hstored⟩, rfl⟩
    rw [mapBase_get hc hg hin, hstored]

/-! ## The first cell of a bin -/

/-- A cell stored with a bin has its key in the map. -/
theorem mem_baseKeys_of_occupied (h : InFlash g f x (.occupied b)) : cellCode x ∈ baseKeys g disabled f :=
  (mem_baseKeys hc ha hg).2 ⟨_, (mapBase_occupied hc ha hg).2 ⟨x, h, rfl⟩⟩

theorem holder_first (h : FirstInFlash g f x (.occupied b)) :
    holder (mapBase g disabled f).cells b (baseKeys g disabled f) = some x := by
  obtain ⟨hstored, hfirst⟩ := h
  refine found_least (baseKeys_sorted hc ha hg) (mem_baseKeys_of_occupied hc ha hg hstored)
    (decide_eq_true ((mapBase_occupied hc ha hg).2 ⟨x, hstored, rfl⟩)) (fun j hj hp => ?_) (cellOfCode_of_inGeometry hg hstored.1)
  obtain ⟨z, hz, rfl⟩ := (mapBase_occupied hc ha hg).1 (of_decide_eq_true hp)
  exact hfirst z hz

theorem holder_none {keys : List Nat} (h : ∀ x, InFlash g f x (.occupied b) → cellCode x ∉ keys) :
    holder (mapBase g disabled f).cells b keys = none := by
  refine found_none fun j hj => decide_eq_false fun hp => ?_
  obtain ⟨z, hz, rfl⟩ := (mapBase_occupied hc ha hg).1 hp
  exact h z hz hj

theorem holder_some {keys : List Nat} (hkeys : ∀ k ∈ keys, k ∈ baseKeys g disabled f) (h : InFlash g f x (.occupied b))
    (hx : cellCode x ∈ keys) : ∃ a, holder (mapBase g disabled f).cells b keys = some a := by
  refine found_some (fun j hj => ?_) hx (decide_eq_true ((mapBase_occupied hc ha hg).2 ⟨x, h, rfl⟩))
  obtain ⟨a, hcode, -⟩ := baseKeys_coded hc ha hg j (hkeys j hj)
  exact Option.isSome_iff_exists.2 ⟨a, hcode⟩

/-! ## The loaded cells -/

theorem coded_of_baseKeys : ∀ k ∈ baseKeys g disabled f, (cellOfCode k).isSome = true := fun k hk => by
  obtain ⟨a, hcode, -⟩ := baseKeys_coded hc ha hg k hk
  exact Option.isSome_iff_exists.2 ⟨a, hcode⟩

/-- A loaded cell is settled by what the cells before it have made of the bins. -/
theorem loadPlaces_base (k : Nat) : kget ((baseKeys g disabled f).foldl loadPlace (mapBase g disabled f)).cells k
    = settledCell (binsBefore g disabled f k) (kget (mapBase g disabled f).cells k) := by
  have hcode := coded_of_baseKeys (disabled := disabled) hc ha hg
  have hs := baseKeys_sorted (disabled := disabled) hc ha hg
  cases hk : kget (mapBase g disabled f).cells k with
  | none =>
    rw [loadPlaces_cells_other hcode fun h => ?_, hk]
    · rfl
    · obtain ⟨c, hkc⟩ := (mem_baseKeys hc ha hg).1 h
      cases hk.symm.trans hkc
  | some c =>
    obtain ⟨before, after, hkeys⟩ := List.append_of_mem ((mem_baseKeys (disabled := disabled) hc ha hg).2 ⟨c, hk⟩)
    have hbefore : (baseKeys g disabled f).filter (· < k) = before := by
      rw [hkeys] at hs ⊢
      obtain ⟨-, hafter, hlt⟩ := List.pairwise_append.1 hs
      have hafter := (List.pairwise_cons.1 hafter).1
      rw [List.filter_append, List.filter_eq_self.2 fun j hj => decide_eq_true (hlt j hj k List.mem_cons_self),
        List.filter_eq_nil_iff.2 fun j hj => ?_, List.append_nil]
      rcases List.mem_cons.1 hj with rfl | hj
      · simp
      · have := hafter j hj
        simp only [decide_eq_true_eq]
        omega
    have hnodup : (baseKeys g disabled f).Nodup := hs.imp fun h => Nat.ne_of_lt h
    rw [hkeys] at hcode hnodup
    have hcell := loadPlaces_cells (l := mapBase g disabled f) hnodup hcode
    rw [← hkeys, hk] at hcell
    rw [hcell, ← hbefore]
    rfl

theorem loadMap_get (k : Nat) : kget (loadMap g disabled f).cells k
    = settledCell (binsBefore g disabled f k) (kget (mapBase g disabled f).cells k) := by
  rw [loadMap_eq, (loadLasts_spec (coded_of_baseKeys hc ha hg)).1, loadPlaces_base hc ha hg]

/-! ## The loaded cells, by what is stored -/

theorem loadMap_occupied_first (hk : KnownBin f b) (h : FirstInFlash g f x (.occupied b)) :
    kget (loadMap g disabled f).cells (cellCode x) = some (.occupied b) := by
  obtain ⟨r, hr, hst⟩ := binsBefore_known (disabled := disabled) (k := cellCode x) hc hg hk
  rw [holder_none hc ha hg fun z hz hmem => ?_] at hst
  · rw [loadMap_get hc ha hg, (mapBase_occupied hc ha hg).2 ⟨x, h.1, rfl⟩]
    simp only [Option.isSome_none, Bool.false_eq_true, if_false] at hst
    simp [settledCell, hr, hst]
  · have hlt := of_decide_eq_true (List.mem_filter.1 hmem).2
    have hle := h.2 z hz
    omega

theorem loadMap_occupied_later (hk : KnownBin f b) (hx : InFlash g f x (.occupied b)) (h : ¬FirstInFlash g f x (.occupied b)) :
    kget (loadMap g disabled f).cells (cellCode x) = some (.unverified (some b)) := by
  obtain ⟨z, hz, hlt⟩ : ∃ z, InFlash g f z (.occupied b) ∧ cellCode z < cellCode x := by
    by_contra hno
    refine h ⟨hx, fun z hz => ?_⟩
    by_contra hle
    exact hno ⟨z, hz, by omega⟩
  obtain ⟨r, hr, hst⟩ := binsBefore_known (disabled := disabled) (k := cellCode x) hc hg hk
  obtain ⟨a, hholder⟩ := holder_some (disabled := disabled) hc ha hg (keys := (baseKeys g disabled f).filter (· < cellCode x))
    (fun k hk => List.mem_of_mem_filter hk) hz (List.mem_filter.2 ⟨mem_baseKeys_of_occupied hc ha hg hz, decide_eq_true hlt⟩)
  rw [hholder] at hst
  rw [loadMap_get hc ha hg, (mapBase_occupied hc ha hg).2 ⟨x, hx, rfl⟩]
  simp only [Option.isSome_some, if_true] at hst
  simp [settledCell, hr, hst]

theorem loadMap_unknown (hk : ¬KnownBin f b) (hx : InFlash g f x (.occupied b) ∨ InFlash g f x (.unverified (some b))) :
    kget (loadMap g disabled f).cells (cellCode x) = some (.unverified none) := by
  rw [loadMap_get hc ha hg]
  have hout := binsBefore_unknown (disabled := disabled) (k := cellCode x) hc hg hk
  rcases hx with hx | hx
  · rw [(mapBase_occupied hc ha hg).2 ⟨x, hx, rfl⟩]
    rcases hout with hn | ⟨r, hr, hst⟩
    · simp [settledCell, hn]
    · simp [settledCell, hr, hst]
  · rw [(mapBase_unverified hc ha hg).2 ⟨x, hx, rfl⟩]
    rcases hout with hn | ⟨r, hr, hst⟩
    · simp [settledCell, hn]
    · simp [settledCell, hr, hst]

theorem loadMap_unverified (hk : KnownBin f b) (hx : InFlash g f x (.unverified (some b))) :
    kget (loadMap g disabled f).cells (cellCode x) = some (.unverified (some b)) := by
  obtain ⟨r, hr, hst⟩ := binsBefore_known (disabled := disabled) (k := cellCode x) hc hg hk
  have hret : r.st ≠ .retired := by rw [hst]; split <;> simp
  rw [loadMap_get hc ha hg, (mapBase_unverified hc ha hg).2 ⟨x, hx, rfl⟩]
  simp [settledCell, hr, hret]

theorem loadMap_unverified_none (hx : InFlash g f x (.unverified none)) :
    kget (loadMap g disabled f).cells (cellCode x) = some (.unverified none) := by
  rw [loadMap_get hc ha hg, (mapBase_unverified hc ha hg).2 ⟨x, hx, rfl⟩]
  rfl

/-- A cell for which no bin is stored is Disabled or Empty, as the Cells section or its stored content has it. -/
theorem loadMap_unnamed (hx : inGeometry g x = true) (h : ¬((∃ b, InFlash g f x (.occupied b)) ∨ ∃ o, InFlash g f x (.unverified o))) :
    kget (loadMap g disabled f).cells (cellCode x)
      = if disabledBy disabled x (kget f.cells (cellCode x)) = true then some .disabled else none := by
  have hbase : kget (mapBase g disabled f).cells (cellCode x)
      = if disabledBy disabled x (kget f.cells (cellCode x)) = true then some .disabled else none := by
    rw [mapBase_get hc hg hx]
    split
    next b hb => exact (h (.inl ⟨b, hx, hb⟩)).elim
    next o ho => exact (h (.inr ⟨o, hx, ho⟩)).elim
    next => rfl
  rw [loadMap_get hc ha hg, hbase]
  split <;> rfl

/-! ## The loaded bins -/

/-- A loaded bin: the first cell that holds it has it, and else the first that names it is its last known cell. -/
theorem loadMap_bin (b : Nat) : kget (loadMap g disabled f).bins b
    = namedBy (takenBy ((kget f.attrs b).map fun t => (loadBin f (b, t)).2)
        (holder (mapBase g disabled f).cells b (baseKeys g disabled f)))
      (namer ((baseKeys g disabled f).foldl loadPlace (mapBase g disabled f)).cells b (baseKeys g disabled f)) := by
  have hcode := coded_of_baseKeys (disabled := disabled) hc ha hg
  have hnodup : (baseKeys g disabled f).Nodup := (baseKeys_sorted hc ha hg).imp fun h => Nat.ne_of_lt h
  rw [loadMap_eq, (loadLasts_spec hcode).2, loadPlaces_bins hnodup hcode, mapBase_bins hc hg, kget_loadBin]

/-- The cells that name a known bin that no cell is stored with are those stored so. -/
theorem loadPlaces_names (hk : KnownBin f b) (h : ∀ x, ¬InFlash g f x (.occupied b)) :
    kget ((baseKeys g disabled f).foldl loadPlace (mapBase g disabled f)).cells k = some (.unverified (some b))
      ↔ ∃ x, InFlash g f x (.unverified (some b)) ∧ cellCode x = k := by
  rw [loadPlaces_base hc ha hg, ← mapBase_unverified (disabled := disabled) hc ha hg]
  obtain ⟨r, hr, hst⟩ := binsBefore_known (disabled := disabled) (k := k) hc hg hk
  have hret : r.st ≠ .retired := by rw [hst]; split <;> simp
  constructor
  · intro hnamed
    cases hbase : kget (mapBase g disabled f).cells k with
    | none => rw [hbase] at hnamed; cases hnamed
    | some c =>
      rw [hbase] at hnamed
      unfold settledCell at hnamed
      split at hnamed
      next d hd =>
        split at hnamed
        next => cases hnamed
        next q hq =>
          split at hnamed
          next => cases hnamed
          next =>
            split at hnamed
            next =>
              cases hnamed
              obtain ⟨x, hx, -⟩ := (mapBase_occupied hc ha hg).1 (hbase.trans hd)
              exact (h x hx).elim
            next => cases hnamed
      next d hd =>
        split at hnamed
        next => cases hnamed
        next =>
          split at hnamed
          next => cases hnamed
          next => cases hnamed; exact hd
      next => exact hnamed
  · intro hbase
    rw [hbase]
    simp [settledCell, hr, hret]

theorem namer_first (hk : KnownBin f b) (h : ∀ x, ¬InFlash g f x (.occupied b)) (hx : FirstInFlash g f x (.unverified (some b))) :
    namer ((baseKeys g disabled f).foldl loadPlace (mapBase g disabled f)).cells b (baseKeys g disabled f) = some x := by
  obtain ⟨hstored, hfirst⟩ := hx
  refine found_least (baseKeys_sorted hc ha hg) ((mem_baseKeys hc ha hg).2 ⟨_, (mapBase_unverified hc ha hg).2 ⟨x, hstored, rfl⟩⟩)
    (decide_eq_true ((loadPlaces_names hc ha hg hk h).2 ⟨x, hstored, rfl⟩)) (fun j hj hp => ?_) (cellOfCode_of_inGeometry hg hstored.1)
  obtain ⟨z, hz, rfl⟩ := (loadPlaces_names hc ha hg hk h).1 (of_decide_eq_true hp)
  exact hfirst z hz

theorem namer_none (hk : KnownBin f b) (h : ∀ x, ¬InFlash g f x (.occupied b)) (hx : ∀ x, ¬InFlash g f x (.unverified (some b))) :
    namer ((baseKeys g disabled f).foldl loadPlace (mapBase g disabled f)).cells b (baseKeys g disabled f) = none := by
  refine found_none fun j hj => decide_eq_false fun hp => ?_
  obtain ⟨z, hz, rfl⟩ := (loadPlaces_names hc ha hg hk h).1 hp
  exact hx z hz

/-- What every loaded bin keeps of flash, and how its state and its cell go together. -/
theorem loadMap_bin_record {t : BinAttr} (ht : kget f.attrs b = some t) : ∃ r, kget (loadMap g disabled f).bins b = some r
    ∧ r = ⟨t.capacity, min t.capacity ((kget f.fills b).getD 0), r.st, r.cell,
        r.cell.bind fun x => if r.st = .stored then some x.aisle else none, none, t.damaged, false, none⟩
    ∧ (t.retired = true → r.st = .retired ∧ r.cell = none)
    ∧ (t.retired = false → (∀ x, FirstInFlash g f x (.occupied b) → r.st = .stored ∧ r.cell = some x)
        ∧ ((∀ x, ¬InFlash g f x (.occupied b)) → r.st = .unverified
            ∧ (∀ x, FirstInFlash g f x (.unverified (some b)) → r.cell = some x)
            ∧ ((∀ x, ¬InFlash g f x (.unverified (some b))) → r.cell = none))) := by
  have hheld : ∀ x, FirstInFlash g f x (.occupied b) → holder (mapBase g disabled f).cells b (baseKeys g disabled f) = some x :=
    fun x => holder_first hc ha hg
  have hfree : (∀ x, ¬InFlash g f x (.occupied b)) → holder (mapBase g disabled f).cells b (baseKeys g disabled f) = none :=
    fun h => holder_none hc ha hg fun x hx => absurd hx (h x)
  have hbin := loadMap_bin (disabled := disabled) hc ha hg b
  rw [ht, Option.map_some] at hbin
  cases hret : t.retired with
  | true =>
    refine ⟨(loadBin f (b, t)).2, ?_, by simp [loadBin], fun _ => by simp [loadBin, hret], fun h => (nomatch h)⟩
    rw [hbin]
    generalize holder _ _ _ = o
    generalize namer _ _ _ = q
    cases o <;> cases q <;> simp [takenBy, namedBy, loadBin, hret]
  | false =>
    have hnamed := fun h x => namer_first (x := x) (disabled := disabled) hc ha hg ⟨t, ht, hret⟩ h
    have hunnamed := namer_none (disabled := disabled) hc ha hg ⟨t, ht, hret⟩
    revert hbin hheld hfree hnamed hunnamed
    generalize holder _ _ _ = o
    generalize namer _ _ _ = q
    intro hheld hfree hbin hnamed hunnamed
    have hst : (loadBin f (b, t)).2.st = .unverified := by simp [loadBin, hret]
    have hcell : (loadBin f (b, t)).2.cell = none := rfl
    cases o with
    | some a =>
      have hrec : kget (loadMap g disabled f).bins b = some (placed (loadBin f (b, t)).2 .stored (some a) (some a.aisle) none) := by
        rw [hbin, takenBy, if_neg (by simp [hst])]
        cases q <;> simp [namedBy, placed]
      refine ⟨_, hrec, by simp [placed, loadBin], fun h => (nomatch h), fun _ => ⟨fun x hx => ?_, fun h => ?_⟩⟩
      · cases hheld x hx
        exact ⟨rfl, rfl⟩
      · cases hfree h
    | none =>
      have hrec : kget (loadMap g disabled f).bins b = some { (loadBin f (b, t)).2 with cell := q } := by
        rw [hbin, takenBy_none]
        cases q with
        | none => rfl
        | some a => rw [namedBy, if_pos ⟨hst, hcell⟩]
      refine ⟨_, hrec, ?_, fun h => (nomatch h), fun _ => ⟨fun x hx => (nomatch hheld x hx), fun h => ⟨hst, hnamed h, hunnamed h⟩⟩⟩
      cases q <;> simp [loadBin, hret]

end Map

end Sys2Proof.Machine
end

