-- ==== Sys2Proof/Proofs/Starts.lean ====
section
/-! PROOF. The records at a start, and the two kinds of start (R212, R213). -/

namespace Sys2Proof.Machine

open Sys2Proof

variable {bad : List Nat} {f : Flash} {fs : FlashSettings} {l : Loading} {s : State}

/-! ## The yard -/

/-- The verification of the aisles at a start touches what is verified and not what is doubted. -/
theorem verifyAisles_frame (t : List Aisle) (y : Yard) : ∃ v,
    t.foldl (fun y a => modVerif a (fun v => { v with verified := aisleVerified a y }) y) y = { y with verif := v }
      ∧ ∀ a : Aisle, v[a].doubt = y.verif[a].doubt := by
  induction t generalizing y with
  | nil => exact ⟨_, rfl, fun _ => rfl⟩
  | cons a t ih =>
    obtain ⟨v, hv, hdoubt⟩ := ih (modVerif a (fun v => { v with verified := aisleVerified a y }) y)
    refine ⟨v, hv, fun d => (hdoubt d).trans ?_⟩
    refine (congrArg Verif.doubt (vset_get ..)).trans ?_
    split
    next h => exact h ▸ rfl
    next => rfl

/-- The yard at a start under its settings: the loaded map, every list and place empty, the carriers Offline. -/
structure FreshYard (c : Settings) (clean : Bool) (l : Loading) (y : Yard) : Prop where
  map : y.cells = l.cells ∧ y.bins = l.bins ∧ y.journal = l.journal
  orders : y.orders = []
  delivery : y.lines.delivery = []
  returns : y.lines.returns = []
  post : y.post = .reset
  carriers : ∀ a : Aisle, y.carriers[a].st = .offline ∧ y.carriers[a].seg = none ∧ y.arbs[a] = .reset
    ∧ y.carriers[a].load = none ∧ y.lines.inbound[a] = none
  doubt : ∀ a : Aisle, y.verif[a].doubt = !clean
  est : ∀ a : Aisle, y.est[a] = ⟨c.assign[a], valueSet c c.assign[a], .steady, 0⟩
  desks : ∀ st : Station, y.trays[st] = .reset ∧ y.stations[st] = .start c.stations[st].role
  left : y.disc.left = some 100

theorem startYard_fresh (warm : Bool) (c : Settings) (dflts : List Nat) (clean : Bool) (l : Loading) (segNos : Vector Nat 6)
    (delNo retNo : Nat) : FreshYard c clean l (startYard warm c dflts clean l segNos delNo retNo) := by
  unfold startYard
  extract_lets car lin rec y
  obtain ⟨v, hv, hdoubt⟩ := verifyAisles_frame aisles y
  rw [hv]
  have hcarrier : ∀ a : Aisle, y.carriers[a] = { Carrier.reset with segNo := segNos[a] } := fun a => vmap_get ..
  have hinbound : ∀ a : Aisle, y.lines.inbound[a] = none := fun a => by
    show #v[none, none, none, none, none, none][a] = none
    fin_cases a <;> rfl
  exact {
    map := ⟨rfl, rfl, rfl⟩, orders := rfl, delivery := rfl, returns := rfl, post := rfl
    carriers := fun a => ⟨congrArg Carrier.st (hcarrier a), congrArg Carrier.seg (hcarrier a), Vector.getElem_replicate a.isLt,
      congrArg Carrier.load (hcarrier a), hinbound a⟩
    doubt := fun a => (hdoubt a).trans (congrArg Verif.doubt (Vector.getElem_replicate a.isLt))
    est := fun a => vmap_get ..
    desks := fun st => ⟨Vector.getElem_replicate st.isLt, vmap_get ..⟩
    left := rfl }

/-! ## The sweep and the wing -/

/-- The sweep at a start: range, slots and zones as loaded, and no pass counted. -/
structure FreshSweep (fs : FlashSettings) (w : Sweep) : Prop where
  start : w.start = (fs.sweep.map (·.1)).getD 0
  stop : w.stop = (fs.sweep.map (·.2.1)).getD 15
  passes : w.passes = 0
  slots : ∀ i : Slot, w.slots[i] = .start ((fs.sweep.map (·.2.2[i])).getD .dflt)
  zones : ∀ z : Zone, w.zones[z] = ⟨.normal, false⟩

theorem loadSweep_fresh (fs : FlashSettings) (left : Option Nat) : FreshSweep fs (loadSweep fs left) where
  start := rfl
  stop := rfl
  passes := rfl
  slots i := by
    refine (vmap_get _ _ i).trans ?_
    cases fs.sweep with
    | none => exact congrArg SlotRec.start (Vector.getElem_replicate i.isLt)
    | some w => rfl
  zones z := Vector.getElem_replicate z.isLt

/-- The first conversion changes nothing of a slot for which no threshold is pending. -/
theorem FreshSweep.startConv {w : Sweep} (h : FreshSweep fs w) : FreshSweep fs (startConv w) := by
  have hforce : ∀ i : Slot, forceSlot w.slots[i] = w.slots[i] := fun i => by rw [h.slots i]; rfl
  unfold Machine.startConv
  split
  · refine ⟨h.start, h.stop, h.passes, fun i => ?_, h.zones⟩
    refine (vset_get ..).trans ?_
    split
    next hi => exact (hforce w.start).trans (hi ▸ h.slots w.start)
    next => exact h.slots i
  · exact h

theorem startWing_safe (f : Flash) : WingSafe (startWing f) := by
  cases hf : f.sealed <;> constructor <;> simp [startWing, hf, sealedOff, Wing.reset]

/-! ## The state -/

/-- A state that a start has made of flash, but for the link and the front-end. -/
structure Started (bad : List Nat) (pending : List Instr) (f : Flash) (u : State) : Prop where
  flash : u.flash = f
  pending : u.pending = pending
  clock : u.clock = ⟨0, 0⟩
  wing : u.wing = startWing f
  cfg : u.cfg = loadSettings (goodSettings bad f.settings)
  sweep : FreshSweep (goodSettings bad f.settings) u.sweep
  yard : FreshYard (loadSettings (goodSettings bad f.settings)) f.clean
    (loadMap (loadSettings (goodSettings bad f.settings)).geometry (goodSettings bad f.settings).cells f) u.yard

theorem FreshYard.withBus {c : Settings} {clean : Bool} {y : Yard} (h : FreshYard c clean l y) (bus : List BusMsg) :
    FreshYard c clean l { y with bus := bus } := { h with }

theorem coldStart_started (k : Straps) : Started bad s.pending s.flash (coldStart k ⟨false, false, false⟩ bad s) where
  flash := rfl
  pending := rfl
  clock := rfl
  wing := rfl
  cfg := rfl
  sweep := loadSweep_fresh ..
  yard := (startYard_fresh ..).withBus _

theorem warmRestart_eq (h : s.link.restart = .due) (error : Option Nat) : ∃ bus,
    warmRestart error ⟨false, false, false⟩ bad s
      = { modSweep startConv (startState true (restartFlush (envOf s) error s.flash s.yard) bad (restartLink s.link) s.sweep.warmLeft
            (s.yard.carriers.map (·.segNo)) s.yard.lines.del.lastNo s.yard.lines.ret.lastNo s.pending) with
          yard := { (startState true (restartFlush (envOf s) error s.flash s.yard) bad (restartLink s.link) s.sweep.warmLeft
            (s.yard.carriers.map (·.segNo)) s.yard.lines.del.lastNo s.yard.lines.ret.lastNo s.pending).yard with bus := bus } } :=
  ⟨_, if_pos h⟩

theorem warmRestart_started (h : s.link.restart = .due) (error : Option Nat) :
    Started bad s.pending (restartFlush (envOf s) error s.flash s.yard) (warmRestart error ⟨false, false, false⟩ bad s) := by
  obtain ⟨bus, hu⟩ := warmRestart_eq (bad := bad) h error
  rw [hu]
  exact ⟨rfl, rfl, rfl, rfl, rfl, (loadSweep_fresh ..).startConv, (startYard_fresh ..).withBus _⟩

/-! ## The settings and the flush -/

/-- A section is loaded unless its check sum fails. -/
theorem filter_good {α : Type} (o : Option α) (n : Nat) : (o.filter fun _ => !bad.contains n) = if n ∈ bad then none else o := by
  cases o <;> by_cases h : n ∈ bad <;> simp [h]

end Sys2Proof.Machine
end

