-- ==== Sys2Proof/Proofs/StartsLoad.lean ====
section
/-! PROOF. Starts load every record from flash (R23, R212, R213). -/

namespace Sys2Proof.Machine

open Sys2Proof

variable {e : Env} {f : Flash} {y : Yard} {x : CellAddr} {b : Nat} {disabled : Option (List CellAddr)}

/-- A bin that flash does not know has no record. -/
theorem loadMap_bin_none (hc : KSorted f.cells) (ha : KSorted f.attrs) {g : Geometry} (hg : GeometryFits g) (h : kget f.attrs b = none) :
    kget (loadMap g disabled f).bins b = none := by
  rw [loadMap_bin hc ha hg, h]
  rfl

/-- The bins' places ask nothing of the journal. -/
theorem loadMap_journal (g : Geometry) (disabled : Option (List CellAddr)) (f : Flash) :
    (loadMap g disabled f).journal = (mapBase g disabled f).journal := by
  have hplace : ∀ (l : Loading) k, (loadPlace l k).journal = l.journal := fun l k => by
    unfold loadPlace
    split
    · split
      · split
        · rfl
        · split <;> rfl
      · rfl
    · split
      · split <;> rfl
      · rfl
    · rfl
  have hlast : ∀ (l : Loading) k, (loadLast l k).journal = l.journal := fun l k => by
    unfold loadLast
    split
    · split
      · split <;> rfl
      · rfl
    · rfl
  have hfold : ∀ {φ : Loading → Nat → Loading} (keys : List Nat) (l : Loading), (∀ l k, (φ l k).journal = l.journal) →
      (keys.foldl φ l).journal = l.journal := fun keys l h => by
    induction keys generalizing l with
    | nil => rfl
    | cons k t ih => exact (ih _).trans (h l k)
  rw [loadMap_eq, hfold _ _ hlast, hfold _ _ hplace]

/-- A cell is to be Disabled: the Cells section lists it and no bin is stored for it, or flash holds it so. -/
def LoadedDisabled (disabled : Option (List CellAddr)) (named : Prop) (f : Flash) (x : CellAddr) : Prop :=
  match disabled with
  | some l => x ∈ l ∧ ¬named
  | none => kget f.cells (cellCode x) = some .disabled

/-- A loaded cell's record, by what flash holds for it. -/
theorem loadedCell_spec (hc : KSorted f.cells) (ha : KSorted f.attrs) {g : Geometry} (hg : GeometryFits g) (he : e.cfg.geometry = g)
    (hy : y.cells = (loadMap g disabled f).cells) (hx : inGeometry g x = true) :
    let named := (∃ b, InFlash g f x (.occupied b)) ∨ ∃ b, InFlash g f x (.unverified b)
    (getCell e x y = .disabled ↔ LoadedDisabled disabled named f x)
    ∧ (¬named → getCell e x y = .disabled ∨ getCell e x y = .empty)
    ∧ (∀ b, InFlash g f x (.occupied b) → KnownBin f b → FirstInFlash g f x (.occupied b) → getCell e x y = .occupied b)
    ∧ (∀ b, InFlash g f x (.occupied b) → KnownBin f b → ¬FirstInFlash g f x (.occupied b) → getCell e x y = .unverified (some b))
    ∧ (∀ b, (InFlash g f x (.occupied b) ∨ InFlash g f x (.unverified (some b))) → ¬KnownBin f b → getCell e x y = .unverified none)
    ∧ (∀ b, InFlash g f x (.unverified (some b)) → KnownBin f b → getCell e x y = .unverified (some b))
    ∧ (InFlash g f x (.unverified none) → getCell e x y = .unverified none) := by
  intro named
  have hcell : ∀ {c}, kget (loadMap g disabled f).cells (cellCode x) = some c → getCell e x y = c := fun h => by
    rw [getCell, he, if_pos hx, hy, h]
    rfl
  have hocc_first := fun b (hk : KnownBin f b) h => hcell (loadMap_occupied_first (x := x) hc ha hg hk h)
  have hocc_later := fun b (hk : KnownBin f b) h hn => hcell (loadMap_occupied_later (x := x) hc ha hg hk h hn)
  have hunknown := fun b (hk : ¬KnownBin f b) h => hcell (loadMap_unknown (x := x) hc ha hg hk h)
  have hunv := fun b (hk : KnownBin f b) h => hcell (loadMap_unverified (x := x) hc ha hg hk h)
  have hunv_none := fun h => hcell (loadMap_unverified_none (x := x) hc ha hg h)
  have hunnamed : ¬named → getCell e x y = if disabledBy disabled x (kget f.cells (cellCode x)) = true then .disabled else .empty := fun h => by
    have hget := loadMap_unnamed (disabled := disabled) hc ha hg hx h
    rw [getCell, he, if_pos hx, hy, hget]
    split <;> rfl
  have hnamed : named → getCell e x y ≠ .disabled := by
    rintro (⟨b, hb⟩ | ⟨o, ho⟩)
    · by_cases hk : KnownBin f b
      · by_cases hfirst : FirstInFlash g f x (.occupied b)
        · simp [hocc_first b hk hfirst]
        · simp [hocc_later b hk hb hfirst]
      · simp [hunknown b hk (.inl hb)]
    · cases o with
      | none => simp [hunv_none ho]
      | some b =>
        by_cases hk : KnownBin f b
        · simp [hunv b hk ho]
        · simp [hunknown b hk (.inr ho)]
  refine ⟨?_, fun h => ?_, fun b _ hk h => hocc_first b hk h, fun b h hk hn => hocc_later b hk h hn, fun b h hk => hunknown b hk h,
    fun b h hk => hunv b hk h, hunv_none⟩
  · by_cases h : named
    · refine iff_of_false (hnamed h) ?_
      cases disabled with
      | some l => exact fun hl => hl.2 h
      | none =>
        intro hd
        rcases h with ⟨b, -, hb⟩ | ⟨o, -, ho⟩
        · cases hd.symm.trans hb
        · cases hd.symm.trans ho
    · rw [hunnamed h]
      have hby : (if disabledBy disabled x (kget f.cells (cellCode x)) = true then Cell.disabled else .empty) = .disabled
          ↔ disabledBy disabled x (kget f.cells (cellCode x)) = true := by split <;> simp [*]
      rw [hby]
      cases disabled with
      | some l => exact ⟨fun hl => ⟨by simpa [disabledBy] using hl, h⟩, fun hl => by simpa [disabledBy] using hl.1⟩
      | none => exact decide_eq_true_iff
  · rw [hunnamed h]
    split
    · exact .inl rfl
    · exact .inr rfl

theorem startConv_warmLeft (w : Sweep) : (startConv w).warmLeft = w.warmLeft := by
  unfold startConv
  split <;> rfl

theorem startConv_run {w : Sweep} (h : w.run = .starting) :
    (startConv w).run = if w.warmLeft = none then .running else .starting := by
  unfold startConv
  by_cases hw : w.warmLeft = none
  · rw [if_pos ⟨h, hw⟩, if_pos hw]
    rfl
  · rw [if_neg fun hn => hw hn.2, if_neg hw, h]

/-- The flush before a warm restart makes its writes in order, up to the one that ends with an error (R24, R213). -/
theorem restartFlush_eq (e : Env) (error : Option Nat) (f : Flash) (y : Yard) : restartFlush e error f y
    = ((error.map fun n => (restartWrites e f.clean y).take n).getD (restartWrites e f.clean y)).foldl putWriting f := by
  cases error <;> rfl

/-- A flush without an error ends with the clean marker true. -/
theorem restartFlush_clean (e : Env) (f : Flash) (y : Yard) : (restartFlush e none f y).clean = true := by
  rw [restartFlush_eq]
  simp only [Option.map_none, Option.getD_none, restartWrites, List.foldl_append]
  rfl

/-- Settles O40: what a start makes of flash, and what each of the two kinds of start adds to it. -/
theorem startsLoadFromFlash : Obligations.StartsLoadFromFlash := by
  intro k error bad s quiet loaded
  have hloaded : ∀ f u, Started bad s.pending f u → loaded f u := by
    intro f u hu
    unfold loaded
    extract_lets fs geometry disabled profiles assign stations dispatch trays sessions sweep g fire cell stored first known
    have hgood : goodSettings bad fs = ⟨geometry, disabled, profiles, if 4 ∈ bad then none else fs.assign, if 5 ∈ bad then none else fs.stations,
        dispatch, trays, sessions, sweep, if 10 ∈ bad then none else fs.fire⟩ := by
      simp only [goodSettings, filter_good]
      rfl
    obtain ⟨hflash, hpending, hclock, hwing, hcfg, hsweep, hyard⟩ := hu
    rw [hgood] at hcfg hsweep hyard
    have hgeometry : u.cfg.geometry = g := by rw [hcfg]; rfl
    obtain ⟨hcells, hbins, hjournal⟩ := hyard.map
    refine ⟨hflash, hpending, hclock, hwing ▸ startWing_safe f, hwing ▸ rfl, hwing ▸ rfl, hwing ▸ rfl, ?_, hcfg, hsweep.start, hsweep.stop,
      hsweep.passes, hsweep.slots, hsweep.zones, hyard.orders, hyard.delivery, hyard.returns, hyard.post, fun a => ?_, hyard.desks,
      hyard.left, fun hnone => ?_, fun hc ha hg => ⟨fun x hx => ?_, fun b hb => ?_, fun b t ht => ?_⟩⟩
    · rw [hwing]
      cases hs : f.sealed <;> simp [startWing, restoredIncident, hs]
    · obtain ⟨hst, hseg, harb, hload, hin⟩ := hyard.carriers a
      exact ⟨hst, hseg, harb, hload, hin, hyard.doubt a, hcfg ▸ hyard.est a⟩
    · rw [hjournal, loadMap_journal, show (_ : FlashSettings).cells = none from hnone]
      rfl
    · exact loadedCell_spec (e := envOf u) hc ha hg hgeometry hcells hx
    · exact (congrArg (kget · b) hbins).trans (loadMap_bin_none hc ha hg hb)
    · obtain ⟨r, hr, hrest⟩ := loadMap_bin_record (disabled := disabled) hc ha hg ht
      exact ⟨r, (congrArg (kget · b) hbins).trans hr, hrest⟩
  refine ⟨⟨coldStart k quiet bad s, rfl, hloaded _ _ (coldStart_started k), rfl, rfl, rfl⟩, fun hdue => ?_, fun hdue => if_neg hdue⟩
  have hstarted := warmRestart_started (bad := bad) hdue error
  obtain ⟨bus, hu⟩ := warmRestart_eq (bad := bad) hdue error
  refine ⟨warmRestart error quiet bad s, if_pos hdue, hloaded _ _ (hstarted.flash.symm ▸ hstarted), ?_, fun herror => ?_, ?_, ?_, ?_⟩
  · intro j keep ctl clean entries writes
    have hpre : (if clean && !entries.isEmpty then [Writing.ctl (.clean false)] else [])
        = if clean = true ∧ entries ≠ [] then [Writing.ctl (.clean false)] else [] := if_congr (by simp) rfl rfl
    have hwrites : restartWrites (envOf s) s.flash.clean s.yard = writes :=
      congrArg (fun pre => ctl.map Writing.ctl ++ pre ++ entries.map (fun x => Writing.entry x false) ++ [Writing.ctl (.clean true)]) hpre
    rw [hstarted.flash, restartFlush_eq, hwrites]
    refine congrArg (fun φ => List.foldl φ s.flash _) (funext fun f => funext fun w => ?_)
    cases w <;> rfl
  · rw [hstarted.flash, herror]
    exact restartFlush_clean ..
  · rw [hu]
    rfl
  · rw [hu]
    exact startConv_warmLeft _
  · rw [hu]
    exact startConv_run rfl

end Sys2Proof.Machine
end
